-- ==== Sys2Proof/Word.lean ====
section
/-! DEFINITION. The word types of the NanoCore CORE (spec/00_scope.md R9, R11, R12): one abbreviation per width
the spec gives a value. Nothing here decides any behaviour. -/

namespace Sys2Proof

/-- A general register, an address or a counter: 64 bits (00_scope.md R9, XLEN). -/
abbrev Word := BitVec 64

/-- A byte of memory: 8 bits (20_memory.md R61). -/
abbrev Byte := BitVec 8

/-- A vector register, or a value moved by the Memory stage: 256 bits (00_scope.md R9, VLEN; 50_pipeline.md R321). -/
abbrev VWord := BitVec 256

/-- An instruction word: 32 bits (30_encoding.md R160). -/
abbrev IWord := BitVec 32

/-- The number of a general register, R0 to R31 (10_state.md R21). -/
abbrev Reg := BitVec 5

/-- The number of a vector register, V0 to V15 (10_state.md R26). -/
abbrev VReg := BitVec 4

end Sys2Proof
end

