-- ==== Sys2Proof/Config.lean ====
section
/-! DEFINITION. What an implementation fixes (spec/00_scope.md R10, the OPEN parameters) and the environment
functions whose answers the spec leaves to the outside world (93_implementation_defined.md U22, U23). -/

namespace Sys2Proof

/-- The parameters 00_scope.md R10 leaves to the implementation. They are fixed when the machine is created and no
step changes them; a model takes them as an argument, so the state carries them (log entry 2). -/
structure Params where
  /-- `MEM_SIZE`, bytes of physical memory: the argument of `create` (51_host_interface.md R371). -/
  memSize : Nat
  /-- `MMIO_BASE`, first physical address of the device window (20_memory.md R63). -/
  mmioBase : Nat
  /-- `MMIO_LIMIT`, first physical address behind the device window (20_memory.md R63). -/
  mmioLimit : Nat
  /-- `TLB_ENTRIES` (21_translation.md R100). -/
  tlbEntries : Nat
  /-- `L1I_SETS` (22_caches.md R121). -/
  l1iSets : Nat
  /-- `L1D_SETS` (22_caches.md R121). -/
  l1dSets : Nat
  /-- `L2_SETS` (22_caches.md R121). -/
  l2Sets : Nat
  /-- `BP_ENTRIES` (50_pipeline.md R350). -/
  bpEntries : Nat
  /-- `BTB_ENTRIES` (50_pipeline.md R350). -/
  btbEntries : Nat
  /-- `MAX_NEST`, depth of the trap save stack (60_exceptions.md R413). -/
  maxNest : Nat
  /-- `EVENT_DEPTH`, depth of the host event queue (51_host_interface.md R388). -/
  eventDepth : Nat
  /-- `STRICT_RESERVED`: non-zero unused instruction fields are illegal (30_encoding.md R168). -/
  strictReserved : Bool
deriving DecidableEq, Repr

/-- The defaults of 00_scope.md R10. `MEM_SIZE` has no default there; 0x100000 is the value of every vector of
95_test_vectors.md (DESIGN CHOICE, log entry 2). -/
def Params.default : Params where
  memSize := 0x100000
  mmioBase := 0x800000000000
  mmioLimit := 0x1000000000000
  tlbEntries := 64
  l1iSets := 128
  l1dSets := 64
  l2Sets := 256
  bpEntries := 1024
  btbEntries := 256
  maxNest := 16
  eventDepth := 64
  strictReserved := false

/-- `n` is a power of two, as 00_scope.md R10 asks of the cache and predictor sizes. -/
def isPow2 (n : Nat) : Bool := n == 2 ^ n.log2

/-- The conditions 00_scope.md R10 and 20_memory.md R61 put on the parameters. That the window begins and ends at a page
boundary and lies inside the 52-bit physical space is no condition of R10, R61 or R63: DESIGN CHOICE (log entry 19). -/
def Params.valid (p : Params) : Bool :=
  (0 < p.memSize) && (p.memSize % 4096 == 0) && (p.memSize < p.mmioBase) &&
  (p.mmioBase < p.mmioLimit) && (p.mmioLimit ≤ 2 ^ 52) && (p.mmioBase % 4096 == 0) && (p.mmioLimit % 4096 == 0) &&
  (0 < p.tlbEntries) && isPow2 p.l1iSets && isPow2 p.l1dSets && isPow2 p.l2Sets &&
  isPow2 p.bpEntries && isPow2 p.btbEntries

/-- Associativity of the L1 instruction cache (22_caches.md R121; decided, 00_scope.md R10). -/
def Config.l1iWays : Nat := 4

/-- Associativity of the L1 data cache (22_caches.md R121). -/
def Config.l1dWays : Nat := 8

/-- Associativity of the L2 cache (22_caches.md R121). -/
def Config.l2Ways : Nat := 16

/-- What a registered device answers to a read (20_memory.md R76, 93_implementation_defined.md U22: any value): the
value and the set of vectors the handler triggers meanwhile, bit `v` for vector `v`. Arguments: the handler's
number, the number of environment calls made before this one, the offset in the range and the access size in
bytes. No body: a claim that reaches it holds for every device (log entry 6). -/
opaque Config.mmioRead (handler call offset n : Nat) : VWord × BitVec 256

/-- The set of vectors a registered device triggers during a write (20_memory.md R76). Arguments as for
`Config.mmioRead`, then the value written. No body (log entry 6). -/
opaque Config.mmioWrite (handler call offset n : Nat) (val : VWord) : BitVec 256

/-- Whether the environment says to take a pending interrupt now (70_reset_and_hazards.md R466 (5), R467). Argument: the
number of times it has been asked before. No body: a claim that reaches it holds for every sequence of answers (log
entry 10). -/
opaque Config.takesInterrupt (asked : Nat) : Bool

/-- `EnvSyscall` (43_system.md R272, 93_implementation_defined.md U23: any value within the stated shape): the
result and the list of physical-memory writes. Arguments: the number of environment calls made before this one,
the call number, the three arguments and the coherent view of memory. No body (log entry 7). -/
opaque Config.envSyscall (call : Nat) (n : Nat) (a b c : Word) (view : Nat → Byte) :
    Word × List (Nat × List Byte)

end Sys2Proof
end

