-- ==== Sys2Proof/Syntax.lean ====
section
/-! DEFINITION. The 60 instructions of spec/opcode_table.json as syntax: one constructor per row, with every field the
row's format gives it (30_encoding.md R161 to R164), the fields an instruction ignores (R168) included, so that a
decoded instruction still determines its word (the information word of 60_exceptions.md R400, vector 13). A vector
register number is 4 bits: a larger field is an illegal word (R173). -/

namespace Sys2Proof

/-- A decoded instruction (30_encoding.md R170, R171, R175). -/
inductive Instr where
  /-- ADD, rule R201. -/
  | add (rd rs1 rs2 : Reg) (shamt : BitVec 5) (funct : BitVec 6)
  /-- SUB, rule R202. -/
  | sub (rd rs1 rs2 : Reg) (shamt : BitVec 5) (funct : BitVec 6)
  /-- MUL, rule R203. -/
  | mul (rd rs1 rs2 : Reg) (shamt : BitVec 5) (funct : BitVec 6)
  /-- MULH, rule R204. -/
  | mulh (rd rs1 rs2 : Reg) (shamt : BitVec 5) (funct : BitVec 6)
  /-- DIV, rule R205. -/
  | div (rd rs1 rs2 : Reg) (shamt : BitVec 5) (funct : BitVec 6)
  /-- MOD, rule R206. -/
  | mod (rd rs1 rs2 : Reg) (shamt : BitVec 5) (funct : BitVec 6)
  /-- AND, rule R207. -/
  | and (rd rs1 rs2 : Reg) (shamt : BitVec 5) (funct : BitVec 6)
  /-- OR, rule R208. -/
  | or (rd rs1 rs2 : Reg) (shamt : BitVec 5) (funct : BitVec 6)
  /-- XOR, rule R209. -/
  | xor (rd rs1 rs2 : Reg) (shamt : BitVec 5) (funct : BitVec 6)
  /-- NOT, rule R210. -/
  | not (rd rs1 rs2 : Reg) (shamt : BitVec 5) (funct : BitVec 6)
  /-- SHL, rule R212. -/
  | shl (rd rs1 rs2 : Reg) (shamt : BitVec 5) (funct : BitVec 6)
  /-- SHR, rule R213. -/
  | shr (rd rs1 rs2 : Reg) (shamt : BitVec 5) (funct : BitVec 6)
  /-- SAR, rule R214. -/
  | sar (rd rs1 rs2 : Reg) (shamt : BitVec 5) (funct : BitVec 6)
  /-- ROL, rule R215. -/
  | rol (rd rs1 rs2 : Reg) (shamt : BitVec 5) (funct : BitVec 6)
  /-- ROR, rule R216. -/
  | ror (rd rs1 rs2 : Reg) (shamt : BitVec 5) (funct : BitVec 6)
  /-- LD, rule R219. -/
  | ld (rd rs1 : Reg) (imm : BitVec 16)
  /-- LW, rule R234. -/
  | lw (rd rs1 : Reg) (imm : BitVec 16)
  /-- LH, rule R233. -/
  | lh (rd rs1 : Reg) (imm : BitVec 16)
  /-- LB, rule R232. -/
  | lb (rd rs1 : Reg) (imm : BitVec 16)
  /-- ST, rule R237. -/
  | st (rd rs1 : Reg) (imm : BitVec 16)
  /-- SW, rule R238. -/
  | sw (rd rs1 : Reg) (imm : BitVec 16)
  /-- SH, rule R239. -/
  | sh (rd rs1 : Reg) (imm : BitVec 16)
  /-- SB, rule R240. -/
  | sb (rd rs1 : Reg) (imm : BitVec 16)
  /-- BEQ, rule R252. -/
  | beq (rd rs1 : Reg) (imm : BitVec 16)
  /-- BNE, rule R253. -/
  | bne (rd rs1 : Reg) (imm : BitVec 16)
  /-- BLT, rule R254. -/
  | blt (rd rs1 : Reg) (imm : BitVec 16)
  /-- BGE, rule R255. -/
  | bge (rd rs1 : Reg) (imm : BitVec 16)
  /-- BLTU, rule R256. -/
  | bltu (rd rs1 : Reg) (imm : BitVec 16)
  /-- BGEU, rule R257. -/
  | bgeu (rd rs1 : Reg) (imm : BitVec 16)
  /-- JMP, rule R250. -/
  | jmp (imm : BitVec 26)
  /-- CALL, rule R258. -/
  | call (imm : BitVec 26)
  /-- RET, rule R259. -/
  | ret (imm : BitVec 26)
  /-- SYSCALL, rule R271. -/
  | syscall (imm : BitVec 26)
  /-- HALT, rule R274. -/
  | halt (imm : BitVec 26)
  /-- NOP, rule R275. -/
  | nop (imm : BitVec 26)
  /-- CMP, rule R217. -/
  | cmp (rd rs1 rs2 : Reg) (shamt : BitVec 5) (funct : BitVec 6)
  /-- TEST, rule R218. -/
  | test (rd rs1 rs2 : Reg) (shamt : BitVec 5) (funct : BitVec 6)
  /-- LDD, rule R235. -/
  | ldd (rd rs1 : Reg) (imm : BitVec 16)
  /-- IRET, rule R276. -/
  | iret (imm : BitVec 26)
  /-- VADD, rule R290. -/
  | vadd (vd vs1 vs2 : VReg)
  /-- VSUB, rule R291. -/
  | vsub (vd vs1 vs2 : VReg)
  /-- VMUL, rule R292. -/
  | vmul (vd vs1 vs2 : VReg)
  /-- VMULH, rule R293. -/
  | vmulh (vd vs1 vs2 : VReg)
  /-- VDIV, rule R294. -/
  | vdiv (vd vs1 vs2 : VReg)
  /-- VMOD, rule R295. -/
  | vmod (vd vs1 vs2 : VReg)
  /-- VAND, rule R296. -/
  | vand (vd vs1 vs2 : VReg)
  /-- VOR, rule R297. -/
  | vor (vd vs1 vs2 : VReg)
  /-- VXOR, rule R298. -/
  | vxor (vd vs1 vs2 : VReg)
  /-- VNOT, rule R299. -/
  | vnot (vd vs1 vs2 : VReg)
  /-- VSHL, rule R300. -/
  | vshl (vd vs1 vs2 : VReg)
  /-- VSHR, rule R301. -/
  | vshr (vd vs1 vs2 : VReg)
  /-- VSAR, rule R302. -/
  | vsar (vd vs1 vs2 : VReg)
  /-- VROL, rule R303. -/
  | vrol (vd vs1 vs2 : VReg)
  /-- VROR, rule R304. -/
  | vror (vd vs1 vs2 : VReg)
  /-- VADD.F64, rule R305. -/
  | vaddf64 (vd vs1 vs2 : VReg)
  /-- VSUB.F64, rule R306. -/
  | vsubf64 (vd vs1 vs2 : VReg)
  /-- VMUL.F64, rule R307. -/
  | vmulf64 (vd vs1 vs2 : VReg)
  /-- VFMA.F64, rule R308. -/
  | vfmaf64 (vd vs1 vs2 : VReg)
  /-- VLOAD, rule R310. -/
  | vload (vd : VReg) (rs1 : Reg) (imm : BitVec 16)
  /-- VSTORE, rule R311. -/
  | vstore (vd : VReg) (rs1 : Reg) (imm : BitVec 16)
deriving DecidableEq, Repr

end Sys2Proof
end

