-- ==== Sys2Proof/Machine/State.lean ====
section
/-! DEFINITION. The state of one NanoCore CORE (spec/10_state.md R20 to R45) as plain data, grouped by the six
components of 00_scope.md R2, the machine right after creation and reset, and the reasons a step can stop. -/

namespace Sys2Proof.Machine

/-! ## Sparse arrays -/

/-- A large array of which only the entries that differ from its initial content are listed: (index, value) pairs in
rising order of index. What an unlisted index reads as is fixed by the operation that reads it (Machine/Store.lean). -/
abbrev Store (α : Type) := List (Nat × α)

/-! ## InterruptController -/

/-- One slot of the vector table, `IVT[v]` (60_exceptions.md R402). -/
inductive Slot where
  /-- The handler the core itself provides. -/
  | default
  /-- Code of the running program at a virtual address. -/
  | guest (addr : Word)
deriving DecidableEq, Repr

/-- One frame of the trap save stack (10_state.md R33, 60_exceptions.md R412): 5 × 64 bits. -/
structure Frame where
  retPc : Word
  flags : Word
  vector : Word
  info0 : Word
  info1 : Word
deriving DecidableEq, Repr

/-- The InterruptController's registers (10_state.md R33). -/
structure InterruptCtl where
  /-- `IVT[0..255]`; an unlisted slot is `Default`. -/
  ivt : Store Slot
  /-- `IVT_STAT[0..255]`; an unlisted statistic is 0. -/
  ivtStat : Store Word
  /-- `PENDING[0..255]`, bit `v` for vector `v`. -/
  pending : BitVec 256
  /-- `NEST`, the number of frames on the trap save stack. -/
  nest : Nat
  /-- `TRAPSTK[0..MAX_NEST−1]`; an unlisted frame is all 0. A popped frame keeps its words (60_exceptions.md R414). -/
  trapStk : Store Frame
deriving DecidableEq, Repr

/-! ## MemoryManager -/

/-- One TLB entry (21_translation.md R100). -/
structure TlbEntry where
  valid : Bool
  vpn : Nat
  pfn : Nat
  w : Bool
  u : Bool
  d : Bool
deriving DecidableEq, Repr

/-- The page-table store and the TLB (10_state.md R36, R37). -/
structure Mmu where
  /-- `PT`, indexed by 512 · table + index; an unlisted entry is that of the identity map (21_translation.md R93). -/
  pt : Store Word
  /-- `TLB[0..TLB_ENTRIES−1]`; an unlisted entry is invalid. -/
  tlb : Store TlbEntry
deriving DecidableEq, Repr

/-- One registered device range, an element of `MMIO_TABLE` (20_memory.md R75). `handler` is the number under which
the environment knows the pair of handler functions. -/
structure MmioRange where
  base : Nat
  size : Nat
  handler : Nat
deriving DecidableEq, Repr

/-! ## CacheHierarchy -/

/-- One way of a cache set (22_caches.md R122): tag, 64-byte payload, valid, dirty, LRU counter. -/
structure Way where
  valid : Bool
  dirty : Bool
  tag : Nat
  lru : Nat
  data : List Byte
deriving DecidableEq, Repr

/-- The stride prefetcher's registers (10_state.md R39). -/
structure Prefetcher where
  valid : Bool
  last : Word
  stride : Word
  conf : Nat
deriving DecidableEq, Repr

/-- Physical memory and the caches over it (10_state.md R35, R38, R39). -/
structure Hierarchy where
  /-- `PM`, by physical address; an unlisted byte is 0, its value after creation (10_state.md R35). -/
  pm : List Host.Cell
  /-- `L1I` by set number; an unlisted set has every way invalid and zero (10_state.md R38). -/
  l1i : Store (List Way)
  /-- `L1D` by set number. -/
  l1d : Store (List Way)
  /-- `L2` by set number. -/
  l2 : Store (List Way)
  /-- `pf_valid`, `pf_last`, `pf_stride`, `pf_conf`. -/
  pf : Prefetcher
deriving DecidableEq, Repr

/-! ## Pipeline -/

/-- An exception with its vector and information words (60_exceptions.md R400). -/
structure Exc where
  vector : Nat
  info0 : Word
  info1 : Word
deriving DecidableEq, Repr

/-- The `exc` field of a latch (50_pipeline.md R321): nothing, a recorded exception, or the breakpoint mark. -/
inductive LatchExc where
  | none
  | fault (e : Exc)
  | breakpointStop
deriving DecidableEq, Repr

/-- The destination register of an instruction in flight (50_pipeline.md R321, R323): none, `G i` or `V i`. -/
inductive Dest where
  | none
  | g (i : Reg)
  | v (i : VReg)
deriving DecidableEq, Repr

/-- The four arithmetic flags an instruction in flight will commit (50_pipeline.md R321). -/
structure Nzcv where
  z : Bool
  c : Bool
  v : Bool
  n : Bool
deriving DecidableEq, Repr

/-- The latch IF/ID (50_pipeline.md R321). -/
structure IfId where
  pc : Word
  word : IWord
  exc : LatchExc
  predNext : Word
deriving DecidableEq, Repr

/-- The latch ID/EX (50_pipeline.md R321). `instr` is `none` for the pseudo-instruction `Faulted`. The raw word is
the instruction's encoding, which keeps every field of it. -/
structure IdEx where
  pc : Word
  instr : Option Instr
  exc : LatchExc
  predNext : Word
deriving DecidableEq, Repr

/-- The latch EX/MEM (50_pipeline.md R321). What its fields hold where an instruction has no use for them is said in log
entry 22. -/
structure ExMem where
  pc : Word
  instr : Option Instr
  exc : LatchExc
  dest : Dest
  result : VWord
  flags : Option Nzcv
  ea : Word
  sdata : VWord
deriving DecidableEq, Repr

/-- The latch MEM/WB (50_pipeline.md R321). -/
structure MemWb where
  pc : Word
  instr : Option Instr
  exc : LatchExc
  dest : Dest
  result : VWord
  flags : Option Nzcv
deriving DecidableEq, Repr

/-- The four latches (10_state.md R41). `none` is an invalid latch, all of whose fields are 0 (50_pipeline.md R321);
the stall and flush bits are always 0 between ticks (R322). -/
structure Latches where
  ifId : Option IfId
  idEx : Option IdEx
  exMem : Option ExMem
  memWb : Option MemWb
deriving DecidableEq, Repr

/-- One entry of the branch target buffer (50_pipeline.md R350). -/
structure BtbEntry where
  valid : Bool
  tag : Word
  target : Word
deriving DecidableEq, Repr

/-- The branch predictor (10_state.md R42). -/
structure Predictor where
  /-- `BP[0..BP_ENTRIES−1]`, 2-bit counters; an unlisted counter is 0. -/
  bp : Store (BitVec 2)
  /-- `BTB[0..BTB_ENTRIES−1]`; an unlisted entry is invalid. -/
  btb : Store BtbEntry
deriving DecidableEq, Repr

/-- The eight performance counters `PERF[0..7]` in their order (10_state.md R34, 50_pipeline.md R360). -/
structure Perf where
  retired : Word
  cycles : Word
  l1Misses : Word
  l2Misses : Word
  mispredicts : Word
  stalls : Word
  memOps : Word
  simdOps : Word
deriving DecidableEq, Repr

/-! ## VMCore -/

/-- What `step()` returns (51_host_interface.md R374). -/
inductive Status where
  | ok
  | halted
  | breakpoint
  | illegalInstruction
  | error
deriving DecidableEq, Repr

/-- The kind of a host event (51_host_interface.md R387). -/
inductive EventKind where
  | halted
  | breakpoint
  | exception
  | deviceInterrupt
deriving DecidableEq, Repr

/-- A host event (51_host_interface.md R387). -/
structure Event where
  kind : EventKind
  vector : Nat
  pc : Word
  info0 : Word
  info1 : Word
deriving DecidableEq, Repr

/-- The complete state of one machine (10_state.md R20). -/
structure State where
  /-- The parameters fixed at creation (00_scope.md R10). No step changes them. The model's own field: R20 counts
  them as no state (log entry 2). -/
  params : Params
  /-- `x[0..31]` (10_state.md R21). -/
  x : Vector Word 32
  /-- `v[0..15]` (10_state.md R26). -/
  v : Vector VWord 16
  /-- `FLAGS` (10_state.md R30): Z 0, C 1, V 2, N 3, IE 4, UM 5. -/
  flags : Word
  /-- `PC` (10_state.md R27). -/
  pc : Word
  /-- `SP` (10_state.md R29). -/
  sp : Word
  /-- `PM`, `L1I`, `L1D`, `L2` and the prefetcher. -/
  hier : Hierarchy
  /-- `PT` and the `TLB`. -/
  mmu : Mmu
  /-- `MMIO_TABLE` (10_state.md R40), in order of registration. -/
  mmioTable : List MmioRange
  /-- The InterruptController's registers. -/
  ic : InterruptCtl
  /-- `HALTED` (10_state.md R33). -/
  halted : Bool
  /-- `EXIT_CODE` (10_state.md R33). -/
  exitCode : Word
  /-- `LAST_STATUS` (10_state.md R33). -/
  lastStatus : Status
  /-- The four pipeline latches. -/
  latches : Latches
  /-- The branch predictor. -/
  predictor : Predictor
  /-- The performance counters. -/
  perf : Perf
  /-- `BKPT`, the breakpoint addresses, rising, none twice (10_state.md R43). -/
  bkpt : List Word
  /-- `RESUME` (10_state.md R43). -/
  resume : Bool
  /-- `EVENTQ`, oldest first (10_state.md R43). -/
  eventQ : List Event
  /-- How many environment functions (device handlers, `EnvSyscall`) have been called. The model's own field: it
  makes each answer of the environment free (log entries 6 and 7). -/
  envCalls : Nat
  /-- How many times the environment has been asked whether to take a pending interrupt. The model's own field: it makes
  each of its answers free (log entry 10). Only the architectural step asks. -/
  intAsked : Nat
deriving DecidableEq, Repr

/-! ## Creation and reset -/

/-- The state after `create`, for given parameters (10_state.md R45, column "after create"). -/
def State.created (p : Params) : State where
  params := p
  x := Vector.replicate 32 0
  v := Vector.replicate 16 0
  flags := 0
  pc := 0
  sp := 0
  hier := { pm := [], l1i := [], l1d := [], l2 := [], pf := { valid := false, last := 0, stride := 0, conf := 0 } }
  mmu := { pt := [], tlb := [] }
  mmioTable := []
  ic := { ivt := [], ivtStat := [], pending := 0, nest := 0, trapStk := [] }
  halted := false
  exitCode := 0
  lastStatus := .ok
  latches := { ifId := none, idEx := none, exMem := none, memWb := none }
  predictor := { bp := [], btb := [] }
  perf := { retired := 0, cycles := 0, l1Misses := 0, l2Misses := 0, mispredicts := 0, stalls := 0, memOps := 0,
            simdOps := 0 }
  bkpt := []
  resume := false
  eventQ := []
  envCalls := 0
  intAsked := 0

/-- The machine right after creation and reset with the default parameters (10_state.md R45, 70_reset_and_hazards.md
R451, R453). The `reset` port on a running machine is `State.resetPort` (Machine/Ports.lean). -/
def State.reset : State := State.created Params.default

/-! ## Reasons to stop -/

/-- Reasons a step stops with a fault. There are none: the spec leaves no behaviour of the core undefined
(93_implementation_defined.md), every exception is taken as 60_exceptions.md R410 describes (a next state), and an
address that does not exist raises PageFault (20_memory.md R71 to R73). Nothing raises one; safe. -/
inductive Fault where
deriving DecidableEq, Repr

/-- Reasons a step is refused. -/
inductive Refusal where
  /-- Raised by an arm of `exec` whose instruction has no meaning in the model; safe. No arm raises it. -/
  | notModelled (mnemonic : String)
deriving DecidableEq, Repr

end Sys2Proof.Machine
end

