-- ==== Sys2Proof/Machine/Flags.lean ====
section
/-! DEFINITION. The flags word (spec/10_state.md R30 to R32) and every flag computation of 40_alu.md R220, R201,
R202. `FLAGS` is the whole 64-bit word; bits 63 to 6 read as 0. -/

namespace Sys2Proof.Machine

/-- `FLAGS.Z`, bit 0. -/
def flagZ (f : Word) : Bool := f.getLsbD 0

/-- `FLAGS.C`, bit 1. -/
def flagC (f : Word) : Bool := f.getLsbD 1

/-- `FLAGS.V`, bit 2. -/
def flagV (f : Word) : Bool := f.getLsbD 2

/-- `FLAGS.N`, bit 3. -/
def flagN (f : Word) : Bool := f.getLsbD 3

/-- `FLAGS.IE`, bit 4: asynchronous interrupts are delivered. -/
def flagIE (f : Word) : Bool := f.getLsbD 4

/-- `FLAGS.UM`, bit 5: user mode. -/
def flagUM (f : Word) : Bool := f.getLsbD 5

/-- The four arithmetic flags in their places, the rest 0. -/
def nzcvWord (a : Nzcv) : Word :=
  (if a.z then 1 else 0) ||| (if a.c then 2 else 0) ||| (if a.v then 4 else 0) ||| (if a.n then 8 else 0)

/-- The flags word with the four arithmetic flags replaced; IE and UM keep their values (40_alu.md R220,
10_state.md R31, R32), the reserved bits are 0 (10_state.md R30). -/
def withNzcv (f : Word) (a : Nzcv) : Word := (f &&& 0x30#64) ||| nzcvWord a

/-- The flags of a result `r` with carry `c` and overflow `v`: `SetFlags(r, c, v)` of 40_alu.md R220. -/
def nzcvOf (r : Word) (c v : Bool) : Nzcv := { z := r == 0, c := c, v := v, n := r.msb }

/-- The flags word at entry to a guest handler: IE and UM cleared, Z, C, V, N kept (60_exceptions.md R412). -/
def flagsOnEntry (f : Word) : Word := f &&& 0xF#64

/-- The six flag bits of a word; the reserved bits are dropped (10_state.md R30, 51_host_interface.md R380). -/
def flagBits (f : Word) : Word := f &&& 0x3F#64

end Sys2Proof.Machine
end

