-- ==== Sys2Proof/Machine/Alu.lean ====
section
/-! DEFINITION. The scalar ALU (spec/40_alu.md): each operation as a pure function of two 64-bit operands giving the
result, the carry and the overflow. Vector lanes apply the same result functions (44_simd.md R285). -/

namespace Sys2Proof.Machine

/-- What an ALU operation computes: the result, and the C and V it sets (40_alu.md R220). -/
structure AluOut where
  r : Word
  c : Bool
  v : Bool
deriving DecidableEq, Repr

/-- The flags an ALU result sets (40_alu.md R220). -/
def AluOut.nzcv (o : AluOut) : Nzcv := nzcvOf o.r o.c o.v

/-- An operation that clears C and V (40_alu.md R220: every one but ADD, SUB and CMP). -/
def plain (r : Word) : AluOut := { r := r, c := false, v := false }

/-- The most negative number, `MIN` of 40_alu.md R221. -/
def minInt : Word := 0x8000000000000000#64

/-- ADD (40_alu.md R201). -/
def aluAdd (a b : Word) : AluOut :=
  let r := BitVec.ofNat 64 (a.toNat + b.toNat)
  { r := r, c := decide (2 ^ 64 ≤ a.toNat + b.toNat), v := (a.msb == b.msb) && (r.msb != a.msb) }

/-- SUB (40_alu.md R202): C is the borrow. -/
def aluSub (a b : Word) : AluOut :=
  let r := a - b
  { r := r, c := decide (a.toNat < b.toNat), v := (a.msb != b.msb) && (r.msb != a.msb) }

/-- MUL (40_alu.md R203): the low 64 bits of the product. -/
def aluMul (a b : Word) : AluOut := plain (BitVec.ofNat 64 (a.toNat * b.toNat))

/-- MULH (40_alu.md R204): bits 127 to 64 of the exact signed product. -/
def aluMulh (a b : Word) : AluOut := plain (BitVec.ofInt 64 ((a.toInt * b.toInt).fdiv (2 ^ 64)))

/-- DIV (40_alu.md R205): signed, truncating toward zero; by zero all-ones; `MIN / −1 = MIN`. -/
def aluDiv (a b : Word) : AluOut :=
  plain (if b = 0 then BitVec.allOnes 64
    else if a = minInt ∧ b = BitVec.allOnes 64 then minInt
    else BitVec.ofInt 64 (a.toInt.tdiv b.toInt))

/-- MOD (40_alu.md R206): the remainder with the sign of the dividend; by zero the dividend; `MIN mod −1 = 0`. -/
def aluMod (a b : Word) : AluOut :=
  plain (if b = 0 then a
    else if a = minInt ∧ b = BitVec.allOnes 64 then 0
    else BitVec.ofInt 64 (a.toInt - b.toInt * a.toInt.tdiv b.toInt))

/-- AND (40_alu.md R207). -/
def aluAnd (a b : Word) : AluOut := plain (a &&& b)

/-- OR (40_alu.md R208). -/
def aluOr (a b : Word) : AluOut := plain (a ||| b)

/-- XOR (40_alu.md R209). -/
def aluXor (a b : Word) : AluOut := plain (a ^^^ b)

/-- NOT (40_alu.md R210); the second operand is not used. -/
def aluNot (a : Word) : AluOut := plain (~~~a)

/-- The shift or rotate amount, `u(b) mod 64` (40_alu.md R211). -/
def shiftAmount (b : Word) : Nat := b.toNat % 64

/-- SHL (40_alu.md R212). -/
def aluShl (a b : Word) : AluOut := plain (a <<< shiftAmount b)

/-- SHR (40_alu.md R213), logical. -/
def aluShr (a b : Word) : AluOut := plain (a >>> shiftAmount b)

/-- SAR (40_alu.md R214), arithmetic. -/
def aluSar (a b : Word) : AluOut := plain (a.sshiftRight (shiftAmount b))

/-- ROL (40_alu.md R215). -/
def aluRol (a b : Word) : AluOut :=
  let n := shiftAmount b
  plain (if n = 0 then a else (a <<< n) ||| (a >>> (64 - n)))

/-- ROR (40_alu.md R216). -/
def aluRor (a b : Word) : AluOut :=
  let n := shiftAmount b
  plain (if n = 0 then a else (a >>> n) ||| (a <<< (64 - n)))

/-- CMP (40_alu.md R217): the flags of SUB. -/
def aluCmp (a b : Word) : Nzcv := (aluSub a b).nzcv

/-- TEST (40_alu.md R218): the flags of AND. -/
def aluTest (a b : Word) : Nzcv := (aluAnd a b).nzcv

/-! ## Conditions of the branches (42_control.md R252 to R257) -/

/-- BEQ (42_control.md R252). -/
def condEq (a b : Word) : Bool := a == b

/-- BNE (42_control.md R253). -/
def condNe (a b : Word) : Bool := a != b

/-- BLT (42_control.md R254), signed. -/
def condLt (a b : Word) : Bool := decide (a.toInt < b.toInt)

/-- BGE (42_control.md R255), signed. -/
def condGe (a b : Word) : Bool := decide (b.toInt ≤ a.toInt)

/-- BLTU (42_control.md R256), unsigned. -/
def condLtu (a b : Word) : Bool := decide (a.toNat < b.toNat)

/-- BGEU (42_control.md R257), unsigned. -/
def condGeu (a b : Word) : Bool := decide (b.toNat ≤ a.toNat)

end Sys2Proof.Machine
end

