-- ==== Sys2Proof/Machine/Float64.lean ====
section
/-! DEFINITION. The double-precision lane operations (spec/44_simd.md R305 to R308, R312). Every finite double is an
integer multiple of 2^−1074, so the exact sum, product and fused result are integer multiples of 2^−2148; each
operation computes that integer and rounds it once, to nearest with ties to even. -/

namespace Sys2Proof.Machine

/-- What a binary64 pattern stands for (44_simd.md R312). A finite value has magnitude `mag · 2^−1074`. -/
inductive F64 where
  | nan
  | inf (neg : Bool)
  | fin (neg : Bool) (mag : Nat)
deriving DecidableEq, Repr

/-- The biased exponent, bits 62 to 52 (44_simd.md R312). -/
def f64Exp (w : Word) : Nat := w.toNat / 2 ^ 52 % 2 ^ 11

/-- The fraction, bits 51 to 0 (44_simd.md R312). -/
def f64Frac (w : Word) : Nat := w.toNat % 2 ^ 52

/-- Reading a pattern: signalling and quiet NaNs are alike, subnormals keep their value (44_simd.md R312 b, d). -/
def f64Decode (w : Word) : F64 :=
  if f64Exp w = 2047 then (if f64Frac w = 0 then .inf w.msb else .nan)
  else if f64Exp w = 0 then .fin w.msb (f64Frac w)
  else .fin w.msb ((2 ^ 52 + f64Frac w) * 2 ^ (f64Exp w - 1))

/-- The canonical quiet NaN (44_simd.md R312 d). -/
def f64Nan : Word := 0x7FF8000000000000#64

/-- A sign bit over the 63 bits of a magnitude pattern. -/
def f64Signed (neg : Bool) (bits : Nat) : Word := BitVec.ofNat 64 ((if neg then 2 ^ 63 else 0) + bits)

/-- Infinity of a sign. -/
def f64Inf (neg : Bool) : Word := f64Signed neg 0x7FF0000000000000

/-- `n / 2^u` rounded to the nearest integer, ties to the even one (44_simd.md R312 a). -/
def roundShift (n u : Nat) : Nat :=
  let q := n / 2 ^ u
  let rem := 2 * (n % 2 ^ u)
  if rem < 2 ^ u then q else if 2 ^ u < rem then q + 1 else q + q % 2

/-- The position of the last kept bit of the magnitude `n · 2^−2148`: 53 significant bits, but never below 2^−1074. -/
def f64Ulp (n : Nat) : Nat := max (n.log2 - 52) 1074

/-- The magnitude pattern nearest to `n · 2^−2148`; infinity's where the rounded value is too large. A carry out of
the fraction runs into the exponent field, as it must. -/
def f64RoundMag (n : Nat) : Nat :=
  min ((f64Ulp n - 1074) * 2 ^ 52 + roundShift n (f64Ulp n)) 0x7FF0000000000000

/-- The double nearest to the exact value `e · 2^−2148`; `zeroNeg` is the sign where that value is 0
(44_simd.md R312 a, c). -/
def f64Round (e : Int) (zeroNeg : Bool) : Word :=
  if e = 0 then f64Signed zeroNeg 0 else f64Signed (decide (e < 0)) (f64RoundMag e.natAbs)

/-- A magnitude with its sign. -/
def signedMag (neg : Bool) (m : Nat) : Int := if neg then -(m : Int) else m

/-- `round(a + b)` (44_simd.md R305, R312). An exact zero sum is −0 only where both operands are negative. -/
def f64Add (a b : Word) : Word :=
  match f64Decode a, f64Decode b with
  | .nan, _ => f64Nan
  | _, .nan => f64Nan
  | .inf s, .inf t => if s = t then f64Inf s else f64Nan
  | .inf s, .fin _ _ => f64Inf s
  | .fin _ _, .inf t => f64Inf t
  | .fin s m, .fin t n => f64Round ((signedMag s m + signedMag t n) * 2 ^ 1074) (s && t)

/-- The pattern with the sign inverted. -/
def f64Neg (a : Word) : Word := a ^^^ 0x8000000000000000#64

/-- `round(a − b)` (44_simd.md R306): VADD.F64 with the sign of `b` inverted; a NaN stays a NaN. -/
def f64Sub (a b : Word) : Word := f64Add a (f64Neg b)

/-- `round(a × b + c)` with one rounding (44_simd.md R308, R312). `0 × ∞` is invalid whatever `c` is. -/
def f64Fma (a b c : Word) : Word :=
  match f64Decode a, f64Decode b, f64Decode c with
  | .nan, _, _ => f64Nan
  | _, .nan, _ => f64Nan
  | .inf s, .inf t, .fin _ _ => f64Inf (s ^^ t)
  | .inf s, .inf t, .inf w => if (s ^^ t) = w then f64Inf w else f64Nan
  | .inf _, .inf _, .nan => f64Nan
  | .inf s, .fin t n, z => if n = 0 then f64Nan else infPlus (s ^^ t) z
  | .fin s m, .inf t, z => if m = 0 then f64Nan else infPlus (s ^^ t) z
  | .fin _ _, .fin _ _, .nan => f64Nan
  | .fin _ _, .fin _ _, .inf w => f64Inf w
  | .fin s m, .fin t n, .fin w k =>
      f64Round (signedMag (s ^^ t) (m * n) + signedMag w k * 2 ^ 1074) ((s ^^ t) && w)
where
  /-- An infinite product and an addend (44_simd.md R312 c, d). -/
  infPlus (neg : Bool) : F64 → Word
    | .nan => f64Nan
    | .inf w => if neg = w then f64Inf w else f64Nan
    | .fin _ _ => f64Inf neg

/-- `round(a × b)` (44_simd.md R307, R312); the sign of a zero or infinite result is the exclusive or. -/
def f64Mul (a b : Word) : Word :=
  match f64Decode a, f64Decode b with
  | .nan, _ => f64Nan
  | _, .nan => f64Nan
  | .inf s, .inf t => f64Inf (s ^^ t)
  | .inf s, .fin t n => if n = 0 then f64Nan else f64Inf (s ^^ t)
  | .fin s m, .inf t => if m = 0 then f64Nan else f64Inf (s ^^ t)
  | .fin s m, .fin t n => f64Round (signedMag (s ^^ t) (m * n)) (s ^^ t)

end Sys2Proof.Machine
end

