-- ==== Sys2Proof/Machine/Store.lean ====
section
/-! DEFINITION. Reading and writing the sparse arrays of the state (physical memory among them). A store lists only
the entries that differ from the array's initial content, in rising order, so that equal arrays are equal data. -/

namespace Sys2Proof.Machine

/-- Entry `k`: the listed value, or the initial content. -/
def Store.get {α : Type} (init : Nat → α) : Store α → Nat → α
  | [], k => init k
  | (j, v) :: m, k => if k = j then v else Store.get init m k

/-- Without any entry of index `k`. -/
def Store.erase {α : Type} : Store α → Nat → Store α
  | [], _ => []
  | (j, v) :: m, k => if k = j then Store.erase m k else (j, v) :: Store.erase m k

/-- With an entry `(k, v)` put in before the first larger index. -/
def Store.insert {α : Type} : Store α → Nat → α → Store α
  | [], k, v => [(k, v)]
  | (j, w) :: m, k, v => if k < j then (k, v) :: (j, w) :: m else (j, w) :: Store.insert m k v

/-- Entry `k` becomes `v`; a value equal to the initial content is not listed. -/
def Store.set {α : Type} [DecidableEq α] (init : Nat → α) (m : Store α) (k : Nat) (v : α) : Store α :=
  if v = init k then Store.erase m k else Store.insert (Store.erase m k) k v

/-- Every listed index is above `k`. -/
def Store.above {α : Type} (k : Nat) (m : Store α) : Bool := m.all fun e => decide (k < e.1)

/-- The canonical form: indices strictly rising, no entry equal to the initial content. -/
def Store.wf {α : Type} [DecidableEq α] (init : Nat → α) : Store α → Bool
  | [] => true
  | (j, v) :: m => Store.above j m && decide (v ≠ init j) && Store.wf init m

/-! ## Physical memory (10_state.md R35) -/

/-- The byte at a physical address; 0 where nothing has been written, as after creation (10_state.md R35, R45). -/
def Memory.read (pm : List Host.Cell) (a : Nat) : Byte := Store.get (fun _ => 0) pm a

/-- The byte at a physical address becomes `b`. -/
def Memory.write (pm : List Host.Cell) (a : Nat) (b : Byte) : List Host.Cell := Store.set (fun _ => 0) pm a b

/-- The canonical form of physical memory: addresses strictly rising, no listed byte 0. -/
def Memory.wf (pm : List Host.Cell) : Bool := Store.wf (fun _ => 0) pm

/-- The bytes from address `a` on become `bs` (20_memory.md R74, `PhysWrite`). -/
def Memory.writeBytes (pm : List Host.Cell) (a : Nat) : List Byte → List Host.Cell
  | [] => pm
  | b :: bs => Memory.writeBytes (Memory.write pm a b) (a + 1) bs

/-- The 64 bytes of line number `ln`, addresses `64 · ln` to `64 · ln + 63` (20_memory.md R74, `PhysRead`). -/
def Memory.readLine (pm : List Host.Cell) (ln : Nat) : List Byte :=
  (List.range 64).map fun j => Memory.read pm (64 * ln + j)

/-! ## Byte order (20_memory.md R65) -/

/-- The value whose byte `j` is `f j`, for `j < n`; the other bytes are 0. Byte 0, at the lowest address, is the
least significant (20_memory.md R65, `BYTE_ORDER`). -/
def ofBytes (f : Nat → Byte) : Nat → VWord
  | 0 => 0
  | n + 1 => ofBytes f n ||| ((f n).setWidth 256 <<< (8 * n))

/-- Byte `j` of a value, byte 0 at the lowest address (20_memory.md R65). -/
def byteOf (val : VWord) (j : Nat) : Byte := (val >>> (8 * j)).setWidth 8

end Sys2Proof.Machine
end

