-- ==== Sys2Proof/Machine/Cache.lean ====
section
/-! DEFINITION. The cache hierarchy and the stride prefetcher (spec/22_caches.md). A line is named by its line number,
the physical address divided by 64; the set is the line number modulo the number of sets and the tag the quotient
(R121), so that the line number of a way is `tag · sets + set`. -/

namespace Sys2Proof.Machine

/-- The shape of one cache: its ways and its sets (22_caches.md R121). -/
structure Geom where
  ways : Nat
  sets : Nat
deriving DecidableEq, Repr

/-- L1I: 4 ways (22_caches.md R121). -/
def l1iGeom (p : Params) : Geom := { ways := Config.l1iWays, sets := p.l1iSets }

/-- L1D: 8 ways. -/
def l1dGeom (p : Params) : Geom := { ways := Config.l1dWays, sets := p.l1dSets }

/-- L2: 16 ways. -/
def l2Geom (p : Params) : Geom := { ways := Config.l2Ways, sets := p.l2Sets }

/-- An invalid way: clean, counter 0, zero payload (10_state.md R38). -/
def emptyWay : Way := { valid := false, dirty := false, tag := 0, lru := 0, data := List.replicate 64 0 }

/-- A set with every way invalid. -/
def emptySet (g : Geom) : List Way := List.replicate g.ways emptyWay

/-- The ways of set `k`. -/
def setGet (g : Geom) (c : Store (List Way)) (k : Nat) : List Way := Store.get (fun _ => emptySet g) c k

/-- The ways of set `k` become `ws`. -/
def setPut (g : Geom) (c : Store (List Way)) (k : Nat) (ws : List Way) : Store (List Way) :=
  Store.set (fun _ => emptySet g) c k ws

/-- The set of a line number (22_caches.md R121). -/
def setOf (g : Geom) (ln : Nat) : Nat := ln % g.sets

/-- The tag of a line number (22_caches.md R121). -/
def tagOf (g : Geom) (ln : Nat) : Nat := ln / g.sets

/-- The line number rebuilt from a tag and a set (22_caches.md R127). -/
def lineOf (g : Geom) (tag set : Nat) : Nat := g.sets * tag + set

/-! ## One set: lookup, touch, victim, insert (22_caches.md R123 to R126) -/

/-- A way holds a tag: valid with an equal tag (22_caches.md R123). -/
def wayHolds (tag : Nat) (w : Way) : Bool := w.valid && w.tag == tag

/-- The way that holds the tag, if one does (22_caches.md R123). -/
def findWay (tag : Nat) (ws : List Way) : Option Nat := ws.findIdx? (wayHolds tag)

/-- A valid way grows one touch older; an invalid one keeps counter 0 (22_caches.md R124). -/
def ageWay (w : Way) : Way := if w.valid then { w with lru := w.lru + 1 } else w

/-- `touch(set, i)`: way `i` becomes the most recent and every other valid way ages (22_caches.md R124). -/
def touch (i : Nat) (ws : List Way) : List Way := (ws.map ageWay).modify i fun w => { w with lru := 0 }

/-- The largest LRU counter of a list of ways. -/
def maxLru (ws : List Way) : Nat := ws.foldr (fun w m => max w.lru m) 0

/-- `victim(set)`: the lowest-numbered invalid way, else the (lowest-numbered) way with the largest counter
(22_caches.md R125). -/
def victim (ws : List Way) : Nat :=
  match ws.findIdx? (fun w => !w.valid) with
  | some i => i
  | none => (ws.findIdx? (fun w => w.lru == maxLru ws)).getD 0

/-- The new line put into way `i`, which becomes the most recent (22_caches.md R126). -/
def install (i tag : Nat) (data : List Byte) (dirty : Bool) (ws : List Way) : List Way :=
  (ws.map ageWay).set i { valid := true, dirty := dirty, tag := tag, lru := 0, data := data }

/-- The payload of way `i` replaced and its dirty bit set (22_caches.md R127, R131). -/
def overwrite (i : Nat) (data : List Byte) (ws : List Way) : List Way :=
  ws.modify i fun w => { w with data := data, dirty := true }

/-- The way with number `i`; an invalid one where there is none. -/
def wayAt (ws : List Way) (i : Nat) : Way := ws.getD i emptyWay

/-- The payload of the way that holds the tag. -/
def findData (tag : Nat) (ws : List Way) : Option (List Byte) := (ws.find? (wayHolds tag)).map (·.data)

/-! ## Payloads -/

/-- Byte `j` of a payload. -/
def lineByte (d : List Byte) (j : Nat) : Byte := d.getD j 0

/-- The payload with the `n` bytes from `off` on replaced by a value's, little-endian (22_caches.md R131). -/
def patchLine (d : List Byte) (off n : Nat) (val : VWord) : List Byte :=
  (List.range 64).map fun j => if off ≤ j ∧ j < off + n then byteOf val (j - off) else lineByte d j

/-- The value of the `n` bytes from `off` on, little-endian (22_caches.md R130). -/
def lineValue (d : List Byte) (off n : Nat) : VWord := ofBytes (fun j => lineByte d (off + j)) n

/-! ## L2 (22_caches.md R126 to R128) -/

/-- `insert` into L2 (22_caches.md R126, R127): a dirty victim goes to physical memory first. -/
def l2Insert (p : Params) (h : Hierarchy) (ln : Nat) (d : List Byte) (dirty : Bool) : Hierarchy :=
  let g := l2Geom p
  let ws := setGet g h.l2 (setOf g ln)
  let w := wayAt ws (victim ws)
  let pm := if w.valid && w.dirty then Memory.writeBytes h.pm (64 * lineOf g w.tag (setOf g ln)) w.data else h.pm
  { h with pm := pm, l2 := setPut g h.l2 (setOf g ln) (install (victim ws) (tagOf g ln) d dirty ws) }

/-- `L2Put(la, d)`: a victim of L1D goes to L2, dirty (22_caches.md R127). -/
def l2Put (p : Params) (h : Hierarchy) (ln : Nat) (d : List Byte) : Hierarchy :=
  let g := l2Geom p
  let ws := setGet g h.l2 (setOf g ln)
  match findWay (tagOf g ln) ws with
  | some i => { h with l2 := setPut g h.l2 (setOf g ln) (overwrite i d (touch i ws)) }
  | none => l2Insert p h ln d true

/-- A line fetched for an L1 miss: the payload, the hierarchy after it, and whether L2 missed. -/
structure Filled where
  data : List Byte
  hier : Hierarchy
  l2Miss : Bool
deriving DecidableEq, Repr

/-- `FillLine(la)` (22_caches.md R128). -/
def fillLine (p : Params) (h : Hierarchy) (ln : Nat) : Filled :=
  let g := l2Geom p
  let ws := setGet g h.l2 (setOf g ln)
  match findWay (tagOf g ln) ws with
  | some i =>
    { data := (wayAt ws i).data, hier := { h with l2 := setPut g h.l2 (setOf g ln) (touch i ws) }, l2Miss := false }
  | none =>
    let d := Memory.readLine h.pm ln
    { data := d, hier := l2Insert p h ln d false, l2Miss := true }

/-! ## L1 (22_caches.md R126, R130 to R132) -/

/-- `insert` into L1I (22_caches.md R126); its lines are never dirty (R122), so nothing is written back. -/
def l1iInsert (p : Params) (h : Hierarchy) (ln : Nat) (d : List Byte) : Hierarchy :=
  let g := l1iGeom p
  let ws := setGet g h.l1i (setOf g ln)
  { h with l1i := setPut g h.l1i (setOf g ln) (install (victim ws) (tagOf g ln) d false ws) }

/-- `insert` into L1D (22_caches.md R126, R127): a dirty victim is put into L2 first. -/
def l1dInsert (p : Params) (h : Hierarchy) (ln : Nat) (d : List Byte) : Hierarchy :=
  let g := l1dGeom p
  let ws := setGet g h.l1d (setOf g ln)
  let w := wayAt ws (victim ws)
  let h1 := if w.valid && w.dirty then l2Put p h (lineOf g w.tag (setOf g ln)) w.data else h
  { h1 with l1d := setPut g h1.l1d (setOf g ln) (install (victim ws) (tagOf g ln) d false ws) }

/-- What an access to an L1 cache leaves: the payload of its line, the hierarchy, and the misses to count. -/
structure Accessed where
  data : List Byte
  hier : Hierarchy
  l1Miss : Bool
  l2Miss : Bool
deriving DecidableEq, Repr

/-- The line of an instruction fetch made present in L1I (22_caches.md R130, R132). -/
def l1iAccess (p : Params) (h : Hierarchy) (ln : Nat) : Accessed :=
  let g := l1iGeom p
  let ws := setGet g h.l1i (setOf g ln)
  match findWay (tagOf g ln) ws with
  | some i =>
    { data := (wayAt ws i).data, hier := { h with l1i := setPut g h.l1i (setOf g ln) (touch i ws) },
      l1Miss := false, l2Miss := false }
  | none =>
    let f := fillLine p h ln
    { data := f.data, hier := l1iInsert p f.hier ln f.data, l1Miss := true, l2Miss := f.l2Miss }

/-- The line of a load or store made present in L1D (22_caches.md R130, R131, R132). -/
def l1dAccess (p : Params) (h : Hierarchy) (ln : Nat) : Accessed :=
  let g := l1dGeom p
  let ws := setGet g h.l1d (setOf g ln)
  match findWay (tagOf g ln) ws with
  | some i =>
    { data := (wayAt ws i).data, hier := { h with l1d := setPut g h.l1d (setOf g ln) (touch i ws) },
      l1Miss := false, l2Miss := false }
  | none =>
    let f := fillLine p h ln
    { data := f.data, hier := l1dInsert p f.hier ln f.data, l1Miss := true, l2Miss := f.l2Miss }

/-- The payload of the way of L1D that holds the line becomes `d`, dirty (22_caches.md R131). -/
def l1dStore (p : Params) (h : Hierarchy) (ln : Nat) (d : List Byte) : Hierarchy :=
  let g := l1dGeom p
  let ws := setGet g h.l1d (setOf g ln)
  match findWay (tagOf g ln) ws with
  | some i => { h with l1d := setPut g h.l1d (setOf g ln) (overwrite i d ws) }
  | none => h

/-- `CacheWrite(L1D, pa, n, val)` (22_caches.md R131). -/
def l1dWrite (p : Params) (h : Hierarchy) (pa n : Nat) (val : VWord) : Accessed :=
  let a := l1dAccess p h (pa / 64)
  let d := patchLine a.data (pa % 64) n val
  { a with data := d, hier := l1dStore p a.hier (pa / 64) d }

/-! ## The stride prefetcher (22_caches.md R145, R146) -/

/-- `Prefetch(t)` (22_caches.md R146): the line goes to L2 unless it is there or beyond RAM. -/
def prefetchLine (p : Params) (h : Hierarchy) (t : Word) : Hierarchy :=
  if p.memSize ≤ t.toNat then h
  else
    let g := l2Geom p
    let ln := t.toNat / 64
    match findWay (tagOf g ln) (setGet g h.l2 (setOf g ln)) with
    | some _ => h
    | none => l2Insert p h ln (Memory.readLine h.pm ln) false

/-- The prefetcher's registers after an access to physical address `pa` (22_caches.md R145). -/
def pfNext (f : Prefetcher) (pa : Word) : Prefetcher :=
  if f.valid = false then { f with valid := true, last := pa }
  else
    let delta := pa - f.last
    if delta = f.stride ∧ delta ≠ 0 then { f with last := pa, conf := min (f.conf + 1) 3 }
    else { f with last := pa, stride := delta, conf := 0 }

/-- The prefetcher run after an L1D access to `pa` (22_caches.md R145). -/
def runPrefetcher (p : Params) (h : Hierarchy) (pa : Word) : Hierarchy :=
  let f := pfNext h.pf pa
  let h1 := { h with pf := f }
  if h.pf.valid = true ∧ f.conf = 3 then prefetchLine p h1 (pa + f.stride) else h1

/-! ## The coherent view and maintenance (22_caches.md R147, R149; 20_memory.md R84) -/

/-- The payload of a line in a cache, if it is valid there; nothing is touched. -/
def cached (g : Geom) (c : Store (List Way)) (ln : Nat) : Option (List Byte) :=
  findData (tagOf g ln) (setGet g c (setOf g ln))

/-- The byte of RAM a load would see: L1D's copy, else L2's, else `PM`'s (22_caches.md R129, R149). This is the flat
memory of 20_memory.md R85. -/
def flatByte (p : Params) (h : Hierarchy) (a : Nat) : Byte :=
  match cached (l1dGeom p) h.l1d (a / 64) with
  | some d => lineByte d (a % 64)
  | none =>
    match cached (l2Geom p) h.l2 (a / 64) with
    | some d => lineByte d (a % 64)
    | none => Memory.read h.pm a

/-- The dirty copy of a line in a cache, if it holds one. -/
def dirtyCopy (g : Geom) (c : Store (List Way)) (ln : Nat) : Option (List Byte) :=
  ((setGet g c (setOf g ln)).find? fun w => wayHolds (tagOf g ln) w && w.dirty).map (·.data)

/-- A way invalidated: `valid := 0; dirty := 0; lru := 0` (22_caches.md R147, R149). -/
def invalidWay (w : Way) : Way := { w with valid := false, dirty := false, lru := 0 }

/-- The line invalidated in a cache; other ways keep their counters (22_caches.md R149). -/
def dropLine (g : Geom) (c : Store (List Way)) (ln : Nat) : Store (List Way) :=
  setPut g c (setOf g ln) ((setGet g c (setOf g ln)).map fun w => if wayHolds (tagOf g ln) w then invalidWay w else w)

/-- One line written back and invalidated everywhere (22_caches.md R149). -/
def evictLine (p : Params) (h : Hierarchy) (ln : Nat) : Hierarchy :=
  let pm :=
    match dirtyCopy (l1dGeom p) h.l1d ln with
    | some d => Memory.writeBytes h.pm (64 * ln) d
    | none =>
      match dirtyCopy (l2Geom p) h.l2 ln with
      | some d => Memory.writeBytes h.pm (64 * ln) d
      | none => h.pm
  { h with pm := pm, l1i := dropLine (l1iGeom p) h.l1i ln, l1d := dropLine (l1dGeom p) h.l1d ln,
           l2 := dropLine (l2Geom p) h.l2 ln }

/-- `count` lines from line number `ln` on written back and invalidated. -/
def evictLines (p : Params) (h : Hierarchy) (ln : Nat) : Nat → Hierarchy
  | 0 => h
  | count + 1 => evictLines p (evictLine p h ln) (ln + 1) count

/-- How many lines the range `[a, a + len)` overlaps. -/
def linesIn (a len : Nat) : Nat := if len = 0 then 0 else (a + len - 1) / 64 - a / 64 + 1

/-- `HostWriteCoherent(a, len, bytes)` (22_caches.md R149). -/
def hostWrite (p : Params) (h : Hierarchy) (a : Nat) (bytes : List Byte) : Hierarchy :=
  let h1 := evictLines p h (a / 64) (linesIn a bytes.length)
  { h1 with pm := Memory.writeBytes h1.pm a bytes }

/-- `HostReadCoherent(a, len)` (22_caches.md R149). -/
def hostRead (p : Params) (h : Hierarchy) (a len : Nat) : List Byte :=
  (List.range len).map fun j => flatByte p h (a + j)

/-- A clean copy of a line for `FlushAll`: L2's payload replaced, its dirty bit cleared, nothing touched
(22_caches.md R147). -/
def refreshL2 (p : Params) (l2 : Store (List Way)) (ln : Nat) (d : List Byte) : Store (List Way) :=
  let g := l2Geom p
  setPut g l2 (setOf g ln) ((setGet g l2 (setOf g ln)).map fun w =>
    if wayHolds (tagOf g ln) w then { w with data := d, dirty := false } else w)

/-- The dirty ways of one set of L1D written to `PM` and refreshed in L2 (22_caches.md R147, step 1). -/
def flushL1Ways (p : Params) (set : Nat) : List Way → Hierarchy → Hierarchy
  | [], h => h
  | w :: ws, h =>
    let ln := lineOf (l1dGeom p) w.tag set
    flushL1Ways p set ws
      (if w.valid && w.dirty then
        { h with pm := Memory.writeBytes h.pm (64 * ln) w.data, l2 := refreshL2 p h.l2 ln w.data }
      else h)

/-- A way made clean. -/
def cleanWay (w : Way) : Way := { w with dirty := false }

/-- One set of L1D flushed (22_caches.md R147, step 1). -/
def flushL1Set (p : Params) (h : Hierarchy) (set : Nat) : Hierarchy :=
  let ws := setGet (l1dGeom p) h.l1d set
  let h1 := flushL1Ways p set ws h
  { h1 with l1d := setPut (l1dGeom p) h1.l1d set (ws.map cleanWay) }

/-- The dirty ways of one set of L2 written to `PM` (22_caches.md R147, step 2). -/
def flushL2Ways (p : Params) (set : Nat) : List Way → List Host.Cell → List Host.Cell
  | [], pm => pm
  | w :: ws, pm =>
    flushL2Ways p set ws
      (if w.valid && w.dirty then Memory.writeBytes pm (64 * lineOf (l2Geom p) w.tag set) w.data else pm)

/-- One set of L2 flushed (22_caches.md R147, step 2). -/
def flushL2Set (p : Params) (h : Hierarchy) (set : Nat) : Hierarchy :=
  let ws := setGet (l2Geom p) h.l2 set
  { h with pm := flushL2Ways p set ws h.pm, l2 := setPut (l2Geom p) h.l2 set (ws.map cleanWay) }

/-- The numbers of the listed sets, rising: the others hold nothing dirty. -/
def listedSets (c : Store (List Way)) : List Nat := c.map (·.1)

/-- `FlushAll()` (22_caches.md R147): L1D, then L2, in ascending set and way order. -/
def flushAll (p : Params) (h : Hierarchy) : Hierarchy :=
  let h1 := (listedSets h.l1d).foldl (flushL1Set p) h
  (listedSets h1.l2).foldl (flushL2Set p) h1

/-- Every way of a cache invalidated (22_caches.md R147). -/
def dropAll (g : Geom) (c : Store (List Way)) : Store (List Way) :=
  (listedSets c).foldl (fun m k => setPut g m k ((setGet g m k).map invalidWay)) c

/-- `InvalidateAll()` (22_caches.md R147). -/
def invalidateAll (p : Params) (h : Hierarchy) : Hierarchy :=
  let h1 := flushAll p h
  { h1 with l1i := dropAll (l1iGeom p) h1.l1i, l1d := dropAll (l1dGeom p) h1.l1d, l2 := dropAll (l2Geom p) h1.l2 }

end Sys2Proof.Machine
end

