-- ==== Sys2Proof/Machine/Paging.lean ====
section
/-! DEFINITION. Address translation (spec/21_translation.md): the page-table store, the walker and the TLB, and the
exceptions they report. -/

namespace Sys2Proof.Machine

/-- What an access is for (00_scope.md R14). -/
inductive Acc where
  | fetch
  | read
  | write
deriving DecidableEq, Repr

/-- The number of an access kind in `info1` (21_translation.md R97): 0 fetch, 1 read, 2 write. -/
def accCode : Acc → Nat
  | .fetch => 0
  | .read => 1
  | .write => 2

/-- The reason of a page fault (21_translation.md R97). -/
inductive PfReason where
  | notPresent
  | writeProtect
  | userProtect
  | bounds
deriving DecidableEq, Repr

/-- The number of a reason in `info1` (21_translation.md R97). -/
def reasonCode : PfReason → Nat
  | .notPresent => 0
  | .writeProtect => 1
  | .userProtect => 2
  | .bounds => 3

/-- `PageFault`, vector 14 (21_translation.md R97, 60_exceptions.md R400): `info0` the faulting virtual address,
`info1 = level + (a << 8) + (reason << 10)`. -/
def pageFault (va : Word) (level : Nat) (acc : Acc) (reason : PfReason) : Exc where
  vector := 14
  info0 := va
  info1 := BitVec.ofNat 64 (level + accCode acc * 2 ^ 8 + reasonCode reason * 2 ^ 10)

/-- `AlignmentFault`, vector 17 (60_exceptions.md R400): `info1 = a + (n << 8)`. -/
def alignmentFault (va : Word) (acc : Acc) (n : Nat) : Exc where
  vector := 17
  info0 := va
  info1 := BitVec.ofNat 64 (accCode acc + n * 2 ^ 8)

/-! ## The page-table store (21_translation.md R91 to R93) -/

/-- The identity map: the entry at index `i` of table `t` after creation and reset (21_translation.md R93). -/
def ptInit (t i : Nat) : Word :=
  if t = 0 then BitVec.ofNat 64 ((1 + i) * 2 ^ 12 + 7)
  else if t < 513 then BitVec.ofNat 64 ((513 + 512 * (t - 1) + i) * 2 ^ 12 + 7)
  else if t < 262657 then BitVec.ofNat 64 ((262657 + 512 * (t - 513) + i) * 2 ^ 12 + 7)
  else if t < 134480385 then BitVec.ofNat 64 ((512 * (t - 262657) + i) * 2 ^ 12 + 7)
  else 0

/-- The initial content by store index `512 · t + i`. -/
def ptInitAt (k : Nat) : Word := ptInit (k / 512) (k % 512)

/-- `PT(t, i)` (21_translation.md R91), `i < 512`. -/
def ptGet (pt : Store Word) (t i : Nat) : Word := Store.get ptInitAt pt (512 * t + i)

/-- `PT(t, i) := e`. -/
def ptSet (pt : Store Word) (t i : Nat) (e : Word) : Store Word := Store.set ptInitAt pt (512 * t + i) e

/-- `P`, bit 0 of an entry (21_translation.md R92). -/
def pteP (e : Word) : Bool := e.getLsbD 0

/-- `W`, bit 1. -/
def pteW (e : Word) : Bool := e.getLsbD 1

/-- `U`, bit 2. -/
def pteU (e : Word) : Bool := e.getLsbD 2

/-- `A`, bit 3. -/
def pteA (e : Word) : Bool := e.getLsbD 3

/-- `D`, bit 4. -/
def pteD (e : Word) : Bool := e.getLsbD 4

/-- The frame field, bits 51 to 12: the next table's number, or at level 1 the physical frame. -/
def pteFrame (e : Word) : Nat := e.toNat / 2 ^ 12 % 2 ^ 40

/-! ## The walk (21_translation.md R94, R95) -/

/-- The virtual page number, `va[47:12]` (21_translation.md R94). -/
def vpnOf (va : Word) : Nat := va.toNat / 2 ^ 12 % 2 ^ 36

/-- The page offset, `va[11:0]`. -/
def pageOffset (va : Word) : Nat := va.toNat % 2 ^ 12

/-- The index of level `L` (1 to 4): nine bits from bit `12 + 9 · (L − 1)` up (21_translation.md R94). -/
def ptIndex (va : Word) (level : Nat) : Nat := va.toNat / 2 ^ (12 + 9 * (level - 1)) % 512

/-- One entry a walk followed: its level, where it stands, and its content before the walk. -/
structure PathStep where
  level : Nat
  table : Nat
  index : Nat
  entry : Word
deriving DecidableEq, Repr

/-- What a walk finds (21_translation.md R95). The effective permissions are read off the path. -/
inductive WalkResult where
  | fail (level : Nat)
  | found (pfn : Nat) (path : List PathStep)
deriving DecidableEq, Repr

/-- The walk through the given levels from table `t` on: the present bit is checked before an entry is followed
(21_translation.md R92, R95). -/
def walkFrom (pt : Store Word) (va : Word) : List Nat → Nat → WalkResult
  | [], t => .found t []
  | level :: levels, t =>
    let e := ptGet pt t (ptIndex va level)
    if pteP e then
      match walkFrom pt va levels (pteFrame e) with
      | .fail l => .fail l
      | .found pfn path => .found pfn ({ level := level, table := t, index := ptIndex va level, entry := e } :: path)
    else .fail level

/-- `Walk(va)` (21_translation.md R95): levels 4, 3, 2, 1 from table 0. -/
def walk (pt : Store Word) (va : Word) : WalkResult := walkFrom pt va [4, 3, 2, 1] 0

/-- Writes are allowed: `W` at every level (21_translation.md R95). -/
def pathW (path : List PathStep) : Bool := path.all fun s => pteW s.entry

/-- User accesses are allowed: `U` at every level (21_translation.md R95). -/
def pathU (path : List PathStep) : Bool := path.all fun s => pteU s.entry

/-- The `D` bit of the level-1 entry (21_translation.md R96). -/
def pathD (path : List PathStep) : Bool := path.getLast?.any fun s => pteD s.entry

/-- The level of the first entry walked that lacks a permission: `Lw`, `Lu` of 21_translation.md R96. -/
def firstLacking (has : Word → Bool) (path : List PathStep) : Nat :=
  ((path.find? fun s => !has s.entry).map (·.level)).getD 0

/-- Set some bits of an entry, keeping the others (21_translation.md R92, R96). -/
def ptOr (pt : Store Word) (t i : Nat) (bits : Word) : Store Word := ptSet pt t i (ptGet pt t i ||| bits)

/-- `A` set in every entry of the path (21_translation.md R96). -/
def setAccessed (pt : Store Word) (path : List PathStep) : Store Word :=
  path.foldl (fun m s => ptOr m s.table s.index 8) pt

/-- `D` set in the level-1 entry (21_translation.md R96). -/
def setDirty (pt : Store Word) (path : List PathStep) : Store Word :=
  match path.getLast? with
  | none => pt
  | some s => ptOr pt s.table s.index 16

/-! ## The TLB (21_translation.md R100 to R105) -/

/-- An invalid entry, the content after creation and reset (10_state.md R37). -/
def tlbInvalid : TlbEntry := { valid := false, vpn := 0, pfn := 0, w := false, u := false, d := false }

/-- `TLB[k]`. -/
def tlbGet (tlb : Store TlbEntry) (k : Nat) : TlbEntry := Store.get (fun _ => tlbInvalid) tlb k

/-- `TLB[k] := e`. -/
def tlbSet (tlb : Store TlbEntry) (k : Nat) (e : TlbEntry) : Store TlbEntry := Store.set (fun _ => tlbInvalid) tlb k e

/-- The entry is valid and holds the page (21_translation.md R96). -/
def tlbHolds (e : TlbEntry) (vpn : Nat) : Bool := e.valid && e.vpn == vpn

/-- The entry can answer the access: a write needs `w` and `d`, user mode needs `u` (21_translation.md R96, R102). -/
def tlbAnswers (e : TlbEntry) (um : Bool) (acc : Acc) : Bool :=
  (decide (acc ≠ .write) || (e.w && e.d)) && (!um || e.u)

/-- `TLB[k].valid := 0` where entry `k = vpn mod TLB_ENTRIES` holds the page; otherwise nothing
(21_translation.md R96, R104). -/
def tlbDrop (entries : Nat) (tlb : Store TlbEntry) (vpn : Nat) : Store TlbEntry :=
  let e := tlbGet tlb (vpn % entries)
  if tlbHolds e vpn then tlbSet tlb (vpn % entries) { e with valid := false } else tlb

/-- `TLB[k].valid := 0` for every entry (21_translation.md R105); an unlisted entry is invalid already. -/
def tlbDropAll (tlb : Store TlbEntry) : Store TlbEntry :=
  (tlb.map (·.1)).foldl (fun m k => tlbSet m k { tlbGet m k with valid := false }) tlb

/-- The physical address of a frame and a page offset, `pfn ‖ va[11:0]` (21_translation.md R96). -/
def physAddr (pfn : Nat) (va : Word) : Nat := pfn * 2 ^ 12 + pageOffset va

/-- The outcome of a translation: a physical address or an exception. -/
inductive Translated where
  | pa (a : Nat)
  | exc (e : Exc)
deriving DecidableEq, Repr

/-- A translation that misses the TLB (21_translation.md R96 from "TLB miss" on, R101, R102): the stale entry is
dropped, and a walk that succeeds and is permitted sets `A`, for a write `D`, and refills the entry. -/
def translateMiss (entries : Nat) (m : Mmu) (um : Bool) (va : Word) (acc : Acc) : Mmu × Translated :=
  let m1 := { m with tlb := tlbDrop entries m.tlb (vpnOf va) }
  match walk m.pt va with
  | .fail level => (m1, .exc (pageFault va level acc .notPresent))
  | .found pfn path =>
    if acc = .write ∧ pathW path = false then
      (m1, .exc (pageFault va (firstLacking pteW path) acc .writeProtect))
    else if um = true ∧ pathU path = false then
      (m1, .exc (pageFault va (firstLacking pteU path) acc .userProtect))
    else
      let pt1 := setAccessed m.pt path
      let pt2 := if acc = .write then setDirty pt1 path else pt1
      let entry : TlbEntry := { valid := true, vpn := vpnOf va, pfn := pfn, w := pathW path, u := pathU path,
                                d := decide (acc = .write) || pathD path }
      ({ pt := pt2, tlb := tlbSet m1.tlb (vpnOf va % entries) entry }, .pa (physAddr pfn va))

/-- `Translate(va, acc)` (21_translation.md R96) with `um` = `FLAGS.UM`. A TLB hit changes nothing (R101). -/
def translate (entries : Nat) (m : Mmu) (um : Bool) (va : Word) (acc : Acc) : Mmu × Translated :=
  if 2 ^ 48 ≤ va.toNat then (m, .exc (pageFault va 5 acc .bounds))
  else
    let e := tlbGet m.tlb (vpnOf va % entries)
    if tlbHolds e (vpnOf va) && tlbAnswers e um acc then (m, .pa (physAddr e.pfn va))
    else translateMiss entries m um va acc

end Sys2Proof.Machine
end

