-- ==== Sys2Proof/Machine/Predictor.lean ====
section
/-! DEFINITION. Branch prediction (spec/50_pipeline.md R350 to R354): 2-bit counters and the branch target buffer. -/

namespace Sys2Proof.Machine

/-- An invalid BTB entry, the content after creation and reset (10_state.md R42). -/
def btbInvalid : BtbEntry := { valid := false, tag := 0, target := 0 }

/-- `bi(pc)` (50_pipeline.md R350). -/
def bpIndex (p : Params) (pc : Word) : Nat := pc.toNat / 4 % p.bpEntries

/-- `ti(pc)` (50_pipeline.md R350). -/
def btbIndex (p : Params) (pc : Word) : Nat := pc.toNat / 4 % p.btbEntries

/-- `BP[bi(pc)]`. -/
def bpGet (p : Params) (b : Predictor) (pc : Word) : BitVec 2 := Store.get (fun _ => 0) b.bp (bpIndex p pc)

/-- `BTB[ti(pc)]`. -/
def btbGet (p : Params) (b : Predictor) (pc : Word) : BtbEntry :=
  Store.get (fun _ => btbInvalid) b.btb (btbIndex p pc)

/-- `BTB[ti(pc)] := e`. -/
def btbSet (p : Params) (b : Predictor) (pc : Word) (e : BtbEntry) : Predictor :=
  { b with btb := Store.set (fun _ => btbInvalid) b.btb (btbIndex p pc) e }

/-- `Predict(pc)` (50_pipeline.md R351): the target on a BTB hit with a counter of 2 or more, else `pc + 4`. -/
def predict (p : Params) (b : Predictor) (pc : Word) : Word :=
  let e := btbGet p b pc
  if e.valid && e.tag == pc && decide (2 ≤ (bpGet p b pc).toNat) then e.target else pc + 4

/-- A 2-bit counter one up, saturating at 3 (50_pipeline.md R353). -/
def bpUp (c : BitVec 2) : BitVec 2 := if c = 3 then 3 else c + 1

/-- A 2-bit counter one down, saturating at 0 (50_pipeline.md R353). -/
def bpDown (c : BitVec 2) : BitVec 2 := if c = 0 then 0 else c - 1

/-- The update for a control transfer at `pc` (50_pipeline.md R353). -/
def train (p : Params) (b : Predictor) (pc : Word) (taken : Bool) (target : Word) : Predictor :=
  let c := bpGet p b pc
  if taken then
    btbSet p { b with bp := Store.set (fun _ => 0) b.bp (bpIndex p pc) (bpUp c) } pc
      { valid := true, tag := pc, target := target }
  else { b with bp := Store.set (fun _ => 0) b.bp (bpIndex p pc) (bpDown c) }

/-- `BTB[ti(pc)].valid := 0` (50_pipeline.md R354). -/
def untrain (p : Params) (b : Predictor) (pc : Word) : Predictor :=
  btbSet p b pc { btbGet p b pc with valid := false }

end Sys2Proof.Machine
end

