-- ==== Sys2Proof/Machine/Ops.lean ====
section
/-! DEFINITION. The named operations over the whole state that the instructions, the pipeline and the ports share:
registers, counters, events, memory access (spec/20_memory.md R71 to R77), taking an exception
(spec/60_exceptions.md R410 to R413, R404) and returning from one (R414), interrupt delivery (R420). -/

namespace Sys2Proof.Machine

/-! ## Registers (10_state.md R21, R22, R26) -/

/-- `x[r]`, which is 0 for R0 (10_state.md R22). -/
def getX (s : State) (r : Reg) : Word := if r = 0 then 0 else s.x[r.toNat]

/-- `x[r] <- w`; a write to R0 is dropped (10_state.md R22). -/
def setX (r : Reg) (w : Word) (s : State) : State := if r = 0 then s else { s with x := s.x.set r.toNat w }

/-- `v[r]` (10_state.md R26). -/
def getV (s : State) (r : VReg) : VWord := s.v[r.toNat]

/-- `v[r] <- w`. -/
def setV (r : VReg) (w : VWord) (s : State) : State := { s with v := s.v.set r.toNat w }

/-- `pc <- t`. -/
def setPc (t : Word) (s : State) : State := { s with pc := t }

/-- `pc <- pc + 4` (00_scope.md R13). -/
def advance (s : State) : State := setPc (s.pc + 4) s

/-- The four arithmetic flags replaced (40_alu.md R220). -/
def setNzcv (a : Nzcv) (s : State) : State := { s with flags := withNzcv s.flags a }

/-- `FLAGS.UM = 1` (10_state.md R30). -/
def userMode (s : State) : Bool := flagUM s.flags

/-! ## Performance counters (50_pipeline.md R360) -/

/-- `PERF[0]` one up: an instruction retires. -/
def countRetired (s : State) : State := { s with perf := { s.perf with retired := s.perf.retired + 1 } }

/-- `PERF[4]` one up where the prediction was wrong (50_pipeline.md R337). -/
def countMispredict (wrong : Bool) (s : State) : State :=
  { s with perf := { s.perf with mispredicts := s.perf.mispredicts + (if wrong then 1 else 0) } }

/-- `PERF[6]` one up: a load or store was performed. -/
def countMemOp (s : State) : State := { s with perf := { s.perf with memOps := s.perf.memOps + 1 } }

/-- `PERF[7]` one up: a vector instruction retires. -/
def countSimd (s : State) : State := { s with perf := { s.perf with simdOps := s.perf.simdOps + 1 } }

/-- The misses of one cache access added to `PERF[2]` and `PERF[3]` (22_caches.md R133). -/
def missCounts (l1 l2 : Bool) (f : Perf) : Perf :=
  { f with l1Misses := f.l1Misses + (if l1 then 1 else 0), l2Misses := f.l2Misses + (if l2 then 1 else 0) }

/-! ## Events and stopping (51_host_interface.md R387, R388) -/

/-- An event put at the end of the queue; dropped if the queue is full (51_host_interface.md R388). -/
def pushEvent (e : Event) (s : State) : State :=
  if s.eventQ.length < s.params.eventDepth then { s with eventQ := s.eventQ ++ [e] } else s

/-- The core stops: `HALTED`, the `PC` it is left at, the status `step()` returns and the event `Halted`
(10_state.md R33, 51_host_interface.md R374, R387). -/
def stopCore (status : Status) (vector : Nat) (at' next info0 : Word) (s : State) : State :=
  pushEvent { kind := .halted, vector := vector, pc := at', info0 := info0, info1 := 0 }
    { s with halted := true, pc := next, lastStatus := status }

/-! ## Memory access (20_memory.md R71 to R77) -/

/-- What an access leaves: a value and the state, or an exception and the state. -/
inductive Access (α : Type) where
  | done (a : α) (s : State)
  | raised (e : Exc) (s : State)

/-- The physical address lies in the device window (20_memory.md R63). -/
def inWindow (p : Params) (pa : Nat) : Bool := decide (p.mmioBase ≤ pa) && decide (pa < p.mmioLimit)

/-- The registered range that contains a physical address (20_memory.md R75, R76). -/
def findRange (t : List MmioRange) (pa : Nat) : Option MmioRange :=
  t.find? fun r => decide (r.base ≤ pa) && decide (pa < r.base + r.size)

/-- The device vectors, 32 to 255 except 0x80: those `trigger` accepts (51_host_interface.md R389). -/
def deviceVector (v : Nat) : Bool := decide (32 ≤ v) && decide (v < 256) && decide (v ≠ 128)

/-- The device vectors as a set of bits. -/
def deviceMask : BitVec 256 := BitVec.allOnes 256 <<< 32 &&& ~~~(1#256 <<< 128)

/-- Vectors triggered by a device handler become pending; others are refused (20_memory.md R76, 51_host_interface.md
R389). -/
def pend (vs : BitVec 256) (s : State) : State :=
  { s with ic := { s.ic with pending := s.ic.pending ||| (vs &&& deviceMask) } }

/-- The low `n` bytes of a value. -/
def lowBytes (n : Nat) (val : VWord) : VWord := ofBytes (byteOf val) n

/-- `MmioRead(pa, n)` (20_memory.md R76): the handler's value, or 0 where no range is registered. 92_eei_decisions.md D22
says that such an address page-faults; R76 and 93_implementation_defined.md U22 are followed (DESIGN CHOICE, log entry
20). -/
def mmioRead (s : State) (pa n : Nat) : VWord × State :=
  match findRange s.mmioTable pa with
  | none => (0, s)
  | some r =>
    let answer := Config.mmioRead r.handler s.envCalls (pa - r.base) n
    (lowBytes n answer.1, pend answer.2 { s with envCalls := s.envCalls + 1 })

/-- `MmioWrite(pa, n, val)` (20_memory.md R76): ignored where no range is registered, against 92_eei_decisions.md D22 as in
`mmioRead` (DESIGN CHOICE, log entry 20). -/
def mmioWrite (s : State) (pa n : Nat) (val : VWord) : State :=
  match findRange s.mmioTable pa with
  | none => s
  | some r =>
    pend (Config.mmioWrite r.handler s.envCalls (pa - r.base) n (lowBytes n val)) { s with envCalls := s.envCalls + 1 }

/-- The state after a cache access, its misses counted (22_caches.md R133). -/
def afterAccess (a : Accessed) (s : State) : State :=
  { s with hier := a.hier, perf := missCounts a.l1Miss a.l2Miss s.perf }

/-- The translation of the state's current mode (21_translation.md R96), with the state after it. -/
def translateS (s : State) (va : Word) (acc : Acc) : Access Nat :=
  let r := translate s.params.tlbEntries s.mmu (userMode s) va acc
  match r.2 with
  | .pa a => .done a { s with mmu := r.1 }
  | .exc e => .raised e { s with mmu := r.1 }

/-- A RAM read through L1D and the prefetcher (20_memory.md R71 step 5). -/
def ramRead (s : State) (pa n : Nat) : VWord × State :=
  let a := l1dAccess s.params s.hier (pa / 64)
  (lineValue a.data (pa % 64) n,
    afterAccess { a with hier := runPrefetcher s.params a.hier (BitVec.ofNat 64 pa) } s)

/-- A RAM write through L1D and the prefetcher (20_memory.md R72 step 5). -/
def ramWrite (s : State) (pa n : Nat) (val : VWord) : State :=
  let a := l1dWrite s.params s.hier pa n val
  afterAccess { a with hier := runPrefetcher s.params a.hier (BitVec.ofNat 64 pa) } s

/-- `MemRead(va, n)` (20_memory.md R71). The value is zero-extended to 256 bits. A fault at the physical bound (step 4) has
no effect, on the page table and the TLB either (41_loadstore.md R231, 92_eei_decisions.md D20), though the walk of step 2
has succeeded (DESIGN CHOICE, log entry 21). -/
def memRead (s : State) (va : Word) (n : Nat) : Access VWord :=
  if va.toNat % n ≠ 0 then .raised (alignmentFault va .read n) s
  else
    match translateS s va .read with
    | .raised e t => .raised e t
    | .done pa t =>
      if inWindow t.params pa then .done (mmioRead t pa n).1 (mmioRead t pa n).2
      else if t.params.memSize < pa + n then .raised (pageFault va 0 .read .bounds) s
      else .done (ramRead t pa n).1 (ramRead t pa n).2

/-- The TLB entry of the page of `va` invalidated after a store (20_memory.md R72 step 6, 21_translation.md R104). -/
def dropTlb (va : Word) (s : State) : State :=
  { s with mmu := { s.mmu with tlb := tlbDrop s.params.tlbEntries s.mmu.tlb (vpnOf va) } }

/-- `MemWrite(va, n, val)` (20_memory.md R72). A fault at the physical bound (step 4) has no effect, as in `memRead`
(41_loadstore.md R231, 92_eei_decisions.md D20; DESIGN CHOICE, log entry 21). -/
def memWrite (s : State) (va : Word) (n : Nat) (val : VWord) : Access Unit :=
  if va.toNat % n ≠ 0 then .raised (alignmentFault va .write n) s
  else
    match translateS s va .write with
    | .raised e t => .raised e t
    | .done pa t =>
      if inWindow t.params pa then .done () (dropTlb va (mmioWrite t pa n val))
      else if t.params.memSize < pa + n then .raised (pageFault va 0 .write .bounds) s
      else .done () (dropTlb va (ramWrite t pa n val))

/-- The word at a RAM address read through L1I (20_memory.md R73 step 4). Fetch never runs the prefetcher. -/
def ramFetch (s : State) (pa : Nat) : IWord × State :=
  let a := l1iAccess s.params s.hier (pa / 64)
  ((lineValue a.data (pa % 64) 4).setWidth 32, afterAccess a s)

/-- `Fetch(va)` (20_memory.md R73): a fault is the result, not yet raised. A fault at the physical bound has no
effect, as in `memRead` (92_eei_decisions.md D20; DESIGN CHOICE, log entry 21). -/
def fetch (s : State) (va : Word) : Access IWord :=
  if va.toNat % 4 ≠ 0 then .raised (alignmentFault va .fetch 4) s
  else
    match translateS s va .fetch with
    | .raised e t => .raised e t
    | .done pa t =>
      if inWindow t.params pa || decide (t.params.memSize < pa + 4) then .raised (pageFault va 0 .fetch .bounds) s
      else .done (ramFetch t pa).1 (ramFetch t pa).2

/-! ## The InterruptController's registers (10_state.md R33) -/

/-- `IVT[v]` (60_exceptions.md R402). -/
def ivtGet (s : State) (v : Nat) : Slot := Store.get (fun _ => .default) s.ic.ivt v

/-- `IVT_STAT[v]` (60_exceptions.md R405). -/
def statGet (s : State) (v : Nat) : Word := Store.get (fun _ => 0) s.ic.ivtStat v

/-- `IVT_STAT[v]` one up (60_exceptions.md R405). -/
def countVector (v : Nat) (s : State) : State :=
  { s with ic := { s.ic with ivtStat := Store.set (fun _ => 0) s.ic.ivtStat v (statGet s v + 1) } }

/-- A frame never pushed: all 0 (10_state.md R33). -/
def noFrame : Frame := { retPc := 0, flags := 0, vector := 0, info0 := 0, info1 := 0 }

/-- `TRAPSTK[i]` (60_exceptions.md R412). -/
def frameAt (s : State) (i : Nat) : Frame := Store.get (fun _ => noFrame) s.ic.trapStk i

/-! ## Taking an exception (60_exceptions.md R410 to R413, R404) -/

/-- `TrapEnter(addr, ret_pc, vec, info0, info1)` (60_exceptions.md R412): a frame is pushed, IE and UM are cleared and
`PC` goes to the handler. -/
def trapEnter (addr retPc : Word) (vector : Nat) (info0 info1 : Word) (s : State) : State :=
  { s with
    ic := { s.ic with
      trapStk := Store.set (fun _ => noFrame) s.ic.trapStk s.ic.nest
        { retPc := retPc, flags := s.flags, vector := BitVec.ofNat 64 vector, info0 := info0, info1 := info1 },
      nest := s.ic.nest + 1 },
    flags := flagsOnEntry s.flags,
    pc := addr }

/-- The status a halting default handler makes `step()` return (60_exceptions.md R404). -/
def haltStatus (vector : Nat) : Status := if vector = 6 then .illegalInstruction else .error

/-- `Deliver(vec, info0, info1, ret_pc)` (60_exceptions.md R410): the statistic and the event `Exception`; then the
default handler halts the core (R404), or the guest handler is entered (R412), or, with no room for a frame, the core
halts (R413). `retPc` is the address of the faulting instruction (R411). -/
def deliver (e : Exc) (retPc : Word) (s : State) : State :=
  let s1 := pushEvent { kind := .exception, vector := e.vector, pc := retPc, info0 := e.info0, info1 := e.info1 }
    (countVector e.vector s)
  match ivtGet s e.vector with
  | .default => stopCore (haltStatus e.vector) e.vector retPc retPc 0 s1
  | .guest addr =>
    if s.ic.nest < s.params.maxNest then trapEnter addr retPc e.vector e.info0 e.info1 s1
    else stopCore .error e.vector retPc retPc 0 s1

/-- `InvalidOpcode(word)`, vector 6 (30_encoding.md R172, 60_exceptions.md R400). -/
def invalidOpcode (w : IWord) : Exc := { vector := 6, info0 := w.setWidth 64, info1 := 0 }

/-- `ProtectionFault`, vector 13, with the word and the reason: 1 privileged instruction in user mode, 2 IRET with an
empty trap save stack (60_exceptions.md R400). -/
def protectionFault (w : IWord) (reason : Word) : Exc := { vector := 13, info0 := w.setWidth 64, info1 := reason }

/-! ## Returning from an exception (60_exceptions.md R414, 43_system.md R276) -/

/-- The top frame is popped: `FLAGS` becomes its six flag bits and `PC` its return address. The frame's words stay in
the popped slot. -/
def trapReturn (s : State) : State :=
  let f := frameAt s (s.ic.nest - 1)
  { s with ic := { s.ic with nest := s.ic.nest - 1 }, flags := flagBits f.flags, pc := f.retPc }

/-! ## Interrupts (60_exceptions.md R419, R420) -/

/-- The lowest pending vector (60_exceptions.md R417 c). -/
def lowestPending (pending : BitVec 256) : Option Nat := (List.range 256).find? fun v => pending.getLsbD v

/-- `PENDING[v] := 0`. -/
def unpend (v : Nat) (s : State) : State :=
  { s with ic := { s.ic with pending := s.ic.pending &&& ~~~(1#256 <<< v) } }

/-- The vector an interrupt point would deliver now (60_exceptions.md R420): interrupts are enabled, it is the lowest
pending one, and it is not a guest vector blocked by a full trap save stack. -/
def deliverable (s : State) : Option Nat :=
  if flagIE s.flags then
    match lowestPending s.ic.pending with
    | none => none
    | some v =>
      match ivtGet s v with
      | .default => some v
      | .guest _ => if s.ic.nest < s.params.maxNest then some v else none
  else none

/-- Vector `v` delivered (60_exceptions.md R420), `ret` being the address of the first instruction not retired: to the
default handler only the statistic and the event, whose `pc` is `PC`; to a guest handler a trap entry. -/
def deliverInterrupt (v : Nat) (ret : Word) (s : State) : State :=
  let s1 := countVector v (unpend v s)
  match ivtGet s v with
  | .default => pushEvent { kind := .deviceInterrupt, vector := v, pc := s.pc, info0 := 0, info1 := 0 } s1
  | .guest addr =>
    trapEnter addr ret v 0 0
      (pushEvent { kind := .deviceInterrupt, vector := v, pc := ret, info0 := 0, info1 := 0 } s1)

/-! ## Breakpoints (51_host_interface.md R385) -/

/-- The stop at a breakpoint: `PC` at its address, `RESUME` set, the event pushed (51_host_interface.md R385). -/
def breakpointStop (at' : Word) (s : State) : State :=
  pushEvent { kind := .breakpoint, vector := 0, pc := at', info0 := 0, info1 := 0 }
    { s with pc := at', resume := true, lastStatus := .breakpoint }

/-! ## System events at retirement (43_system.md R271, R272, R274, R276) -/

/-- HALT retires (43_system.md R274): the core stops with `PC` behind it. -/
def haltCore (pc : Word) (s : State) : State := stopCore .halted 0 pc (pc + 4) 0 s

/-- The writes of an `EnvSyscall` answer applied, each inside RAM (43_system.md R272). -/
def applyWrites (p : Params) : List (Nat × List Byte) → Hierarchy → Hierarchy
  | [], h => h
  | (a, bytes) :: rest, h => applyWrites p rest (if a + bytes.length ≤ p.memSize then hostWrite p h a bytes else h)

/-- The services read, write, open and close (43_system.md R272): the environment answers; only read may write
memory. -/
def envService (n : Nat) (pc : Word) (s : State) : State :=
  let answer := Config.envSyscall s.envCalls n (getX s 2) (getX s 3) (getX s 4) (flatByte s.params s.hier)
  setPc (pc + 4)
    (setX 1 answer.1
      { s with envCalls := s.envCalls + 1,
               hier := if n = 1 then applyWrites s.params answer.2 s.hier else s.hier })

/-- The default system-call service (43_system.md R272), the number in R1. -/
def defaultService (pc : Word) (s : State) : State :=
  let n := (getX s 1).toNat
  if n = 0 then stopCore .halted 0 pc (pc + 4) (getX s 2) { s with exitCode := getX s 2 }
  else if n ≤ 4 then envService n pc s
  else setPc (pc + 4) (setX 1 (BitVec.allOnes 64) s)

/-- SYSCALL taken at retirement (43_system.md R271, 60_exceptions.md R413): the statistic; then the default service,
or the guest handler with the return address behind the SYSCALL, or, with no room for a frame, the core halts. -/
def syscallTrap (pc : Word) (s : State) : State :=
  let s1 := countVector 128 s
  match ivtGet s 128 with
  | .default => defaultService pc s1
  | .guest addr =>
    if s.ic.nest < s.params.maxNest then trapEnter addr (pc + 4) 128 (getX s 1) 0 s1
    else stopCore .error 128 pc (pc + 4) 0 s1

/-! ## Control transfer (42_control.md R261, 50_pipeline.md R337, R353) -/

/-- A control transfer at `pc` resolved against the next address `predNext` its fetch had predicted: the predictor is
updated and a wrong prediction counted (42_control.md R261). -/
def resolveControl (pc predNext : Word) (taken : Bool) (next : Word) (s : State) : State :=
  countMispredict (next != predNext) { s with predictor := train s.params s.predictor pc taken next }

end Sys2Proof.Machine
end

