-- ==== Sys2Proof/Machine/Operands.lean ====
section
/-! DEFINITION. The operand forms: sign-extended immediates (spec/30_encoding.md R166), the one addressing mode
(41_loadstore.md R230), control targets (42_control.md R251), the extension of loaded values, and the four lanes of a
vector register (10_state.md R26, 44_simd.md R285). -/

namespace Sys2Proof.Machine

/-- `sext_64(imm16)` (30_encoding.md R166). -/
def simm16 (imm : BitVec 16) : Word := imm.signExtend 64

/-- `sext_64(imm26)` (30_encoding.md R166). -/
def simm26 (imm : BitVec 26) : Word := imm.signExtend 64

/-- `ea := (base + sext_64(imm16)) mod 2^64` (41_loadstore.md R230). -/
def addrOf (base : Word) (imm : BitVec 16) : Word := base + simm16 imm

/-- The effective address of a load or store in a state (41_loadstore.md R230, 44_simd.md R310). -/
def effAddr (s : State) (rs1 : Reg) (imm : BitVec 16) : Word := addrOf (getX s rs1) imm

/-- The target of a conditional branch at `pc` (42_control.md R251). -/
def branchTarget (pc : Word) (imm : BitVec 16) : Word := pc + simm16 imm

/-- The target of JMP or CALL at `pc` (42_control.md R251). -/
def jumpTarget (pc : Word) (imm : BitVec 26) : Word := pc + simm26 imm

/-- Where a conditional branch at `pc` goes: the target where the condition holds, else `pc + 4`
(42_control.md R252 to R257). -/
def branchNext (pc : Word) (imm : BitVec 16) (taken : Bool) : Word := if taken then branchTarget pc imm else pc + 4

/-- The low `n` bytes of a loaded value, sign-extended to 64 bits (41_loadstore.md R232 to R235; for `n` = 8 all of
them). -/
def loadedWord (n : Nat) (val : VWord) : Word := (val.setWidth (8 * n)).signExtend 64

/-- The value a scalar store hands on: the register's low `n` bytes are stored (41_loadstore.md R230, R237 to R240). That
`sdata` of SB, SH and SW holds the whole register above them is a DESIGN CHOICE (log entry 22). -/
def storedValue (w : Word) : VWord := w.setWidth 256

/-- Lane `k`, bits `64k + 63` to `64k` (10_state.md R26). -/
def lane (a : VWord) (k : Nat) : Word := a.extractLsb' (64 * k) 64

/-- The vector value of four lanes, lane 0 least significant. -/
def ofLanes (l0 l1 l2 l3 : Word) : VWord := l3 ++ l2 ++ l1 ++ l0

/-- An operation applied to the lanes of one value (44_simd.md R285). -/
def lanes1 (op : Word → Word) (a : VWord) : VWord :=
  ofLanes (op (lane a 0)) (op (lane a 1)) (op (lane a 2)) (op (lane a 3))

/-- An operation applied lane by lane to two values (44_simd.md R285). -/
def lanes2 (op : Word → Word → Word) (a b : VWord) : VWord :=
  ofLanes (op (lane a 0) (lane b 0)) (op (lane a 1) (lane b 1)) (op (lane a 2) (lane b 2)) (op (lane a 3) (lane b 3))

/-- An operation applied lane by lane to three values (44_simd.md R308). -/
def lanes3 (op : Word → Word → Word → Word) (a b c : VWord) : VWord :=
  ofLanes (op (lane a 0) (lane b 0) (lane c 0)) (op (lane a 1) (lane b 1) (lane c 1))
    (op (lane a 2) (lane b 2) (lane c 2)) (op (lane a 3) (lane b 3) (lane c 3))

/-- The lane function of a scalar ALU operation: its result without the flags (44_simd.md R285, section 2). -/
def resultOf (op : Word → Word → AluOut) (a b : Word) : Word := (op a b).r

end Sys2Proof.Machine
end

