-- ==== Sys2Proof/Machine/ExecAlu.lean ====
section
/-! DEFINITION. The scalar ALU instructions and LD (spec/40_alu.md R200 to R222): one meaning each. -/

namespace Sys2Proof.Machine

/-- The template of 40_alu.md R200: the result to `rd`, the four flags (also where `rd` is R0), one instruction
retired, `pc + 4`. -/
def finishAlu (rd : Reg) (o : AluOut) (s : State) : State := advance (countRetired (setNzcv o.nzcv (setX rd o.r s)))

/-- CMP and TEST: the flags only (40_alu.md R217, R218). -/
def finishCompare (f : Nzcv) (s : State) : State := advance (countRetired (setNzcv f s))

/-- ADD (40_alu.md R201). -/
def execAdd (rd rs1 rs2 : Reg) (s : State) : Host.Outcome State Fault Refusal :=
  .next (finishAlu rd (aluAdd (getX s rs1) (getX s rs2)) s)

/-- SUB (40_alu.md R202). -/
def execSub (rd rs1 rs2 : Reg) (s : State) : Host.Outcome State Fault Refusal :=
  .next (finishAlu rd (aluSub (getX s rs1) (getX s rs2)) s)

/-- MUL (40_alu.md R203). -/
def execMul (rd rs1 rs2 : Reg) (s : State) : Host.Outcome State Fault Refusal :=
  .next (finishAlu rd (aluMul (getX s rs1) (getX s rs2)) s)

/-- MULH (40_alu.md R204). -/
def execMulh (rd rs1 rs2 : Reg) (s : State) : Host.Outcome State Fault Refusal :=
  .next (finishAlu rd (aluMulh (getX s rs1) (getX s rs2)) s)

/-- DIV (40_alu.md R205). -/
def execDiv (rd rs1 rs2 : Reg) (s : State) : Host.Outcome State Fault Refusal :=
  .next (finishAlu rd (aluDiv (getX s rs1) (getX s rs2)) s)

/-- MOD (40_alu.md R206). -/
def execMod (rd rs1 rs2 : Reg) (s : State) : Host.Outcome State Fault Refusal :=
  .next (finishAlu rd (aluMod (getX s rs1) (getX s rs2)) s)

/-- AND (40_alu.md R207). -/
def execAnd (rd rs1 rs2 : Reg) (s : State) : Host.Outcome State Fault Refusal :=
  .next (finishAlu rd (aluAnd (getX s rs1) (getX s rs2)) s)

/-- OR (40_alu.md R208). -/
def execOr (rd rs1 rs2 : Reg) (s : State) : Host.Outcome State Fault Refusal :=
  .next (finishAlu rd (aluOr (getX s rs1) (getX s rs2)) s)

/-- XOR (40_alu.md R209). -/
def execXor (rd rs1 rs2 : Reg) (s : State) : Host.Outcome State Fault Refusal :=
  .next (finishAlu rd (aluXor (getX s rs1) (getX s rs2)) s)

/-- NOT (40_alu.md R210); `x[rs2]` is not read. -/
def execNot (rd rs1 : Reg) (s : State) : Host.Outcome State Fault Refusal :=
  .next (finishAlu rd (aluNot (getX s rs1)) s)

/-- SHL (40_alu.md R212). -/
def execShl (rd rs1 rs2 : Reg) (s : State) : Host.Outcome State Fault Refusal :=
  .next (finishAlu rd (aluShl (getX s rs1) (getX s rs2)) s)

/-- SHR (40_alu.md R213). -/
def execShr (rd rs1 rs2 : Reg) (s : State) : Host.Outcome State Fault Refusal :=
  .next (finishAlu rd (aluShr (getX s rs1) (getX s rs2)) s)

/-- SAR (40_alu.md R214). -/
def execSar (rd rs1 rs2 : Reg) (s : State) : Host.Outcome State Fault Refusal :=
  .next (finishAlu rd (aluSar (getX s rs1) (getX s rs2)) s)

/-- ROL (40_alu.md R215). -/
def execRol (rd rs1 rs2 : Reg) (s : State) : Host.Outcome State Fault Refusal :=
  .next (finishAlu rd (aluRol (getX s rs1) (getX s rs2)) s)

/-- ROR (40_alu.md R216). -/
def execRor (rd rs1 rs2 : Reg) (s : State) : Host.Outcome State Fault Refusal :=
  .next (finishAlu rd (aluRor (getX s rs1) (getX s rs2)) s)

/-- CMP (40_alu.md R217): the flags of SUB, no register written. -/
def execCmp (rs1 rs2 : Reg) (s : State) : Host.Outcome State Fault Refusal :=
  .next (finishCompare (aluCmp (getX s rs1) (getX s rs2)) s)

/-- TEST (40_alu.md R218): the flags of AND, no register written. -/
def execTest (rs1 rs2 : Reg) (s : State) : Host.Outcome State Fault Refusal :=
  .next (finishCompare (aluTest (getX s rs1) (getX s rs2)) s)

/-- LD, load immediate (40_alu.md R219): no flag, no memory access. -/
def execLd (rd : Reg) (imm : BitVec 16) (s : State) : Host.Outcome State Fault Refusal :=
  .next (advance (countRetired (setX rd (simm16 imm) s)))

end Sys2Proof.Machine
end

