-- ==== Sys2Proof/Machine/ExecControl.lean ====
section
/-! DEFINITION. The control transfers (spec/42_control.md R249 to R262): one meaning each. The prediction a transfer is
compared with is the one the fetch at its address would make now (50_pipeline.md R351; log entry 9). -/

namespace Sys2Proof.Machine

/-- A control transfer that goes to `next` (42_control.md R260, R261): the predictor is updated, a wrong prediction
counted, one instruction retired; `pc <- next`. -/
def finishControl (taken : Bool) (next : Word) (s : State) : State :=
  setPc next (countRetired (resolveControl s.pc (predict s.params s.predictor s.pc) taken next s))

/-- A conditional branch (42_control.md section 3). -/
def finishBranch (taken : Bool) (imm : BitVec 16) (s : State) : State :=
  finishControl taken (branchNext s.pc imm taken) s

/-- BEQ (42_control.md R252): `ra` is the `rd` field, `rb` the `rs1` field. -/
def execBeq (ra rb : Reg) (imm : BitVec 16) (s : State) : Host.Outcome State Fault Refusal :=
  .next (finishBranch (condEq (getX s ra) (getX s rb)) imm s)

/-- BNE (42_control.md R253): `ra` is the `rd` field, `rb` the `rs1` field. -/
def execBne (ra rb : Reg) (imm : BitVec 16) (s : State) : Host.Outcome State Fault Refusal :=
  .next (finishBranch (condNe (getX s ra) (getX s rb)) imm s)

/-- BLT (42_control.md R254): `ra` is the `rd` field, `rb` the `rs1` field. -/
def execBlt (ra rb : Reg) (imm : BitVec 16) (s : State) : Host.Outcome State Fault Refusal :=
  .next (finishBranch (condLt (getX s ra) (getX s rb)) imm s)

/-- BGE (42_control.md R255): `ra` is the `rd` field, `rb` the `rs1` field. -/
def execBge (ra rb : Reg) (imm : BitVec 16) (s : State) : Host.Outcome State Fault Refusal :=
  .next (finishBranch (condGe (getX s ra) (getX s rb)) imm s)

/-- BLTU (42_control.md R256): `ra` is the `rd` field, `rb` the `rs1` field. -/
def execBltu (ra rb : Reg) (imm : BitVec 16) (s : State) : Host.Outcome State Fault Refusal :=
  .next (finishBranch (condLtu (getX s ra) (getX s rb)) imm s)

/-- BGEU (42_control.md R257): `ra` is the `rd` field, `rb` the `rs1` field. -/
def execBgeu (ra rb : Reg) (imm : BitVec 16) (s : State) : Host.Outcome State Fault Refusal :=
  .next (finishBranch (condGeu (getX s ra) (getX s rb)) imm s)

/-- JMP (42_control.md R250). -/
def execJmp (imm : BitVec 26) (s : State) : Host.Outcome State Fault Refusal :=
  .next (finishControl true (jumpTarget s.pc imm) s)

/-- CALL (42_control.md R258): R31 gets the address behind the CALL. -/
def execCall (imm : BitVec 26) (s : State) : Host.Outcome State Fault Refusal :=
  .next (setX 31 (s.pc + 4) (finishControl true (jumpTarget s.pc imm) s))

/-- RET (42_control.md R259): to the address in R31. -/
def execRet (s : State) : Host.Outcome State Fault Refusal :=
  .next (finishControl true (getX s 31) s)

end Sys2Proof.Machine
end

