-- ==== Sys2Proof/Machine/ExecMem.lean ====
section
/-! DEFINITION. The scalar loads and stores (spec/41_loadstore.md R230 to R242): one meaning each. -/

namespace Sys2Proof.Machine

/-- A load of `n` bytes from `ea` (41_loadstore.md R230, R231, R242): what the access returns goes where `commit` puts
it; an exception is taken with the instruction's own address as return address. -/
def loadWith (commit : VWord → State → State) (ea : Word) (n : Nat) (s : State) : Host.Outcome State Fault Refusal :=
  match memRead s ea n with
  | .raised e t => .next (deliver e s.pc t)
  | .done val t => .next (advance (countRetired (commit val (countMemOp t))))

/-- A store of the low `n` bytes of `val` to `ea` (41_loadstore.md R230, R231, R242). `retire` counts the retirement. -/
def storeWith (retire : State → State) (ea : Word) (n : Nat) (val : VWord) (s : State) : Host.Outcome State Fault Refusal :=
  match memWrite s ea n val with
  | .raised e t => .next (deliver e s.pc t)
  | .done _ t => .next (advance (retire (countMemOp t)))

/-- LB (41_loadstore.md R232): 1 byte, sign-extended. -/
def execLb (rd rs1 : Reg) (imm : BitVec 16) (s : State) : Host.Outcome State Fault Refusal :=
  loadWith (fun val => setX rd (loadedWord 1 val)) (effAddr s rs1 imm) 1 s

/-- LH (41_loadstore.md R233): 2 bytes, sign-extended. -/
def execLh (rd rs1 : Reg) (imm : BitVec 16) (s : State) : Host.Outcome State Fault Refusal :=
  loadWith (fun val => setX rd (loadedWord 2 val)) (effAddr s rs1 imm) 2 s

/-- LW (41_loadstore.md R234): 4 bytes, sign-extended. -/
def execLw (rd rs1 : Reg) (imm : BitVec 16) (s : State) : Host.Outcome State Fault Refusal :=
  loadWith (fun val => setX rd (loadedWord 4 val)) (effAddr s rs1 imm) 4 s

/-- LDD (41_loadstore.md R235): 8 bytes. -/
def execLdd (rd rs1 : Reg) (imm : BitVec 16) (s : State) : Host.Outcome State Fault Refusal :=
  loadWith (fun val => setX rd (loadedWord 8 val)) (effAddr s rs1 imm) 8 s

/-- ST (41_loadstore.md R237): the low 8 bytes of `x[rd]`. -/
def execSt (rd rs1 : Reg) (imm : BitVec 16) (s : State) : Host.Outcome State Fault Refusal :=
  storeWith countRetired (effAddr s rs1 imm) 8 (storedValue (getX s rd)) s

/-- SW (41_loadstore.md R238): the low 4 bytes of `x[rd]`. -/
def execSw (rd rs1 : Reg) (imm : BitVec 16) (s : State) : Host.Outcome State Fault Refusal :=
  storeWith countRetired (effAddr s rs1 imm) 4 (storedValue (getX s rd)) s

/-- SH (41_loadstore.md R239): the low 2 bytes of `x[rd]`. -/
def execSh (rd rs1 : Reg) (imm : BitVec 16) (s : State) : Host.Outcome State Fault Refusal :=
  storeWith countRetired (effAddr s rs1 imm) 2 (storedValue (getX s rd)) s

/-- SB (41_loadstore.md R240): the low 1 byte of `x[rd]`. -/
def execSb (rd rs1 : Reg) (imm : BitVec 16) (s : State) : Host.Outcome State Fault Refusal :=
  storeWith countRetired (effAddr s rs1 imm) 1 (storedValue (getX s rd)) s

end Sys2Proof.Machine
end

