-- ==== Sys2Proof/Machine/ExecSimd.lean ====
section
/-! DEFINITION. The vector instructions (spec/44_simd.md R285 to R312): one meaning each. None touches the flags
(R287); each counts in `PERF[7]`. -/

namespace Sys2Proof.Machine

/-- A vector instruction retires: `PERF[0]` and `PERF[7]` (50_pipeline.md R340 c). -/
def retireSimd (s : State) : State := countSimd (countRetired s)

/-- The template of 44_simd.md R285: the result to `vd`, one vector instruction retired, `pc + 4`. -/
def finishVector (vd : VReg) (r : VWord) (s : State) : State := advance (retireSimd (setV vd r s))

/-- VADD (44_simd.md R290). -/
def execVadd (vd vs1 vs2 : VReg) (s : State) : Host.Outcome State Fault Refusal :=
  .next (finishVector vd (lanes2 (resultOf aluAdd) (getV s vs1) (getV s vs2)) s)

/-- VSUB (44_simd.md R291). -/
def execVsub (vd vs1 vs2 : VReg) (s : State) : Host.Outcome State Fault Refusal :=
  .next (finishVector vd (lanes2 (resultOf aluSub) (getV s vs1) (getV s vs2)) s)

/-- VMUL (44_simd.md R292). -/
def execVmul (vd vs1 vs2 : VReg) (s : State) : Host.Outcome State Fault Refusal :=
  .next (finishVector vd (lanes2 (resultOf aluMul) (getV s vs1) (getV s vs2)) s)

/-- VMULH (44_simd.md R293). -/
def execVmulh (vd vs1 vs2 : VReg) (s : State) : Host.Outcome State Fault Refusal :=
  .next (finishVector vd (lanes2 (resultOf aluMulh) (getV s vs1) (getV s vs2)) s)

/-- VDIV (44_simd.md R294). -/
def execVdiv (vd vs1 vs2 : VReg) (s : State) : Host.Outcome State Fault Refusal :=
  .next (finishVector vd (lanes2 (resultOf aluDiv) (getV s vs1) (getV s vs2)) s)

/-- VMOD (44_simd.md R295). -/
def execVmod (vd vs1 vs2 : VReg) (s : State) : Host.Outcome State Fault Refusal :=
  .next (finishVector vd (lanes2 (resultOf aluMod) (getV s vs1) (getV s vs2)) s)

/-- VAND (44_simd.md R296). -/
def execVand (vd vs1 vs2 : VReg) (s : State) : Host.Outcome State Fault Refusal :=
  .next (finishVector vd (lanes2 (resultOf aluAnd) (getV s vs1) (getV s vs2)) s)

/-- VOR (44_simd.md R297). -/
def execVor (vd vs1 vs2 : VReg) (s : State) : Host.Outcome State Fault Refusal :=
  .next (finishVector vd (lanes2 (resultOf aluOr) (getV s vs1) (getV s vs2)) s)

/-- VXOR (44_simd.md R298). -/
def execVxor (vd vs1 vs2 : VReg) (s : State) : Host.Outcome State Fault Refusal :=
  .next (finishVector vd (lanes2 (resultOf aluXor) (getV s vs1) (getV s vs2)) s)

/-- VNOT (44_simd.md R299); `v[vs2]` is not read. -/
def execVnot (vd vs1 : VReg) (s : State) : Host.Outcome State Fault Refusal :=
  .next (finishVector vd (lanes1 (fun a => (aluNot a).r) (getV s vs1)) s)

/-- VSHL (44_simd.md R300). -/
def execVshl (vd vs1 vs2 : VReg) (s : State) : Host.Outcome State Fault Refusal :=
  .next (finishVector vd (lanes2 (resultOf aluShl) (getV s vs1) (getV s vs2)) s)

/-- VSHR (44_simd.md R301). -/
def execVshr (vd vs1 vs2 : VReg) (s : State) : Host.Outcome State Fault Refusal :=
  .next (finishVector vd (lanes2 (resultOf aluShr) (getV s vs1) (getV s vs2)) s)

/-- VSAR (44_simd.md R302). -/
def execVsar (vd vs1 vs2 : VReg) (s : State) : Host.Outcome State Fault Refusal :=
  .next (finishVector vd (lanes2 (resultOf aluSar) (getV s vs1) (getV s vs2)) s)

/-- VROL (44_simd.md R303). -/
def execVrol (vd vs1 vs2 : VReg) (s : State) : Host.Outcome State Fault Refusal :=
  .next (finishVector vd (lanes2 (resultOf aluRol) (getV s vs1) (getV s vs2)) s)

/-- VROR (44_simd.md R304). -/
def execVror (vd vs1 vs2 : VReg) (s : State) : Host.Outcome State Fault Refusal :=
  .next (finishVector vd (lanes2 (resultOf aluRor) (getV s vs1) (getV s vs2)) s)

/-- VADD.F64 (44_simd.md R305). -/
def execVaddf64 (vd vs1 vs2 : VReg) (s : State) : Host.Outcome State Fault Refusal :=
  .next (finishVector vd (lanes2 f64Add (getV s vs1) (getV s vs2)) s)

/-- VSUB.F64 (44_simd.md R306). -/
def execVsubf64 (vd vs1 vs2 : VReg) (s : State) : Host.Outcome State Fault Refusal :=
  .next (finishVector vd (lanes2 f64Sub (getV s vs1) (getV s vs2)) s)

/-- VMUL.F64 (44_simd.md R307). -/
def execVmulf64 (vd vs1 vs2 : VReg) (s : State) : Host.Outcome State Fault Refusal :=
  .next (finishVector vd (lanes2 f64Mul (getV s vs1) (getV s vs2)) s)

/-- VFMA.F64 (44_simd.md R308): the addend is the old `v[vd]`. -/
def execVfmaf64 (vd vs1 vs2 : VReg) (s : State) : Host.Outcome State Fault Refusal :=
  .next (finishVector vd (lanes3 f64Fma (getV s vs1) (getV s vs2) (getV s vd)) s)

/-- VLOAD (44_simd.md R310): 32 bytes. -/
def execVload (vd : VReg) (rs1 : Reg) (imm : BitVec 16) (s : State) : Host.Outcome State Fault Refusal :=
  loadWith (fun val t => countSimd (setV vd val t)) (effAddr s rs1 imm) 32 s

/-- VSTORE (44_simd.md R311): 32 bytes. -/
def execVstore (vs : VReg) (rs1 : Reg) (imm : BitVec 16) (s : State) : Host.Outcome State Fault Refusal :=
  storeWith retireSimd (effAddr s rs1 imm) 32 (getV s vs) s

end Sys2Proof.Machine
end

