-- ==== Sys2Proof/WellFormed.lean ====
section
/-! DEFINITION. Which instructions an encoding stands for (spec/30_encoding.md R168, R173). The types of the fields
already bound every register number; what is left is the parameter `STRICT_RESERVED`, under which a field the
instruction does not use must be 0. -/

namespace Sys2Proof

/-- Every field the instruction does not use is 0 (30_encoding.md R168: `shamt` and `funct` of every R-type
instruction; `rs2` of NOT; `rd` of CMP and TEST; `rs1` of LD; `imm26` of RET, SYSCALL, HALT, NOP and IRET). -/
def Instr.unusedFieldsZero : Instr → Bool
  | .add _ _ _ shamt funct => shamt == 0 && funct == 0
  | .sub _ _ _ shamt funct => shamt == 0 && funct == 0
  | .mul _ _ _ shamt funct => shamt == 0 && funct == 0
  | .mulh _ _ _ shamt funct => shamt == 0 && funct == 0
  | .div _ _ _ shamt funct => shamt == 0 && funct == 0
  | .mod _ _ _ shamt funct => shamt == 0 && funct == 0
  | .and _ _ _ shamt funct => shamt == 0 && funct == 0
  | .or _ _ _ shamt funct => shamt == 0 && funct == 0
  | .xor _ _ _ shamt funct => shamt == 0 && funct == 0
  | .not _ _ rs2 shamt funct => rs2 == 0 && shamt == 0 && funct == 0
  | .shl _ _ _ shamt funct => shamt == 0 && funct == 0
  | .shr _ _ _ shamt funct => shamt == 0 && funct == 0
  | .sar _ _ _ shamt funct => shamt == 0 && funct == 0
  | .rol _ _ _ shamt funct => shamt == 0 && funct == 0
  | .ror _ _ _ shamt funct => shamt == 0 && funct == 0
  | .ld _ rs1 _ => rs1 == 0
  | .lw _ _ _ => true
  | .lh _ _ _ => true
  | .lb _ _ _ => true
  | .st _ _ _ => true
  | .sw _ _ _ => true
  | .sh _ _ _ => true
  | .sb _ _ _ => true
  | .beq _ _ _ => true
  | .bne _ _ _ => true
  | .blt _ _ _ => true
  | .bge _ _ _ => true
  | .bltu _ _ _ => true
  | .bgeu _ _ _ => true
  | .jmp _ => true
  | .call _ => true
  | .ret imm => imm == 0
  | .syscall imm => imm == 0
  | .halt imm => imm == 0
  | .nop imm => imm == 0
  | .cmp rd _ _ shamt funct => rd == 0 && shamt == 0 && funct == 0
  | .test rd _ _ shamt funct => rd == 0 && shamt == 0 && funct == 0
  | .ldd _ _ _ => true
  | .iret imm => imm == 0
  | .vadd _ _ _ => true
  | .vsub _ _ _ => true
  | .vmul _ _ _ => true
  | .vmulh _ _ _ => true
  | .vdiv _ _ _ => true
  | .vmod _ _ _ => true
  | .vand _ _ _ => true
  | .vor _ _ _ => true
  | .vxor _ _ _ => true
  | .vnot _ _ _ => true
  | .vshl _ _ _ => true
  | .vshr _ _ _ => true
  | .vsar _ _ _ => true
  | .vrol _ _ _ => true
  | .vror _ _ _ => true
  | .vaddf64 _ _ _ => true
  | .vsubf64 _ _ _ => true
  | .vmulf64 _ _ _ => true
  | .vfmaf64 _ _ _ => true
  | .vload _ _ _ => true
  | .vstore _ _ _ => true

/-- The instruction has an encoding under the parameter `STRICT_RESERVED` (30_encoding.md R168). -/
def Instr.wellFormed (strict : Bool) (i : Instr) : Bool := !strict || i.unusedFieldsZero

end Sys2Proof
end

