-- ==== Sys2Proof/Decode.lean ====
section
/-! DEFINITION. The decoder and the encoder (spec/30_encoding.md R160 to R175). Decode is a total function of the word
and the parameter `STRICT_RESERVED` and reads nothing else (R175); it answers `none` for an illegal word. -/

namespace Sys2Proof

/-! ## Fields (30_encoding.md R161 to R164) -/

/-- `opcode[31:26]`. -/
def fOpcode (w : IWord) : BitVec 6 := w.extractLsb' 26 6

/-- `rd[25:21]`, the same place in the R, I and V formats. -/
def fRd (w : IWord) : Reg := w.extractLsb' 21 5

/-- `rs1[20:16]`. -/
def fRs1 (w : IWord) : Reg := w.extractLsb' 16 5

/-- `rs2[15:11]`. -/
def fRs2 (w : IWord) : Reg := w.extractLsb' 11 5

/-- `shamt[10:6]` of the R format. -/
def fShamt (w : IWord) : BitVec 5 := w.extractLsb' 6 5

/-- `funct[5:0]` of the R format. -/
def fFunct (w : IWord) : BitVec 6 := w.extractLsb' 0 6

/-- `imm16[15:0]` of the I format. -/
def fImm16 (w : IWord) : BitVec 16 := w.extractLsb' 0 16

/-- `imm26[25:0]` of the J format. -/
def fImm26 (w : IWord) : BitVec 26 := w.extractLsb' 0 26

/-- `vmask[10:8]` of the V format. -/
def fVmask (w : IWord) : BitVec 3 := w.extractLsb' 8 3

/-- `vfunct[7:0]` of the V format. -/
def fVfunct (w : IWord) : BitVec 8 := w.extractLsb' 0 8

/-- The low four bits of a 5-bit vector register field: the register's number where the field is legal. -/
def vregOf (f : Reg) : VReg := f.setWidth 4

/-- A 5-bit vector register field is 16 or more (30_encoding.md R173: bit 25, 20 or 15 set). -/
def vregIllegal (f : Reg) : Bool := f.msb

/-! ## The opcode map (30_encoding.md R170, R171), one table each (00_scope.md R10, `OPCODE_MAP`; log entry 23) -/

/-- The primary opcodes other than 0x30, each with what it makes of the word (30_encoding.md R170). That `OPCODE_MAP` is
fixed here and no parameter is a DESIGN CHOICE: 00_scope.md R10 calls it decided, 92_eei_decisions.md D1 and section 7 a
parameter (log entry 23). -/
def primaryTable : List (BitVec 6 × (IWord → Instr)) := [
  (0x00#6, fun w => .add (fRd w) (fRs1 w) (fRs2 w) (fShamt w) (fFunct w)),
  (0x01#6, fun w => .sub (fRd w) (fRs1 w) (fRs2 w) (fShamt w) (fFunct w)),
  (0x02#6, fun w => .mul (fRd w) (fRs1 w) (fRs2 w) (fShamt w) (fFunct w)),
  (0x03#6, fun w => .mulh (fRd w) (fRs1 w) (fRs2 w) (fShamt w) (fFunct w)),
  (0x04#6, fun w => .div (fRd w) (fRs1 w) (fRs2 w) (fShamt w) (fFunct w)),
  (0x05#6, fun w => .mod (fRd w) (fRs1 w) (fRs2 w) (fShamt w) (fFunct w)),
  (0x06#6, fun w => .and (fRd w) (fRs1 w) (fRs2 w) (fShamt w) (fFunct w)),
  (0x07#6, fun w => .or (fRd w) (fRs1 w) (fRs2 w) (fShamt w) (fFunct w)),
  (0x08#6, fun w => .xor (fRd w) (fRs1 w) (fRs2 w) (fShamt w) (fFunct w)),
  (0x09#6, fun w => .not (fRd w) (fRs1 w) (fRs2 w) (fShamt w) (fFunct w)),
  (0x0A#6, fun w => .shl (fRd w) (fRs1 w) (fRs2 w) (fShamt w) (fFunct w)),
  (0x0B#6, fun w => .shr (fRd w) (fRs1 w) (fRs2 w) (fShamt w) (fFunct w)),
  (0x0C#6, fun w => .sar (fRd w) (fRs1 w) (fRs2 w) (fShamt w) (fFunct w)),
  (0x0D#6, fun w => .rol (fRd w) (fRs1 w) (fRs2 w) (fShamt w) (fFunct w)),
  (0x0E#6, fun w => .ror (fRd w) (fRs1 w) (fRs2 w) (fShamt w) (fFunct w)),
  (0x0F#6, fun w => .ld (fRd w) (fRs1 w) (fImm16 w)),
  (0x10#6, fun w => .lw (fRd w) (fRs1 w) (fImm16 w)),
  (0x11#6, fun w => .lh (fRd w) (fRs1 w) (fImm16 w)),
  (0x12#6, fun w => .lb (fRd w) (fRs1 w) (fImm16 w)),
  (0x13#6, fun w => .st (fRd w) (fRs1 w) (fImm16 w)),
  (0x14#6, fun w => .sw (fRd w) (fRs1 w) (fImm16 w)),
  (0x15#6, fun w => .sh (fRd w) (fRs1 w) (fImm16 w)),
  (0x16#6, fun w => .sb (fRd w) (fRs1 w) (fImm16 w)),
  (0x17#6, fun w => .beq (fRd w) (fRs1 w) (fImm16 w)),
  (0x18#6, fun w => .bne (fRd w) (fRs1 w) (fImm16 w)),
  (0x19#6, fun w => .blt (fRd w) (fRs1 w) (fImm16 w)),
  (0x1A#6, fun w => .bge (fRd w) (fRs1 w) (fImm16 w)),
  (0x1B#6, fun w => .bltu (fRd w) (fRs1 w) (fImm16 w)),
  (0x1C#6, fun w => .bgeu (fRd w) (fRs1 w) (fImm16 w)),
  (0x1D#6, fun w => .jmp (fImm26 w)),
  (0x1E#6, fun w => .call (fImm26 w)),
  (0x1F#6, fun w => .ret (fImm26 w)),
  (0x20#6, fun w => .syscall (fImm26 w)),
  (0x21#6, fun w => .halt (fImm26 w)),
  (0x22#6, fun w => .nop (fImm26 w)),
  (0x23#6, fun w => .cmp (fRd w) (fRs1 w) (fRs2 w) (fShamt w) (fFunct w)),
  (0x24#6, fun w => .test (fRd w) (fRs1 w) (fRs2 w) (fShamt w) (fFunct w)),
  (0x25#6, fun w => .ldd (fRd w) (fRs1 w) (fImm16 w)),
  (0x26#6, fun w => .iret (fImm26 w)),
  (0x31#6, fun w => .vload (vregOf (fRd w)) (fRs1 w) (fImm16 w)),
  (0x32#6, fun w => .vstore (vregOf (fRd w)) (fRs1 w) (fImm16 w))]

/-- The `vfunct` values under opcode 0x30 (30_encoding.md R171). -/
def vfunctTable : List (BitVec 8 × (VReg → VReg → VReg → Instr)) := [
  (0x00#8, .vadd),
  (0x01#8, .vsub),
  (0x02#8, .vmul),
  (0x03#8, .vmulh),
  (0x04#8, .vdiv),
  (0x05#8, .vmod),
  (0x06#8, .vand),
  (0x07#8, .vor),
  (0x08#8, .vxor),
  (0x09#8, .vnot),
  (0x0A#8, .vshl),
  (0x0B#8, .vshr),
  (0x0C#8, .vsar),
  (0x0D#8, .vrol),
  (0x0E#8, .vror),
  (0x10#8, .vaddf64),
  (0x11#8, .vsubf64),
  (0x12#8, .vmulf64),
  (0x13#8, .vfmaf64)]

/-! ## Decode -/

/-- A word of opcode 0x30 (30_encoding.md R173): illegal if `vmask` is not 0, a register field is 16 or more, used or
not, or `vfunct` is not in the map. -/
def decodeVector (w : IWord) : Option Instr :=
  if fVmask w != 0 || vregIllegal (fRd w) || vregIllegal (fRs1 w) || vregIllegal (fRs2 w) then none
  else (vfunctTable.lookup (fVfunct w)).map fun mk => mk (vregOf (fRd w)) (vregOf (fRs1 w)) (vregOf (fRs2 w))

/-- A word of any other opcode (30_encoding.md R172, R173): illegal if the opcode is not in the map, or it is VLOAD
or VSTORE with `rd` 16 or more. -/
def decodePrimary (w : IWord) : Option Instr :=
  if (fOpcode w == 0x31#6 || fOpcode w == 0x32#6) && vregIllegal (fRd w) then none
  else (primaryTable.lookup (fOpcode w)).map fun mk => mk w

/-- The instruction a word is, or `none` if it is illegal (30_encoding.md R165, R172, R173, R175). `strict` is the
parameter `STRICT_RESERVED` (R168). -/
def decode (strict : Bool) (w : IWord) : Option Instr :=
  (if fOpcode w == 0x30#6 then decodeVector w else decodePrimary w).filter (·.wellFormed strict)

/-! ## Encode -/

/-- An R-type word (30_encoding.md R161). -/
def encodeR (op : BitVec 6) (rd rs1 rs2 : Reg) (shamt : BitVec 5) (funct : BitVec 6) : IWord :=
  op ++ rd ++ rs1 ++ rs2 ++ shamt ++ funct

/-- An I-type word (30_encoding.md R162). -/
def encodeI (op : BitVec 6) (rd rs1 : Reg) (imm : BitVec 16) : IWord := op ++ rd ++ rs1 ++ imm

/-- A J-type word (30_encoding.md R163). -/
def encodeJ (op : BitVec 6) (imm : BitVec 26) : IWord := op ++ imm

/-- A V-type word (30_encoding.md R164) with `vmask` 0 and register numbers below 16. -/
def encodeV (vfunct : BitVec 8) (vd vs1 vs2 : VReg) : IWord :=
  0x30#6 ++ vd.setWidth 5 ++ vs1.setWidth 5 ++ vs2.setWidth 5 ++ 0#3 ++ vfunct

/-- The word of an instruction (30_encoding.md R161 to R171), the numbers of the opcode map written out again (log entry
23). -/
def encode : Instr → IWord
  | .add rd rs1 rs2 shamt funct => encodeR 0x00#6 rd rs1 rs2 shamt funct
  | .sub rd rs1 rs2 shamt funct => encodeR 0x01#6 rd rs1 rs2 shamt funct
  | .mul rd rs1 rs2 shamt funct => encodeR 0x02#6 rd rs1 rs2 shamt funct
  | .mulh rd rs1 rs2 shamt funct => encodeR 0x03#6 rd rs1 rs2 shamt funct
  | .div rd rs1 rs2 shamt funct => encodeR 0x04#6 rd rs1 rs2 shamt funct
  | .mod rd rs1 rs2 shamt funct => encodeR 0x05#6 rd rs1 rs2 shamt funct
  | .and rd rs1 rs2 shamt funct => encodeR 0x06#6 rd rs1 rs2 shamt funct
  | .or rd rs1 rs2 shamt funct => encodeR 0x07#6 rd rs1 rs2 shamt funct
  | .xor rd rs1 rs2 shamt funct => encodeR 0x08#6 rd rs1 rs2 shamt funct
  | .not rd rs1 rs2 shamt funct => encodeR 0x09#6 rd rs1 rs2 shamt funct
  | .shl rd rs1 rs2 shamt funct => encodeR 0x0A#6 rd rs1 rs2 shamt funct
  | .shr rd rs1 rs2 shamt funct => encodeR 0x0B#6 rd rs1 rs2 shamt funct
  | .sar rd rs1 rs2 shamt funct => encodeR 0x0C#6 rd rs1 rs2 shamt funct
  | .rol rd rs1 rs2 shamt funct => encodeR 0x0D#6 rd rs1 rs2 shamt funct
  | .ror rd rs1 rs2 shamt funct => encodeR 0x0E#6 rd rs1 rs2 shamt funct
  | .ld rd rs1 imm => encodeI 0x0F#6 rd rs1 imm
  | .lw rd rs1 imm => encodeI 0x10#6 rd rs1 imm
  | .lh rd rs1 imm => encodeI 0x11#6 rd rs1 imm
  | .lb rd rs1 imm => encodeI 0x12#6 rd rs1 imm
  | .st rd rs1 imm => encodeI 0x13#6 rd rs1 imm
  | .sw rd rs1 imm => encodeI 0x14#6 rd rs1 imm
  | .sh rd rs1 imm => encodeI 0x15#6 rd rs1 imm
  | .sb rd rs1 imm => encodeI 0x16#6 rd rs1 imm
  | .beq rd rs1 imm => encodeI 0x17#6 rd rs1 imm
  | .bne rd rs1 imm => encodeI 0x18#6 rd rs1 imm
  | .blt rd rs1 imm => encodeI 0x19#6 rd rs1 imm
  | .bge rd rs1 imm => encodeI 0x1A#6 rd rs1 imm
  | .bltu rd rs1 imm => encodeI 0x1B#6 rd rs1 imm
  | .bgeu rd rs1 imm => encodeI 0x1C#6 rd rs1 imm
  | .jmp imm => encodeJ 0x1D#6 imm
  | .call imm => encodeJ 0x1E#6 imm
  | .ret imm => encodeJ 0x1F#6 imm
  | .syscall imm => encodeJ 0x20#6 imm
  | .halt imm => encodeJ 0x21#6 imm
  | .nop imm => encodeJ 0x22#6 imm
  | .cmp rd rs1 rs2 shamt funct => encodeR 0x23#6 rd rs1 rs2 shamt funct
  | .test rd rs1 rs2 shamt funct => encodeR 0x24#6 rd rs1 rs2 shamt funct
  | .ldd rd rs1 imm => encodeI 0x25#6 rd rs1 imm
  | .iret imm => encodeJ 0x26#6 imm
  | .vadd vd vs1 vs2 => encodeV 0x00#8 vd vs1 vs2
  | .vsub vd vs1 vs2 => encodeV 0x01#8 vd vs1 vs2
  | .vmul vd vs1 vs2 => encodeV 0x02#8 vd vs1 vs2
  | .vmulh vd vs1 vs2 => encodeV 0x03#8 vd vs1 vs2
  | .vdiv vd vs1 vs2 => encodeV 0x04#8 vd vs1 vs2
  | .vmod vd vs1 vs2 => encodeV 0x05#8 vd vs1 vs2
  | .vand vd vs1 vs2 => encodeV 0x06#8 vd vs1 vs2
  | .vor vd vs1 vs2 => encodeV 0x07#8 vd vs1 vs2
  | .vxor vd vs1 vs2 => encodeV 0x08#8 vd vs1 vs2
  | .vnot vd vs1 vs2 => encodeV 0x09#8 vd vs1 vs2
  | .vshl vd vs1 vs2 => encodeV 0x0A#8 vd vs1 vs2
  | .vshr vd vs1 vs2 => encodeV 0x0B#8 vd vs1 vs2
  | .vsar vd vs1 vs2 => encodeV 0x0C#8 vd vs1 vs2
  | .vrol vd vs1 vs2 => encodeV 0x0D#8 vd vs1 vs2
  | .vror vd vs1 vs2 => encodeV 0x0E#8 vd vs1 vs2
  | .vaddf64 vd vs1 vs2 => encodeV 0x10#8 vd vs1 vs2
  | .vsubf64 vd vs1 vs2 => encodeV 0x11#8 vd vs1 vs2
  | .vmulf64 vd vs1 vs2 => encodeV 0x12#8 vd vs1 vs2
  | .vfmaf64 vd vs1 vs2 => encodeV 0x13#8 vd vs1 vs2
  | .vload vd rs1 imm => encodeI 0x31#6 (vd.setWidth 5) rs1 imm
  | .vstore vd rs1 imm => encodeI 0x32#6 (vd.setWidth 5) rs1 imm

/-! ## The words as the hardware stores them (20_memory.md R65) -/

/-- The instruction word whose four bytes, lowest address first, are given: little-endian (20_memory.md R65). -/
def wordOfBytes (b0 b1 b2 b3 : Byte) : IWord := b3 ++ b2 ++ b1 ++ b0

/-- Byte `j` of an instruction word, byte 0 at the lowest address (20_memory.md R65). -/
def byteOfWord (w : IWord) (j : Nat) : Byte := w.extractLsb' (8 * j) 8

/-- The instruction the decoder reads from the word of `nbits` bits numbered as spec/opcode_table.json numbers
them, laid out in memory byte by byte and read back as the fetch reads it, under the default parameters. -/
def decodeTableWord (nbits w : Nat) : Option Instr :=
  let iw : IWord := BitVec.ofNat 32 (w % 2 ^ nbits)
  decode false (wordOfBytes (byteOfWord iw 0) (byteOfWord iw 1) (byteOfWord iw 2) (byteOfWord iw 3))

end Sys2Proof
end

