-- ==== Sys2Proof/Machine/ExecSystem.lean ====
section
/-! DEFINITION. The system instructions (spec/43_system.md R270 to R278): one meaning each. Their effects are the
shared operations of Machine/Ops.lean. -/

namespace Sys2Proof.Machine

/-- SYSCALL (43_system.md R271, R272): legal in both modes; it retires and then traps. -/
def execSyscall (s : State) : Host.Outcome State Fault Refusal := .next (syscallTrap s.pc (countRetired s))

/-- The privilege check of HALT and IRET (43_system.md R277): the exception raised in user mode. -/
def privileged (i : Instr) (s : State) : Option Exc :=
  if userMode s then some (protectionFault (encode i) 1) else none

/-- The exception an instruction raises at retirement (50_pipeline.md R340 b): HALT and IRET in user mode, IRET with an
empty trap save stack (43_system.md R276, R277). -/
def retireExc (i : Instr) (s : State) : Option Exc :=
  match i with
  | .halt _ => privileged i s
  | .iret _ =>
    match privileged i s with
    | some e => some e
    | none => if s.ic.nest = 0 then some (protectionFault (encode i) 2) else none
  | _ => none

/-- HALT (43_system.md R274). -/
def execHalt (imm : BitVec 26) (s : State) : Host.Outcome State Fault Refusal :=
  match retireExc (.halt imm) s with
  | some e => .next (deliver e s.pc s)
  | none => .next (haltCore s.pc (countRetired s))

/-- NOP (43_system.md R275). -/
def execNop (s : State) : Host.Outcome State Fault Refusal := .next (advance (countRetired s))

/-- IRET (43_system.md R276). -/
def execIret (imm : BitVec 26) (s : State) : Host.Outcome State Fault Refusal :=
  match retireExc (.iret imm) s with
  | some e => .next (deliver e s.pc s)
  | none => .next (trapReturn (countRetired s))

end Sys2Proof.Machine
end

