-- ==== Sys2Proof/Machine/Dispatch.lean ====
section
/-! DEFINITION. One arm per instruction: what retiring it does to the state (spec/00_scope.md R8 level a). -/

namespace Sys2Proof.Machine

/-- The meaning of each of the 60 instructions. -/
def exec (i : Instr) (s : State) : Host.Outcome State Fault Refusal :=
  match i with
  | .add rd rs1 rs2 _ _ => Sys2Proof.Machine.execAdd rd rs1 rs2 s
  | .sub rd rs1 rs2 _ _ => Sys2Proof.Machine.execSub rd rs1 rs2 s
  | .mul rd rs1 rs2 _ _ => Sys2Proof.Machine.execMul rd rs1 rs2 s
  | .mulh rd rs1 rs2 _ _ => Sys2Proof.Machine.execMulh rd rs1 rs2 s
  | .div rd rs1 rs2 _ _ => Sys2Proof.Machine.execDiv rd rs1 rs2 s
  | .mod rd rs1 rs2 _ _ => Sys2Proof.Machine.execMod rd rs1 rs2 s
  | .and rd rs1 rs2 _ _ => Sys2Proof.Machine.execAnd rd rs1 rs2 s
  | .or rd rs1 rs2 _ _ => Sys2Proof.Machine.execOr rd rs1 rs2 s
  | .xor rd rs1 rs2 _ _ => Sys2Proof.Machine.execXor rd rs1 rs2 s
  | .not rd rs1 _ _ _ => Sys2Proof.Machine.execNot rd rs1 s
  | .shl rd rs1 rs2 _ _ => Sys2Proof.Machine.execShl rd rs1 rs2 s
  | .shr rd rs1 rs2 _ _ => Sys2Proof.Machine.execShr rd rs1 rs2 s
  | .sar rd rs1 rs2 _ _ => Sys2Proof.Machine.execSar rd rs1 rs2 s
  | .rol rd rs1 rs2 _ _ => Sys2Proof.Machine.execRol rd rs1 rs2 s
  | .ror rd rs1 rs2 _ _ => Sys2Proof.Machine.execRor rd rs1 rs2 s
  | .ld rd _ imm => Sys2Proof.Machine.execLd rd imm s
  | .lw rd rs1 imm => Sys2Proof.Machine.execLw rd rs1 imm s
  | .lh rd rs1 imm => Sys2Proof.Machine.execLh rd rs1 imm s
  | .lb rd rs1 imm => Sys2Proof.Machine.execLb rd rs1 imm s
  | .st rd rs1 imm => Sys2Proof.Machine.execSt rd rs1 imm s
  | .sw rd rs1 imm => Sys2Proof.Machine.execSw rd rs1 imm s
  | .sh rd rs1 imm => Sys2Proof.Machine.execSh rd rs1 imm s
  | .sb rd rs1 imm => Sys2Proof.Machine.execSb rd rs1 imm s
  | .beq rd rs1 imm => Sys2Proof.Machine.execBeq rd rs1 imm s
  | .bne rd rs1 imm => Sys2Proof.Machine.execBne rd rs1 imm s
  | .blt rd rs1 imm => Sys2Proof.Machine.execBlt rd rs1 imm s
  | .bge rd rs1 imm => Sys2Proof.Machine.execBge rd rs1 imm s
  | .bltu rd rs1 imm => Sys2Proof.Machine.execBltu rd rs1 imm s
  | .bgeu rd rs1 imm => Sys2Proof.Machine.execBgeu rd rs1 imm s
  | .jmp imm => Sys2Proof.Machine.execJmp imm s
  | .call imm => Sys2Proof.Machine.execCall imm s
  | .ret _ => Sys2Proof.Machine.execRet s
  | .syscall _ => Sys2Proof.Machine.execSyscall s
  | .halt imm => Sys2Proof.Machine.execHalt imm s
  | .nop _ => Sys2Proof.Machine.execNop s
  | .cmp _ rs1 rs2 _ _ => Sys2Proof.Machine.execCmp rs1 rs2 s
  | .test _ rs1 rs2 _ _ => Sys2Proof.Machine.execTest rs1 rs2 s
  | .ldd rd rs1 imm => Sys2Proof.Machine.execLdd rd rs1 imm s
  | .iret imm => Sys2Proof.Machine.execIret imm s
  | .vadd vd vs1 vs2 => Sys2Proof.Machine.execVadd vd vs1 vs2 s
  | .vsub vd vs1 vs2 => Sys2Proof.Machine.execVsub vd vs1 vs2 s
  | .vmul vd vs1 vs2 => Sys2Proof.Machine.execVmul vd vs1 vs2 s
  | .vmulh vd vs1 vs2 => Sys2Proof.Machine.execVmulh vd vs1 vs2 s
  | .vdiv vd vs1 vs2 => Sys2Proof.Machine.execVdiv vd vs1 vs2 s
  | .vmod vd vs1 vs2 => Sys2Proof.Machine.execVmod vd vs1 vs2 s
  | .vand vd vs1 vs2 => Sys2Proof.Machine.execVand vd vs1 vs2 s
  | .vor vd vs1 vs2 => Sys2Proof.Machine.execVor vd vs1 vs2 s
  | .vxor vd vs1 vs2 => Sys2Proof.Machine.execVxor vd vs1 vs2 s
  | .vnot vd vs1 _ => Sys2Proof.Machine.execVnot vd vs1 s
  | .vshl vd vs1 vs2 => Sys2Proof.Machine.execVshl vd vs1 vs2 s
  | .vshr vd vs1 vs2 => Sys2Proof.Machine.execVshr vd vs1 vs2 s
  | .vsar vd vs1 vs2 => Sys2Proof.Machine.execVsar vd vs1 vs2 s
  | .vrol vd vs1 vs2 => Sys2Proof.Machine.execVrol vd vs1 vs2 s
  | .vror vd vs1 vs2 => Sys2Proof.Machine.execVror vd vs1 vs2 s
  | .vaddf64 vd vs1 vs2 => Sys2Proof.Machine.execVaddf64 vd vs1 vs2 s
  | .vsubf64 vd vs1 vs2 => Sys2Proof.Machine.execVsubf64 vd vs1 vs2 s
  | .vmulf64 vd vs1 vs2 => Sys2Proof.Machine.execVmulf64 vd vs1 vs2 s
  | .vfmaf64 vd vs1 vs2 => Sys2Proof.Machine.execVfmaf64 vd vs1 vs2 s
  | .vload vd rs1 imm => Sys2Proof.Machine.execVload vd rs1 imm s
  | .vstore vd rs1 imm => Sys2Proof.Machine.execVstore vd rs1 imm s

end Sys2Proof.Machine
end

