-- ==== Sys2Proof/Machine/Pipeline.lean ====
section
/-! DEFINITION. The cycle level (spec/50_pipeline.md): what one tick of the five-stage pipeline does. -/

namespace Sys2Proof.Machine

/-! ## Sources and destinations (50_pipeline.md R323) -/

/-- The destination `G rd`, removed where `rd` is R0. -/
def gDest (rd : Reg) : Dest := if rd = 0 then .none else .g rd

/-- A list of registers as sources; `G 0` is not one. -/
def gSrcs (rs : List Reg) : List Dest := (rs.filter (· ≠ 0)).map .g

/-- The source registers of an instruction. -/
def srcsOf : Instr → List Dest
  | .add _ rs1 rs2 _ _ => gSrcs [rs1, rs2]
  | .sub _ rs1 rs2 _ _ => gSrcs [rs1, rs2]
  | .mul _ rs1 rs2 _ _ => gSrcs [rs1, rs2]
  | .mulh _ rs1 rs2 _ _ => gSrcs [rs1, rs2]
  | .div _ rs1 rs2 _ _ => gSrcs [rs1, rs2]
  | .mod _ rs1 rs2 _ _ => gSrcs [rs1, rs2]
  | .and _ rs1 rs2 _ _ => gSrcs [rs1, rs2]
  | .or _ rs1 rs2 _ _ => gSrcs [rs1, rs2]
  | .xor _ rs1 rs2 _ _ => gSrcs [rs1, rs2]
  | .not _ rs1 _ _ _ => gSrcs [rs1]
  | .shl _ rs1 rs2 _ _ => gSrcs [rs1, rs2]
  | .shr _ rs1 rs2 _ _ => gSrcs [rs1, rs2]
  | .sar _ rs1 rs2 _ _ => gSrcs [rs1, rs2]
  | .rol _ rs1 rs2 _ _ => gSrcs [rs1, rs2]
  | .ror _ rs1 rs2 _ _ => gSrcs [rs1, rs2]
  | .ld _ _ _ => []
  | .lw _ rs1 _ => gSrcs [rs1]
  | .lh _ rs1 _ => gSrcs [rs1]
  | .lb _ rs1 _ => gSrcs [rs1]
  | .st rd rs1 _ => gSrcs [rs1, rd]
  | .sw rd rs1 _ => gSrcs [rs1, rd]
  | .sh rd rs1 _ => gSrcs [rs1, rd]
  | .sb rd rs1 _ => gSrcs [rs1, rd]
  | .beq rd rs1 _ => gSrcs [rd, rs1]
  | .bne rd rs1 _ => gSrcs [rd, rs1]
  | .blt rd rs1 _ => gSrcs [rd, rs1]
  | .bge rd rs1 _ => gSrcs [rd, rs1]
  | .bltu rd rs1 _ => gSrcs [rd, rs1]
  | .bgeu rd rs1 _ => gSrcs [rd, rs1]
  | .jmp _ => []
  | .call _ => []
  | .ret _ => gSrcs [31]
  | .syscall _ => []
  | .halt _ => []
  | .nop _ => []
  | .cmp _ rs1 rs2 _ _ => gSrcs [rs1, rs2]
  | .test _ rs1 rs2 _ _ => gSrcs [rs1, rs2]
  | .ldd _ rs1 _ => gSrcs [rs1]
  | .iret _ => []
  | .vadd _ vs1 vs2 => [.v vs1, .v vs2]
  | .vsub _ vs1 vs2 => [.v vs1, .v vs2]
  | .vmul _ vs1 vs2 => [.v vs1, .v vs2]
  | .vmulh _ vs1 vs2 => [.v vs1, .v vs2]
  | .vdiv _ vs1 vs2 => [.v vs1, .v vs2]
  | .vmod _ vs1 vs2 => [.v vs1, .v vs2]
  | .vand _ vs1 vs2 => [.v vs1, .v vs2]
  | .vor _ vs1 vs2 => [.v vs1, .v vs2]
  | .vxor _ vs1 vs2 => [.v vs1, .v vs2]
  | .vnot _ vs1 _ => [.v vs1]
  | .vshl _ vs1 vs2 => [.v vs1, .v vs2]
  | .vshr _ vs1 vs2 => [.v vs1, .v vs2]
  | .vsar _ vs1 vs2 => [.v vs1, .v vs2]
  | .vrol _ vs1 vs2 => [.v vs1, .v vs2]
  | .vror _ vs1 vs2 => [.v vs1, .v vs2]
  | .vaddf64 _ vs1 vs2 => [.v vs1, .v vs2]
  | .vsubf64 _ vs1 vs2 => [.v vs1, .v vs2]
  | .vmulf64 _ vs1 vs2 => [.v vs1, .v vs2]
  | .vfmaf64 vd vs1 vs2 => [.v vs1, .v vs2, .v vd]
  | .vload _ rs1 _ => gSrcs [rs1]
  | .vstore vd rs1 _ => gSrcs [rs1] ++ [.v vd]

/-- The destination register of an instruction. -/
def destOf : Instr → Dest
  | .add rd _ _ _ _ => gDest rd
  | .sub rd _ _ _ _ => gDest rd
  | .mul rd _ _ _ _ => gDest rd
  | .mulh rd _ _ _ _ => gDest rd
  | .div rd _ _ _ _ => gDest rd
  | .mod rd _ _ _ _ => gDest rd
  | .and rd _ _ _ _ => gDest rd
  | .or rd _ _ _ _ => gDest rd
  | .xor rd _ _ _ _ => gDest rd
  | .not rd _ _ _ _ => gDest rd
  | .shl rd _ _ _ _ => gDest rd
  | .shr rd _ _ _ _ => gDest rd
  | .sar rd _ _ _ _ => gDest rd
  | .rol rd _ _ _ _ => gDest rd
  | .ror rd _ _ _ _ => gDest rd
  | .ld rd _ _ => gDest rd
  | .lw rd _ _ => gDest rd
  | .lh rd _ _ => gDest rd
  | .lb rd _ _ => gDest rd
  | .st _ _ _ => .none
  | .sw _ _ _ => .none
  | .sh _ _ _ => .none
  | .sb _ _ _ => .none
  | .beq _ _ _ => .none
  | .bne _ _ _ => .none
  | .blt _ _ _ => .none
  | .bge _ _ _ => .none
  | .bltu _ _ _ => .none
  | .bgeu _ _ _ => .none
  | .jmp _ => .none
  | .call _ => .g 31
  | .ret _ => .none
  | .syscall _ => .none
  | .halt _ => .none
  | .nop _ => .none
  | .cmp _ _ _ _ _ => .none
  | .test _ _ _ _ _ => .none
  | .ldd rd _ _ => gDest rd
  | .iret _ => .none
  | .vadd vd _ _ => .v vd
  | .vsub vd _ _ => .v vd
  | .vmul vd _ _ => .v vd
  | .vmulh vd _ _ => .v vd
  | .vdiv vd _ _ => .v vd
  | .vmod vd _ _ => .v vd
  | .vand vd _ _ => .v vd
  | .vor vd _ _ => .v vd
  | .vxor vd _ _ => .v vd
  | .vnot vd _ _ => .v vd
  | .vshl vd _ _ => .v vd
  | .vshr vd _ _ => .v vd
  | .vsar vd _ _ => .v vd
  | .vrol vd _ _ => .v vd
  | .vror vd _ _ => .v vd
  | .vaddf64 vd _ _ => .v vd
  | .vsubf64 vd _ _ => .v vd
  | .vmulf64 vd _ _ => .v vd
  | .vfmaf64 vd _ _ => .v vd
  | .vload vd _ _ => .v vd
  | .vstore _ _ _ => .none

/-- What the Memory stage does for an instruction (50_pipeline.md R338): nothing, a load of `n` bytes whose value is
put through `extend`, or a store of `n` bytes. -/
inductive MemAct where
  | pass
  | load (n : Nat) (extend : VWord → VWord)
  | store (n : Nat)

/-- The result of a scalar load: sign-extended to 64 bits (41_loadstore.md R232 to R235). -/
def scalarLoad (n : Nat) : MemAct := .load n fun val => (loadedWord n val).setWidth 256

/-- The memory action of an instruction (41_loadstore.md R232 to R240, 44_simd.md R310, R311). -/
def memActOf : Instr → MemAct
  | .add _ _ _ _ _ => .pass
  | .sub _ _ _ _ _ => .pass
  | .mul _ _ _ _ _ => .pass
  | .mulh _ _ _ _ _ => .pass
  | .div _ _ _ _ _ => .pass
  | .mod _ _ _ _ _ => .pass
  | .and _ _ _ _ _ => .pass
  | .or _ _ _ _ _ => .pass
  | .xor _ _ _ _ _ => .pass
  | .not _ _ _ _ _ => .pass
  | .shl _ _ _ _ _ => .pass
  | .shr _ _ _ _ _ => .pass
  | .sar _ _ _ _ _ => .pass
  | .rol _ _ _ _ _ => .pass
  | .ror _ _ _ _ _ => .pass
  | .ld _ _ _ => .pass
  | .lw _ _ _ => scalarLoad 4
  | .lh _ _ _ => scalarLoad 2
  | .lb _ _ _ => scalarLoad 1
  | .st _ _ _ => .store 8
  | .sw _ _ _ => .store 4
  | .sh _ _ _ => .store 2
  | .sb _ _ _ => .store 1
  | .beq _ _ _ => .pass
  | .bne _ _ _ => .pass
  | .blt _ _ _ => .pass
  | .bge _ _ _ => .pass
  | .bltu _ _ _ => .pass
  | .bgeu _ _ _ => .pass
  | .jmp _ => .pass
  | .call _ => .pass
  | .ret _ => .pass
  | .syscall _ => .pass
  | .halt _ => .pass
  | .nop _ => .pass
  | .cmp _ _ _ _ _ => .pass
  | .test _ _ _ _ _ => .pass
  | .ldd _ _ _ => scalarLoad 8
  | .iret _ => .pass
  | .vadd _ _ _ => .pass
  | .vsub _ _ _ => .pass
  | .vmul _ _ _ => .pass
  | .vmulh _ _ _ => .pass
  | .vdiv _ _ _ => .pass
  | .vmod _ _ _ => .pass
  | .vand _ _ _ => .pass
  | .vor _ _ _ => .pass
  | .vxor _ _ _ => .pass
  | .vnot _ _ _ => .pass
  | .vshl _ _ _ => .pass
  | .vshr _ _ _ => .pass
  | .vsar _ _ _ => .pass
  | .vrol _ _ _ => .pass
  | .vror _ _ _ => .pass
  | .vaddf64 _ _ _ => .pass
  | .vsubf64 _ _ _ => .pass
  | .vmulf64 _ _ _ => .pass
  | .vfmaf64 _ _ _ => .pass
  | .vload _ _ _ => .load 32 id
  | .vstore _ _ _ => .store 32

/-- The instruction is a load (50_pipeline.md R333: LB, LH, LW, LDD, VLOAD; LD is not one). -/
def isLoad (i : Instr) : Bool :=
  match memActOf i with
  | .load _ _ => true
  | _ => false

/-- The instruction is a control transfer (50_pipeline.md R337). -/
def isControl : Instr → Bool
  | .add _ _ _ _ _ => false
  | .sub _ _ _ _ _ => false
  | .mul _ _ _ _ _ => false
  | .mulh _ _ _ _ _ => false
  | .div _ _ _ _ _ => false
  | .mod _ _ _ _ _ => false
  | .and _ _ _ _ _ => false
  | .or _ _ _ _ _ => false
  | .xor _ _ _ _ _ => false
  | .not _ _ _ _ _ => false
  | .shl _ _ _ _ _ => false
  | .shr _ _ _ _ _ => false
  | .sar _ _ _ _ _ => false
  | .rol _ _ _ _ _ => false
  | .ror _ _ _ _ _ => false
  | .ld _ _ _ => false
  | .lw _ _ _ => false
  | .lh _ _ _ => false
  | .lb _ _ _ => false
  | .st _ _ _ => false
  | .sw _ _ _ => false
  | .sh _ _ _ => false
  | .sb _ _ _ => false
  | .beq _ _ _ => true
  | .bne _ _ _ => true
  | .blt _ _ _ => true
  | .bge _ _ _ => true
  | .bltu _ _ _ => true
  | .bgeu _ _ _ => true
  | .jmp _ => true
  | .call _ => true
  | .ret _ => true
  | .syscall _ => false
  | .halt _ => false
  | .nop _ => false
  | .cmp _ _ _ _ _ => false
  | .test _ _ _ _ _ => false
  | .ldd _ _ _ => false
  | .iret _ => false
  | .vadd _ _ _ => false
  | .vsub _ _ _ => false
  | .vmul _ _ _ => false
  | .vmulh _ _ _ => false
  | .vdiv _ _ _ => false
  | .vmod _ _ _ => false
  | .vand _ _ _ => false
  | .vor _ _ _ => false
  | .vxor _ _ _ => false
  | .vnot _ _ _ => false
  | .vshl _ _ _ => false
  | .vshr _ _ _ => false
  | .vsar _ _ _ => false
  | .vrol _ _ _ => false
  | .vror _ _ _ => false
  | .vaddf64 _ _ _ => false
  | .vsubf64 _ _ _ => false
  | .vmulf64 _ _ _ => false
  | .vfmaf64 _ _ _ => false
  | .vload _ _ _ => false
  | .vstore _ _ _ => false

/-- The instruction is one of the 21 vector instructions (50_pipeline.md R340 c). -/
def isVector : Instr → Bool
  | .add _ _ _ _ _ => false
  | .sub _ _ _ _ _ => false
  | .mul _ _ _ _ _ => false
  | .mulh _ _ _ _ _ => false
  | .div _ _ _ _ _ => false
  | .mod _ _ _ _ _ => false
  | .and _ _ _ _ _ => false
  | .or _ _ _ _ _ => false
  | .xor _ _ _ _ _ => false
  | .not _ _ _ _ _ => false
  | .shl _ _ _ _ _ => false
  | .shr _ _ _ _ _ => false
  | .sar _ _ _ _ _ => false
  | .rol _ _ _ _ _ => false
  | .ror _ _ _ _ _ => false
  | .ld _ _ _ => false
  | .lw _ _ _ => false
  | .lh _ _ _ => false
  | .lb _ _ _ => false
  | .st _ _ _ => false
  | .sw _ _ _ => false
  | .sh _ _ _ => false
  | .sb _ _ _ => false
  | .beq _ _ _ => false
  | .bne _ _ _ => false
  | .blt _ _ _ => false
  | .bge _ _ _ => false
  | .bltu _ _ _ => false
  | .bgeu _ _ _ => false
  | .jmp _ => false
  | .call _ => false
  | .ret _ => false
  | .syscall _ => false
  | .halt _ => false
  | .nop _ => false
  | .cmp _ _ _ _ _ => false
  | .test _ _ _ _ _ => false
  | .ldd _ _ _ => false
  | .iret _ => false
  | .vadd _ _ _ => true
  | .vsub _ _ _ => true
  | .vmul _ _ _ => true
  | .vmulh _ _ _ => true
  | .vdiv _ _ _ => true
  | .vmod _ _ _ => true
  | .vand _ _ _ => true
  | .vor _ _ _ => true
  | .vxor _ _ _ => true
  | .vnot _ _ _ => true
  | .vshl _ _ _ => true
  | .vshr _ _ _ => true
  | .vsar _ _ _ => true
  | .vrol _ _ _ => true
  | .vror _ _ _ => true
  | .vaddf64 _ _ _ => true
  | .vsubf64 _ _ _ => true
  | .vmulf64 _ _ _ => true
  | .vfmaf64 _ _ _ => true
  | .vload _ _ _ => true
  | .vstore _ _ _ => true

/-- The instruction is a system event at Writeback (50_pipeline.md R340 d). -/
def isSystem : Instr → Bool
  | .add _ _ _ _ _ => false
  | .sub _ _ _ _ _ => false
  | .mul _ _ _ _ _ => false
  | .mulh _ _ _ _ _ => false
  | .div _ _ _ _ _ => false
  | .mod _ _ _ _ _ => false
  | .and _ _ _ _ _ => false
  | .or _ _ _ _ _ => false
  | .xor _ _ _ _ _ => false
  | .not _ _ _ _ _ => false
  | .shl _ _ _ _ _ => false
  | .shr _ _ _ _ _ => false
  | .sar _ _ _ _ _ => false
  | .rol _ _ _ _ _ => false
  | .ror _ _ _ _ _ => false
  | .ld _ _ _ => false
  | .lw _ _ _ => false
  | .lh _ _ _ => false
  | .lb _ _ _ => false
  | .st _ _ _ => false
  | .sw _ _ _ => false
  | .sh _ _ _ => false
  | .sb _ _ _ => false
  | .beq _ _ _ => false
  | .bne _ _ _ => false
  | .blt _ _ _ => false
  | .bge _ _ _ => false
  | .bltu _ _ _ => false
  | .bgeu _ _ _ => false
  | .jmp _ => false
  | .call _ => false
  | .ret _ => false
  | .syscall _ => true
  | .halt _ => true
  | .nop _ => false
  | .cmp _ _ _ _ _ => false
  | .test _ _ _ _ _ => false
  | .ldd _ _ _ => false
  | .iret _ => true
  | .vadd _ _ _ => false
  | .vsub _ _ _ => false
  | .vmul _ _ _ => false
  | .vmulh _ _ _ => false
  | .vdiv _ _ _ => false
  | .vmod _ _ _ => false
  | .vand _ _ _ => false
  | .vor _ _ _ => false
  | .vxor _ _ _ => false
  | .vnot _ _ _ => false
  | .vshl _ _ _ => false
  | .vshr _ _ _ => false
  | .vsar _ _ _ => false
  | .vrol _ _ _ => false
  | .vror _ _ _ => false
  | .vaddf64 _ _ _ => false
  | .vsubf64 _ _ _ => false
  | .vmulf64 _ _ _ => false
  | .vfmaf64 _ _ _ => false
  | .vload _ _ _ => false
  | .vstore _ _ _ => false

/-! ## Execute (50_pipeline.md R335, R336) -/

/-- What Execute computes for an instruction: the fields of EX/MEM, whether a control transfer is taken, and
`actual_next` (50_pipeline.md R336, R337). -/
structure Computed where
  result : VWord
  flags : Option Nzcv
  ea : Word
  sdata : VWord
  taken : Bool
  next : Word
deriving DecidableEq, Repr

/-- An instruction that computes nothing and goes on behind itself. `result` is 0 (50_pipeline.md R336); that `ea` and
`sdata` are 0 where the instruction is no access is a DESIGN CHOICE (log entry 22). -/
def computesNothing (pc : Word) : Computed :=
  { result := 0, flags := none, ea := 0, sdata := 0, taken := false, next := pc + 4 }

/-- A scalar ALU instruction, CMP and TEST among them: result and flags (50_pipeline.md R336). That bits 255 to 64 of a
scalar result are 0 is a DESIGN CHOICE (log entry 22). -/
def computesAlu (pc : Word) (o : AluOut) : Computed :=
  { computesNothing pc with result := o.r.setWidth 256, flags := some o.nzcv }

/-- A vector instruction: a 256-bit result. -/
def computesVector (pc : Word) (r : VWord) : Computed := { computesNothing pc with result := r }

/-- A load or a store: the address and the store data, 0 for a load, the whole register for a scalar store of any width
(DESIGN CHOICE, log entry 22). -/
def computesAccess (pc ea : Word) (data : VWord) : Computed := { computesNothing pc with ea := ea, sdata := data }

/-- A conditional branch. -/
def computesBranch (pc : Word) (taken : Bool) (imm : BitVec 16) : Computed :=
  { computesNothing pc with taken := taken, next := branchNext pc imm taken }

/-- A transfer that is always taken. -/
def computesJump (pc next : Word) : Computed := { computesNothing pc with taken := true, next := next }

/-- What Execute computes, from the operand values `g` and `v` (50_pipeline.md R336; 40_alu.md, 41_loadstore.md R230,
42_control.md, 44_simd.md). -/
def compute (g : Reg → Word) (v : VReg → VWord) (pc : Word) : Instr → Computed
  | .add _ rs1 rs2 _ _ => computesAlu pc (aluAdd (g rs1) (g rs2))
  | .sub _ rs1 rs2 _ _ => computesAlu pc (aluSub (g rs1) (g rs2))
  | .mul _ rs1 rs2 _ _ => computesAlu pc (aluMul (g rs1) (g rs2))
  | .mulh _ rs1 rs2 _ _ => computesAlu pc (aluMulh (g rs1) (g rs2))
  | .div _ rs1 rs2 _ _ => computesAlu pc (aluDiv (g rs1) (g rs2))
  | .mod _ rs1 rs2 _ _ => computesAlu pc (aluMod (g rs1) (g rs2))
  | .and _ rs1 rs2 _ _ => computesAlu pc (aluAnd (g rs1) (g rs2))
  | .or _ rs1 rs2 _ _ => computesAlu pc (aluOr (g rs1) (g rs2))
  | .xor _ rs1 rs2 _ _ => computesAlu pc (aluXor (g rs1) (g rs2))
  | .not _ rs1 _ _ _ => computesAlu pc (aluNot (g rs1))
  | .shl _ rs1 rs2 _ _ => computesAlu pc (aluShl (g rs1) (g rs2))
  | .shr _ rs1 rs2 _ _ => computesAlu pc (aluShr (g rs1) (g rs2))
  | .sar _ rs1 rs2 _ _ => computesAlu pc (aluSar (g rs1) (g rs2))
  | .rol _ rs1 rs2 _ _ => computesAlu pc (aluRol (g rs1) (g rs2))
  | .ror _ rs1 rs2 _ _ => computesAlu pc (aluRor (g rs1) (g rs2))
  | .ld _ _ imm => { computesNothing pc with result := (simm16 imm).setWidth 256 }
  | .lw _ rs1 imm => computesAccess pc (addrOf (g rs1) imm) 0
  | .lh _ rs1 imm => computesAccess pc (addrOf (g rs1) imm) 0
  | .lb _ rs1 imm => computesAccess pc (addrOf (g rs1) imm) 0
  | .st rd rs1 imm => computesAccess pc (addrOf (g rs1) imm) (storedValue (g rd))
  | .sw rd rs1 imm => computesAccess pc (addrOf (g rs1) imm) (storedValue (g rd))
  | .sh rd rs1 imm => computesAccess pc (addrOf (g rs1) imm) (storedValue (g rd))
  | .sb rd rs1 imm => computesAccess pc (addrOf (g rs1) imm) (storedValue (g rd))
  | .beq rd rs1 imm => computesBranch pc (condEq (g rd) (g rs1)) imm
  | .bne rd rs1 imm => computesBranch pc (condNe (g rd) (g rs1)) imm
  | .blt rd rs1 imm => computesBranch pc (condLt (g rd) (g rs1)) imm
  | .bge rd rs1 imm => computesBranch pc (condGe (g rd) (g rs1)) imm
  | .bltu rd rs1 imm => computesBranch pc (condLtu (g rd) (g rs1)) imm
  | .bgeu rd rs1 imm => computesBranch pc (condGeu (g rd) (g rs1)) imm
  | .jmp imm => computesJump pc (jumpTarget pc imm)
  | .call imm => { computesJump pc (jumpTarget pc imm) with result := (pc + 4).setWidth 256 }
  | .ret _ => computesJump pc (g 31)
  | .syscall _ => computesNothing pc
  | .halt _ => computesNothing pc
  | .nop _ => computesNothing pc
  | .cmp _ rs1 rs2 _ _ => computesAlu pc (aluSub (g rs1) (g rs2))
  | .test _ rs1 rs2 _ _ => computesAlu pc (aluAnd (g rs1) (g rs2))
  | .ldd _ rs1 imm => computesAccess pc (addrOf (g rs1) imm) 0
  | .iret _ => computesNothing pc
  | .vadd _ vs1 vs2 => computesVector pc (lanes2 (resultOf aluAdd) (v vs1) (v vs2))
  | .vsub _ vs1 vs2 => computesVector pc (lanes2 (resultOf aluSub) (v vs1) (v vs2))
  | .vmul _ vs1 vs2 => computesVector pc (lanes2 (resultOf aluMul) (v vs1) (v vs2))
  | .vmulh _ vs1 vs2 => computesVector pc (lanes2 (resultOf aluMulh) (v vs1) (v vs2))
  | .vdiv _ vs1 vs2 => computesVector pc (lanes2 (resultOf aluDiv) (v vs1) (v vs2))
  | .vmod _ vs1 vs2 => computesVector pc (lanes2 (resultOf aluMod) (v vs1) (v vs2))
  | .vand _ vs1 vs2 => computesVector pc (lanes2 (resultOf aluAnd) (v vs1) (v vs2))
  | .vor _ vs1 vs2 => computesVector pc (lanes2 (resultOf aluOr) (v vs1) (v vs2))
  | .vxor _ vs1 vs2 => computesVector pc (lanes2 (resultOf aluXor) (v vs1) (v vs2))
  | .vnot _ vs1 _ => computesVector pc (lanes1 (fun a => (aluNot a).r) (v vs1))
  | .vshl _ vs1 vs2 => computesVector pc (lanes2 (resultOf aluShl) (v vs1) (v vs2))
  | .vshr _ vs1 vs2 => computesVector pc (lanes2 (resultOf aluShr) (v vs1) (v vs2))
  | .vsar _ vs1 vs2 => computesVector pc (lanes2 (resultOf aluSar) (v vs1) (v vs2))
  | .vrol _ vs1 vs2 => computesVector pc (lanes2 (resultOf aluRol) (v vs1) (v vs2))
  | .vror _ vs1 vs2 => computesVector pc (lanes2 (resultOf aluRor) (v vs1) (v vs2))
  | .vaddf64 _ vs1 vs2 => computesVector pc (lanes2 f64Add (v vs1) (v vs2))
  | .vsubf64 _ vs1 vs2 => computesVector pc (lanes2 f64Sub (v vs1) (v vs2))
  | .vmulf64 _ vs1 vs2 => computesVector pc (lanes2 f64Mul (v vs1) (v vs2))
  | .vfmaf64 vd vs1 vs2 => computesVector pc (lanes3 f64Fma (v vs1) (v vs2) (v vd))
  | .vload _ rs1 imm => computesAccess pc (addrOf (g rs1) imm) 0
  | .vstore vd rs1 imm => computesAccess pc (addrOf (g rs1) imm) (v vd)

/-! ## The latches -/

/-- `IF/ID := l`. -/
def setIfId (l : Option IfId) (s : State) : State := { s with latches := { s.latches with ifId := l } }

/-- `ID/EX := l`. -/
def setIdEx (l : Option IdEx) (s : State) : State := { s with latches := { s.latches with idEx := l } }

/-- `EX/MEM := l`. -/
def setExMem (l : Option ExMem) (s : State) : State := { s with latches := { s.latches with exMem := l } }

/-- `MEM/WB := l`. -/
def setMemWb (l : Option MemWb) (s : State) : State := { s with latches := { s.latches with memWb := l } }

/-- IF/ID, ID/EX and EX/MEM flushed: the instructions younger than the one in Writeback (50_pipeline.md R342). -/
def flushYounger (s : State) : State := setIfId none (setIdEx none (setExMem none s))

/-- The `pc` of the oldest valid latch among EX/MEM, ID/EX, IF/ID, else `PC` (50_pipeline.md R343). -/
def oldestYounger (s : State) : Word :=
  match s.latches.exMem with
  | some l => l.pc
  | none =>
    match s.latches.idEx with
    | some l => l.pc
    | none =>
      match s.latches.ifId with
      | some l => l.pc
      | none => s.pc

/-- The architectural program counter: the `pc` of the oldest valid latch, else `PC` (10_state.md R28). -/
def archPc (s : State) : Word :=
  match s.latches.memWb with
  | some l => l.pc
  | none => oldestYounger s

/-! ## Writeback and the interrupt point (50_pipeline.md R340 to R343) -/

/-- The register an instruction commits (50_pipeline.md R340 c). -/
def commitDest (d : Dest) (result : VWord) (s : State) : State :=
  match d with
  | .none => s
  | .g r => setX r (result.setWidth 64) s
  | .v r => setV r result s

/-- The flags an instruction commits (50_pipeline.md R340 c). -/
def commitFlags (f : Option Nzcv) (s : State) : State :=
  match f with
  | none => s
  | some a => setNzcv a s

/-- The commit of the instruction in Writeback (50_pipeline.md R340 c). -/
def commitWb (m : MemWb) (s : State) : State :=
  let s1 := countRetired (commitFlags m.flags (commitDest m.dest m.result s))
  if m.instr.any isVector then countSimd s1 else s1

/-- The system event of SYSCALL, HALT or IRET at address `pc` (50_pipeline.md R342). -/
def systemEvent (i : Instr) (pc : Word) (s : State) : State :=
  match i with
  | .syscall _ => syscallTrap pc s
  | .halt _ => haltCore pc s
  | .iret _ => trapReturn s
  | _ => s

/-- The Writeback action (50_pipeline.md R340): the state after it, and whether it took a system event. -/
def writeback (s : State) : State × Bool :=
  match s.latches.memWb with
  | none => (s, false)
  | some m =>
    let s1 := setMemWb none s
    match m.exc with
    | .breakpointStop => (breakpointStop m.pc (flushYounger s1), true)
    | .fault e => (deliver e m.pc (flushYounger s1), true)
    | .none =>
      match m.instr.bind (retireExc · s1) with
      | some e => (deliver e m.pc (flushYounger s1), true)
      | none =>
        match m.instr.filter isSystem with
        | some i => (systemEvent i m.pc (flushYounger (commitWb m s1)), true)
        | none => (commitWb m s1, false)

/-- The interrupt point (50_pipeline.md R343, 60_exceptions.md R420): at most one interrupt is delivered; only a guest
handler flushes. -/
def interruptPoint (s : State) : State :=
  match deliverable s with
  | none => s
  | some v =>
    match ivtGet s v with
    | .default => deliverInterrupt v s.pc s
    | .guest _ => deliverInterrupt v (oldestYounger s) (flushYounger s)

/-! ## Memory (50_pipeline.md R338) -/

/-- The MEM/WB content for an instruction that passes through. -/
def passOn (e : ExMem) : MemWb :=
  { pc := e.pc, instr := e.instr, exc := e.exc, dest := e.dest, result := e.result, flags := e.flags }

/-- The memory action an EX/MEM content asks for: none where it carries an exception or a mark. -/
def memActIn (e : ExMem) : MemAct :=
  match e.exc with
  | .none =>
    match e.instr with
    | some i => memActOf i
    | none => .pass
  | _ => .pass

/-- The Memory action. -/
def memoryStage (s : State) : State :=
  match s.latches.exMem with
  | none => s
  | some e =>
    let s1 := setExMem none s
    match memActIn e with
    | .pass => setMemWb (some (passOn e)) s1
    | .load n extend =>
      match memRead s1 e.ea n with
      | .done val t => setMemWb (some { passOn e with result := extend val }) (countMemOp t)
      | .raised x t => setMemWb (some { passOn e with exc := .fault x, dest := .none, result := 0 }) t
    | .store n =>
      match memWrite s1 e.ea n e.sdata with
      | .done _ t => setMemWb (some (passOn e)) (countMemOp t)
      | .raised x t => setMemWb (some { passOn e with exc := .fault x }) t

/-! ## Execute (50_pipeline.md R335 to R337) -/

/-- The value of `G r` as an operand: forwarded from MEM/WB where it holds the producer, else committed
(50_pipeline.md R335). -/
def operandG (s : State) (r : Reg) : Word :=
  match s.latches.memWb with
  | some m => if m.dest = .g r then m.result.setWidth 64 else getX s r
  | none => getX s r

/-- The value of `V r` as an operand (50_pipeline.md R335). -/
def operandV (s : State) (r : VReg) : VWord :=
  match s.latches.memWb with
  | some m => if m.dest = .v r then m.result else getV s r
  | none => getV s r

/-- The resolution of a non-transfer whose fetch was predicted taken (50_pipeline.md R337, R354). DESIGN CHOICE (log
entry 25): a taken prediction whose target is `pc + 4` counts as right, as the comparison of R337 and R360 has it:
nothing is counted and the BTB entry stays, where R354 and D38 call every taken prediction here a misprediction. -/
def resolveOther (pc predNext next : Word) (s : State) : State :=
  if next ≠ predNext then countMispredict true { s with predictor := untrain s.params s.predictor pc } else s

/-- A misprediction's redirect: IF/ID flushed and `PC` at the right address (50_pipeline.md R337). -/
def redirect (predNext next : Word) (s : State) : State :=
  if next ≠ predNext then setPc next (setIfId none s) else s

/-- Control resolution (50_pipeline.md R337). -/
def resolve (i : Instr) (pc predNext : Word) (c : Computed) (s : State) : State :=
  redirect predNext c.next
    (if isControl i then resolveControl pc predNext c.taken c.next s else resolveOther pc predNext c.next s)

/-- The Execute action. -/
def executeStage (s : State) : State :=
  match s.latches.idEx with
  | none => s
  | some d =>
    let s1 := setIdEx none s
    match d.exc, d.instr with
    | .none, some i =>
      let c := compute (operandG s) (operandV s) d.pc i
      setExMem
        (some { pc := d.pc, instr := some i, exc := .none, dest := destOf i, result := c.result, flags := c.flags,
                ea := c.ea, sdata := c.sdata })
        (resolve i d.pc d.predNext c s1)
    | exc, _ =>
      setExMem
        (some { pc := d.pc, instr := none, exc := exc, dest := .none, result := 0, flags := none, ea := 0, sdata := 0 })
        s1

/-! ## Decode (50_pipeline.md R331, R333) -/

/-- What Decode makes of an IF/ID content: the instruction, or `Faulted` with its exception. -/
def decoded (strict : Bool) (f : IfId) : Option Instr × LatchExc :=
  match f.exc with
  | .none =>
    match decode strict f.word with
    | some i => (some i, .none)
    | none => (none, .fault (invalidOpcode f.word))
  | exc => (none, exc)

/-- The load-use hazard (50_pipeline.md R333): EX/MEM holds a load whose destination is a source of the instruction. -/
def loadUse (e : Option ExMem) (i : Option Instr) : Bool :=
  match e, i with
  | some e, some i =>
    decide (e.exc = .none) && e.instr.any isLoad && decide (e.dest ≠ .none) && decide (e.dest ∈ srcsOf i)
  | _, _ => false

/-- `PERF[5]` one up: Decode held an instruction back (50_pipeline.md R333). -/
def countStall (s : State) : State := { s with perf := { s.perf with stalls := s.perf.stalls + 1 } }

/-- The Decode action. -/
def decodeStage (s : State) : State :=
  match s.latches.ifId with
  | none => s
  | some f =>
    let d := decoded s.params.strictReserved f
    if loadUse s.latches.exMem d.1 then countStall s
    else setIfId none (setIdEx (some { pc := f.pc, instr := d.1, exc := d.2, predNext := f.predNext }) s)

/-! ## Fetch (50_pipeline.md R330) -/

/-- A fetched slot put into IF/ID, and `PC` moved on. -/
def fetched (pc : Word) (w : IWord) (exc : LatchExc) (next : Word) (s : State) : State :=
  setPc next (setIfId (some { pc := pc, word := w, exc := exc, predNext := next }) s)

/-- The address has a breakpoint that stops the fetch (51_host_interface.md R385, R386). -/
def breakpointAt (s : State) : Bool := decide (s.pc ∈ s.bkpt) && !s.resume

/-- The Fetch action. -/
def fetchStage (s : State) : State :=
  match s.latches.ifId with
  | some _ => s
  | none =>
    if breakpointAt s then fetched s.pc 0 .breakpointStop (s.pc + 4) s
    else
      match fetch { s with resume := false } s.pc with
      | .done w t => fetched s.pc w .none (predict t.params t.predictor s.pc) t
      | .raised e t => fetched s.pc 0 (.fault e) (s.pc + 4) t

/-! ## One tick (50_pipeline.md R325) -/

/-- `PERF[1]` one up, and the status `Ok` unless the tick sets another (50_pipeline.md R325, 51_host_interface.md
R374). -/
def startTick (s : State) : State :=
  { s with perf := { s.perf with cycles := s.perf.cycles + 1 }, lastStatus := .ok }

/-- One tick of the pipeline (50_pipeline.md R325); on a halted core nothing. -/
def tick (s : State) : State :=
  if s.halted then s
  else
    let wb := writeback (startTick s)
    if wb.1.lastStatus ≠ .ok then wb.1
    else fetchStage (decodeStage (executeStage (memoryStage (if wb.2 then wb.1 else interruptPoint wb.1))))

end Sys2Proof.Machine
end

