-- ==== Sys2Proof/Machine/Interp.lean ====
section
/-! DEFINITION. The architectural level: one round of the non-pipelined interpreter (spec/70_reset_and_hazards.md R467,
00_scope.md R8 a), with the access primitives of 20_memory.md R71 to R73, so through TLB and caches, and what it makes of
instructions left in the latches by ticks of the pipeline. The interpreter with none of these is Machine/Reference.lean. -/

namespace Sys2Proof.Machine

/-- The latches emptied with `PC` at the architectural program counter (10_state.md R28): the instructions in flight
have had no effect (50_pipeline.md R365 c) and are fetched again. Only used where MEM/WB is empty. -/
def squash (s : State) : State :=
  { s with pc := archPc s, latches := { ifId := none, idEx := none, exMem := none, memWb := none } }

/-- The status of a round is `Ok` unless something in it sets another (51_host_interface.md R374). -/
def startStep (s : State) : State := { s with lastStatus := .ok }

/-- The instruction in MEM/WB finished (50_pipeline.md R340): it has performed its memory access and cannot be fetched
again. The younger ones are squashed unless a system event has flushed them and set `PC` (log entry 8). -/
def finishOldest (s : State) : State :=
  let wb := writeback s
  if wb.2 then wb.1 else squash wb.1

/-- The instruction word decoded and executed (70_reset_and_hazards.md R467). -/
def execWord (w : IWord) (s : State) : Host.Outcome State Fault Refusal :=
  match decode s.params.strictReserved w with
  | none => .next (deliver (invalidOpcode w) s.pc s)
  | some i => exec i s

/-- The word at `PC` fetched and executed (70_reset_and_hazards.md R467); the fetch clears `RESUME` (50_pipeline.md
R330). -/
def fetchAndExec (s : State) : Host.Outcome State Fault Refusal :=
  match fetch { s with resume := false } s.pc with
  | .raised e t => .next (deliver e s.pc t)
  | .done w t => execWord w t

/-- The environment asked once more whether to take a pending interrupt (70_reset_and_hazards.md R466 (5)). -/
def askEnvironment (s : State) : State := { s with intAsked := s.intAsked + 1 }

/-- One round of the interpreter (70_reset_and_hazards.md R467): a breakpoint stops it; else a deliverable interrupt is
taken if the environment says so; else one instruction is executed. What the environment says is free (log entry 10). -/
def interpret (s : State) : Host.Outcome State Fault Refusal :=
  if breakpointAt s then .next (breakpointStop s.pc s)
  else
    match deliverable s with
    | some v =>
      if Config.takesInterrupt s.intAsked then .next (deliverInterrupt v s.pc (askEnvironment s))
      else fetchAndExec (askEnvironment s)
    | none => fetchAndExec s

/-- One architectural step: nothing on a halted core (43_system.md R274); else an instruction waiting in MEM/WB is
finished; else one round of the interpreter from the architectural program counter. -/
def archStep (s : State) : Host.Outcome State Fault Refusal :=
  if s.halted then .next s
  else
    match s.latches.memWb with
    | some _ => .next (finishOldest (startStep s))
    | none => interpret (squash (startStep s))

/-- The four bytes of an instruction word as memory holds them (20_memory.md R65). -/
def wordBytes (w : IWord) : List Byte := [byteOfWord w 0, byteOfWord w 1, byteOfWord w 2, byteOfWord w 3]

/-- The machine about to fetch at the architectural program counter: running, no instruction in flight, no breakpoint
and no interrupt in the way. Where these hold already it changes nothing. -/
def readyToFetch (s : State) : State :=
  let t := { s with halted := false, pc := archPc s,
                    latches := { ifId := none, idEx := none, exMem := none, memWb := none },
                    resume := s.resume || decide (archPc s ∈ s.bkpt) }
  if (deliverable t).isSome then { t with ic := { t.ic with pending := 0 } } else t

/-- An instruction word stored where the next fetch reads it, by the coherent host write (22_caches.md R149). Where the
address at `PC` cannot be fetched at all, memory stays as it is. -/
def placeWord (w : IWord) (s : State) : State :=
  if s.pc.toNat % 4 ≠ 0 then s
  else
    match (translate s.params.tlbEntries s.mmu (userMode s) s.pc .fetch).2 with
    | .exc _ => s
    | .pa pa => if s.params.memSize < pa + 4 then s else { s with hier := hostWrite s.params s.hier pa (wordBytes w) }

end Sys2Proof.Machine
end

