-- ==== Sys2Proof/Machine/Step.lean ====
section
/-! DEFINITION. The step of the machine and where its next instruction stands. -/

namespace Sys2Proof.Machine

/-- One architectural step (spec/00_scope.md R8 a, 70_reset_and_hazards.md R467). The cycle-level step, one tick of the
pipeline, is `tick` (Machine/Pipeline.lean). -/
def step (s : State) : Host.Outcome State Fault Refusal := archStep s

/-- The state with the instruction whose `nbits` table bits are `w` stored where the next step fetches it, ready to be
fetched. -/
def State.withFetchWord (s : State) (nbits w : Nat) : State :=
  placeWord (BitVec.ofNat 32 (w % 2 ^ nbits)) (readyToFetch s)

end Sys2Proof.Machine
end

