-- ==== Sys2Proof/Machine/Reference.lean ====
section
/-! DEFINITION. The reference interpreter of spec/70_reset_and_hazards.md R467, against which R466 compares the cycle
level: no latches, caches, TLB or predictor. It reads and writes `PM`, `PT`, `MMIO_TABLE`, the registers and the system
registers of 10_state.md R33; the other fields of the state it works on are empty and stay so. An instruction's rule is
read off what the pipeline computes for it (`compute`, `memActOf`, `systemEvent`), with memory in place of the caches.
The step does not use this file. -/

namespace Sys2Proof.Machine

/-! ## Memory without TLB and caches -/

/-- `Translate(va, acc)` with no TLB: every translation walks (21_translation.md R95, R96). -/
def refTranslate (s : State) (va : Word) (acc : Acc) : Access Nat :=
  let r := translate s.params.tlbEntries { s.mmu with tlb := [] } (userMode s) va acc
  match r.2 with
  | .pa a => .done a { s with mmu := { s.mmu with pt := r.1.pt } }
  | .exc e => .raised e s

/-- The value of `n` bytes of `PM` from `pa` on, little-endian (20_memory.md R65). -/
def pmValue (s : State) (pa n : Nat) : VWord := ofBytes (fun j => Memory.read s.hier.pm (pa + j)) n

/-- The low `n` bytes of a value put into `PM` from `pa` on (20_memory.md R65). -/
def pmStore (pa n : Nat) (val : VWord) (s : State) : State :=
  { s with hier := { s.hier with pm := Memory.writeBytes s.hier.pm pa ((List.range n).map (byteOf val)) } }

/-- `MemRead(va, n)` on `PM` (20_memory.md R71). -/
def refRead (s : State) (va : Word) (n : Nat) : Access VWord :=
  if va.toNat % n ≠ 0 then .raised (alignmentFault va .read n) s
  else
    match refTranslate s va .read with
    | .raised e t => .raised e t
    | .done pa t =>
      if inWindow t.params pa then .done (mmioRead t pa n).1 (mmioRead t pa n).2
      else if t.params.memSize < pa + n then .raised (pageFault va 0 .read .bounds) s
      else .done (pmValue t pa n) t

/-- `MemWrite(va, n, val)` on `PM` (20_memory.md R72). -/
def refWrite (s : State) (va : Word) (n : Nat) (val : VWord) : Access Unit :=
  if va.toNat % n ≠ 0 then .raised (alignmentFault va .write n) s
  else
    match refTranslate s va .write with
    | .raised e t => .raised e t
    | .done pa t =>
      if inWindow t.params pa then .done () (mmioWrite t pa n val)
      else if t.params.memSize < pa + n then .raised (pageFault va 0 .write .bounds) s
      else .done () (pmStore pa n val t)

/-- `Fetch(va)` on `PM` (20_memory.md R73): the word that stands there now. -/
def refFetch (s : State) (va : Word) : Access IWord :=
  if va.toNat % 4 ≠ 0 then .raised (alignmentFault va .fetch 4) s
  else
    match refTranslate s va .fetch with
    | .raised e t => .raised e t
    | .done pa t =>
      if inWindow t.params pa || decide (t.params.memSize < pa + 4) then .raised (pageFault va 0 .fetch .bounds) s
      else .done ((pmValue t pa 4).setWidth 32) t

/-! ## One instruction -/

/-- The end of an instruction that raises nothing: destination and flags, then its system event, or the next pc. -/
def refRetire (i : Instr) (c : Computed) (result : VWord) (s : State) : State :=
  let t := commitFlags c.flags (commitDest (destOf i) result s)
  if isSystem i then systemEvent i t.pc t else setPc c.next t

/-- An instruction's rule applied at `PC` (70_reset_and_hazards.md R467): what it raises is delivered with its own
address as return address (60_exceptions.md R411). -/
def refExec (i : Instr) (s : State) : State :=
  let c := compute (getX s) (getV s) s.pc i
  match retireExc i s with
  | some e => deliver e s.pc s
  | none =>
    match memActOf i with
    | .pass => refRetire i c c.result s
    | .load n extend =>
      match refRead s c.ea n with
      | .raised e t => deliver e s.pc t
      | .done val t => refRetire i c (extend val) t
    | .store n =>
      match refWrite s c.ea n c.sdata with
      | .raised e t => deliver e s.pc t
      | .done _ t => refRetire i c c.result t

/-! ## The interpreter -/

/-- The word at `PC` fetched, decoded and executed (70_reset_and_hazards.md R467). -/
def refFetchAndExec (s : State) : State :=
  match refFetch { s with resume := false } s.pc with
  | .raised e t => deliver e s.pc t
  | .done w t =>
    match decode t.params.strictReserved w with
    | none => deliver (invalidOpcode w) t.pc t
    | some i => refExec i t

/-- One turn of the loop of 70_reset_and_hazards.md R467. `take` is the environment's word on whether a pending interrupt
is taken now (R466 (5)). -/
def refRound (take : Bool) (s : State) : State :=
  if s.halted then s
  else
    let t := startStep s
    if breakpointAt t then breakpointStop t.pc t
    else
      match if take then deliverable t else none with
      | some v => deliverInterrupt v t.pc t
      | none => refFetchAndExec t

/-- What the environment does to the interpreter: vectors are triggered (51_host_interface.md R389), or it takes one
turn. -/
inductive RefInput where
  | trigger (vectors : BitVec 256)
  | round (take : Bool)
deriving DecidableEq, Repr

/-- The interpreter after one input. -/
def refInput (s : State) : RefInput → State
  | .trigger vs => pend vs s
  | .round take => refRound take s

/-- The interpreter after a sequence of inputs. -/
def refRun (inputs : List RefInput) (s : State) : State := inputs.foldl refInput s

/-! ## What of a state the interpreter works on -/

/-- The state with every store written back to `PM` (22_caches.md R147) and with latches, caches, TLB, predictor and
counters empty, at the architectural program counter. -/
def architectural (s : State) : State :=
  { squash s with
    hier := { pm := (flushAll s.params s.hier).pm, l1i := [], l1d := [], l2 := [],
              pf := { valid := false, last := 0, stride := 0, conf := 0 } },
    mmu := { pt := s.mmu.pt, tlb := [] },
    predictor := { bp := [], btb := [] },
    perf := { retired := 0, cycles := 0, l1Misses := 0, l2Misses := 0, mispredicts := 0, stalls := 0, memOps := 0,
              simdOps := 0 } }

/-- The state once the instruction in MEM/WB, whose memory access is done, has retired, the younger ones dropped
(50_pipeline.md R365 c). -/
def settled (s : State) : State :=
  match s.latches.memWb with
  | none => squash s
  | some _ => finishOldest s

/-- The cycle level with vectors triggered before each tick (51_host_interface.md R389). -/
def tickRun (triggers : List (BitVec 256)) (s : State) : State := triggers.foldl (fun t vs => tick (pend vs t)) s

end Sys2Proof.Machine
end

