-- ==== Sys2Proof/Machine/Ports.lean ====
section
/-! DEFINITION. The external ports of the core (spec/51_host_interface.md R370 to R394): the host and environment
functions that act on one machine between ticks. A port that reports `InvalidParameter` changes nothing (R393). -/

namespace Sys2Proof.Machine

/-- What a port answers. -/
inductive Port (α : Type) where
  | ok (a : α)
  | invalidParameter
deriving DecidableEq, Repr

/-! ## Lifecycle (51_host_interface.md R371, R372; 70_reset_and_hazards.md R450) -/

/-- `create` (51_host_interface.md R371), the other parameters given beside the memory size. -/
def createPort (p : Params) : Port State :=
  if p.memSize = 0 ∨ p.memSize % 4096 ≠ 0 ∨ p.mmioBase ≤ p.memSize then .invalidParameter else .ok (State.created p)

/-- `reset` (70_reset_and_hazards.md R450): dirty lines are written back; then everything is as after creation, except
`PM`, the parameters, `BKPT` and `MMIO_TABLE`. -/
def State.resetPort (s : State) : State :=
  let new := State.created s.params
  { new with hier := { new.hier with pm := (invalidateAll s.params s.hier).pm }, bkpt := s.bkpt,
             mmioTable := s.mmioTable, envCalls := s.envCalls, intAsked := s.intAsked }

/-- All four latches flushed (10_state.md R41). -/
def flushLatches (s : State) : State := setMemWb none (flushYounger s)

/-- `load_program` (51_host_interface.md R372). -/
def loadProgram (bytes : List Byte) (address : Nat) (s : State) : Port State :=
  if s.params.memSize < address + bytes.length then .invalidParameter
  else
    .ok (flushLatches
      { s with hier := hostWrite s.params s.hier address bytes, pc := BitVec.ofNat 64 address, halted := false,
               resume := false, lastStatus := .ok })

/-! ## Running (51_host_interface.md R373, R374) -/

/-- `step` (51_host_interface.md R374): one tick, and the status it returns. -/
def stepPort (s : State) : Status × State :=
  if s.halted then (.halted, s) else ((tick s).lastStatus, tick s)

/-- The loop of `run` (51_host_interface.md R373) for at most `fuel` ticks; `none` where they do not suffice. -/
def runFrom (start : Word) (budget : Nat) : Nat → State → Option (Status × State)
  | 0, s => if budget ≤ (s.perf.retired - start).toNat then some (.ok, s) else none
  | fuel + 1, s =>
    if budget ≤ (s.perf.retired - start).toNat then some (.ok, s)
    else
      let r := stepPort s
      if r.1 = .ok then runFrom start budget fuel r.2 else some r

/-- `run(max_instructions)` (51_host_interface.md R373) within `fuel` ticks. -/
def runPort (fuel budget : Nat) (s : State) : Option (Status × State) := runFrom s.perf.retired budget fuel s

/-! ## Registers and memory (51_host_interface.md R375 to R383) -/

/-- What `get_state` reports (51_host_interface.md R375). -/
structure StateView where
  pc : Word
  sp : Word
  flags : Word
  x : List Word
  v : List VWord
  perf : List Word
deriving DecidableEq, Repr

/-- `PERF[0..7]` (50_pipeline.md R360). -/
def Perf.toList (f : Perf) : List Word :=
  [f.retired, f.cycles, f.l1Misses, f.l2Misses, f.mispredicts, f.stalls, f.memOps, f.simdOps]

/-- `get_state` (51_host_interface.md R375). -/
def getState (s : State) : StateView where
  pc := s.pc
  sp := s.sp
  flags := s.flags
  x := (List.range 32).map fun i => getX s (BitVec.ofNat 5 i)
  v := s.v.toList
  perf := s.perf.toList

/-- `get_register` (51_host_interface.md R380). -/
def getRegister (index : Nat) (s : State) : Port Word :=
  if index < 32 then .ok (getX s (BitVec.ofNat 5 index))
  else if index = 32 then .ok s.pc
  else if index = 33 then .ok s.sp
  else if index = 34 then .ok s.flags
  else .invalidParameter

/-- `set_register` (51_host_interface.md R380). -/
def setRegister (index : Nat) (value : Word) (s : State) : Port State :=
  if index < 32 then .ok (setX (BitVec.ofNat 5 index) value s)
  else if index = 32 then .ok (setPc value s)
  else if index = 33 then .ok { s with sp := value }
  else if index = 34 then .ok { s with flags := flagBits value }
  else .invalidParameter

/-- `read_memory` (51_host_interface.md R382). -/
def readMemory (address length : Nat) (s : State) : Port (List Byte) :=
  if s.params.memSize < address + length then .invalidParameter else .ok (hostRead s.params s.hier address length)

/-- `write_memory` (51_host_interface.md R382). -/
def writeMemory (address : Nat) (bytes : List Byte) (s : State) : Port State :=
  if s.params.memSize < address + bytes.length then .invalidParameter
  else .ok { s with hier := hostWrite s.params s.hier address bytes }

/-- `get_perf_counter` (51_host_interface.md R383). -/
def getPerfCounter (index : Nat) (s : State) : Port Word :=
  match s.perf.toList[index]? with
  | some w => .ok w
  | none => .invalidParameter

/-- `get_vector_stat` (51_host_interface.md R383). -/
def getVectorStat (vector : Nat) (s : State) : Port Word :=
  if vector < 256 then .ok (statGet s vector) else .invalidParameter

/-! ## Breakpoints (51_host_interface.md R384) -/

/-- An address put into the rising list of breakpoints. -/
def insertAddr (a : Word) : List Word → List Word
  | [] => [a]
  | b :: bs => if a = b then b :: bs else if a.toNat < b.toNat then a :: b :: bs else b :: insertAddr a bs

/-- `set_breakpoint` (51_host_interface.md R384). -/
def setBreakpoint (a : Word) (s : State) : State := { s with bkpt := insertAddr a s.bkpt }

/-- `clear_breakpoint` (51_host_interface.md R384). -/
def clearBreakpoint (a : Word) (s : State) : State := { s with bkpt := s.bkpt.filter (· ≠ a) }

/-! ## Events (51_host_interface.md R388) -/

/-- `poll_event` (51_host_interface.md R388). -/
def pollEvent (s : State) : Option Event × State :=
  match s.eventQ with
  | [] => (none, s)
  | e :: es => (some e, { s with eventQ := es })

/-! ## Environment ports (51_host_interface.md R389 to R392) -/

/-- `trigger` (51_host_interface.md R389). -/
def trigger (vector : Nat) (s : State) : Port State :=
  if deviceVector vector then
    .ok { s with ic := { s.ic with pending := s.ic.pending ||| (1#256 <<< vector) } }
  else .invalidParameter

/-- `register_handler` (51_host_interface.md R391). -/
def registerHandler (vector : Nat) (slot : Slot) (s : State) : Port State :=
  if vector < 256 then
    .ok { s with ic := { s.ic with ivt := Store.set (fun _ => .default) s.ic.ivt vector slot } }
  else .invalidParameter

/-- Two ranges share an address. -/
def overlaps (base size : Nat) (r : MmioRange) : Bool :=
  decide (base < r.base + r.size) && decide (r.base < base + size)

/-- `register_mmio` (51_host_interface.md R390). -/
def registerMmio (base size handler : Nat) (s : State) : Port State :=
  if base % 4096 = 0 ∧ size % 4096 = 0 ∧ 0 < size ∧ s.params.mmioBase ≤ base ∧ base + size ≤ s.params.mmioLimit ∧
      s.mmioTable.any (overlaps base size) = false then
    .ok { s with mmioTable := s.mmioTable ++ [{ base := base, size := size, handler := handler }] }
  else .invalidParameter

/-- Every TLB entry invalidated (21_translation.md R105). -/
def invalidTlb (s : State) : State := { s with mmu := { s.mmu with tlb := tlbDropAll s.mmu.tlb } }

/-- `pt_write` (21_translation.md R107). -/
def ptWrite (table index : Nat) (entry : Word) (s : State) : Port State :=
  if table < 2 ^ 40 ∧ index < 512 then
    .ok (invalidTlb { s with mmu := { s.mmu with pt := ptSet s.mmu.pt table index entry } })
  else .invalidParameter

/-- `pt_read` (21_translation.md R107). -/
def ptRead (table index : Nat) (s : State) : Port Word :=
  if table < 2 ^ 40 ∧ index < 512 then .ok (ptGet s.mmu.pt table index) else .invalidParameter

/-- `flush_tlb` (21_translation.md R105). -/
def flushTlb (s : State) : State := invalidTlb s

/-- `flush_caches` (22_caches.md R148). -/
def flushCaches (s : State) : State := { s with hier := invalidateAll s.params s.hier }

end Sys2Proof.Machine
end

