-- ==== Sys2Proof/Safety.lean ====
section
/-! DEFINITION. What a sound state is, in the terms the statements use: the invariants the spec gives the machine
(spec/10_state.md R22, R30, R33; 21_translation.md R106; 22_caches.md R122, R124, R129, R152; 51_host_interface.md R388)
and the canonical form of its sparse arrays. Nothing here is used by the step. -/

namespace Sys2Proof.Machine

/-! ## Registers and the InterruptController -/

/-- R0 holds 0 (10_state.md R22), the reserved flag bits are 0 (R30), `NEST` is at most `MAX_NEST` (R33), only device
vectors are pending (51_host_interface.md R389), the event queue keeps its depth (R388) and the prefetcher's confidence
is at most 3 (22_caches.md R145). -/
structure ControlOk (s : State) : Prop where
  r0 : s.x[0] = 0
  flags : s.flags.toNat < 64
  nest : s.ic.nest ≤ s.params.maxNest
  pending : s.ic.pending &&& ~~~deviceMask = 0
  events : s.eventQ.length ≤ s.params.eventDepth
  confidence : s.hier.pf.conf ≤ 3

/-! ## The canonical form of the sparse arrays -/

/-- Every sparse array of the state is in canonical form: indices rising, no entry equal to its initial content. -/
structure StoresOk (s : State) : Prop where
  pm : Memory.wf s.hier.pm = true
  l1i : Store.wf (fun _ => emptySet (l1iGeom s.params)) s.hier.l1i = true
  l1d : Store.wf (fun _ => emptySet (l1dGeom s.params)) s.hier.l1d = true
  l2 : Store.wf (fun _ => emptySet (l2Geom s.params)) s.hier.l2 = true
  pt : Store.wf ptInitAt s.mmu.pt = true
  tlb : Store.wf (fun _ => tlbInvalid) s.mmu.tlb = true
  ivt : Store.wf (fun _ => Slot.default) s.ic.ivt = true
  ivtStat : Store.wf (fun _ => (0 : Word)) s.ic.ivtStat = true
  trapStk : Store.wf (fun _ => noFrame) s.ic.trapStk = true
  bp : Store.wf (fun _ => (0 : BitVec 2)) s.predictor.bp = true
  btb : Store.wf (fun _ => btbInvalid) s.predictor.btb = true

/-! ## The caches -/

/-- One set of a cache (22_caches.md R122, R124, R152 a, c): its ways, 64-byte payloads, invalid ways clean with
counter 0, no tag twice and no counter twice among the valid ways. -/
structure SetOk (g : Geom) (ws : List Way) : Prop where
  ways : ws.length = g.ways
  payload : ∀ w ∈ ws, w.data.length = 64
  invalid : ∀ w ∈ ws, w.valid = false → w.dirty = false ∧ w.lru = 0
  tags : ws.Pairwise fun a b => a.valid = true → b.valid = true → a.tag ≠ b.tag
  ages : ws.Pairwise fun a b => a.valid = true → b.valid = true → a.lru ≠ b.lru

/-- What a cache holds of a line: its dirty bit and its payload, or nothing. -/
def lineInfo (g : Geom) (c : Store (List Way)) (ln : Nat) : Option (Bool × List Byte) :=
  ((setGet g c (setOf g ln)).find? (wayHolds (tagOf g ln))).map fun w => (w.dirty, w.data)

/-- A cache of a given shape over RAM of a given size: every set is sound, no set beyond the last is used, and only
lines inside RAM are cached (20_memory.md R77). -/
structure CacheOk (g : Geom) (memSize : Nat) (c : Store (List Way)) : Prop where
  sets : ∀ k, SetOk g (setGet g c k)
  unused : ∀ k, g.sets ≤ k → ∀ w ∈ setGet g c k, w.valid = false
  inRam : ∀ ln b d, lineInfo g c ln = some (b, d) → 64 * ln + 64 ≤ memSize

/-- The payload of a line as the levels below L1 hold it: L2's copy, else `PM`'s (22_caches.md R129). -/
def belowL1 (p : Params) (h : Hierarchy) (ln : Nat) : List Byte :=
  (cached (l2Geom p) h.l2 ln).getD (Memory.readLine h.pm ln)

/-- The hierarchy is sound: each cache is; L1I lines are never dirty (22_caches.md R122); a clean line equals the copy
below it, so that dropping it loses nothing (R127, R129, R152 b); `PM` has `MEM_SIZE` bytes (10_state.md R35). -/
structure HierOk (p : Params) (h : Hierarchy) : Prop where
  l1i : CacheOk (l1iGeom p) p.memSize h.l1i
  l1d : CacheOk (l1dGeom p) p.memSize h.l1d
  l2 : CacheOk (l2Geom p) p.memSize h.l2
  l1iClean : ∀ k, ∀ w ∈ setGet (l1iGeom p) h.l1i k, w.dirty = false
  l1dClean : ∀ ln d, lineInfo (l1dGeom p) h.l1d ln = some (false, d) → d = belowL1 p h ln
  l2Clean : ∀ ln d, lineInfo (l2Geom p) h.l2 ln = some (false, d) → d = Memory.readLine h.pm ln
  ram : ∀ a, p.memSize ≤ a → Memory.read h.pm a = 0

/-! ## The TLB -/

/-- Every valid TLB entry holds what a walk of its page would find now (21_translation.md R106). -/
def TlbOk (entries : Nat) (m : Mmu) : Prop :=
  ∀ k, (tlbGet m.tlb k).valid = true → ∀ va : Word, va.toNat < 2 ^ 48 → vpnOf va = (tlbGet m.tlb k).vpn →
    vpnOf va % entries = k →
    ∃ path, walk m.pt va = .found (tlbGet m.tlb k).pfn path ∧ (tlbGet m.tlb k).w = pathW path ∧
      (tlbGet m.tlb k).u = pathU path ∧ ((tlbGet m.tlb k).d = true → pathD path = true)

/-! ## The whole machine -/

/-- Sound parameters, hierarchy and TLB: what the memory primitives rely on. -/
structure MemoryOk (s : State) : Prop where
  params : s.params.valid = true
  hier : HierOk s.params s.hier
  tlb : TlbOk s.params.tlbEntries s.mmu

/-- The flat memory of 20_memory.md R85: the byte of RAM a load sees. -/
def State.flat (s : State) (a : Nat) : Byte := flatByte s.params s.hier a

/-- No instruction is in flight. -/
def State.quiet (s : State) : Prop := s.latches = { ifId := none, idEx := none, exMem := none, memWb := none }

end Sys2Proof.Machine
end

