-- ==== Sys2Proof/Certificates/Slice0/Obligations.lean ====
section
/-! DEFINITION. The statements for the provers. Each says in its docstring which rules of the spec it formalises; a
statement of basis "derived" says what it rests on in OBLIGATIONS.json. The vocabulary below is written from the rules
again, not from the meanings, so that a statement and a meaning can disagree. -/

namespace Sys2Proof.Claims

open Sys2Proof.Machine

/-! ## Vocabulary: registers, flags, counters -/

/-- The general registers after `x[rd] <- r`, a write to R0 being dropped (10_state.md R22). -/
def putX (x : Vector Word 32) (rd : Reg) (r : Word) : Vector Word 32 := if rd = 0 then x else x.set rd.toNat r

/-- A flags word with Z, C, V, N at bits 0 to 3, IE and UM kept at bits 4 and 5, the rest 0 (10_state.md R30). -/
def arithFlags (f : Word) (z c v n : Bool) : Word :=
  BitVec.ofNat 64 (z.toNat + 2 * c.toNat + 4 * v.toNat + 8 * n.toNat + 16 * (f.toNat / 16 % 4))

/-- One instruction more retired (50_pipeline.md R360). -/
def onceRetired (f : Perf) : Perf := { f with retired := f.retired + 1 }

/-- One instruction more retired, a vector one. -/
def onceVector (f : Perf) : Perf := { f with retired := f.retired + 1, simdOps := f.simdOps + 1 }

/-- The state after a scalar ALU instruction with result `r`, carry `c` and overflow `v` (40_alu.md R200, R220): nothing
but `rd`, the four flags, the pc and `PERF[0]` changes. -/
def aluState (s : State) (rd : Reg) (r : Word) (c v : Bool) : State :=
  { s with x := putX s.x rd r, flags := arithFlags s.flags (r == 0) c v r.msb, pc := s.pc + 4,
           perf := onceRetired s.perf }

/-- The seventeen scalar ALU instructions (10_state.md R31). -/
def isAlu : Instr → Bool
  | .add .. | .sub .. | .mul .. | .mulh .. | .div .. | .mod .. | .and .. | .or .. | .xor .. | .not .. | .shl .. | .shr ..
  | .sar .. | .rol .. | .ror .. | .cmp .. | .test .. => true
  | _ => false

/-- The state after a vector instruction with result `r` (44_simd.md R285, R287): nothing but `vd`, the pc, `PERF[0]` and
`PERF[7]` changes. -/
def vecState (s : State) (vd : VReg) (r : VWord) : State :=
  { s with v := s.v.set vd.toNat r, pc := s.pc + 4, perf := onceVector s.perf }

/-- The state after a control transfer to `next` (42_control.md R261): nothing but the pc, the predictor, `PERF[0]` and,
where the prediction was wrong, `PERF[4]` changes. -/
def controlState (s : State) (taken : Bool) (next : Word) : State :=
  { s with pc := next, predictor := train s.params s.predictor s.pc taken next,
           perf := { s.perf with
             retired := s.perf.retired + 1,
             mispredicts := s.perf.mispredicts + (if next = predict s.params s.predictor s.pc then 0 else 1) } }

/-- The outcome of an instruction is this next state. -/
def Gives (i : Instr) (s t : State) : Prop := exec i s = .next t

/-- The six conditional branches with the comparison each makes (42_control.md R252 to R257). -/
inductive CondBranch (ra rb : Reg) (imm : BitVec 16) : Instr → (Word → Word → Bool) → Prop where
  | beq : CondBranch ra rb imm (.beq ra rb imm) fun a b => a == b
  | bne : CondBranch ra rb imm (.bne ra rb imm) fun a b => a != b
  | blt : CondBranch ra rb imm (.blt ra rb imm) fun a b => a.slt b
  | bge : CondBranch ra rb imm (.bge ra rb imm) fun a b => !a.slt b
  | bltu : CondBranch ra rb imm (.bltu ra rb imm) fun a b => a.ult b
  | bgeu : CondBranch ra rb imm (.bgeu ra rb imm) fun a b => !a.ult b

/-- Bits `64k + 63` to `64k` of a vector value. -/
def laneBits (a : VWord) (k : Nat) : Word := a.extractLsb' (64 * k) 64

/-- A vector instruction writes to `vd` a value whose four lanes are as given, and changes nothing else. -/
def GivesLanes (i : Instr) (s : State) (vd : VReg) (value : Nat → Word) : Prop :=
  ∃ r : VWord, Gives i s (vecState s vd r) ∧ ∀ k < 4, laneBits r k = value k

/-! ## Vocabulary: memory -/

/-- Everything but registers, flags, pc, memory hierarchy, translation and counters is unchanged. -/
structure Undisturbed (s u : State) : Prop where
  params : u.params = s.params
  sp : u.sp = s.sp
  mmioTable : u.mmioTable = s.mmioTable
  ic : u.ic = s.ic
  halted : u.halted = s.halted
  exitCode : u.exitCode = s.exitCode
  lastStatus : u.lastStatus = s.lastStatus
  latches : u.latches = s.latches
  predictor : u.predictor = s.predictor
  bkpt : u.bkpt = s.bkpt
  resume : u.resume = s.resume
  eventQ : u.eventQ = s.eventQ
  envCalls : u.envCalls = s.envCalls
  intAsked : u.intAsked = s.intAsked

/-- The address a load or store names (41_loadstore.md R230). -/
def address (s : State) (rs1 : Reg) (imm : BitVec 16) : Word := getX s rs1 + imm.signExtend 64

/-- The access of `n` bytes at `va` goes to RAM at `pa`: it is aligned, translates to `pa` leaving the page table and
TLB as in `t`, and `pa` is inside RAM (20_memory.md R71, R72). -/
structure ToRam (s : State) (va : Word) (acc : Acc) (n pa : Nat) (t : State) : Prop where
  aligned : va.toNat % n = 0
  translated : translateS s va acc = .done pa t
  outside : inWindow s.params pa = false
  inside : pa + n ≤ s.params.memSize

/-- The access goes to the device window at `pa` (20_memory.md R71, R72 step 3). -/
structure ToDevice (s : State) (va : Word) (acc : Acc) (n pa : Nat) (t : State) : Prop where
  aligned : va.toNat % n = 0
  translated : translateS s va acc = .done pa t
  inside : inWindow s.params pa = true

/-- `val` is the little-endian value of the `n` bytes of flat memory from `pa` on (20_memory.md R65, R85). -/
def HoldsBytes (s : State) (pa n : Nat) (val : VWord) : Prop :=
  (∀ j < n, val.extractLsb' (8 * j) 8 = s.flat (pa + j)) ∧ ∀ i, 8 * n ≤ i → val.getLsbD i = false

/-- The counters after a load or store that missed in L1 or L2 so and so often. -/
def MemCounted (s u : State) (simd : Word) : Prop :=
  u.perf.retired = s.perf.retired + 1 ∧ u.perf.cycles = s.perf.cycles ∧ u.perf.mispredicts = s.perf.mispredicts ∧
  u.perf.stalls = s.perf.stalls ∧ u.perf.memOps = s.perf.memOps + 1 ∧ u.perf.simdOps = s.perf.simdOps + simd

/-- A load from RAM: `u` is the state after it, whose registers the statement gives. -/
structure LoadedFromRam (s t u : State) (simd : Word) : Prop where
  flags : u.flags = s.flags
  pc : u.pc = s.pc + 4
  memory : ∀ a, u.flat a = s.flat a
  mmu : u.mmu = t.mmu
  counted : MemCounted s u simd
  rest : Undisturbed s u

/-- A store of the low `n` bytes of `val` to RAM at `pa`: those bytes of the flat memory, and no other, change; the TLB
entry of the page is dropped (21_translation.md R104). -/
structure StoredToRam (s t u : State) (va : Word) (pa n : Nat) (val : VWord) (simd : Word) : Prop where
  flags : u.flags = s.flags
  pc : u.pc = s.pc + 4
  x : u.x = s.x
  v : u.v = s.v
  stored : ∀ j < n, u.flat (pa + j) = val.extractLsb' (8 * j) 8
  others : ∀ a, a < pa ∨ pa + n ≤ a → u.flat a = s.flat a
  pt : u.mmu.pt = t.mmu.pt
  dropped : tlbHolds (tlbGet u.mmu.tlb (vpnOf va % s.params.tlbEntries)) (vpnOf va) = false
  counted : MemCounted s u simd
  rest : Undisturbed s u

/-- An access to the device window with the vectors `vs` triggered and `calls` calls of the environment: nothing but
registers, translation, pending vectors, pc and counters changes, and neither miss counter does (20_memory.md R76, R77). -/
structure DeviceAccessed (s u : State) (vs : BitVec 256) (calls : Nat) (simd : Word) : Prop where
  hier : u.hier = s.hier
  flags : u.flags = s.flags
  pc : u.pc = s.pc + 4
  ic : u.ic = { s.ic with pending := s.ic.pending ||| (vs &&& deviceMask) }
  calls : u.envCalls = s.envCalls + calls
  counted : MemCounted s u simd
  l1Misses : u.perf.l1Misses = s.perf.l1Misses
  l2Misses : u.perf.l2Misses = s.perf.l2Misses
  rest : Undisturbed { s with ic := u.ic, envCalls := u.envCalls } u

/-- A store to the device window: besides, no register changes and the TLB entry of the page is dropped (21_translation.md
R104). -/
structure DeviceStored (s t u : State) (va : Word) (vs : BitVec 256) (calls : Nat) (simd : Word) : Prop where
  accessed : DeviceAccessed s u vs calls simd
  x : u.x = s.x
  v : u.v = s.v
  pt : u.mmu.pt = t.mmu.pt
  dropped : tlbHolds (tlbGet u.mmu.tlb (vpnOf va % s.params.tlbEntries)) (vpnOf va) = false

/-- The ten loads and stores: the instruction, the kind of access and its width (41_loadstore.md, 44_simd.md R310,
R311). -/
inductive AccessForm : Instr → Acc → Nat → Reg → BitVec 16 → Prop where
  | lb (rd rs1 imm) : AccessForm (.lb rd rs1 imm) .read 1 rs1 imm
  | lh (rd rs1 imm) : AccessForm (.lh rd rs1 imm) .read 2 rs1 imm
  | lw (rd rs1 imm) : AccessForm (.lw rd rs1 imm) .read 4 rs1 imm
  | ldd (rd rs1 imm) : AccessForm (.ldd rd rs1 imm) .read 8 rs1 imm
  | vload (vd rs1 imm) : AccessForm (.vload vd rs1 imm) .read 32 rs1 imm
  | sb (rd rs1 imm) : AccessForm (.sb rd rs1 imm) .write 1 rs1 imm
  | sh (rd rs1 imm) : AccessForm (.sh rd rs1 imm) .write 2 rs1 imm
  | sw (rd rs1 imm) : AccessForm (.sw rd rs1 imm) .write 4 rs1 imm
  | st (rd rs1 imm) : AccessForm (.st rd rs1 imm) .write 8 rs1 imm
  | vstore (vd rs1 imm) : AccessForm (.vstore vd rs1 imm) .write 32 rs1 imm

/-- The four scalar loads with their widths (41_loadstore.md R232 to R235). -/
inductive ScalarLoad (rd rs1 : Reg) (imm : BitVec 16) : Instr → Nat → Prop where
  | lb : ScalarLoad rd rs1 imm (.lb rd rs1 imm) 1
  | lh : ScalarLoad rd rs1 imm (.lh rd rs1 imm) 2
  | lw : ScalarLoad rd rs1 imm (.lw rd rs1 imm) 4
  | ldd : ScalarLoad rd rs1 imm (.ldd rd rs1 imm) 8

/-- The four scalar stores with their widths (41_loadstore.md R237 to R240). -/
inductive ScalarStore (rd rs1 : Reg) (imm : BitVec 16) : Instr → Nat → Prop where
  | sb : ScalarStore rd rs1 imm (.sb rd rs1 imm) 1
  | sh : ScalarStore rd rs1 imm (.sh rd rs1 imm) 2
  | sw : ScalarStore rd rs1 imm (.sw rd rs1 imm) 4
  | st : ScalarStore rd rs1 imm (.st rd rs1 imm) 8

/-! ## Vocabulary: exceptions -/

/-- The queue with an event at its end, dropped where the queue is full (51_host_interface.md R388). -/
def queued (s : State) (q : List Event) (e : Event) : List Event := if q.length < s.params.eventDepth then q ++ [e] else q

/-- The statistics with that of one vector one up (60_exceptions.md R405). -/
def counted (s : State) (v : Nat) : Store Word := Store.set (fun _ => 0) s.ic.ivtStat v (statGet s v + 1)

/-- The save stack with one frame more (60_exceptions.md R412). -/
def framed (s : State) (f : Frame) : Store Frame :=
  Store.set (fun _ => { retPc := 0, flags := 0, vector := 0, info0 := 0, info1 := 0 }) s.ic.trapStk s.ic.nest f

/-! ## Vocabulary: doubles (44_simd.md R312) -/

/-- The double is finite. -/
def F64Finite (w : Word) : Prop := w.toNat / 2 ^ 52 % 2 ^ 11 ≠ 2047

/-- The double is a NaN. -/
def F64IsNan (w : Word) : Prop := w.toNat / 2 ^ 52 % 2 ^ 11 = 2047 ∧ w.toNat % 2 ^ 52 ≠ 0

/-- The double is an infinity. -/
def F64IsInf (w : Word) : Prop := w.toNat / 2 ^ 52 % 2 ^ 11 = 2047 ∧ w.toNat % 2 ^ 52 = 0

/-- The value of a finite double in units of 2^−1074. -/
def f64Units (w : Word) : Int :=
  (if w.msb then -1 else 1) *
    (if w.toNat / 2 ^ 52 % 2 ^ 11 = 0 then (w.toNat % 2 ^ 52 : Int)
     else (2 ^ 52 + w.toNat % 2 ^ 52 : Int) * 2 ^ (w.toNat / 2 ^ 52 % 2 ^ 11 - 1))

/-- `r` is the exact value `e`, in units of 2^−2148, rounded once to the nearest double, ties to even; too large a value
gives infinity; an exact zero has the sign `zeroNeg` (44_simd.md R312 a to c). -/
structure RoundedOnce (e : Int) (zeroNeg : Bool) (r : Word) : Prop where
  overflow : (2 ^ 54 - 1) * 2 ^ 3118 ≤ e.natAbs → F64IsInf r
  nearest : e.natAbs < (2 ^ 54 - 1) * 2 ^ 3118 → F64Finite r ∧ ∀ x, F64Finite x →
    (2 ^ 1074 * f64Units r - e).natAbs ≤ (2 ^ 1074 * f64Units x - e).natAbs ∧
    ((2 ^ 1074 * f64Units r - e).natAbs = (2 ^ 1074 * f64Units x - e).natAbs → f64Units x ≠ f64Units r →
      r.getLsbD 0 = false)
  sign : e ≠ 0 → r.msb = decide (e < 0)
  zero : e = 0 → r = if zeroNeg then 0x8000000000000000#64 else 0

/-! ## Vocabulary: the environment -/

/-- A byte map after a list of writes, each applied where it lies inside RAM (43_system.md R272). -/
def afterWrites (memSize : Nat) : List (Nat × List Byte) → (Nat → Byte) → Nat → Byte
  | [], f => f
  | (a, bs) :: rest, f =>
    afterWrites memSize rest fun b =>
      if a + bs.length ≤ memSize ∧ a ≤ b ∧ b < a + bs.length then bs.getD (b - a) 0 else f b

/-! ## Vocabulary: the two levels (70_reset_and_hazards.md R466, R467) -/

/-- The events without the `pc` of interrupts: to a default handler it is the fetch `PC` (60_exceptions.md R420), which runs
ahead at the cycle level. -/
def eventView (q : List Event) : List Event := q.map fun e => if e.kind = .deviceInterrupt then { e with pc := 0 } else e

/-- A state agrees with a state of the reference interpreter: registers, flags, architectural pc, flat memory, page table
but for the accessed and dirty bits, system registers and events. Latches, caches, TLB, predictor and counters are no part
of the architectural level (70_reset_and_hazards.md R466 (6), R467). -/
structure SameArch (s r : State) : Prop where
  params : s.params = r.params
  x : s.x = r.x
  v : s.v = r.v
  flags : s.flags = r.flags
  pc : archPc s = r.pc
  sp : s.sp = r.sp
  memory : ∀ a, s.flat a = Memory.read r.hier.pm a
  pages : ∀ t i, ptGet s.mmu.pt t i &&& ~~~0x18#64 = ptGet r.mmu.pt t i &&& ~~~0x18#64
  mmioTable : s.mmioTable = r.mmioTable
  ic : s.ic = r.ic
  halted : s.halted = r.halted
  exitCode : s.exitCode = r.exitCode
  bkpt : s.bkpt = r.bkpt
  events : eventView s.eventQ = eventView r.eventQ
  envCalls : s.envCalls = r.envCalls

/-- Fetched at `va`, a word of RAM is the one of the flat memory: what 70_reset_and_hazards.md R461 secures. -/
def FetchesFlat (s : State) (va : Word) : Prop :=
  ∀ pa t, ToRam s va .fetch 4 pa t →
    (ramFetch t pa).1 = wordOfBytes (s.flat pa) (s.flat (pa + 1)) (s.flat (pa + 2)) (s.flat (pa + 3))

/-- No cache hides a store from the fetch: L1I holds the flat memory's bytes and L1D nothing dirty, as after `reset`,
`load_program` or `flush_caches` (70_reset_and_hazards.md R461). -/
structure CodeCoherent (s : State) : Prop where
  l1i : ∀ ln b d, lineInfo (l1iGeom s.params) s.hier.l1i ln = some (b, d) → ∀ j < 64, lineByte d j = s.flat (64 * ln + j)
  l1d : ∀ ln d, lineInfo (l1dGeom s.params) s.hier.l1d ln ≠ some (true, d)

/-- The program does not execute bytes it stored (70_reset_and_hazards.md R461): in every run of the reference interpreter,
the word at its pc has stood in memory unchanged since the start. So bytes that an `EnvSyscall` answer wrote (43_system.md
R272) count as stored by the program too: DESIGN CHOICE (log entry 24). -/
def NeverRunsStored (s : State) : Prop :=
  ∀ (before after : List RefInput) (r t : State) (pa : Nat), r = refRun (before ++ after) (architectural s) →
    r.halted = false → refTranslate r r.pc .fetch = .done pa t →
    ∀ j < 4, Memory.read (refRun before (architectural s)).hier.pm (pa + j) = s.flat (pa + j)

/-- The turns the reference interpreter may take for one tick before which `vs` is triggered: none, one, or one in which
the environment asks for an interrupt and then one in which it does not. A turn that asks for an interrupt where none is
deliverable goes on to the instruction at the pc (`refRound`), so the two turns may be an interrupt and an instruction, or
two instructions. -/
inductive TickInputs (vs : BitVec 256) : List RefInput → Prop where
  | idle : TickInputs vs [.trigger vs]
  | taken : TickInputs vs [.trigger vs, .round true]
  | executed : TickInputs vs [.trigger vs, .round false]
  | both : TickInputs vs [.trigger vs, .round true, .round false]

end Sys2Proof.Claims

open Sys2Proof Sys2Proof.Machine Sys2Proof.Claims

/-! ## Encoding -/

/-- 30_encoding.md R161 to R175: decoding the encoding of a well-formed instruction gives it back. -/
def Obligations.DecodeOfEncode : Prop :=
  ∀ (strict : Bool) (i : Instr), i.wellFormed strict = true → decode strict (encode i) = some i

/-- 30_encoding.md R175: a word that decodes is the encoding of what it decodes to, and that is well-formed. -/
def Obligations.EncodeOfDecode : Prop :=
  ∀ (strict : Bool) (w : IWord) (i : Instr), decode strict w = some i → encode i = w ∧ i.wellFormed strict = true

/-- 30_encoding.md R172, R173: exactly these words are illegal with unused fields ignored, and under `STRICT_RESERVED`
(R168) also those with a non-zero unused field. -/
def Obligations.IllegalWords : Prop :=
  (∀ w : IWord, decode false w = none ↔
    (0x27 ≤ w.toNat / 2 ^ 26 ∧ w.toNat / 2 ^ 26 ≤ 0x2F) ∨ 0x33 ≤ w.toNat / 2 ^ 26 ∨
    (w.toNat / 2 ^ 26 = 0x30 ∧
      (w.toNat % 256 = 0x0F ∨ 0x14 ≤ w.toNat % 256 ∨ w.toNat / 256 % 8 ≠ 0 ∨
        w.getLsbD 25 = true ∨ w.getLsbD 20 = true ∨ w.getLsbD 15 = true)) ∨
    ((w.toNat / 2 ^ 26 = 0x31 ∨ w.toNat / 2 ^ 26 = 0x32) ∧ w.getLsbD 25 = true)) ∧
  ∀ (w : IWord) (i : Instr), decode true w = some i ↔ decode false w = some i ∧ i.unusedFieldsZero = true

/-- 30_encoding.md R191: words of the spec's own table. -/
def Obligations.SpecWordsDecode : Prop :=
  decode false 0x00611000#32 = some (.add 3 1 2 0 0) ∧
  decode false 0x24810000#32 = some (.not 4 1 0 0 0) ∧
  decode false 0x8C011000#32 = some (.cmp 0 1 2 0 0) ∧
  decode false 0x3C20002A#32 = some (.ld 1 0 42) ∧
  decode false 0x40A20008#32 = some (.lw 5 2 8) ∧
  decode false 0x4CA2FFF8#32 = some (.st 5 2 0xFFF8) ∧
  decode false 0x6020FFFC#32 = some (.bne 1 0 0xFFFC) ∧
  decode false 0x74000010#32 = some (.jmp 16) ∧
  decode false 0x84000000#32 = some (.halt 0) ∧
  decode false 0xC0221800#32 = some (.vadd 1 2 3) ∧
  decode false 0xC4220020#32 = some (.vload 1 2 32)

/-! ## The step -/

/-- 70_reset_and_hazards.md R467: where the word fetched at the architectural pc decodes to `i`, the step is `exec i` in
the state the fetch left, whose registers, flags and pc are the machine's. That a step drops instructions left in the
latches before MEM/WB is the model's choice (log entry 8). -/
def Obligations.StepRunsDecoded : Prop :=
  ∀ (s t : State) (w : IWord) (i : Instr), s.halted = false → s.latches.memWb = none →
    breakpointAt (squash (startStep s)) = false → deliverable (squash (startStep s)) = none →
    fetch { squash (startStep s) with resume := false } (archPc s) = .done w t →
    decode s.params.strictReserved w = some i →
    step s = exec i t ∧ t.pc = archPc s ∧ t.x = s.x ∧ t.v = s.v ∧ t.flags = s.flags ∧ t.ic = s.ic ∧ t.sp = s.sp ∧
      t.quiet ∧ t.lastStatus = .ok ∧ t.resume = false ∧ t.halted = false ∧ t.exitCode = s.exitCode ∧
      t.predictor = s.predictor ∧ t.bkpt = s.bkpt ∧ t.eventQ = s.eventQ ∧ t.mmioTable = s.mmioTable ∧ t.params = s.params

/-- 20_memory.md R65, R73: a fetch from RAM whose line is neither in L1I nor dirty in L1D returns the little-endian word
of the flat memory, and changes no byte of it. -/
def Obligations.FetchReadsMemory : Prop :=
  ∀ (s t : State) (va : Word) (pa : Nat), MemoryOk s → ToRam s va .fetch 4 pa t →
    lineInfo (l1iGeom s.params) s.hier.l1i (pa / 64) = none →
    (∀ d, lineInfo (l1dGeom s.params) s.hier.l1d (pa / 64) ≠ some (true, d)) →
    ∃ u, fetch s va = .done (wordOfBytes (s.flat pa) (s.flat (pa + 1)) (s.flat (pa + 2)) (s.flat (pa + 3))) u ∧
      (∀ a, u.flat a = s.flat a) ∧ MemoryOk u

/-! ## Scalar ALU -/

/-- 40_alu.md R201, R202: ADD and SUB. -/
def Obligations.AddSubResult : Prop :=
  ∀ (s : State) (rd rs1 rs2 : Reg) (sh : BitVec 5) (fn : BitVec 6),
    Gives (.add rd rs1 rs2 sh fn) s
      (aluState s rd (getX s rs1 + getX s rs2) (decide (2 ^ 64 ≤ (getX s rs1).toNat + (getX s rs2).toNat))
        ((getX s rs1).msb == (getX s rs2).msb && (getX s rs1 + getX s rs2).msb != (getX s rs1).msb)) ∧
    Gives (.sub rd rs1 rs2 sh fn) s
      (aluState s rd (getX s rs1 - getX s rs2) (decide ((getX s rs1).toNat < (getX s rs2).toNat))
        ((getX s rs1).msb != (getX s rs2).msb && (getX s rs1 - getX s rs2).msb != (getX s rs1).msb))

/-- 40_alu.md R220: C is unsigned wraparound and V signed wraparound, in ADD, SUB and CMP; Z and N read off the result. -/
def Obligations.FlagContract : Prop :=
  ∀ (s t : State) (rd rs1 rs2 : Reg) (sh : BitVec 5) (fn : BitVec 6),
    (Gives (.add rd rs1 rs2 sh fn) s t →
      (flagC t.flags = true ↔ ((getX s rs1 + getX s rs2).toNat ≠ (getX s rs1).toNat + (getX s rs2).toNat)) ∧
      (flagV t.flags = true ↔ (getX s rs1 + getX s rs2).toInt ≠ (getX s rs1).toInt + (getX s rs2).toInt) ∧
      (flagZ t.flags = true ↔ getX s rs1 + getX s rs2 = 0) ∧
      (flagN t.flags = true ↔ (getX s rs1 + getX s rs2).toInt < 0)) ∧
    ((Gives (.sub rd rs1 rs2 sh fn) s t ∨ Gives (.cmp rd rs1 rs2 sh fn) s t) →
      (flagC t.flags = true ↔ (getX s rs1).toNat < (getX s rs2).toNat) ∧
      (flagV t.flags = true ↔ (getX s rs1 - getX s rs2).toInt ≠ (getX s rs1).toInt - (getX s rs2).toInt) ∧
      (flagZ t.flags = true ↔ getX s rs1 = getX s rs2) ∧
      (flagN t.flags = true ↔ (getX s rs1 - getX s rs2).toInt < 0))

/-- 40_alu.md R203 to R206: the low and the high half of the product; signed division truncating toward zero, the
remainder with the dividend's sign, and the results for a divisor of 0. -/
def Obligations.MulDivResult : Prop :=
  ∀ (s : State) (rd rs1 rs2 : Reg) (sh : BitVec 5) (fn : BitVec 6),
    Gives (.mul rd rs1 rs2 sh fn) s (aluState s rd (getX s rs1 * getX s rs2) false false) ∧
    Gives (.mulh rd rs1 rs2 sh fn) s
      (aluState s rd (((getX s rs1).signExtend 128 * (getX s rs2).signExtend 128).extractLsb' 64 64) false false) ∧
    Gives (.div rd rs1 rs2 sh fn) s
      (aluState s rd (if getX s rs2 = 0 then BitVec.allOnes 64 else (getX s rs1).sdiv (getX s rs2)) false false) ∧
    Gives (.mod rd rs1 rs2 sh fn) s
      (aluState s rd (if getX s rs2 = 0 then getX s rs1 else (getX s rs1).srem (getX s rs2)) false false)

/-- 40_alu.md R207 to R210, R217, R218: the bitwise operations; CMP and TEST set the flags of SUB and AND and write no
register. -/
def Obligations.LogicCompareResult : Prop :=
  ∀ (s : State) (rd rs1 rs2 : Reg) (sh : BitVec 5) (fn : BitVec 6),
    Gives (.and rd rs1 rs2 sh fn) s (aluState s rd (getX s rs1 &&& getX s rs2) false false) ∧
    Gives (.or rd rs1 rs2 sh fn) s (aluState s rd (getX s rs1 ||| getX s rs2) false false) ∧
    Gives (.xor rd rs1 rs2 sh fn) s (aluState s rd (getX s rs1 ^^^ getX s rs2) false false) ∧
    Gives (.not rd rs1 rs2 sh fn) s (aluState s rd (~~~(getX s rs1)) false false) ∧
    Gives (.cmp rd rs1 rs2 sh fn) s
      (aluState s 0 (getX s rs1 - getX s rs2) (decide ((getX s rs1).toNat < (getX s rs2).toNat))
        ((getX s rs1).msb != (getX s rs2).msb && (getX s rs1 - getX s rs2).msb != (getX s rs1).msb)) ∧
    Gives (.test rd rs1 rs2 sh fn) s (aluState s 0 (getX s rs1 &&& getX s rs2) false false)

/-- 40_alu.md R211 to R216: the shifts as arithmetic on the operand read unsigned or signed; bit `i` of a rotate is the
bit `n` places below (ROL) or above (ROR), around. -/
def Obligations.ShiftRotateResult : Prop :=
  ∀ (s : State) (rd rs1 rs2 : Reg) (sh : BitVec 5) (fn : BitVec 6),
    Gives (.shl rd rs1 rs2 sh fn) s
      (aluState s rd (BitVec.ofNat 64 ((getX s rs1).toNat * 2 ^ ((getX s rs2).toNat % 64))) false false) ∧
    Gives (.shr rd rs1 rs2 sh fn) s
      (aluState s rd (BitVec.ofNat 64 ((getX s rs1).toNat / 2 ^ ((getX s rs2).toNat % 64))) false false) ∧
    Gives (.sar rd rs1 rs2 sh fn) s
      (aluState s rd (BitVec.ofInt 64 ((getX s rs1).toInt / 2 ^ ((getX s rs2).toNat % 64))) false false) ∧
    (∃ r : Word, Gives (.rol rd rs1 rs2 sh fn) s (aluState s rd r false false) ∧
      ∀ i < 64, r.getLsbD ((i + (getX s rs2).toNat) % 64) = (getX s rs1).getLsbD i) ∧
    (∃ r : Word, Gives (.ror rd rs1 rs2 sh fn) s (aluState s rd r false false) ∧
      ∀ i < 64, r.getLsbD i = (getX s rs1).getLsbD ((i + (getX s rs2).toNat) % 64))

/-- 40_alu.md R219, 43_system.md R275: LD loads its immediate and is no load; NOP does nothing. -/
def Obligations.LdNopResult : Prop :=
  ∀ (s : State) (rd rs1 : Reg) (imm : BitVec 16) (j : BitVec 26),
    Gives (.ld rd rs1 imm) s
      { s with x := putX s.x rd (imm.signExtend 64), pc := s.pc + 4, perf := onceRetired s.perf } ∧
    Gives (.nop j) s { s with pc := s.pc + 4, perf := onceRetired s.perf } ∧
    isLoad (.ld rd rs1 imm) = false ∧ srcsOf (.ld rd rs1 imm) = [] ∧ srcsOf (.nop j) = [] ∧ destOf (.nop j) = .none

/-! ## Vectors -/

/-- 44_simd.md R285, R290 to R304: the fifteen integer vector instructions, lane by lane. -/
def Obligations.VectorIntegerLanes : Prop :=
  ∀ (s : State) (vd vs1 vs2 : VReg) (a b : Nat → Word), a = laneBits (getV s vs1) → b = laneBits (getV s vs2) →
    GivesLanes (.vadd vd vs1 vs2) s vd (fun k => a k + b k) ∧
    GivesLanes (.vsub vd vs1 vs2) s vd (fun k => a k - b k) ∧
    GivesLanes (.vmul vd vs1 vs2) s vd (fun k => a k * b k) ∧
    GivesLanes (.vmulh vd vs1 vs2) s vd
      (fun k => ((a k).signExtend 128 * (b k).signExtend 128).extractLsb' 64 64) ∧
    GivesLanes (.vdiv vd vs1 vs2) s vd (fun k => if b k = 0 then BitVec.allOnes 64 else (a k).sdiv (b k)) ∧
    GivesLanes (.vmod vd vs1 vs2) s vd (fun k => if b k = 0 then a k else (a k).srem (b k)) ∧
    GivesLanes (.vand vd vs1 vs2) s vd (fun k => a k &&& b k) ∧
    GivesLanes (.vor vd vs1 vs2) s vd (fun k => a k ||| b k) ∧
    GivesLanes (.vxor vd vs1 vs2) s vd (fun k => a k ^^^ b k) ∧
    GivesLanes (.vnot vd vs1 vs2) s vd (fun k => ~~~(a k)) ∧
    GivesLanes (.vshl vd vs1 vs2) s vd (fun k => BitVec.ofNat 64 ((a k).toNat * 2 ^ ((b k).toNat % 64))) ∧
    GivesLanes (.vshr vd vs1 vs2) s vd (fun k => BitVec.ofNat 64 ((a k).toNat / 2 ^ ((b k).toNat % 64))) ∧
    GivesLanes (.vsar vd vs1 vs2) s vd (fun k => BitVec.ofInt 64 ((a k).toInt / 2 ^ ((b k).toNat % 64))) ∧
    GivesLanes (.vrol vd vs1 vs2) s vd (fun k => (a k).rotateLeft ((b k).toNat % 64)) ∧
    GivesLanes (.vror vd vs1 vs2) s vd (fun k => (a k).rotateRight ((b k).toNat % 64))

/-- 44_simd.md R305 to R308: the four double-precision vector instructions, lane by lane; the fused addend is the old
`vd`. -/
def Obligations.VectorDoubleLanes : Prop :=
  ∀ (s : State) (vd vs1 vs2 : VReg) (a b c : Nat → Word),
    a = laneBits (getV s vs1) → b = laneBits (getV s vs2) → c = laneBits (getV s vd) →
    GivesLanes (.vaddf64 vd vs1 vs2) s vd (fun k => f64Add (a k) (b k)) ∧
    GivesLanes (.vsubf64 vd vs1 vs2) s vd (fun k => f64Sub (a k) (b k)) ∧
    GivesLanes (.vmulf64 vd vs1 vs2) s vd (fun k => f64Mul (a k) (b k)) ∧
    GivesLanes (.vfmaf64 vd vs1 vs2) s vd (fun k => f64Fma (a k) (b k) (c k))

/-- 44_simd.md R312 a to c: on finite doubles each operation is the exact value rounded once, to nearest even. -/
def Obligations.DoublesRoundOnce : Prop :=
  ∀ a b c : Word, F64Finite a → F64Finite b → F64Finite c →
    RoundedOnce ((f64Units a + f64Units b) * 2 ^ 1074) (a.msb && b.msb) (f64Add a b) ∧
    RoundedOnce ((f64Units a - f64Units b) * 2 ^ 1074) (a.msb && !b.msb) (f64Sub a b) ∧
    RoundedOnce (f64Units a * f64Units b) (a.msb ^^ b.msb) (f64Mul a b) ∧
    RoundedOnce (f64Units a * f64Units b + f64Units c * 2 ^ 1074) ((a.msb ^^ b.msb) && c.msb) (f64Fma a b c)

/-- 44_simd.md R312 c, d: a NaN operand, and an invalid operation on infinities, give the canonical quiet NaN, whose
payload is that of log entry 12; a valid operation on an infinity gives the infinity of the right sign. -/
def Obligations.DoublesSpecialOperands : Prop :=
  ∀ a b c : Word,
    (F64IsNan a ∨ F64IsNan b → f64Add a b = 0x7FF8000000000000#64 ∧ f64Sub a b = 0x7FF8000000000000#64 ∧
      f64Mul a b = 0x7FF8000000000000#64 ∧ f64Fma a b c = 0x7FF8000000000000#64) ∧
    (F64IsNan c → f64Fma a b c = 0x7FF8000000000000#64) ∧
    (F64IsInf a → F64IsInf b →
      f64Add a b = (if a.msb = b.msb then a else 0x7FF8000000000000#64) ∧
      f64Sub a b = (if a.msb = b.msb then 0x7FF8000000000000#64 else a)) ∧
    (((F64IsInf a ∧ F64Finite b ∧ f64Units b = 0) ∨ (F64Finite a ∧ f64Units a = 0 ∧ F64IsInf b)) →
      f64Mul a b = 0x7FF8000000000000#64 ∧ f64Fma a b c = 0x7FF8000000000000#64) ∧
    (F64IsInf a → F64Finite b → f64Add a b = a ∧ f64Add b a = a ∧ f64Sub a b = a ∧
      F64IsInf (f64Sub b a) ∧ (f64Sub b a).msb = !a.msb) ∧
    (F64IsInf a → (F64IsInf b ∨ (F64Finite b ∧ f64Units b ≠ 0)) →
      F64IsInf (f64Mul a b) ∧ (f64Mul a b).msb = (a.msb ^^ b.msb) ∧ f64Mul b a = f64Mul a b ∧
      f64Fma b a c = f64Fma a b c ∧ (F64Finite c → f64Fma a b c = f64Mul a b) ∧
      (F64IsInf c → f64Fma a b c = if c = f64Mul a b then c else 0x7FF8000000000000#64)) ∧
    (F64Finite a → F64Finite b → F64IsInf c → f64Fma a b c = c)

/-! ## Loads and stores -/

/-- 41_loadstore.md R232 to R235: a scalar load from RAM writes the sign-extended value of the flat memory's bytes to
`rd` and nothing else; a load to R0 discards it. -/
def Obligations.ScalarLoadFromRam : Prop :=
  ∀ (s t : State) (rd rs1 : Reg) (imm : BitVec 16) (i : Instr) (n pa : Nat), MemoryOk s → ScalarLoad rd rs1 imm i n →
    ToRam s (address s rs1 imm) .read n pa t →
    ∃ (u : State) (val : VWord), Gives i s u ∧ HoldsBytes s pa n val ∧
      u.x = putX s.x rd ((val.setWidth (8 * n)).signExtend 64) ∧ u.v = s.v ∧ LoadedFromRam s t u 0

/-- 41_loadstore.md R237 to R240: a scalar store to RAM stores the low `n` bytes of `x[rd]` at the translated address,
changes no other byte of the flat memory and no register, and drops the page's TLB entry. -/
def Obligations.ScalarStoreToRam : Prop :=
  ∀ (s t : State) (rd rs1 : Reg) (imm : BitVec 16) (i : Instr) (n pa : Nat), MemoryOk s → ScalarStore rd rs1 imm i n →
    ToRam s (address s rs1 imm) .write n pa t →
    ∃ u : State, Gives i s u ∧ StoredToRam s t u (address s rs1 imm) pa n ((getX s rd).setWidth 256) 0

/-- 44_simd.md R310, R311: VLOAD and VSTORE on RAM. -/
def Obligations.VectorLoadStoreRam : Prop :=
  ∀ (s t : State) (vd : VReg) (rs1 : Reg) (imm : BitVec 16) (pa : Nat), MemoryOk s →
    (ToRam s (address s rs1 imm) .read 32 pa t →
      ∃ (u : State) (val : VWord), Gives (.vload vd rs1 imm) s u ∧ HoldsBytes s pa 32 val ∧
        u.v = s.v.set vd.toNat val ∧ u.x = s.x ∧ LoadedFromRam s t u 1) ∧
    (ToRam s (address s rs1 imm) .write 32 pa t →
      ∃ u : State, Gives (.vstore vd rs1 imm) s u ∧ StoredToRam s t u (address s rs1 imm) pa 32 (getV s vd) 1)

/-- 20_memory.md R67: a misaligned load or store takes AlignmentFault with its own address as return address, before
translation and with no other effect. -/
def Obligations.MisalignedAccessFaults : Prop :=
  ∀ (s : State) (i : Instr) (acc : Acc) (n : Nat) (rs1 : Reg) (imm : BitVec 16), AccessForm i acc n rs1 imm →
    (address s rs1 imm).toNat % n ≠ 0 →
    Gives i s (deliver { vector := 17, info0 := address s rs1 imm,
                         info1 := BitVec.ofNat 64 ((if acc = .write then 2 else 1) + 256 * n) } s.pc s)

/-- 41_loadstore.md R231: an aligned access whose translation raises takes that exception, and one that translates to an
address outside RAM and outside the window takes PageFault with level 0 and reason bounds. The latter is delivered from the
state before the access: R231 "no effect" and D20 are followed against what the walk of R96, which has succeeded, would
have set (log entry 21). -/
def Obligations.AccessFaultsAreTaken : Prop :=
  ∀ (s t : State) (i : Instr) (acc : Acc) (n : Nat) (rs1 : Reg) (imm : BitVec 16), AccessForm i acc n rs1 imm →
    (address s rs1 imm).toNat % n = 0 →
    (∀ e, translateS s (address s rs1 imm) acc = .raised e t → Gives i s (deliver e s.pc t)) ∧
    (∀ pa, translateS s (address s rs1 imm) acc = .done pa t → inWindow s.params pa = false →
      s.params.memSize < pa + n →
      Gives i s (deliver { vector := 14, info0 := address s rs1 imm,
                           info1 := BitVec.ofNat 64 ((if acc = .write then 512 else 256) + 3072) } s.pc s))

/-- 20_memory.md R76, R77: with no range registered at the address a load from the window gives 0 and a store is
ignored; where one is registered a load gives what the device answers, whatever that is, a store hands it the stored bytes,
and the device vectors it triggers become pending. Either way caches, flat memory and miss counters keep their values. The
device's answer is the free value of log entry 6; that R76 is followed against D22 is log entry 20. -/
def Obligations.DeviceWindowAccess : Prop :=
  ∀ (s t : State) (i : Instr) (acc : Acc) (n pa : Nat) (rs1 : Reg) (imm : BitVec 16), AccessForm i acc n rs1 imm →
    ToDevice s (address s rs1 imm) acc n pa t →
    ((∀ r ∈ s.mmioTable, pa < r.base ∨ r.base + r.size ≤ pa) →
      ∃ u, Gives i s u ∧ DeviceAccessed s u 0 0 (if n = 32 then 1 else 0) ∧
        (∀ rd, ScalarLoad rd rs1 imm i n → u.x = putX s.x rd 0 ∧ u.v = s.v ∧ u.mmu = t.mmu) ∧
        (∀ vd, i = .vload vd rs1 imm → u.v = s.v.set vd.toNat 0 ∧ u.x = s.x ∧ u.mmu = t.mmu) ∧
        (acc = .write → DeviceStored s t u (address s rs1 imm) 0 0 (if n = 32 then 1 else 0))) ∧
    (∀ (r : MmioRange) (answer : VWord × BitVec 256) (written : VWord → BitVec 256),
      findRange s.mmioTable pa = some r → answer = Config.mmioRead r.handler s.envCalls (pa - r.base) n →
      written = Config.mmioWrite r.handler s.envCalls (pa - r.base) n →
      (∀ rd, ScalarLoad rd rs1 imm i n → ∃ u, Gives i s u ∧ DeviceAccessed s u answer.2 1 0 ∧
        u.x = putX s.x rd ((answer.1.setWidth (8 * n)).signExtend 64) ∧ u.v = s.v ∧ u.mmu = t.mmu) ∧
      (∀ vd, i = .vload vd rs1 imm → ∃ u, Gives i s u ∧ DeviceAccessed s u answer.2 1 1 ∧
        u.v = s.v.set vd.toNat answer.1 ∧ u.x = s.x ∧ u.mmu = t.mmu) ∧
      (∀ rd, ScalarStore rd rs1 imm i n → ∃ u, Gives i s u ∧
        DeviceStored s t u (address s rs1 imm) (written (((getX s rd).setWidth (8 * n)).setWidth 256)) 1 0) ∧
      (∀ vd, i = .vstore vd rs1 imm → ∃ u, Gives i s u ∧
        DeviceStored s t u (address s rs1 imm) (written (getV s vd)) 1 1))

/-! ## Control transfer -/

/-- 42_control.md R249, R251 to R257: the six conditional branches. The prediction `PERF[4]` compares with is
the model's choice at this level (log entry 9). -/
def Obligations.BranchResult : Prop :=
  ∀ (s : State) (ra rb : Reg) (imm : BitVec 16) (go : Bool → Word),
    (∀ c, go c = if c then s.pc + imm.signExtend 64 else s.pc + 4) →
    Gives (.beq ra rb imm) s (controlState s (getX s ra == getX s rb) (go (getX s ra == getX s rb))) ∧
    Gives (.bne ra rb imm) s (controlState s (getX s ra != getX s rb) (go (getX s ra != getX s rb))) ∧
    Gives (.blt ra rb imm) s (controlState s ((getX s ra).slt (getX s rb)) (go ((getX s ra).slt (getX s rb)))) ∧
    Gives (.bge ra rb imm) s (controlState s (!(getX s ra).slt (getX s rb)) (go (!(getX s ra).slt (getX s rb)))) ∧
    Gives (.bltu ra rb imm) s (controlState s ((getX s ra).ult (getX s rb)) (go ((getX s ra).ult (getX s rb)))) ∧
    Gives (.bgeu ra rb imm) s (controlState s (!(getX s ra).ult (getX s rb)) (go (!(getX s ra).ult (getX s rb))))

/-- 42_control.md R250, R258, R259: JMP, CALL and RET. The prediction `PERF[4]` compares with is the model's choice
at this level (log entry 9). -/
def Obligations.JumpCallRetResult : Prop :=
  ∀ (s : State) (imm : BitVec 26),
    Gives (.jmp imm) s (controlState s true (s.pc + imm.signExtend 64)) ∧
    Gives (.call imm) s
      { controlState s true (s.pc + imm.signExtend 64) with x := s.x.set 31 (s.pc + 4) } ∧
    Gives (.ret imm) s (controlState s true (getX s 31))

/-- 50_pipeline.md R355: from a cleared predictor a conditional branch (any of the six) taken `n` times and then not
taken is mispredicted `min(n, 2)` times, and once more where `n` is at least 2; each time against the prediction of log
entry 9. -/
def Obligations.LoopMispredictions : Prop :=
  ∀ (s : State) (ra rb : Reg) (imm : BitVec 16) (i : Instr) (holds : Word → Word → Bool) (n : Nat),
    CondBranch ra rb imm i holds → s.predictor = { bp := [], btb := [] } → imm.signExtend 64 ≠ (4 : Word) →
    ∀ run : Nat → State, run 0 = s →
      (∀ k < n, ∃ w : State, holds (getX w ra) (getX w rb) = true ∧ w.pc = s.pc ∧ w.params = s.params ∧
        w.predictor = (run k).predictor ∧ w.perf = (run k).perf ∧ Gives i w (run (k + 1))) →
      ∀ w u : State, holds (getX w ra) (getX w rb) = false → w.pc = s.pc → w.params = s.params →
        w.predictor = (run n).predictor → w.perf = (run n).perf → Gives i w u →
        u.perf.mispredicts = s.perf.mispredicts + BitVec.ofNat 64 (min n 2 + if 2 ≤ n then 1 else 0)

/-- 42_control.md R260: the predictor and the counters decide nothing but themselves: from states that differ only
there every instruction gives states that differ only there. -/
def Obligations.PredictionTransparency : Prop :=
  ∀ (i : Instr) (s t : State) (b : Predictor) (f : Perf), Gives i s t →
    ∃ (b' : Predictor) (f' : Perf),
      Gives i { s with predictor := b, perf := f } { t with predictor := b', perf := f' }

/-! ## System instructions -/

/-- 43_system.md R274, 50_pipeline.md R325: HALT in supervisor mode; and a halted core does nothing, at either level. -/
def Obligations.HaltStopsCore : Prop :=
  ∀ (s : State) (imm : BitVec 26),
    (flagUM s.flags = false →
      Gives (.halt imm) s
        { s with halted := true, pc := s.pc + 4, lastStatus := .halted, perf := onceRetired s.perf,
                 eventQ := queued s s.eventQ { kind := .halted, vector := 0, pc := s.pc, info0 := 0, info1 := 0 } }) ∧
    (s.halted = true → step s = .next s ∧ tick s = s ∧ stepPort s = (.halted, s))

/-- 43_system.md R277, R276: HALT and IRET in user mode, and IRET with no frame, take ProtectionFault with the word and
the reason. -/
def Obligations.PrivilegeFaults : Prop :=
  ∀ (s : State) (imm : BitVec 26),
    (flagUM s.flags = true →
      Gives (.halt imm) s
        (deliver { vector := 13, info0 := (0x21#6 ++ imm).setWidth 64, info1 := 1 } s.pc s) ∧
      Gives (.iret imm) s
        (deliver { vector := 13, info0 := (0x26#6 ++ imm).setWidth 64, info1 := 1 } s.pc s)) ∧
    (flagUM s.flags = false → s.ic.nest = 0 →
      Gives (.iret imm) s
        (deliver { vector := 13, info0 := (0x26#6 ++ imm).setWidth 64, info1 := 2 } s.pc s))

/-- 43_system.md R276, 60_exceptions.md R414: IRET in supervisor mode with a frame: all six flag bits, and no other,
come back. -/
def Obligations.IretReturns : Prop :=
  ∀ (s : State) (imm : BitVec 26) (f : Frame), flagUM s.flags = false → 0 < s.ic.nest →
    frameAt s (s.ic.nest - 1) = f →
    Gives (.iret imm) s
      { s with ic := { s.ic with nest := s.ic.nest - 1 }, flags := BitVec.ofNat 64 (f.flags.toNat % 64), pc := f.retPc,
               perf := onceRetired s.perf }

/-- 43_system.md R271, 60_exceptions.md R413: SYSCALL with a guest handler enters it, in either mode; with the save stack
full it halts the core with only the event `Halted`. -/
def Obligations.SyscallToGuest : Prop :=
  ∀ (s : State) (imm : BitVec 26) (addr : Word), ivtGet s 128 = .guest addr →
    (s.ic.nest < s.params.maxNest →
      Gives (.syscall imm) s
        { s with ic := { s.ic with
                   ivtStat := counted s 128,
                   trapStk := framed s { retPc := s.pc + 4, flags := s.flags, vector := 128, info0 := getX s 1, info1 := 0 },
                   nest := s.ic.nest + 1 },
                 flags := s.flags &&& 0xF#64, pc := addr, perf := onceRetired s.perf }) ∧
    (s.params.maxNest ≤ s.ic.nest →
      Gives (.syscall imm) s
        { s with ic := { s.ic with ivtStat := counted s 128 }, halted := true, pc := s.pc + 4, lastStatus := .error,
                 perf := onceRetired s.perf,
                 eventQ := queued s s.eventQ { kind := .halted, vector := 128, pc := s.pc, info0 := 0, info1 := 0 } })

/-- 43_system.md R272, R273: the default service for exit and for an unknown number. -/
def Obligations.SyscallExitAndUnknown : Prop :=
  ∀ (s : State) (imm : BitVec 26), ivtGet s 128 = .default →
    (getX s 1 = 0 →
      Gives (.syscall imm) s
        { s with ic := { s.ic with ivtStat := counted s 128 }, halted := true, exitCode := getX s 2, pc := s.pc + 4,
                 lastStatus := .halted, perf := onceRetired s.perf,
                 eventQ := queued s s.eventQ
                   { kind := .halted, vector := 0, pc := s.pc, info0 := getX s 2, info1 := 0 } }) ∧
    (5 ≤ (getX s 1).toNat →
      Gives (.syscall imm) s
        { s with ic := { s.ic with ivtStat := counted s 128 }, x := s.x.set 1 0xFFFFFFFFFFFFFFFF#64, pc := s.pc + 4,
                 perf := onceRetired s.perf })

/-- 43_system.md R272: read, write, open and close put the environment's answer, whatever it is, into R1 and go on; only
read writes memory, and only as the answer says, inside RAM. The answer is the free value of log entry 7; that a write
outside RAM is dropped is the model's choice (log entry 15). -/
def Obligations.SyscallEnvironment : Prop :=
  ∀ (s : State) (imm : BitVec 26) (n : Nat) (answer : Word × List (Nat × List Byte)), MemoryOk s →
    ivtGet s 128 = .default → (getX s 1).toNat = n → 1 ≤ n → n ≤ 4 →
    answer = Config.envSyscall s.envCalls n (getX s 2) (getX s 3) (getX s 4) s.flat →
    ∃ h : Hierarchy,
      Gives (.syscall imm) s
        { s with ic := { s.ic with ivtStat := counted s 128 }, x := s.x.set 1 answer.1, pc := s.pc + 4,
                 perf := onceRetired s.perf, envCalls := s.envCalls + 1, hier := h } ∧
      (n ≠ 1 → h = s.hier) ∧
      (n = 1 → ∀ a, flatByte s.params h a = afterWrites s.params.memSize answer.2 s.flat a)

/-! ## Exceptions and interrupts -/

/-- 60_exceptions.md R404, R410: a fault with the default handler counts, pushes `Exception` and `Halted`, and halts the
core at the return address with no other effect. -/
def Obligations.FaultWithDefaultHandler : Prop :=
  ∀ (s : State) (e : Exc) (ret : Word), ivtGet s e.vector = .default →
    deliver e ret s =
      { s with ic := { s.ic with ivtStat := counted s e.vector }, halted := true, pc := ret,
               lastStatus := if e.vector = 6 then .illegalInstruction else .error,
               eventQ := queued s
                 (queued s s.eventQ { kind := .exception, vector := e.vector, pc := ret, info0 := e.info0, info1 := e.info1 })
                 { kind := .halted, vector := e.vector, pc := ret, info0 := 0, info1 := 0 } }

/-- 60_exceptions.md R410, R412, R413: a fault with a guest handler pushes the frame, clears IE and UM and goes to the
handler; with the save stack full it halts the core. -/
def Obligations.FaultWithGuestHandler : Prop :=
  ∀ (s : State) (e : Exc) (ret addr : Word) (q : List Event), ivtGet s e.vector = .guest addr →
    q = queued s s.eventQ { kind := .exception, vector := e.vector, pc := ret, info0 := e.info0, info1 := e.info1 } →
    (s.ic.nest < s.params.maxNest →
      deliver e ret s =
        { s with ic := { s.ic with
                   ivtStat := counted s e.vector,
                   trapStk := framed s { retPc := ret, flags := s.flags, vector := BitVec.ofNat 64 e.vector,
                                         info0 := e.info0, info1 := e.info1 },
                   nest := s.ic.nest + 1 },
                 flags := s.flags &&& 0xF#64, pc := addr, eventQ := q }) ∧
    (s.params.maxNest ≤ s.ic.nest →
      deliver e ret s =
        { s with ic := { s.ic with ivtStat := counted s e.vector }, halted := true, pc := ret, lastStatus := .error,
                 eventQ := queued s q { kind := .halted, vector := e.vector, pc := ret, info0 := 0, info1 := 0 } })

/-- 60_exceptions.md R412, R414: the IRET of a handler that has run no instruction resumes the interrupted program: pc,
flags, depth and registers are as at entry. -/
def Obligations.ReturnUndoesEntry : Prop :=
  ∀ (s t : State) (addr ret i0 i1 : Word) (v : Nat) (imm : BitVec 26), s.flags.toNat < 64 →
    Gives (.iret imm) (trapEnter addr ret v i0 i1 s) t →
    t.pc = ret ∧ t.flags = s.flags ∧ t.ic.nest = s.ic.nest ∧ t.x = s.x ∧ t.v = s.v ∧ t.hier = s.hier ∧
      t.mmu = s.mmu ∧ t.halted = s.halted ∧ ∀ k < s.ic.nest, frameAt t k = frameAt s k

/-- 60_exceptions.md R417 c, R420, 70_reset_and_hazards.md R467: with IE set and a vector pending the environment is
asked; where it says so the step delivers the lowest pending vector, to a guest handler with room for a frame by a trap
entry, to the default handler by the statistic and the event alone; where it does not, the step fetches and executes. With
IE clear, or where that vector has a guest handler and the save stack is full, nothing is asked or delivered. What the
environment says is the free value of log entry 10. -/
def Obligations.InterruptDelivery : Prop :=
  ∀ (s : State) (v : Nat), s.halted = false → s.quiet → breakpointAt s = false →
    (flagIE s.flags = false → step s = fetchAndExec { s with lastStatus := .ok }) ∧
    (flagIE s.flags = true → v < 256 → s.ic.pending.getLsbD v = true →
      (∀ u < v, s.ic.pending.getLsbD u = false) →
      (∀ addr, ivtGet s v = .guest addr → s.ic.nest < s.params.maxNest →
        step s =
          if Config.takesInterrupt s.intAsked then
            .next
              { s with ic := { s.ic with
                         pending := s.ic.pending &&& ~~~(BitVec.twoPow 256 v),
                         ivtStat := counted s v,
                         trapStk := framed s
                           { retPc := s.pc, flags := s.flags, vector := BitVec.ofNat 64 v, info0 := 0, info1 := 0 },
                         nest := s.ic.nest + 1 },
                       flags := s.flags &&& 0xF#64, pc := addr, lastStatus := .ok, intAsked := s.intAsked + 1,
                       eventQ := queued s s.eventQ
                         { kind := .deviceInterrupt, vector := v, pc := s.pc, info0 := 0, info1 := 0 } }
          else fetchAndExec { s with lastStatus := .ok, intAsked := s.intAsked + 1 }) ∧
      (∀ addr, ivtGet s v = .guest addr → s.params.maxNest ≤ s.ic.nest →
        step s = fetchAndExec { s with lastStatus := .ok }) ∧
      (ivtGet s v = .default →
        step s =
          if Config.takesInterrupt s.intAsked then
            .next
              { s with ic := { s.ic with
                         pending := s.ic.pending &&& ~~~(BitVec.twoPow 256 v), ivtStat := counted s v },
                       lastStatus := .ok, intAsked := s.intAsked + 1,
                       eventQ := queued s s.eventQ
                         { kind := .deviceInterrupt, vector := v, pc := s.pc, info0 := 0, info1 := 0 } }
          else fetchAndExec { s with lastStatus := .ok, intAsked := s.intAsked + 1 }))

/-- 30_encoding.md R172, 20_memory.md R73: a word that is illegal, and a fetch that faults, take their exception at the
address of the fetch. -/
def Obligations.FetchFaultsAndIllegalWords : Prop :=
  ∀ (s t : State), s.halted = false → s.quiet → breakpointAt s = false → deliverable s = none →
    (∀ e, fetch { s with lastStatus := .ok, resume := false } s.pc = .raised e t → step s = .next (deliver e s.pc t)) ∧
    (∀ w, fetch { s with lastStatus := .ok, resume := false } s.pc = .done w t →
      decode s.params.strictReserved w = none →
      step s = .next (deliver { vector := 6, info0 := w.setWidth 64, info1 := 0 } s.pc t)) ∧
    (s.pc.toNat % 4 ≠ 0 →
      step s = .next (deliver { vector := 17, info0 := s.pc, info1 := 0x400 } s.pc
        { s with lastStatus := .ok, resume := false }))

/-- 51_host_interface.md R385, R386: a breakpoint at the pc stops the step before the fetch, sets RESUME, and does not
stop the next one. -/
def Obligations.BreakpointStops : Prop :=
  ∀ s : State, s.halted = false → s.quiet → s.pc ∈ s.bkpt → s.resume = false →
    ∃ u, step s = .next u ∧
      u = { s with resume := true, lastStatus := .breakpoint,
                   eventQ := queued s s.eventQ { kind := .breakpoint, vector := 0, pc := s.pc, info0 := 0, info1 := 0 } } ∧
      (deliverable s = none → step u = fetchAndExec { u with lastStatus := .ok })

/-! ## What no instruction does -/

/-- 10_state.md R32, 60_exceptions.md R414, R426: only IRET sets IE or UM or takes a frame off the stack; user mode is
left only by pushing a frame. -/
def Obligations.ModeChangesOnlyByTrapAndReturn : Prop :=
  ∀ (i : Instr) (s t : State), Gives i s t →
    ((flagIE s.flags = false ∧ flagIE t.flags = true) ∨ (flagUM s.flags = false ∧ flagUM t.flags = true) ∨
      t.ic.nest < s.ic.nest → ∃ imm, i = .iret imm) ∧
    (flagUM s.flags = true → flagUM t.flags = false → t.ic.nest = s.ic.nest + 1)

/-- 10_state.md R29, R31, R33: no instruction changes `SP`, the vector table, the breakpoints, the device table or the
parameters; only the 17 ALU instructions and IRET change an arithmetic flag. -/
def Obligations.WhatNoInstructionChanges : Prop :=
  ∀ (i : Instr) (s t : State), Gives i s t →
    t.sp = s.sp ∧ t.ic.ivt = s.ic.ivt ∧ t.bkpt = s.bkpt ∧ t.mmioTable = s.mmioTable ∧ t.params = s.params ∧
    t.perf.cycles = s.perf.cycles ∧ t.perf.stalls = s.perf.stalls ∧
    (isAlu i = false → (∀ imm, i ≠ .iret imm) → t.flags &&& 0xF#64 = s.flags &&& 0xF#64)

/-! ## Translation -/

/-- 21_translation.md R93, R94, R98: with the initial page table every address below 2^48 translates to itself, for every
kind of access in either mode, and every other one faults at level 5. -/
def Obligations.IdentityMap : Prop :=
  ∀ (entries : Nat) (um : Bool) (va : Word) (acc : Acc),
    (va.toNat < 2 ^ 48 → (translate entries { pt := [], tlb := [] } um va acc).2 = .pa va.toNat) ∧
    (2 ^ 48 ≤ va.toNat → (translate entries { pt := [], tlb := [] } um va acc).2 =
      .exc { vector := 14, info0 := va, info1 := BitVec.ofNat 64 (5 + 256 * accCode acc + 3072) })

/-- 21_translation.md R106: a sound TLB never changes what a translation answers. -/
def Obligations.TlbTransparency : Prop :=
  ∀ (entries : Nat) (m : Mmu) (um : Bool) (va : Word) (acc : Acc), TlbOk entries m →
    (translate entries m um va acc).2 = (translate entries { m with tlb := [] } um va acc).2

/-- 21_translation.md R95, R96: what a translation that misses answers: the level of the first entry not present; else,
in this order, the first level that lacks W for a write, the first that lacks U in user mode; else the frame of the
level-1 entry. -/
def Obligations.WalkOutcome : Prop :=
  ∀ (entries : Nat) (pt : Store Word) (um : Bool) (va : Word) (acc : Acc) (e4 e3 e2 e1 : Word),
    va.toNat < 2 ^ 48 → e4 = ptGet pt 0 (va.toNat / 2 ^ 39 % 512) →
    e3 = ptGet pt (e4.toNat / 2 ^ 12 % 2 ^ 40) (va.toNat / 2 ^ 30 % 512) →
    e2 = ptGet pt (e3.toNat / 2 ^ 12 % 2 ^ 40) (va.toNat / 2 ^ 21 % 512) →
    e1 = ptGet pt (e2.toNat / 2 ^ 12 % 2 ^ 40) (va.toNat / 2 ^ 12 % 512) →
    (translate entries { pt := pt, tlb := [] } um va acc).2 =
      (let fault := fun (level reason : Nat) =>
        Translated.exc { vector := 14, info0 := va, info1 := BitVec.ofNat 64 (level + 256 * accCode acc + 1024 * reason) }
       if e4.getLsbD 0 = false then fault 4 0
       else if e3.getLsbD 0 = false then fault 3 0
       else if e2.getLsbD 0 = false then fault 2 0
       else if e1.getLsbD 0 = false then fault 1 0
       else if acc = .write ∧ e4.getLsbD 1 = false then fault 4 1
       else if acc = .write ∧ e3.getLsbD 1 = false then fault 3 1
       else if acc = .write ∧ e2.getLsbD 1 = false then fault 2 1
       else if acc = .write ∧ e1.getLsbD 1 = false then fault 1 1
       else if um = true ∧ e4.getLsbD 2 = false then fault 4 2
       else if um = true ∧ e3.getLsbD 2 = false then fault 3 2
       else if um = true ∧ e2.getLsbD 2 = false then fault 2 2
       else if um = true ∧ e1.getLsbD 2 = false then fault 1 2
       else .pa (e1.toNat / 2 ^ 12 % 2 ^ 40 * 2 ^ 12 + va.toNat % 2 ^ 12))

/-! ## Caches -/

/-- 22_caches.md R126, R152 f: in a set of N ways, N + 1 inserts of distinct tags evict the first one and keep the
others. -/
def Obligations.LruEviction : Prop :=
  ∀ (g : Geom) (first : Nat) (tags : List Nat) (data : Nat → List Byte),
    0 < g.ways → tags.length = g.ways → (first :: tags).Nodup →
    ∀ ws, ws = (first :: tags).foldl (fun ws t => install (victim ws) t (data t) false ws) (emptySet g) →
      findData first ws = none ∧ ∀ t ∈ tags, findData t ws = some (data t)

/-- 22_caches.md R147: after `FlushAll` physical memory is the flat memory, no line is dirty, and the flat memory is as
before. -/
def Obligations.FlushWritesEverythingBack : Prop :=
  ∀ (p : Params) (h : Hierarchy), p.valid = true → HierOk p h →
    (∀ a, Memory.read (flushAll p h).pm a = flatByte p h a) ∧
    (∀ a, flatByte p (flushAll p h) a = flatByte p h a) ∧
    (∀ ln d, lineInfo (l1dGeom p) (flushAll p h).l1d ln ≠ some (true, d)) ∧
    (∀ ln d, lineInfo (l2Geom p) (flushAll p h).l2 ln ≠ some (true, d)) ∧
    HierOk p (flushAll p h)

/-- 22_caches.md R149, 20_memory.md R84: a coherent host write changes exactly its own bytes of the flat memory, leaves
no cache holding a line it touched, and keeps the hierarchy sound. -/
def Obligations.HostWriteIsCoherent : Prop :=
  ∀ (p : Params) (h : Hierarchy) (a : Nat) (bytes : List Byte), p.valid = true → HierOk p h →
    a + bytes.length ≤ p.memSize →
    HierOk p (hostWrite p h a bytes) ∧
    (∀ b, flatByte p (hostWrite p h a bytes) b =
      if a ≤ b ∧ b < a + bytes.length then bytes.getD (b - a) 0 else flatByte p h b) ∧
    (∀ b, a ≤ b → b < a + bytes.length →
      lineInfo (l1iGeom p) (hostWrite p h a bytes).l1i (b / 64) = none ∧
      lineInfo (l1dGeom p) (hostWrite p h a bytes).l1d (b / 64) = none ∧
      lineInfo (l2Geom p) (hostWrite p h a bytes).l2 (b / 64) = none)

/-! ## The pipeline -/

/-- 70_reset_and_hazards.md R466 (1) to (4): an instruction that goes through Execute, Memory and Writeback alone, its
fetch predicted as the interpreter assumes, leaves exactly the state its meaning gives, exceptions and system events
included. "As the interpreter assumes" is log entry 9. -/
def Obligations.StagesRefineMeaning : Prop :=
  ∀ (i : Instr) (s t : State), s.quiet →
    (isControl i = false → predict s.params s.predictor s.pc = s.pc + 4) → Gives i s t →
    (writeback (memoryStage (executeStage
      { s with pc := predict s.params s.predictor s.pc,
               latches := { s.latches with
                 idEx := some { pc := s.pc, instr := some i, exc := .none,
                                predNext := predict s.params s.predictor s.pc } } }))).1 = t

/-- 70_reset_and_hazards.md R466, R467, 22_caches.md R152, 21_translation.md R106: one architectural step agrees with one
turn of the interpreter that has no latches, caches, TLB or predictor, where the fetch reads no stale line (R461), for
whatever the environment says about a pending interrupt (log entry 10). That younger instructions in flight are dropped is
log entry 8. -/
def Obligations.StepRefinesReference : Prop :=
  ∀ s r : State, MemoryOk s → s.latches.memWb = none → FetchesFlat s (archPc s) →
    r = refRound (Config.takesInterrupt s.intAsked) (architectural s) →
    ∃ t, step s = .next t ∧ SameArch t r ∧ t.eventQ = r.eventQ ∧ t.lastStatus = r.lastStatus ∧ t.resume = r.resume

/-- 70_reset_and_hazards.md R466 (1) to (5): a run of ticks from an empty pipeline, with any predictor and any vectors
triggered before each tick, agrees after every tick with a run of the interpreter of R467 under the same triggers, which
takes in each of them no turn, one turn, or a turn in which the environment asks for an interrupt and then one in which it
does not (`TickInputs`). A turn that asks for an interrupt where none is deliverable executes an instruction, so a tick may
stand for one interrupt and one instruction, or for up to two instructions. The tick state is taken with the instruction
in MEM/WB, whose access is done, retired. Programs that execute bytes they stored (R461) and breakpoints, which stop the two
levels at different moments, are left out; so is code that an `EnvSyscall` answer wrote (log entry 24). -/
def Obligations.TicksRefineReference : Prop :=
  ∀ (s : State) (triggers : List (BitVec 256)), s.quiet → s.bkpt = [] → MemoryOk s → CodeCoherent s →
    NeverRunsStored s →
    ∃ inputs : Nat → List RefInput,
      (∀ k < triggers.length, TickInputs (triggers.getD k 0) (inputs k)) ∧
      ∀ k ≤ triggers.length,
        SameArch (settled (tickRun (triggers.take k) s)) (refRun ((List.range k).flatMap inputs) (architectural s))

/-- 50_pipeline.md R335, 70_reset_and_hazards.md R466 (1): the operand Execute reads is the one the register will hold
once the instruction in MEM/WB has committed. -/
def Obligations.ForwardingIsCurrent : Prop :=
  ∀ (s : State) (m : MemWb), s.latches.memWb = some m → m.dest ≠ .g 0 →
    (∀ r, operandG s r = getX (commitWb m (setMemWb none s)) r) ∧
    (∀ r, operandV s r = getV (commitWb m (setMemWb none s)) r)

/-- 50_pipeline.md R333, R363: Decode holds the instruction back for exactly one tick, and only behind a load whose
destination it reads. -/
def Obligations.LoadUseStall : Prop :=
  ∀ (s : State) (f : IfId) (i : Instr), s.latches.ifId = some f → f.exc = .none →
    decode s.params.strictReserved f.word = some i →
    (∀ e j, s.latches.exMem = some e → e.exc = .none → e.instr = some j →
      ((∃ rd rs1 imm, j = .lb rd rs1 imm ∨ j = .lh rd rs1 imm ∨ j = .lw rd rs1 imm ∨ j = .ldd rd rs1 imm) ∨
        ∃ vd rs1 imm, j = .vload vd rs1 imm) →
      e.dest ≠ .none → e.dest ∈ srcsOf i →
      decodeStage s = { s with perf := { s.perf with stalls := s.perf.stalls + 1 } } ∧
      (decodeStage (memoryStage s)).latches.ifId = none) ∧
    ((∀ e j, s.latches.exMem = some e → e.instr = some j → isLoad j = false ∨ e.dest ∉ srcsOf i) →
      decodeStage s = { s with latches := { s.latches with
        ifId := none, idEx := some { pc := f.pc, instr := some i, exc := .none, predNext := f.predNext } } })

/-- 50_pipeline.md R337, R353, R354: what Execute does to `PC`, IF/ID, the predictor and `PERF[4]`. That a prediction of
`pc + 4` counts as right for an instruction that is no control transfer even where a stale BTB entry gave it, so that
nothing is counted and the entry stays, is the choice of the model (log entry 25), which R354 and D38 read literally
contradict. -/
def Obligations.ControlResolution : Prop :=
  ∀ (s u : State) (d : IdEx) (i : Instr) (next : Word), s.latches.idEx = some d → d.instr = some i → d.exc = .none →
    next = (compute (operandG s) (operandV s) d.pc i).next → u = executeStage s →
    (next = d.predNext → u.pc = s.pc ∧ u.latches.ifId = s.latches.ifId ∧ u.perf = s.perf) ∧
    (next ≠ d.predNext → u.pc = next ∧ u.latches.ifId = none ∧
      u.perf = { s.perf with mispredicts := s.perf.mispredicts + 1 }) ∧
    (isControl i = true → u.predictor =
      train s.params s.predictor d.pc (compute (operandG s) (operandV s) d.pc i).taken next) ∧
    (isControl i = false → next = d.pc + 4 ∧ (next = d.predNext → u.predictor = s.predictor) ∧
      (next ≠ d.predNext → (btbGet s.params u.predictor d.pc).valid = false)) ∧
    (∀ imm, (i = .jmp imm ∨ i = .call imm) → next = d.pc + imm.signExtend 64) ∧
    (∀ imm, i = .ret imm → next = operandG s 31) ∧
    (∀ ra rb imm, i = .beq ra rb imm →
      next = if operandG s ra = operandG s rb then d.pc + imm.signExtend 64 else d.pc + 4) ∧
    u.x = s.x ∧ u.v = s.v ∧ u.flags = s.flags ∧ u.hier = s.hier

/-- 50_pipeline.md R340, R342, R365 c: when the instruction in Writeback carries an exception or a breakpoint mark,
nothing retires, no register or byte of memory changes, and the three younger latches are emptied. -/
def Obligations.PreciseWriteback : Prop :=
  ∀ (s u : State) (m : MemWb), s.latches.memWb = some m → m.exc ≠ .none → u = (writeback s).1 →
    (writeback s).2 = true ∧ u.quiet ∧ u.x = s.x ∧ u.v = s.v ∧ u.hier = s.hier ∧ u.perf = s.perf ∧ u.mmu = s.mmu ∧
    (∀ e, m.exc = .fault e → u = deliver e m.pc { s with latches :=
      { ifId := none, idEx := none, exMem := none, memWb := none } }) ∧
    (m.exc = .breakpointStop → u.pc = m.pc ∧ u.resume = true ∧ u.lastStatus = .breakpoint ∧ u.halted = s.halted ∧
      u.ic = s.ic)

/-! ## Invariants -/

/-- 10_state.md R22, R30, R33: every step, architectural or one tick, keeps R0 at 0, the reserved flag bits 0, the
nesting depth within its bound, only device vectors pending and the event queue within its depth. What a step does with
instructions in flight is the model's choice (log entry 8). -/
def Obligations.StepKeepsControlOk : Prop :=
  ∀ s t : State, ControlOk s → (step s = .next t → ControlOk t) ∧ ControlOk (tick s)

/-- 22_caches.md R152, 21_translation.md R106: every step, architectural or one tick, keeps the cache hierarchy and the
TLB sound. What a step does with instructions in flight is the model's choice (log entry 8). -/
def Obligations.StepKeepsMemoryOk : Prop :=
  ∀ s t : State, MemoryOk s → (step s = .next t → MemoryOk t) ∧ MemoryOk (tick s)

/-- Every step, architectural or one tick, keeps every sparse array of the state, physical memory among them, in its
canonical form, which is the model's choice (log entry 3). -/
def Obligations.StepKeepsCanonicalForm : Prop :=
  ∀ s t : State, StoresOk s → (step s = .next t → StoresOk t) ∧ StoresOk (tick s)

/-- 10_state.md R45, 70_reset_and_hazards.md R451: the reset state is sound in every one of these senses. `StoresOk` is the
canonical form of log entry 3, and `MemoryOk` rests on the parameters of log entry 2: both are the model's choice. -/
def Obligations.ResetIsSound : Prop :=
  ControlOk State.reset ∧ MemoryOk State.reset ∧ StoresOk State.reset ∧ State.reset.quiet

/-! ## Reset and ports -/

/-- 70_reset_and_hazards.md R450, R453: the `reset` port leaves in physical memory every store performed so far and
everything else as after creation, but for the breakpoints and the device table; the model's own counters
`envCalls` and `intAsked` go on (log entries 7 and 10). -/
def Obligations.ResetPortPreservesImage : Prop :=
  ∀ s u : State, MemoryOk s → u = s.resetPort →
    (∀ a, Memory.read u.hier.pm a = s.flat a) ∧ (∀ a, u.flat a = s.flat a) ∧
    { u with hier := { u.hier with pm := [] } } =
      { State.created s.params with bkpt := s.bkpt, mmioTable := s.mmioTable, envCalls := s.envCalls,
                                      intAsked := s.intAsked }

/-- 51_host_interface.md R372: `load_program` puts the image into the flat memory, empties the latches and starts at the
address; an image that does not fit is refused. -/
def Obligations.LoadProgramPlacesImage : Prop :=
  ∀ (s : State) (bytes : List Byte) (a : Nat), MemoryOk s →
    (s.params.memSize < a + bytes.length → loadProgram bytes a s = .invalidParameter) ∧
    (a + bytes.length ≤ s.params.memSize → ∃ u, loadProgram bytes a s = .ok u ∧ u.quiet ∧
      u.pc = BitVec.ofNat 64 a ∧ u.halted = false ∧ u.resume = false ∧ u.lastStatus = .ok ∧
      (∀ b, u.flat b = if a ≤ b ∧ b < a + bytes.length then bytes.getD (b - a) 0 else s.flat b) ∧
      u.x = s.x ∧ u.v = s.v ∧ u.flags = s.flags ∧ u.sp = s.sp ∧ u.perf = s.perf ∧ u.predictor = s.predictor ∧
      u.mmu = s.mmu ∧ u.ic = s.ic ∧ u.exitCode = s.exitCode ∧ u.bkpt = s.bkpt ∧ u.eventQ = s.eventQ ∧ MemoryOk u)

/-- 51_host_interface.md R380, R389: the register index space, read after write, and the vectors `trigger` accepts. -/
def Obligations.RegisterAndTriggerPorts : Prop :=
  ∀ (s : State) (k : Nat) (w : Word),
    (34 < k → getRegister k s = .invalidParameter ∧ setRegister k w s = .invalidParameter) ∧
    (k ≤ 34 → ∃ u, setRegister k w s = .ok u ∧
      getRegister k u = .ok (if k = 0 then 0 else if k = 34 then w &&& 0x3F#64 else w) ∧
      ∀ j ≤ 34, j ≠ k → getRegister j u = getRegister j s) ∧
    ((k < 32 ∨ k = 128 ∨ 256 ≤ k) → trigger k s = .invalidParameter) ∧
    (32 ≤ k → k < 256 → k ≠ 128 → ∃ u, trigger k s = .ok u ∧ u.ic.pending.getLsbD k = true ∧
      (∀ j < 256, j ≠ k → u.ic.pending.getLsbD j = s.ic.pending.getLsbD j) ∧
      { u with ic := { u.ic with pending := s.ic.pending } } = s)
end

