-- ==== Sys2Proof/Laws/Store.lean ====
section
/-! SUPPORT. Laws of the sparse arrays: read after write, and the canonical form kept by every write. -/

namespace Sys2Proof.Machine

variable {α : Type}

@[simp] theorem Store.get_nil (init : Nat → α) (k : Nat) : Store.get init [] k = init k := rfl

theorem Store.get_cons (init : Nat → α) (j : Nat) (v : α) (m : Store α) (k : Nat) :
    Store.get init ((j, v) :: m) k = if k = j then v else Store.get init m k := rfl

theorem Store.get_erase (init : Nat → α) (m : Store α) (k j : Nat) :
    Store.get init (Store.erase m k) j = if j = k then init j else Store.get init m j := by
  induction m with
  | nil => simp [Store.erase]
  | cons e m ih =>
    obtain ⟨i, v⟩ := e
    simp only [Store.erase, Store.get_cons]
    split
    · rw [ih]; split <;> simp_all
    · rw [Store.get_cons, ih]; split <;> split <;> simp_all

theorem Store.get_insert_same (init : Nat → α) (m : Store α) (k : Nat) (v : α)
    (h : ∀ e ∈ m, e.1 ≠ k) : Store.get init (Store.insert m k v) k = v := by
  induction m with
  | nil => simp [Store.insert, Store.get_cons]
  | cons e m ih =>
    obtain ⟨i, w⟩ := e
    simp only [Store.insert]
    have hi : i ≠ k := h (i, w) (by simp)
    split
    · simp [Store.get_cons]
    · rw [Store.get_cons, if_neg (Ne.symm hi)]
      exact ih fun e he => h e (by simp [he])

theorem Store.get_insert_other (init : Nat → α) (m : Store α) (k j : Nat) (v : α) (h : j ≠ k) :
    Store.get init (Store.insert m k v) j = Store.get init m j := by
  induction m with
  | nil => simp [Store.insert, Store.get_cons, h]
  | cons e m ih =>
    obtain ⟨i, w⟩ := e
    simp only [Store.insert]
    split
    · rw [Store.get_cons, if_neg h]
    · rw [Store.get_cons, Store.get_cons, ih]

theorem Store.erase_ne (m : Store α) (k : Nat) : ∀ e ∈ Store.erase m k, e.1 ≠ k := by
  induction m with
  | nil => simp [Store.erase]
  | cons e m ih =>
    obtain ⟨i, w⟩ := e
    simp only [Store.erase]
    split
    · exact ih
    · intro e he
      rcases List.mem_cons.mp he with rfl | he
      · exact fun hc => by simp_all
      · exact ih e he

/-- A write is read back, and leaves every other entry alone. -/
theorem Store.get_set [DecidableEq α] (init : Nat → α) (m : Store α) (k j : Nat) (v : α) :
    Store.get init (Store.set init m k v) j = if j = k then v else Store.get init m j := by
  unfold Store.set
  split
  · rw [Store.get_erase]; split <;> simp_all
  · split
    · subst j; exact Store.get_insert_same init _ k v (Store.erase_ne m k)
    · rw [Store.get_insert_other _ _ _ _ _ ‹_›, Store.get_erase, if_neg ‹_›]

/-! ## The canonical form -/

theorem Store.above_iff (k : Nat) (m : Store α) : Store.above k m = true ↔ ∀ e ∈ m, k < e.1 := by
  simp [Store.above]

theorem Store.mem_erase {m : Store α} {k : Nat} {e : Nat × α} (h : e ∈ Store.erase m k) : e ∈ m := by
  induction m with
  | nil => simp [Store.erase] at h
  | cons d m ih =>
    obtain ⟨i, w⟩ := d
    simp only [Store.erase] at h
    split at h
    · exact List.mem_cons_of_mem _ (ih h)
    · rcases List.mem_cons.mp h with rfl | h
      · exact List.mem_cons_self
      · exact List.mem_cons_of_mem _ (ih h)

theorem Store.mem_insert {m : Store α} {k : Nat} {v : α} {e : Nat × α} (h : e ∈ Store.insert m k v) :
    e = (k, v) ∨ e ∈ m := by
  induction m with
  | nil => simp_all [Store.insert]
  | cons d m ih =>
    obtain ⟨i, w⟩ := d
    simp only [Store.insert] at h
    split at h
    · simpa using h
    · rcases List.mem_cons.mp h with rfl | h
      · simp
      · rcases ih h with rfl | h
        · simp
        · simp [h]

variable [DecidableEq α]

theorem Store.wf_cons (init : Nat → α) (j : Nat) (v : α) (m : Store α) :
    Store.wf init ((j, v) :: m) = true ↔ (∀ e ∈ m, j < e.1) ∧ v ≠ init j ∧ Store.wf init m = true := by
  simp [Store.wf, Store.above, and_assoc]

theorem Store.wf_erase (init : Nat → α) (m : Store α) (k : Nat) (h : Store.wf init m = true) :
    Store.wf init (Store.erase m k) = true := by
  induction m with
  | nil => exact h
  | cons d m ih =>
    obtain ⟨i, w⟩ := d
    rw [Store.wf_cons] at h
    simp only [Store.erase]
    split
    · exact ih h.2.2
    · rw [Store.wf_cons]
      exact ⟨fun e he => h.1 e (Store.mem_erase he), h.2.1, ih h.2.2⟩

theorem Store.wf_insert (init : Nat → α) (m : Store α) (k : Nat) (v : α) (h : Store.wf init m = true)
    (hk : ∀ e ∈ m, e.1 ≠ k) (hv : v ≠ init k) : Store.wf init (Store.insert m k v) = true := by
  induction m with
  | nil => simp [Store.insert, Store.wf, Store.above, hv]
  | cons d m ih =>
    obtain ⟨i, w⟩ := d
    have hw := h
    rw [Store.wf_cons] at h
    simp only [Store.insert]
    split
    · rw [Store.wf_cons]
      refine ⟨fun e he => ?_, hv, hw⟩
      rcases List.mem_cons.mp he with rfl | he
      · assumption
      · have := h.1 e he; omega
    · rename_i hlt
      rw [Store.wf_cons]
      refine ⟨fun e he => ?_, h.2.1, ih h.2.2 fun e he => hk e (List.mem_cons_of_mem _ he)⟩
      have hne : i ≠ k := hk (i, w) List.mem_cons_self
      rcases Store.mem_insert he with rfl | he
      · simp only; omega
      · exact h.1 e he

/-- A write keeps the canonical form. -/
theorem Store.wf_set (init : Nat → α) (m : Store α) (k : Nat) (v : α) (h : Store.wf init m = true) :
    Store.wf init (Store.set init m k v) = true := by
  unfold Store.set
  split
  · exact Store.wf_erase init m k h
  · exact Store.wf_insert init _ k v (Store.wf_erase init m k h) (Store.erase_ne m k) ‹_›

/-! ## Physical memory -/

@[simp] theorem Memory.read_nil (a : Nat) : Memory.read [] a = 0 := rfl

/-- A write of one byte changes that byte only. -/
theorem Memory.read_write (pm : List Host.Cell) (a b : Nat) (v : Byte) :
    Memory.read (Memory.write pm a v) b = if b = a then v else Memory.read pm b :=
  Store.get_set _ pm a b v

/-- A write of several bytes changes those bytes only. -/
theorem Memory.read_writeBytes (pm : List Host.Cell) (a : Nat) (bs : List Byte) (b : Nat) :
    Memory.read (Memory.writeBytes pm a bs) b =
      if a ≤ b ∧ b < a + bs.length then bs.getD (b - a) 0 else Memory.read pm b := by
  induction bs generalizing pm a with
  | nil => simp [Memory.writeBytes]
  | cons v bs ih =>
    rw [Memory.writeBytes, ih, Memory.read_write]
    simp only [List.length_cons]
    by_cases hb : b = a
    · subst hb; simp
    · by_cases h1 : a + 1 ≤ b ∧ b < a + 1 + bs.length
      · rw [if_pos h1, if_pos (by omega)]
        obtain ⟨d, hd⟩ : ∃ d, b - a = d + 1 := ⟨b - a - 1, by omega⟩
        rw [hd, show b - (a + 1) = d by omega]
        rfl
      · rw [if_neg h1, if_neg hb, if_neg (by omega)]

/-- A write of one byte keeps the canonical form. -/
theorem Memory.wf_write (pm : List Host.Cell) (a : Nat) (v : Byte) (h : Memory.wf pm = true) :
    Memory.wf (Memory.write pm a v) = true := Store.wf_set _ pm a v h

/-- A write of several bytes keeps the canonical form. -/
theorem Memory.wf_writeBytes (pm : List Host.Cell) (a : Nat) (bs : List Byte) (h : Memory.wf pm = true) :
    Memory.wf (Memory.writeBytes pm a bs) = true := by
  induction bs generalizing pm a with
  | nil => exact h
  | cons v bs ih => exact ih _ _ (Memory.wf_write pm a v h)

/-- The memory of the reset state has the canonical form. -/
theorem Memory.wf_reset : Memory.wf State.reset.hier.pm = true := rfl

@[simp] theorem Memory.length_readLine (pm : List Host.Cell) (ln : Nat) : (Memory.readLine pm ln).length = 64 := by
  simp [Memory.readLine]

/-- Byte `j` of a line read. -/
theorem Memory.getD_readLine (pm : List Host.Cell) (ln j : Nat) (h : j < 64) :
    (Memory.readLine pm ln).getD j 0 = Memory.read pm (64 * ln + j) := by
  simp [Memory.readLine, h]

/-! ## Bytes of a value -/

/-- Bit `i` of byte `j` is bit `8j + i` of the value. -/
theorem getLsbD_byteOf (val : VWord) (j i : Nat) : (byteOf val j).getLsbD i = (decide (i < 8) && val.getLsbD (8 * j + i)) := by
  simp [byteOf, BitVec.getLsbD_setWidth, BitVec.getLsbD_ushiftRight]

/-- Bit `i` of a value made of `n` bytes. -/
theorem getLsbD_ofBytes (f : Nat → Byte) (n : Nat) (hn : n ≤ 32) (i : Nat) :
    (ofBytes f n).getLsbD i = (decide (i < 8 * n) && (f (i / 8)).getLsbD (i % 8)) := by
  induction n with
  | zero => simp [ofBytes]
  | succ n ih =>
    rw [ofBytes, BitVec.getLsbD_or, ih (by omega), BitVec.getLsbD_shiftLeft, BitVec.getLsbD_setWidth]
    by_cases h : i < 8 * n
    · have : i < 8 * (n + 1) := by omega
      simp [h, this]
    · by_cases h2 : i < 8 * (n + 1)
      · have e1 : i / 8 = n := by omega
        have e2 : i % 8 = i - 8 * n := by omega
        have e3 : i < 256 := by omega
        have e4 : i - 8 * n < 256 := by omega
        simp [h, h2, e1, e2, e3, e4]
      · have : ¬ (i - 8 * n < 8) := by omega
        have hz : (f n).getLsbD (i - 8 * n) = false := BitVec.getLsbD_of_ge _ _ (by omega)
        simp [h, h2, hz]

/-- The bytes a value is made of are read back. -/
theorem byteOf_ofBytes (f : Nat → Byte) (n j : Nat) (hn : n ≤ 32) (hj : j < n) : byteOf (ofBytes f n) j = f j := by
  apply BitVec.eq_of_getLsbD_eq
  intro i hi
  rw [getLsbD_byteOf, getLsbD_ofBytes f n hn]
  have e1 : (8 * j + i) / 8 = j := by omega
  have e2 : (8 * j + i) % 8 = i := by omega
  have e3 : 8 * j + i < 8 * n := by omega
  simp [hi, e1, e2, e3]

/-- A value is made of its bytes. -/
theorem ofBytes_byteOf (val : VWord) : ofBytes (byteOf val) 32 = val := by
  apply BitVec.eq_of_getLsbD_eq
  intro i hi
  rw [getLsbD_ofBytes _ 32 (by omega), getLsbD_byteOf]
  have e1 : 8 * (i / 8) + i % 8 = i := by omega
  have e2 : i % 8 < 8 := by omega
  simp [e1, e2]; omega

/-- Two byte sequences that agree make the same value. -/
theorem ofBytes_congr (f g : Nat → Byte) (n : Nat) (h : ∀ j < n, f j = g j) : ofBytes f n = ofBytes g n := by
  induction n with
  | zero => rfl
  | succ n ih => rw [ofBytes, ofBytes, ih fun j hj => h j (by omega), h n (by omega)]

end Sys2Proof.Machine
end

