-- ==== Sys2Proof/Laws/CacheSet.lean ====
section
/-! SUPPORT. Laws of one cache set: lookup, touch, victim, install, overwrite (spec/22_caches.md R123 to R126). -/

namespace Sys2Proof.Machine

/-! ## Line numbers -/

theorem lineOf_tagOf_setOf (g : Geom) (ln : Nat) : lineOf g (tagOf g ln) (setOf g ln) = ln := by
  simp [lineOf, tagOf, setOf, Nat.div_add_mod]

theorem setOf_lineOf (g : Geom) (t k : Nat) (h : k < g.sets) : setOf g (lineOf g t k) = k := by
  simp [setOf, lineOf, Nat.mod_eq_of_lt h]

theorem tagOf_lineOf (g : Geom) (t k : Nat) (h : k < g.sets) : tagOf g (lineOf g t k) = t := by
  have : 0 < g.sets := by omega
  simp [tagOf, lineOf, Nat.mul_add_div this, Nat.div_eq_of_lt h]

theorem setOf_lt (g : Geom) (ln : Nat) (h : 0 < g.sets) : setOf g ln < g.sets := Nat.mod_lt _ h

/-- Two lines of one set with one tag are the same line. -/
theorem line_eq {g : Geom} {a b : Nat} (hs : setOf g a = setOf g b) (ht : tagOf g a = tagOf g b) : a = b := by
  rw [← lineOf_tagOf_setOf g a, ← lineOf_tagOf_setOf g b, hs, ht]

/-! ## Reading and writing sets -/

theorem setGet_setPut (g : Geom) (c : Store (List Way)) (k j : Nat) (ws : List Way) :
    setGet g (setPut g c k ws) j = if j = k then ws else setGet g c j := by
  simp [setGet, setPut, Store.get_set]

/-! ## What a set holds -/

/-- What a set holds under a tag: dirty bit and payload. -/
def setInfo (tag : Nat) (ws : List Way) : Option (Bool × List Byte) :=
  (ws.find? (wayHolds tag)).map fun w => (w.dirty, w.data)

theorem lineInfo_eq (g : Geom) (c : Store (List Way)) (ln : Nat) :
    lineInfo g c ln = setInfo (tagOf g ln) (setGet g c (setOf g ln)) := rfl

theorem cached_eq (g : Geom) (c : Store (List Way)) (ln : Nat) : cached g c ln = (lineInfo g c ln).map (·.2) := by
  simp only [cached, findData, lineInfo, Option.map_map]; rfl

theorem wayHolds_iff (tag : Nat) (w : Way) : wayHolds tag w = true ↔ w.valid = true ∧ w.tag = tag := by
  simp [wayHolds]

/-- In a sound set a valid way with the tag is the one a lookup finds. -/
theorem setInfo_of_mem {g : Geom} {ws : List Way} (h : SetOk g ws) {w : Way} (hw : w ∈ ws) (hv : w.valid = true) :
    setInfo w.tag ws = some (w.dirty, w.data) := by
  have key : ws.find? (wayHolds w.tag) = some w := by
    have ht := h.tags
    clear h
    induction ws with
    | nil => simp at hw
    | cons a ws ih =>
      rw [List.pairwise_cons] at ht
      by_cases ha : wayHolds w.tag a = true
      · rcases List.mem_cons.mp hw with rfl | hm
        · simp [List.find?, ha]
        · rw [wayHolds_iff] at ha
          exact absurd ha.2 (ht.1 w hm ha.1 hv)
      · have hm : w ∈ ws := by
          rcases List.mem_cons.mp hw with rfl | hm
          · exact absurd ((wayHolds_iff _ _).mpr ⟨hv, rfl⟩) ha
          · exact hm
        rw [List.find?_cons_of_neg (by simpa using ha)]
        exact ih hm ht.2
  simp [setInfo, key]

/-- What a lookup finds stands in the set. -/
theorem mem_of_setInfo {ws : List Way} {tag : Nat} {b : Bool} {d : List Byte} (h : setInfo tag ws = some (b, d)) :
    ∃ w ∈ ws, w.valid = true ∧ w.tag = tag ∧ w.dirty = b ∧ w.data = d := by
  simp only [setInfo, Option.map_eq_some_iff] at h
  obtain ⟨w, hf, he⟩ := h
  have hh := List.find?_some hf
  rw [wayHolds_iff] at hh
  exact ⟨w, List.mem_of_find?_eq_some hf, hh.1, hh.2, by simpa using congrArg Prod.fst he,
    by simpa using congrArg Prod.snd he⟩

theorem setInfo_eq_some_iff {g : Geom} {ws : List Way} (h : SetOk g ws) (tag : Nat) (b : Bool) (d : List Byte) :
    setInfo tag ws = some (b, d) ↔ ∃ w ∈ ws, w.valid = true ∧ w.tag = tag ∧ w.dirty = b ∧ w.data = d := by
  refine ⟨mem_of_setInfo, ?_⟩
  rintro ⟨w, hw, hv, rfl, rfl, rfl⟩
  exact setInfo_of_mem h hw hv

theorem setInfo_eq_none_iff (ws : List Way) (tag : Nat) :
    setInfo tag ws = none ↔ ∀ w ∈ ws, w.valid = true → w.tag ≠ tag := by
  simp [setInfo, wayHolds]

/-! ## Lookup by number -/

theorem findWay_some {ws : List Way} {tag i : Nat} (h : findWay tag ws = some i) :
    ∃ hi : i < ws.length, ws[i].valid = true ∧ ws[i].tag = tag := by
  rw [findWay, List.findIdx?_eq_some_iff_getElem] at h
  obtain ⟨hi, hp, -⟩ := h
  exact ⟨hi, (wayHolds_iff _ _).mp hp⟩

theorem findWay_none {ws : List Way} {tag : Nat} : findWay tag ws = none ↔ setInfo tag ws = none := by
  rw [findWay, List.findIdx?_eq_none_iff, setInfo_eq_none_iff]
  simp [wayHolds]

theorem wayAt_eq {ws : List Way} {i : Nat} (h : i < ws.length) : wayAt ws i = ws[i] := by
  simp [wayAt, h]

/-- The payload of the way a lookup finds. -/
theorem setInfo_findWay {g : Geom} {ws : List Way} (h : SetOk g ws) {tag i : Nat} (hf : findWay tag ws = some i) :
    setInfo tag ws = some ((wayAt ws i).dirty, (wayAt ws i).data) := by
  obtain ⟨hi, hv, ht⟩ := findWay_some hf
  rw [wayAt_eq hi, ← ht]
  exact setInfo_of_mem h (List.getElem_mem hi) hv

/-! ## Changing LRU counters only -/

/-- Two sets that differ in LRU counters only. -/
def sameLines (ws vs : List Way) : Prop :=
  ws.map (fun w => (w.valid, w.dirty, w.tag, w.data)) = vs.map (fun w => (w.valid, w.dirty, w.tag, w.data))

theorem setInfo_congr {ws vs : List Way} (h : sameLines ws vs) (tag : Nat) : setInfo tag ws = setInfo tag vs := by
  unfold sameLines at h
  induction ws generalizing vs with
  | nil => cases vs with
    | nil => rfl
    | cons v vs => simp at h
  | cons w ws ih =>
    cases vs with
    | nil => simp at h
    | cons v vs =>
      simp only [List.map_cons, List.cons.injEq, Prod.mk.injEq] at h
      obtain ⟨⟨h1, h2, h3, h4⟩, hr⟩ := h
      have := ih hr
      simp only [setInfo, List.find?_cons, wayHolds, h1, h3] at this ⊢
      split
      · simp [h2, h4]
      · exact this

theorem length_touch (i : Nat) (ws : List Way) : (touch i ws).length = ws.length := by simp [touch]

theorem getElem_touch (i : Nat) (ws : List Way) (j : Nat) (h : j < (touch i ws).length) :
    (touch i ws)[j] = if i = j then { ageWay (ws[j]'(by rwa [length_touch] at h)) with lru := 0 }
      else ageWay (ws[j]'(by rwa [length_touch] at h)) := by
  simp only [touch, List.getElem_modify, List.getElem_map]

@[simp] theorem ageWay_valid (w : Way) : (ageWay w).valid = w.valid := by unfold ageWay; split <;> rfl
@[simp] theorem ageWay_dirty (w : Way) : (ageWay w).dirty = w.dirty := by unfold ageWay; split <;> rfl
@[simp] theorem ageWay_tag (w : Way) : (ageWay w).tag = w.tag := by unfold ageWay; split <;> rfl
@[simp] theorem ageWay_data (w : Way) : (ageWay w).data = w.data := by unfold ageWay; split <;> rfl
theorem ageWay_lru (w : Way) : (ageWay w).lru = if w.valid then w.lru + 1 else w.lru := by unfold ageWay; split <;> rfl

theorem sameLines_touch (i : Nat) (ws : List Way) : sameLines (touch i ws) ws := by
  unfold sameLines
  apply List.ext_getElem
  · simp [length_touch]
  · intro j h1 h2
    simp only [List.getElem_map, getElem_touch]
    split <;> simp

/-- A way as an element with its number. -/
theorem forall_mem_iff_getElem {α : Type} (l : List α) (P : α → Prop) :
    (∀ a ∈ l, P a) ↔ ∀ (i : Nat) (h : i < l.length), P l[i] := List.forall_mem_iff_getElem

theorem setOk_iff (g : Geom) (ws : List Way) : SetOk g ws ↔
    ws.length = g.ways ∧ (∀ (i : Nat) (h : i < ws.length), ws[i].data.length = 64) ∧
    (∀ (i : Nat) (h : i < ws.length), ws[i].valid = false → ws[i].dirty = false ∧ ws[i].lru = 0) ∧
    (∀ (i j : Nat) (hi : i < ws.length) (hj : j < ws.length), i < j → ws[i].valid = true → ws[j].valid = true →
      ws[i].tag ≠ ws[j].tag ∧ ws[i].lru ≠ ws[j].lru) := by
  constructor
  · rintro ⟨h1, h2, h3, h4, h5⟩
    rw [List.pairwise_iff_getElem] at h4 h5
    exact ⟨h1, fun i h => h2 _ (List.getElem_mem h), fun i h => h3 _ (List.getElem_mem h),
      fun i j hi hj hij a b => ⟨h4 i j hi hj hij a b, h5 i j hi hj hij a b⟩⟩
  · rintro ⟨h1, h2, h3, h4⟩
    refine ⟨h1, (forall_mem_iff_getElem _ _).mpr h2, (forall_mem_iff_getElem _ _).mpr h3, ?_, ?_⟩
    · rw [List.pairwise_iff_getElem]; exact fun i j hi hj hij a b => (h4 i j hi hj hij a b).1
    · rw [List.pairwise_iff_getElem]; exact fun i j hi hj hij a b => (h4 i j hi hj hij a b).2

/-- Touching a valid way keeps the set sound (22_caches.md R124). -/
theorem SetOk.touch {g : Geom} {ws : List Way} (h : SetOk g ws) (i : Nat) (hi : i < ws.length)
    (hv : ws[i].valid = true) : SetOk g (touch i ws) := by
  rw [setOk_iff] at h ⊢
  obtain ⟨h1, h2, h3, h4⟩ := h
  refine ⟨by rw [length_touch, h1], ?_, ?_, ?_⟩
  · intro j hj
    rw [getElem_touch]; rw [length_touch] at hj
    split <;> simpa using h2 j hj
  · intro j hj hw
    rw [getElem_touch] at hw ⊢; rw [length_touch] at hj
    split at hw
    · subst j; simp [hv] at hw
    · rename_i hne
      rw [if_neg hne]
      simp only [ageWay_valid] at hw
      have := h3 j hj hw
      simp [ageWay_lru, hw, this]
  · intro a b ha hb hab hva hvb
    rw [getElem_touch] at hva hvb ⊢; rw [getElem_touch] 
    rw [length_touch] at ha hb
    have va : ws[a].valid = true := by split at hva <;> simpa using hva
    have vb : ws[b].valid = true := by split at hvb <;> simpa using hvb
    have := h4 a b ha hb hab va vb
    constructor
    · split <;> split <;> simpa using this.1
    · split <;> split
      · omega
      · simp [ageWay_lru, vb]
      · simp [ageWay_lru, va]
      · simp [ageWay_lru, va, vb, this.2]

/-! ## Install -/

theorem length_install (i tag : Nat) (d : List Byte) (b : Bool) (ws : List Way) :
    (install i tag d b ws).length = ws.length := by simp [install]

theorem getElem_install (i tag : Nat) (d : List Byte) (b : Bool) (ws : List Way) (j : Nat)
    (h : j < (install i tag d b ws).length) :
    (install i tag d b ws)[j] = if i = j then { valid := true, dirty := b, tag := tag, lru := 0, data := d }
      else ageWay (ws[j]'(by rwa [length_install] at h)) := by
  simp only [install, List.getElem_set, List.getElem_map]

theorem maxLru_le (ws : List Way) : ∀ w ∈ ws, w.lru ≤ maxLru ws := by
  induction ws with
  | nil => simp
  | cons a ws ih =>
    intro w hw
    simp only [maxLru, List.foldr_cons]
    rcases List.mem_cons.mp hw with rfl | hw
    · omega
    · have := ih w hw; unfold maxLru at this; omega

theorem exists_maxLru (ws : List Way) (h : ws ≠ []) : ∃ w ∈ ws, w.lru = maxLru ws := by
  induction ws with
  | nil => exact absurd rfl h
  | cons a ws ih =>
    simp only [maxLru, List.foldr_cons]
    by_cases hw : ws = []
    · subst hw; exact ⟨a, by simp, by simp⟩
    · obtain ⟨w, hm, he⟩ := ih hw
      unfold maxLru at he
      by_cases hle : ws.foldr (fun w m => max w.lru m) 0 ≤ a.lru
      · exact ⟨a, by simp, by omega⟩
      · exact ⟨w, by simp [hm], by omega⟩

/-- The victim is a way of the set (22_caches.md R125). -/
theorem victim_lt (ws : List Way) (h : ws ≠ []) : victim ws < ws.length := by
  unfold victim
  split
  · rename_i i hi
    exact (List.findIdx?_eq_some_iff_getElem.mp hi).1
  · cases hf : ws.findIdx? (fun w => w.lru == maxLru ws) with
    | some i => simpa [hf] using (List.findIdx?_eq_some_iff_getElem.mp hf).1
    | none =>
      rw [List.findIdx?_eq_none_iff] at hf
      obtain ⟨w, hm, he⟩ := exists_maxLru ws h
      simpa [he] using hf w hm

/-- Installing a line that the set does not hold keeps the set sound (22_caches.md R126). -/
theorem SetOk.install {g : Geom} {ws : List Way} (h : SetOk g ws) (i tag : Nat) (d : List Byte) (b : Bool)
    (hd : d.length = 64) (hn : setInfo tag ws = none) : SetOk g (install i tag d b ws) := by
  rw [setInfo_eq_none_iff, forall_mem_iff_getElem] at hn
  rw [setOk_iff] at h ⊢
  obtain ⟨h1, h2, h3, h4⟩ := h
  refine ⟨by rw [length_install, h1], ?_, ?_, ?_⟩
  · intro j hj
    rw [getElem_install]; rw [length_install] at hj
    split
    · exact hd
    · simpa using h2 j hj
  · intro j hj hw
    rw [getElem_install] at hw ⊢; rw [length_install] at hj
    split at hw
    · simp at hw
    · rename_i hne
      rw [if_neg hne]
      simp only [ageWay_valid] at hw
      have := h3 j hj hw
      simp [ageWay_lru, hw, this]
  · intro a c ha hc hac hva hvc
    rw [getElem_install] at hva hvc ⊢; rw [getElem_install]
    rw [length_install] at ha hc
    split at hva <;> split at hvc
    · omega
    · rename_i e1 e2
      rw [if_pos e1, if_neg e2]
      simp only [ageWay_valid] at hvc
      exact ⟨by simpa using Ne.symm (hn c hc hvc), by simp [ageWay_lru, hvc]⟩
    · rename_i e1 e2
      rw [if_neg e1, if_pos e2]
      simp only [ageWay_valid] at hva
      exact ⟨by simpa using hn a ha hva, by simp [ageWay_lru, hva]⟩
    · rename_i e1 e2
      rw [if_neg e1, if_neg e2]
      simp only [ageWay_valid] at hva hvc
      have := h4 a c ha hc hac hva hvc
      exact ⟨by simpa using this.1, by simp [ageWay_lru, hva, hvc, this.2]⟩

/-- After an install the set holds the new line, no longer what the victim held, and else what it held. -/
theorem setInfo_install {g : Geom} {ws : List Way} (h : SetOk g ws) (i tag : Nat) (d : List Byte) (b : Bool)
    (hi : i < ws.length) (hd : d.length = 64) (hn : setInfo tag ws = none) (t : Nat) :
    setInfo t (install i tag d b ws) =
      if t = tag then some (b, d)
      else if ws[i].valid = true ∧ ws[i].tag = t then none
      else setInfo t ws := by
  have ho := h.install i tag d b hd hn
  have hl : i < (Machine.install i tag d b ws).length := by rwa [length_install]
  split
  · subst t
    rw [setInfo_eq_some_iff ho]
    refine ⟨_, List.getElem_mem hl, ?_⟩
    rw [getElem_install, if_pos rfl]
    simp
  · rename_i ht
    split
    · rename_i hc
      rw [setInfo_eq_none_iff, forall_mem_iff_getElem]
      intro j hj hv
      rw [getElem_install] at hv ⊢
      split at hv
      · rename_i e; rw [if_pos e]; exact fun e => ht e.symm
      · rename_i e
        rw [if_neg e]
        rw [length_install] at hj
        simp only [ageWay_valid, ageWay_tag] at hv ⊢
        intro he
        have hs := (setOk_iff g ws).mp h
        rcases Nat.lt_or_gt_of_ne e with hlt | hlt
        · exact (hs.2.2.2 i j hi hj hlt hc.1 hv).1 (by rw [hc.2, he])
        · exact (hs.2.2.2 j i hj hi hlt hv hc.1).1 (by rw [hc.2, he])
    · rename_i hc
      cases hq : setInfo t ws with
      | none =>
        rw [setInfo_eq_none_iff, forall_mem_iff_getElem] at hq ⊢
        intro j hj hv
        rw [getElem_install] at hv ⊢
        split at hv
        · rename_i e; rw [if_pos e]; exact fun e => ht e.symm
        · rename_i e
          rw [if_neg e]
          rw [length_install] at hj
          simp only [ageWay_valid, ageWay_tag] at hv ⊢
          exact hq j hj hv
      | some bd =>
        obtain ⟨b', d'⟩ := bd
        obtain ⟨w, hw, hv, htg, hb, hdd⟩ := mem_of_setInfo hq
        obtain ⟨j, hj, rfl⟩ := List.getElem_of_mem hw
        rw [setInfo_eq_some_iff ho]
        have hj' : j < (Machine.install i tag d b ws).length := by rwa [length_install]
        refine ⟨_, List.getElem_mem hj', ?_⟩
        have hne : i ≠ j := by
          rintro rfl
          exact hc ⟨hv, htg⟩
        rw [getElem_install, if_neg hne]
        simp [hv, htg, hb, hdd]

/-! ## Overwrite -/

theorem length_overwrite (i : Nat) (d : List Byte) (ws : List Way) : (overwrite i d ws).length = ws.length := by
  simp [overwrite]

theorem getElem_overwrite (i : Nat) (d : List Byte) (ws : List Way) (j : Nat) (h : j < (overwrite i d ws).length) :
    (overwrite i d ws)[j] = if i = j then { ws[j]'(by rwa [length_overwrite] at h) with data := d, dirty := true }
      else ws[j]'(by rwa [length_overwrite] at h) := by
  simp only [overwrite, List.getElem_modify]

theorem SetOk.overwrite {g : Geom} {ws : List Way} (h : SetOk g ws) (i : Nat) (d : List Byte) (hd : d.length = 64)
    (hi : i < ws.length) (hv : ws[i].valid = true) : SetOk g (overwrite i d ws) := by
  rw [setOk_iff] at h ⊢
  obtain ⟨h1, h2, h3, h4⟩ := h
  refine ⟨by rw [length_overwrite, h1], ?_, ?_, ?_⟩
  · intro j hj
    rw [getElem_overwrite]; rw [length_overwrite] at hj
    split
    · exact hd
    · exact h2 j hj
  · intro j hj hw
    rw [getElem_overwrite] at hw ⊢; rw [length_overwrite] at hj
    split at hw
    · subst j; simp [hv] at hw
    · rename_i hne; rw [if_neg hne]; exact h3 j hj hw
  · intro a c ha hc hac hva hvc
    rw [getElem_overwrite] at hva hvc ⊢; rw [getElem_overwrite]
    rw [length_overwrite] at ha hc
    have va : ws[a].valid = true := by split at hva <;> simpa using hva
    have vc : ws[c].valid = true := by split at hvc <;> simpa using hvc
    have := h4 a c ha hc hac va vc
    constructor <;> split <;> split <;> simp_all

theorem setInfo_overwrite {g : Geom} {ws : List Way} (h : SetOk g ws) (i : Nat) (d : List Byte) (hd : d.length = 64)
    (hi : i < ws.length) (hv : ws[i].valid = true) (t : Nat) :
    setInfo t (overwrite i d ws) = if t = ws[i].tag then some (true, d) else setInfo t ws := by
  have ho := h.overwrite i d hd hi hv
  have hl : i < (Machine.overwrite i d ws).length := by rwa [length_overwrite]
  split
  · subst t
    rw [setInfo_eq_some_iff ho]
    refine ⟨_, List.getElem_mem hl, ?_⟩
    rw [getElem_overwrite, if_pos rfl]
    simp [hv]
  · rename_i ht
    cases hq : setInfo t ws with
    | none =>
      rw [setInfo_eq_none_iff, forall_mem_iff_getElem] at hq ⊢
      intro j hj hvj
      rw [getElem_overwrite] at hvj ⊢
      rw [length_overwrite] at hj
      split at hvj
      · rename_i e; subst e; rw [if_pos rfl]; exact fun e => ht e.symm
      · rename_i e; rw [if_neg e]; exact hq j hj hvj
    | some bd =>
      obtain ⟨b', d'⟩ := bd
      obtain ⟨w, hw, hvw, htg, hb, hdd⟩ := mem_of_setInfo hq
      obtain ⟨j, hj, rfl⟩ := List.getElem_of_mem hw
      rw [setInfo_eq_some_iff ho]
      have hj' : j < (Machine.overwrite i d ws).length := by rwa [length_overwrite]
      refine ⟨_, List.getElem_mem hj', ?_⟩
      have hne : i ≠ j := by rintro rfl; exact ht htg.symm
      rw [getElem_overwrite, if_neg hne]
      simp [hvw, htg, hb, hdd]

/-! ## The empty set -/

theorem SetOk.empty (g : Geom) : SetOk g (emptySet g) := by
  refine ⟨by simp [emptySet], ?_, ?_, ?_, ?_⟩
  · intro w hw; rw [List.eq_of_mem_replicate hw]; simp [emptyWay]
  · intro w hw; rw [List.eq_of_mem_replicate hw]; simp [emptyWay]
  · rw [List.pairwise_iff_getElem]; intro i j hi hj _ hv; simp [emptySet, emptyWay] at hv
  · rw [List.pairwise_iff_getElem]; intro i j hi hj _ hv; simp [emptySet, emptyWay] at hv

theorem setInfo_empty (g : Geom) (tag : Nat) : setInfo tag (emptySet g) = none := by
  rw [setInfo_eq_none_iff]
  intro w hw; rw [List.eq_of_mem_replicate hw]; simp [emptyWay]

end Sys2Proof.Machine
end

