-- ==== Sys2Proof/Laws/Cache.lean ====
section
/-! SUPPORT. Laws of the cache hierarchy: every demand access and every prefetch keeps the hierarchy sound and the flat
memory of spec/20_memory.md R85 unchanged; a store changes exactly its own bytes of it (22_caches.md R126 to R152). -/

namespace Sys2Proof.Machine

/-! ## One cache -/

theorem lineInfo_setPut (g : Geom) (c : Store (List Way)) (k : Nat) (ws : List Way) (ln : Nat) :
    lineInfo g (setPut g c k ws) ln = if setOf g ln = k then setInfo (tagOf g ln) ws else lineInfo g c ln := by
  rw [lineInfo_eq, setGet_setPut]
  split <;> rfl

theorem CacheOk.setPut {g : Geom} {m : Nat} {c : Store (List Way)} (h : CacheOk g m c) (k : Nat) (ws : List Way)
    (hk : k < g.sets) (hw : SetOk g ws)
    (hr : ∀ ln b d, setOf g ln = k → setInfo (tagOf g ln) ws = some (b, d) → 64 * ln + 64 ≤ m) :
    CacheOk g m (setPut g c k ws) := by
  refine ⟨fun j => ?_, fun j hj => ?_, fun ln b d hl => ?_⟩
  · rw [setGet_setPut]; split
    · exact hw
    · exact h.sets j
  · rw [setGet_setPut, if_neg (by omega)]; exact h.unused j hj
  · rw [lineInfo_setPut] at hl
    split at hl
    · exact hr ln b d ‹_› hl
    · exact h.inRam ln b d hl

theorem lineInfo_touch (g : Geom) (c : Store (List Way)) (l i ln : Nat) :
    lineInfo g (setPut g c (setOf g l) (touch i (setGet g c (setOf g l)))) ln = lineInfo g c ln := by
  rw [lineInfo_setPut]
  split
  · rename_i h
    rw [setInfo_congr (sameLines_touch i _), lineInfo_eq, h]
  · rfl

theorem CacheOk.touch {g : Geom} {m : Nat} {c : Store (List Way)} (h : CacheOk g m c) (hg : 0 < g.sets) {l i : Nat}
    (hf : findWay (tagOf g l) (setGet g c (setOf g l)) = some i) :
    CacheOk g m (Machine.setPut g c (setOf g l) (touch i (setGet g c (setOf g l)))) := by
  obtain ⟨hi, hv, -⟩ := findWay_some hf
  refine h.setPut _ _ (setOf_lt g l hg) ((h.sets _).touch i hi hv) fun ln b d hs hq => ?_
  rw [setInfo_congr (sameLines_touch i _), ← hs] at hq
  exact h.inRam ln b d hq

/-- The way an install replaces. -/
def victimWay (g : Geom) (c : Store (List Way)) (l : Nat) : Way :=
  wayAt (setGet g c (setOf g l)) (victim (setGet g c (setOf g l)))

/-- The line an install replaces. -/
def victimLine (g : Geom) (c : Store (List Way)) (l : Nat) : Nat := lineOf g (victimWay g c l).tag (setOf g l)

/-- The cache after an install. -/
def installed (g : Geom) (c : Store (List Way)) (l : Nat) (d : List Byte) (b : Bool) : Store (List Way) :=
  setPut g c (setOf g l) (install (victim (setGet g c (setOf g l))) (tagOf g l) d b (setGet g c (setOf g l)))

theorem victim_lt_ways {g : Geom} {m : Nat} {c : Store (List Way)} (h : CacheOk g m c) (hw : 0 < g.ways) (l : Nat) :
    victim (setGet g c (setOf g l)) < (setGet g c (setOf g l)).length := by
  refine victim_lt _ fun hn => ?_
  have := (h.sets (setOf g l)).ways
  rw [hn] at this
  simp at this; omega

theorem lineInfo_victimLine {g : Geom} {m : Nat} {c : Store (List Way)} (h : CacheOk g m c) (hg : 0 < g.sets)
    (hw : 0 < g.ways) (l : Nat) (hv : (victimWay g c l).valid = true) :
    lineInfo g c (victimLine g c l) = some ((victimWay g c l).dirty, (victimWay g c l).data) := by
  have hl := victim_lt_ways h hw l
  rw [lineInfo_eq, victimLine, setOf_lineOf g _ _ (setOf_lt g l hg), tagOf_lineOf g _ _ (setOf_lt g l hg)]
  have he : victimWay g c l = (setGet g c (setOf g l))[victim (setGet g c (setOf g l))] := wayAt_eq hl
  rw [he] at hv ⊢
  exact setInfo_of_mem (h.sets _) (List.getElem_mem hl) hv

theorem lineInfo_installed {g : Geom} {m : Nat} {c : Store (List Way)} (h : CacheOk g m c) (hg : 0 < g.sets)
    (hw : 0 < g.ways) (l : Nat) (d : List Byte) (b : Bool) (hd : d.length = 64) (hn : lineInfo g c l = none) (ln : Nat) :
    lineInfo g (installed g c l d b) ln =
      if ln = l then some (b, d)
      else if (victimWay g c l).valid = true ∧ ln = victimLine g c l then none
      else lineInfo g c ln := by
  have hl := victim_lt_ways h hw l
  have he : victimWay g c l = (setGet g c (setOf g l))[victim (setGet g c (setOf g l))] := wayAt_eq hl
  rw [installed, lineInfo_setPut]
  by_cases hs : setOf g ln = setOf g l
  · rw [if_pos hs, setInfo_install (h.sets _) _ _ d b hl hd hn]
    by_cases ht : tagOf g ln = tagOf g l
    · have := line_eq hs ht; subst this; simp
    · have hne : ln ≠ l := fun e => ht (by rw [e])
      rw [if_neg ht, if_neg hne, ← he]
      have hiff : ((victimWay g c l).tag = tagOf g ln) ↔ ln = victimLine g c l := by
        constructor
        · intro e; rw [victimLine, e, ← hs, lineOf_tagOf_setOf]
        · intro e; rw [e, victimLine, tagOf_lineOf g _ _ (setOf_lt g l hg)]
      simp only [hiff]
      rw [lineInfo_eq, hs]
  · have hne : ln ≠ l := fun e => hs (by rw [e])
    have hv : ln ≠ victimLine g c l := fun e => hs (by rw [e, victimLine, setOf_lineOf g _ _ (setOf_lt g l hg)])
    rw [if_neg hs, if_neg hne, if_neg (fun hc => hv hc.2)]

theorem CacheOk.installed {g : Geom} {m : Nat} {c : Store (List Way)} (h : CacheOk g m c) (hg : 0 < g.sets)
    (hw : 0 < g.ways) (l : Nat) (d : List Byte) (b : Bool) (hd : d.length = 64) (hn : lineInfo g c l = none)
    (hm : 64 * l + 64 ≤ m) : CacheOk g m (installed g c l d b) := by
  refine h.setPut _ _ (setOf_lt g l hg) ((h.sets _).install _ _ d b hd hn) fun ln b' d' hs hq => ?_
  have hl : lineInfo g (Machine.installed g c l d b) ln = some (b', d') := by
    rw [Machine.installed, lineInfo_setPut, if_pos hs, hq]
  rw [lineInfo_installed h hg hw l d b hd hn] at hl
  split at hl
  · subst ln; exact hm
  · split at hl
    · exact absurd hl (by simp)
    · exact h.inRam ln b' d' hl

/-- The cache after the payload of a line it holds is replaced. -/
def overwritten (g : Geom) (c : Store (List Way)) (l i : Nat) (d : List Byte) : Store (List Way) :=
  setPut g c (setOf g l) (overwrite i d (setGet g c (setOf g l)))

theorem lineInfo_overwritten {g : Geom} {m : Nat} {c : Store (List Way)} (h : CacheOk g m c) {l i : Nat}
    (d : List Byte) (hd : d.length = 64) (hf : findWay (tagOf g l) (setGet g c (setOf g l)) = some i) (ln : Nat) :
    lineInfo g (overwritten g c l i d) ln = if ln = l then some (true, d) else lineInfo g c ln := by
  obtain ⟨hi, hv, ht⟩ := findWay_some hf
  rw [overwritten, lineInfo_setPut]
  by_cases hs : setOf g ln = setOf g l
  · rw [if_pos hs, setInfo_overwrite (h.sets _) i d hd hi hv, ht]
    by_cases he : tagOf g ln = tagOf g l
    · have := line_eq hs he; subst this; simp
    · have hne : ln ≠ l := fun e => he (by rw [e])
      rw [if_neg he, if_neg hne, lineInfo_eq, hs]
  · have hne : ln ≠ l := fun e => hs (by rw [e])
    rw [if_neg hs, if_neg hne]

theorem CacheOk.overwritten {g : Geom} {m : Nat} {c : Store (List Way)} (h : CacheOk g m c) (hg : 0 < g.sets)
    {l i : Nat} (d : List Byte) (hd : d.length = 64)
    (hf : findWay (tagOf g l) (setGet g c (setOf g l)) = some i) : CacheOk g m (overwritten g c l i d) := by
  obtain ⟨hi, hv, -⟩ := findWay_some hf
  refine h.setPut _ _ (setOf_lt g l hg) ((h.sets _).overwrite i d hd hi hv) fun ln b' d' hs hq => ?_
  have hl : lineInfo g (Machine.overwritten g c l i d) ln = some (b', d') := by
    rw [Machine.overwritten, lineInfo_setPut, if_pos hs, hq]
  rw [lineInfo_overwritten h d hd hf] at hl
  split at hl
  · subst ln
    exact h.inRam l _ _ (by rw [lineInfo_eq, setInfo_findWay (h.sets _) hf])
  · exact h.inRam ln b' d' hl

theorem findWay_none_iff (g : Geom) (c : Store (List Way)) (l : Nat) :
    findWay (tagOf g l) (setGet g c (setOf g l)) = none ↔ lineInfo g c l = none := by
  rw [findWay_none, lineInfo_eq]

theorem lineInfo_of_findWay {g : Geom} {m : Nat} {c : Store (List Way)} (h : CacheOk g m c) {l i : Nat}
    (hf : findWay (tagOf g l) (setGet g c (setOf g l)) = some i) :
    lineInfo g c l = some ((wayAt (setGet g c (setOf g l)) i).dirty, (wayAt (setGet g c (setOf g l)) i).data) := by
  rw [lineInfo_eq, setInfo_findWay (h.sets _) hf]

/-- What a sound cache holds of a line has 64 bytes. -/
theorem CacheOk.length {g : Geom} {m : Nat} {c : Store (List Way)} (h : CacheOk g m c) {ln : Nat} {b : Bool}
    {d : List Byte} (hl : lineInfo g c ln = some (b, d)) : d.length = 64 := by
  obtain ⟨w, hw, -, -, -, rfl⟩ := mem_of_setInfo hl
  exact (h.sets _).payload w hw

theorem CacheOk.empty (g : Geom) (m : Nat) : CacheOk g m [] := by
  refine ⟨fun k => SetOk.empty g, fun k _ w hw => ?_, fun ln b d hl => ?_⟩
  · rw [show setGet g [] k = emptySet g from rfl] at hw
    rw [List.eq_of_mem_replicate hw]; rfl
  · rw [lineInfo_eq, show setGet g [] (setOf g ln) = emptySet g from rfl, setInfo_empty] at hl
    exact absurd hl (by simp)

theorem lineInfo_nil (g : Geom) (ln : Nat) : lineInfo g [] ln = none := by
  rw [lineInfo_eq, show setGet g [] (setOf g ln) = emptySet g from rfl, setInfo_empty]

/-! ## Lines of memory -/

theorem getD_ext {a b : List Byte} (ha : a.length = 64) (hb : b.length = 64) (h : ∀ j < 64, a.getD j 0 = b.getD j 0) :
    a = b := by
  apply List.ext_getElem (by rw [ha, hb])
  intro j h1 h2
  have := h j (by omega)
  simpa [h1, h2] using this

/-- A line written back changes that line only. -/
theorem readLine_writeBytes (pm : List Host.Cell) (l : Nat) (d : List Byte) (hd : d.length = 64) (ln : Nat) :
    Memory.readLine (Memory.writeBytes pm (64 * l) d) ln = if ln = l then d else Memory.readLine pm ln := by
  split
  · subst ln
    refine getD_ext (by simp) hd fun j hj => ?_
    rw [Memory.getD_readLine _ _ _ hj, Memory.read_writeBytes, if_pos (by omega)]
    congr 1; omega
  · refine getD_ext (by simp) (by simp) fun j hj => ?_
    rw [Memory.getD_readLine _ _ _ hj, Memory.getD_readLine _ _ _ hj, Memory.read_writeBytes, if_neg (by omega)]

/-! ## Sound parameters -/

theorem isPow2_pos {n : Nat} (h : isPow2 n = true) : 0 < n := by
  simp only [isPow2, beq_iff_eq] at h
  rw [h]; exact Nat.two_pow_pos _

theorem Params.valid_iff (p : Params) : p.valid = true ↔
    0 < p.memSize ∧ p.memSize % 4096 = 0 ∧ p.memSize < p.mmioBase ∧ p.mmioBase < p.mmioLimit ∧
    p.mmioLimit ≤ 2 ^ 52 ∧ p.mmioBase % 4096 = 0 ∧ p.mmioLimit % 4096 = 0 ∧ 0 < p.tlbEntries ∧
    isPow2 p.l1iSets = true ∧ isPow2 p.l1dSets = true ∧ isPow2 p.l2Sets = true ∧ isPow2 p.bpEntries = true ∧
    isPow2 p.btbEntries = true := by
  simp [Params.valid, and_assoc]

/-- Sound parameters give every cache at least one set. -/
theorem Params.sets_pos {p : Params} (h : p.valid = true) :
    0 < (l1iGeom p).sets ∧ 0 < (l1dGeom p).sets ∧ 0 < (l2Geom p).sets := by
  rw [Params.valid_iff] at h
  obtain ⟨-, -, -, -, -, -, -, -, h1, h2, h3, -, -⟩ := h
  exact ⟨isPow2_pos h1, isPow2_pos h2, isPow2_pos h3⟩

theorem ways_pos (p : Params) : 0 < (l1iGeom p).ways ∧ 0 < (l1dGeom p).ways ∧ 0 < (l2Geom p).ways :=
  ⟨by simp [l1iGeom, Config.l1iWays], by simp [l1dGeom, Config.l1dWays], by simp [l2Geom, Config.l2Ways]⟩

/-! ## L2 over physical memory -/

/-- The part of `HierOk` that speaks of L2 and physical memory. -/
structure L2Ok (p : Params) (h : Hierarchy) : Prop where
  l2 : CacheOk (l2Geom p) p.memSize h.l2
  clean : ∀ ln d, lineInfo (l2Geom p) h.l2 ln = some (false, d) → d = Memory.readLine h.pm ln
  ram : ∀ a, p.memSize ≤ a → Memory.read h.pm a = 0

theorem HierOk.toL2 {p : Params} {h : Hierarchy} (hk : HierOk p h) : L2Ok p h := ⟨hk.l2, hk.l2Clean, hk.ram⟩

theorem belowL1_eq (p : Params) (h : Hierarchy) (ln : Nat) :
    belowL1 p h ln = ((lineInfo (l2Geom p) h.l2 ln).map (·.2)).getD (Memory.readLine h.pm ln) := by
  rw [belowL1, cached_eq]

theorem L2Ok.length_below {p : Params} {h : Hierarchy} (hk : L2Ok p h) (ln : Nat) : (belowL1 p h ln).length = 64 := by
  rw [belowL1_eq]
  cases hq : lineInfo (l2Geom p) h.l2 ln with
  | none => simp
  | some bd => simpa using hk.l2.length hq

/-- What a step inside L2 keeps: L1 and the prefetcher, soundness, and the payload of every line but one. -/
structure L2Step (p : Params) (h h' : Hierarchy) (ln : Nat) (d : List Byte) : Prop where
  l1i : h'.l1i = h.l1i
  l1d : h'.l1d = h.l1d
  pf : h'.pf = h.pf
  ok : L2Ok p h'
  below : ∀ l, belowL1 p h' l = if l = ln then d else belowL1 p h l

/-- Inserting a line that L2 does not hold (22_caches.md R126, R127). -/
theorem l2Insert_step {p : Params} (hp : p.valid = true) {h : Hierarchy} (hk : L2Ok p h) (ln : Nat) (d : List Byte)
    (dirty : Bool) (hd : d.length = 64) (hn : lineInfo (l2Geom p) h.l2 ln = none) (hm : 64 * ln + 64 ≤ p.memSize)
    (hc : dirty = false → d = Memory.readLine h.pm ln) : L2Step p h (l2Insert p h ln d dirty) ln d := by
  have hg := (Params.sets_pos hp).2.2
  have hw := (ways_pos p).2.2
  set g := l2Geom p with hgdef
  set w := victimWay g h.l2 ln with hwdef
  set lv := victimLine g h.l2 ln with hlv
  have hvl : w.valid = true → lineInfo g h.l2 lv = some (w.dirty, w.data) := lineInfo_victimLine hk.l2 hg hw ln
  have hl2 : (l2Insert p h ln d dirty).l2 = installed g h.l2 ln d dirty := rfl
  have hpm : (l2Insert p h ln d dirty).pm =
      if w.valid && w.dirty then Memory.writeBytes h.pm (64 * lv) w.data else h.pm := rfl
  have hinfo := lineInfo_installed hk.l2 hg hw ln d dirty hd hn
  -- the lines of physical memory after it
  have hline : ∀ l, Memory.readLine (l2Insert p h ln d dirty).pm l =
      if (w.valid = true ∧ w.dirty = true) ∧ l = lv then w.data else Memory.readLine h.pm l := by
    intro l
    rw [hpm]
    by_cases hvd : w.valid = true ∧ w.dirty = true
    · have hwl : w.data.length = 64 := hk.l2.length (hvl hvd.1)
      rw [if_pos (by simp [hvd]), readLine_writeBytes _ _ _ hwl]
      simp [hvd]
    · rw [if_neg (by simpa using hvd), if_neg (fun hh => hvd hh.1)]
  have hlvne : w.valid = true → lv ≠ ln := by
    intro hv e; rw [e, hn] at hvl; simpa using hvl hv
  refine ⟨rfl, rfl, rfl, ⟨?_, ?_, ?_⟩, ?_⟩
  · rw [hl2]; exact hk.l2.installed hg hw ln d dirty hd hn hm
  · intro l d' hl
    rw [hl2, hinfo] at hl
    rw [hline]
    split at hl
    · subst l
      simp only [Option.some.injEq, Prod.mk.injEq] at hl
      rw [if_neg (fun hh => hlvne hh.1.1 hh.2.symm), ← hl.2]
      exact hc hl.1
    · split at hl
      · exact absurd hl (by simp)
      · rename_i hx
        rw [if_neg (fun hh => hx ⟨hh.1.1, hh.2⟩)]
        exact hk.clean l d' hl
  · intro a ha
    rw [hpm]
    split
    · rename_i hvd
      simp only [Bool.and_eq_true] at hvd
      have hwl : w.data.length = 64 := hk.l2.length (hvl hvd.1)
      have hin := hk.l2.inRam lv _ _ (hvl hvd.1)
      rw [Memory.read_writeBytes, if_neg (by omega)]
      exact hk.ram a ha
    · exact hk.ram a ha
  · intro l
    rw [belowL1_eq, belowL1_eq, hline, hl2, hinfo]
    split
    · rfl
    · split
      · rename_i hx
        have := hvl hx.1
        rw [hx.2, this]
        cases hdirty : w.dirty with
        | true =>
          have hv' : w.valid = true := hx.1
          simp [hv', hlv, hgdef]
        | false =>
          rw [if_neg (by simp)]
          rw [hdirty] at this
          simpa using (hk.clean lv _ this).symm
      · rename_i hx
        rw [if_neg (fun hh => hx ⟨hh.1.1, hh.2⟩)]

/-- Touching a line in L2 changes nothing but counters. -/
theorem l2Touch_step {p : Params} (hp : p.valid = true) {h : Hierarchy} (hk : L2Ok p h) (ln i : Nat)
    (hf : findWay (tagOf (l2Geom p) ln) (setGet (l2Geom p) h.l2 (setOf (l2Geom p) ln)) = some i) :
    L2Step p h
      { h with l2 := (setPut (l2Geom p) h.l2 (setOf (l2Geom p) ln)
                      (touch i (setGet (l2Geom p) h.l2 (setOf (l2Geom p) ln)))) }
      ln (belowL1 p h ln) := by
  have hg := (Params.sets_pos hp).2.2
  refine ⟨rfl, rfl, rfl, ⟨hk.l2.touch hg hf, ?_, hk.ram⟩, ?_⟩
  · intro l d hl
    rw [lineInfo_touch] at hl
    exact hk.clean l d hl
  · intro l
    rw [belowL1_eq, lineInfo_touch, ← belowL1_eq]
    split
    · subst l; rfl
    · rfl

/-- Putting a victim of L1D into L2 (22_caches.md R127). -/
theorem l2Put_step {p : Params} (hp : p.valid = true) {h : Hierarchy} (hk : L2Ok p h) (ln : Nat) (d : List Byte)
    (hd : d.length = 64) (hm : 64 * ln + 64 ≤ p.memSize) : L2Step p h (l2Put p h ln d) ln d := by
  have hg := (Params.sets_pos hp).2.2
  unfold l2Put
  simp only
  split
  · rename_i i hf
    set g := l2Geom p with hgdef
    set c' := setPut g h.l2 (setOf g ln) (touch i (setGet g h.l2 (setOf g ln))) with hc'
    have hok : CacheOk g p.memSize c' := hk.l2.touch hg hf
    have hget : setGet g c' (setOf g ln) = touch i (setGet g h.l2 (setOf g ln)) := by
      rw [hc', setGet_setPut, if_pos rfl]
    have hf' : findWay (tagOf g ln) (setGet g c' (setOf g ln)) = some i := by
      rw [hget]
      rw [findWay, List.findIdx?_eq_some_iff_getElem] at hf ⊢
      obtain ⟨hi, h1, h2⟩ := hf
      refine ⟨by rwa [length_touch], ?_, fun j hj => ?_⟩
      · rw [getElem_touch]; split <;> simpa [wayHolds] using h1
      · rw [getElem_touch]; have := h2 j hj; split <;> simpa [wayHolds] using this
    have heq : setPut g h.l2 (setOf g ln) (overwrite i d (touch i (setGet g h.l2 (setOf g ln)))) =
        setPut g h.l2 (setOf g ln) (overwrite i d (setGet g c' (setOf g ln))) := by rw [hget]
    have hinfo : ∀ l, lineInfo g (setPut g h.l2 (setOf g ln) (overwrite i d (setGet g c' (setOf g ln)))) l =
        if l = ln then some (true, d) else lineInfo g h.l2 l := by
      intro l
      have := lineInfo_overwritten hok d hd hf' l
      rw [overwritten, lineInfo_setPut] at this
      rw [lineInfo_setPut]
      split at this
      · rename_i hs
        rw [if_pos hs, this]
        split
        · rfl
        · rw [hc', lineInfo_touch]
      · rename_i hs
        have hne : l ≠ ln := fun e => hs (by rw [e])
        rw [if_neg hs, if_neg hne]
    rw [heq]
    refine ⟨rfl, rfl, rfl, ⟨?_, ?_, hk.ram⟩, ?_⟩
    · refine hk.l2.setPut _ _ (setOf_lt g ln hg) ?_ ?_
      · obtain ⟨hi, hv, -⟩ := findWay_some hf'
        exact (hok.sets _).overwrite i d hd hi hv
      · intro l b d' hs hq
        have := hinfo l
        rw [lineInfo_setPut, if_pos hs, hq] at this
        split at this
        · subst l; exact hm
        · exact hk.l2.inRam l b d' this.symm
    · intro l d' hl
      rw [hinfo] at hl
      split at hl
      · simp at hl
      · exact hk.clean l d' hl
    · intro l
      rw [belowL1_eq, hinfo, belowL1_eq]
      split <;> rfl
  · rename_i hf
    rw [findWay_none_iff] at hf
    exact l2Insert_step hp hk ln d true hd hf hm (by simp)

/-- A line fetched for an L1 miss (22_caches.md R128): its payload is what the levels below L1 hold, and they keep
holding it. -/
theorem fillLine_step {p : Params} (hp : p.valid = true) {h : Hierarchy} (hk : L2Ok p h) (ln : Nat)
    (hm : 64 * ln + 64 ≤ p.memSize) :
    (fillLine p h ln).data = belowL1 p h ln ∧ L2Step p h (fillLine p h ln).hier ln (belowL1 p h ln) := by
  unfold fillLine
  simp only
  split
  · rename_i i hf
    refine ⟨?_, l2Touch_step hp hk ln i hf⟩
    rw [belowL1_eq, lineInfo_of_findWay hk.l2 hf]; rfl
  · rename_i hf
    rw [findWay_none_iff] at hf
    have hb : belowL1 p h ln = Memory.readLine h.pm ln := by rw [belowL1_eq, hf]; rfl
    refine ⟨hb.symm, ?_⟩
    rw [hb]
    exact l2Insert_step hp hk ln _ false (by simp) hf hm (fun _ => rfl)

/-- A prefetch (22_caches.md R146) changes no payload. -/
theorem prefetchLine_step {p : Params} (hp : p.valid = true) {h : Hierarchy} (hk : L2Ok p h) (t : Word) :
    ∃ ln, L2Step p h (prefetchLine p h t) ln (belowL1 p h ln) := by
  have same : L2Step p h h (t.toNat / 64) (belowL1 p h (t.toNat / 64)) :=
    ⟨rfl, rfl, rfl, hk, fun l => by split <;> simp_all⟩
  unfold prefetchLine
  split
  · exact ⟨_, same⟩
  · simp only
    split
    · exact ⟨_, same⟩
    · rename_i hf
      rw [findWay_none_iff] at hf
      have hb : belowL1 p h (t.toNat / 64) = Memory.readLine h.pm (t.toNat / 64) := by rw [belowL1_eq, hf]; rfl
      refine ⟨t.toNat / 64, ?_⟩
      rw [hb]
      have hmul := ((Params.valid_iff p).mp hp).2.1
      exact l2Insert_step hp hk _ _ false (by simp) hf (by omega) (fun _ => rfl)

/-! ## The flat memory, line by line -/

/-- The payload of a line as a load sees it (22_caches.md R129). -/
def flatLine (p : Params) (h : Hierarchy) (ln : Nat) : List Byte :=
  ((lineInfo (l1dGeom p) h.l1d ln).map (·.2)).getD (belowL1 p h ln)

theorem flatByte_eq (p : Params) (h : Hierarchy) (a : Nat) :
    flatByte p h a = lineByte (flatLine p h (a / 64)) (a % 64) := by
  rw [flatByte, cached_eq, cached_eq, flatLine, belowL1_eq]
  cases lineInfo (l1dGeom p) h.l1d (a / 64) with
  | some bd => rfl
  | none =>
    cases lineInfo (l2Geom p) h.l2 (a / 64) with
    | some bd => rfl
    | none =>
      simp only [Option.map_none, Option.getD_none, lineByte]
      rw [Memory.getD_readLine _ _ _ (by omega)]
      congr 1; omega

theorem flatByte_congr {p : Params} {h h' : Hierarchy} (hl : ∀ ln, flatLine p h' ln = flatLine p h ln) (a : Nat) :
    flatByte p h' a = flatByte p h a := by rw [flatByte_eq, flatByte_eq, hl]

theorem HierOk.length_flat {p : Params} {h : Hierarchy} (hk : HierOk p h) (ln : Nat) :
    (flatLine p h ln).length = 64 := by
  rw [flatLine]
  cases hq : lineInfo (l1dGeom p) h.l1d ln with
  | none => simpa using hk.toL2.length_below ln
  | some bd => simpa using hk.l1d.length hq

/-- A step inside L2 that keeps every payload keeps the hierarchy sound. -/
theorem HierOk.l2Step {p : Params} {h h' : Hierarchy} (hk : HierOk p h) {ln : Nat}
    (hs : L2Step p h h' ln (belowL1 p h ln)) :
    HierOk p h' ∧ (∀ l, belowL1 p h' l = belowL1 p h l) ∧ ∀ l, flatLine p h' l = flatLine p h l := by
  have hb : ∀ l, belowL1 p h' l = belowL1 p h l := by
    intro l; rw [hs.below]; split
    · subst l; rfl
    · rfl
  refine ⟨⟨by rw [hs.l1i]; exact hk.l1i, by rw [hs.l1d]; exact hk.l1d, hs.ok.l2, by rw [hs.l1i]; exact hk.l1iClean,
    ?_, hs.ok.clean, hs.ok.ram⟩, hb, ?_⟩
  · intro l d hl
    rw [hs.l1d] at hl
    rw [hb]; exact hk.l1dClean l d hl
  · intro l
    rw [flatLine, flatLine, hs.l1d, hb]

/-! ## L1D -/

/-- Inserting into L1D a clean line that L1D does not hold, with the payload the levels below hold, changes no payload
that a load sees (22_caches.md R126, R127, R129). -/
theorem l1dInsert_ok {p : Params} (hp : p.valid = true) {h : Hierarchy} (hk : HierOk p h) (ln : Nat)
    (hn : lineInfo (l1dGeom p) h.l1d ln = none) (hm : 64 * ln + 64 ≤ p.memSize) :
    HierOk p (l1dInsert p h ln (belowL1 p h ln)) ∧
    (∀ l, flatLine p (l1dInsert p h ln (belowL1 p h ln)) l = flatLine p h l) ∧
    lineInfo (l1dGeom p) (l1dInsert p h ln (belowL1 p h ln)).l1d ln = some (false, belowL1 p h ln) ∧
    (l1dInsert p h ln (belowL1 p h ln)).l1i = h.l1i ∧ (l1dInsert p h ln (belowL1 p h ln)).pf = h.pf := by
  have hg := (Params.sets_pos hp).2.1
  have hw := (ways_pos p).2.1
  set g := l1dGeom p with hgdef
  set d := belowL1 p h ln with hd
  have hdl : d.length = 64 := hk.toL2.length_below ln
  set w := victimWay g h.l1d ln with hwdef
  set lv := victimLine g h.l1d ln with hlv
  have hvl : w.valid = true → lineInfo g h.l1d lv = some (w.dirty, w.data) := lineInfo_victimLine hk.l1d hg hw ln
  have hlvne : w.valid = true → lv ≠ ln := by
    intro hv e; rw [e, hn] at hvl; simpa using hvl hv
  have hinfo := lineInfo_installed hk.l1d hg hw ln d false hdl hn
  -- the hierarchy after the write-back of the victim
  obtain ⟨h1, hh1, h1i, h1d, h1pf, h1ok, h1b⟩ : ∃ h1, l1dInsert p h ln d = { h1 with l1d := installed g h.l1d ln d false } ∧
      h1.l1i = h.l1i ∧ h1.l1d = h.l1d ∧ h1.pf = h.pf ∧ L2Ok p h1 ∧
      ∀ l, belowL1 p h1 l = if (w.valid = true ∧ w.dirty = true) ∧ l = lv then w.data else belowL1 p h l := by
    by_cases hvd : w.valid = true ∧ w.dirty = true
    · have hs := l2Put_step hp hk.toL2 lv w.data (hk.l1d.length (hvl hvd.1)) (hk.l1d.inRam lv _ _ (hvl hvd.1))
      refine ⟨l2Put p h lv w.data, ?_, hs.l1i, hs.l1d, hs.pf, hs.ok, fun l => ?_⟩
      · unfold l1dInsert
        simp only
        have hc : (wayAt (setGet (l1dGeom p) h.l1d (setOf (l1dGeom p) ln))
            (victim (setGet (l1dGeom p) h.l1d (setOf (l1dGeom p) ln)))) = w := rfl
        rw [hc, if_pos (by simp [hvd])]
        have e1 : (l2Put p h (lineOf (l1dGeom p) w.tag (setOf (l1dGeom p) ln)) w.data).l1d = h.l1d := hs.l1d
        rw [e1]; rfl
      · rw [hs.below]; simp [hvd]
    · refine ⟨h, ?_, rfl, rfl, rfl, hk.toL2, fun l => by rw [if_neg (fun hh => hvd hh.1)]⟩
      unfold l1dInsert
      simp only
      have hc : (wayAt (setGet (l1dGeom p) h.l1d (setOf (l1dGeom p) ln))
          (victim (setGet (l1dGeom p) h.l1d (setOf (l1dGeom p) ln)))) = w := rfl
      rw [hc, if_neg (by simpa using hvd)]
      rfl
  rw [hh1]
  have hb : ∀ l, belowL1 p { h1 with l1d := installed g h.l1d ln d false } l = belowL1 p h1 l := fun _ => rfl
  refine ⟨⟨?_, ?_, h1ok.l2, ?_, ?_, h1ok.clean, h1ok.ram⟩, ?_, ?_, h1i, h1pf⟩
  · show CacheOk _ _ h1.l1i
    rw [h1i]; exact hk.l1i
  · exact hk.l1d.installed hg hw ln d false hdl hn hm
  · show ∀ k, ∀ w ∈ setGet _ h1.l1i k, _
    rw [h1i]; exact hk.l1iClean
  · intro l d' hl
    rw [hb, h1b]
    change lineInfo g (installed g h.l1d ln d false) l = _ at hl
    rw [hinfo] at hl
    split at hl
    · subst l
      rw [if_neg (fun hh => hlvne hh.1.1 hh.2.symm)]
      simp only [Option.some.injEq, Prod.mk.injEq, true_and] at hl
      exact hl.symm
    · split at hl
      · exact absurd hl (by simp)
      · rename_i hx
        rw [if_neg (fun hh => hx ⟨hh.1.1, hh.2⟩)]
        exact hk.l1dClean l d' hl
  · intro l
    rw [flatLine, flatLine, hb, h1b]
    change ((lineInfo g (installed g h.l1d ln d false) l).map (·.2)).getD _ = _
    rw [hinfo]
    split
    · subst l; rw [hn]; rfl
    · split
      · rename_i hx
        rw [hx.2, hvl hx.1]
        cases hdirty : w.dirty with
        | true =>
          have hv' : w.valid = true := hx.1
          simp [hv', hlv, hgdef]
        | false =>
          rw [if_neg (by simp)]
          have := hvl hx.1
          rw [hdirty] at this
          simpa using (hk.l1dClean lv _ this).symm
      · rename_i hx
        rw [if_neg (fun hh => hx ⟨hh.1.1, hh.2⟩)]
  · change lineInfo g (installed g h.l1d ln d false) ln = _
    rw [hinfo, if_pos rfl]

/-- An access to a line of RAM through L1D (22_caches.md R130, R132): it returns the payload a load sees, changes no
payload, and leaves the line in L1D. -/
theorem l1dAccess_ok {p : Params} (hp : p.valid = true) {h : Hierarchy} (hk : HierOk p h) (ln : Nat)
    (hm : 64 * ln + 64 ≤ p.memSize) :
    (l1dAccess p h ln).data = flatLine p h ln ∧ HierOk p (l1dAccess p h ln).hier ∧
    (∀ l, flatLine p (l1dAccess p h ln).hier l = flatLine p h l) ∧
    (∃ b, lineInfo (l1dGeom p) (l1dAccess p h ln).hier.l1d ln = some (b, flatLine p h ln)) ∧
    (l1dAccess p h ln).hier.l1i = h.l1i ∧ (l1dAccess p h ln).hier.pf = h.pf := by
  have hg := (Params.sets_pos hp).2.1
  unfold l1dAccess
  simp only
  split
  · rename_i i hf
    have hli := lineInfo_of_findWay hk.l1d hf
    have hfl : flatLine p h ln = (wayAt (setGet (l1dGeom p) h.l1d (setOf (l1dGeom p) ln)) i).data := by
      rw [flatLine, hli]; rfl
    refine ⟨hfl.symm, ?_, ?_, ?_, by rfl, by rfl⟩
    · refine ⟨hk.l1i, hk.l1d.touch hg hf, hk.l2, hk.l1iClean, ?_, hk.l2Clean, hk.ram⟩
      intro l d hl
      rw [lineInfo_touch] at hl
      exact hk.l1dClean l d hl
    · intro l
      rw [flatLine, flatLine, lineInfo_touch]; rfl
    · rw [lineInfo_touch, hli, hfl]; exact ⟨_, rfl⟩
  · rename_i hf
    rw [findWay_none_iff] at hf
    obtain ⟨hdata, hstep⟩ := fillLine_step hp hk.toL2 ln hm
    obtain ⟨hk1, hb1, hfl1⟩ := hk.l2Step hstep
    have hn1 : lineInfo (l1dGeom p) (fillLine p h ln).hier.l1d ln = none := by rw [hstep.l1d]; exact hf
    have := l1dInsert_ok hp hk1 ln hn1 hm
    have hd1 : belowL1 p (fillLine p h ln).hier ln = (fillLine p h ln).data := by rw [hb1, hdata]
    rw [hd1] at this
    have hfl : flatLine p h ln = (fillLine p h ln).data := by rw [flatLine, hf, hdata]; rfl
    obtain ⟨a1, a2, a3, a4, a5⟩ := this
    refine ⟨hfl.symm, a1, fun l => by rw [a2, hfl1], ⟨false, ?_⟩, by rw [a4, hstep.l1i], by rw [a5, hstep.pf]⟩
    rw [hfl]; exact a3

/-- A line that L1D holds replaced by new bytes: only that line of the flat memory changes (22_caches.md R131). -/
theorem l1dStore_ok {p : Params} (hp : p.valid = true) {h : Hierarchy} (hk : HierOk p h) (ln : Nat) (d : List Byte)
    (hd : d.length = 64) (hin : lineInfo (l1dGeom p) h.l1d ln ≠ none) :
    HierOk p (l1dStore p h ln d) ∧
    (∀ l, flatLine p (l1dStore p h ln d) l = if l = ln then d else flatLine p h l) ∧
    lineInfo (l1dGeom p) (l1dStore p h ln d).l1d ln = some (true, d) ∧
    (l1dStore p h ln d).l1i = h.l1i ∧ (l1dStore p h ln d).pf = h.pf ∧ (l1dStore p h ln d).l2 = h.l2 ∧
    (l1dStore p h ln d).pm = h.pm := by
  have hg := (Params.sets_pos hp).2.1
  unfold l1dStore
  simp only
  split
  · rename_i i hf
    have hinfo := lineInfo_overwritten hk.l1d d hd hf
    refine ⟨⟨hk.l1i, hk.l1d.overwritten hg d hd hf, hk.l2, hk.l1iClean, ?_, hk.l2Clean, hk.ram⟩, ?_, ?_,
      by rfl, by rfl, by rfl, by rfl⟩
    · intro l d' hl
      change lineInfo _ (overwritten (l1dGeom p) h.l1d ln i d) l = _ at hl
      rw [hinfo] at hl
      split at hl
      · simp at hl
      · exact hk.l1dClean l d' hl
    · intro l
      rw [flatLine]
      change ((lineInfo _ (overwritten (l1dGeom p) h.l1d ln i d) l).map (·.2)).getD _ = _
      rw [hinfo]
      split <;> rfl
    · change lineInfo _ (overwritten (l1dGeom p) h.l1d ln i d) ln = _
      rw [hinfo, if_pos rfl]
  · rename_i hf
    rw [findWay_none_iff] at hf
    exact absurd hf hin

theorem length_patchLine (d : List Byte) (off n : Nat) (val : VWord) : (patchLine d off n val).length = 64 := by
  simp [patchLine]

theorem lineByte_patchLine (d : List Byte) (off n : Nat) (val : VWord) (j : Nat) (hj : j < 64) :
    lineByte (patchLine d off n val) j = if off ≤ j ∧ j < off + n then byteOf val (j - off) else lineByte d j := by
  simp [patchLine, lineByte, hj]

/-- A store through L1D (22_caches.md R131): the stored bytes of the flat memory become the value's, every other byte
keeps its value. -/
theorem l1dWrite_ok {p : Params} (hp : p.valid = true) {h : Hierarchy} (hk : HierOk p h) (pa n : Nat) (val : VWord)
    (hn : pa % 64 + n ≤ 64) (hm : pa + n ≤ p.memSize) (h0 : 0 < n) :
    HierOk p (l1dWrite p h pa n val).hier ∧
    (∀ a, flatByte p (l1dWrite p h pa n val).hier a =
      if pa ≤ a ∧ a < pa + n then byteOf val (a - pa) else flatByte p h a) ∧
    (l1dWrite p h pa n val).hier.l1i = h.l1i ∧ (l1dWrite p h pa n val).hier.pf = h.pf := by
  have hmul := ((Params.valid_iff p).mp hp).2.1
  obtain ⟨hdata, hk1, hfl1, ⟨b, hli⟩, hi1, hpf1⟩ := l1dAccess_ok hp hk (pa / 64) (by omega)
  obtain ⟨hk2, hfl2, -, hi2, hpf2, -, -⟩ :=
    l1dStore_ok hp hk1 (pa / 64) (patchLine (l1dAccess p h (pa / 64)).data (pa % 64) n val) (length_patchLine _ _ _ _)
      (by rw [hli]; simp)
  refine ⟨hk2, fun a => ?_, by rw [← hi1]; exact hi2, by rw [← hpf1]; exact hpf2⟩
  rw [flatByte_eq, flatByte_eq]
  change lineByte (flatLine p (l1dStore p _ _ _) _) _ = _
  rw [hfl2]
  by_cases hl : a / 64 = pa / 64
  · rw [if_pos hl, lineByte_patchLine _ _ _ _ _ (by omega), hdata, hl]
    by_cases hx : pa ≤ a ∧ a < pa + n
    · rw [if_pos hx, if_pos (by omega)]
      congr 1; omega
    · rw [if_neg hx, if_neg (by omega)]
  · rw [if_neg hl, hfl1, if_neg (by omega)]

/-- The prefetcher changes no payload (22_caches.md R145, R146). -/
theorem runPrefetcher_ok {p : Params} (hp : p.valid = true) {h : Hierarchy} (hk : HierOk p h) (pa : Word) :
    HierOk p (runPrefetcher p h pa) ∧ (∀ l, flatLine p (runPrefetcher p h pa) l = flatLine p h l) ∧
    (runPrefetcher p h pa).l1i = h.l1i ∧ (runPrefetcher p h pa).l1d = h.l1d ∧
    (runPrefetcher p h pa).pf = pfNext h.pf pa := by
  have hk0 : HierOk p { h with pf := pfNext h.pf pa } :=
    ⟨hk.l1i, hk.l1d, hk.l2, hk.l1iClean, hk.l1dClean, hk.l2Clean, hk.ram⟩
  have hf0 : ∀ l, flatLine p { h with pf := pfNext h.pf pa } l = flatLine p h l := fun _ => rfl
  unfold runPrefetcher
  simp only
  split
  · obtain ⟨ln, hs⟩ := prefetchLine_step hp hk0.toL2 (pa + (pfNext h.pf pa).stride)
    obtain ⟨a1, -, a3⟩ := hk0.l2Step hs
    exact ⟨a1, fun l => by rw [a3, hf0], hs.l1i, hs.l1d, hs.pf⟩
  · exact ⟨hk0, hf0, rfl, rfl, rfl⟩

/-! ## L1I -/

/-- A fetch through L1I (22_caches.md R130, R132) keeps the hierarchy sound and the flat memory unchanged. -/
theorem l1iAccess_ok {p : Params} (hp : p.valid = true) {h : Hierarchy} (hk : HierOk p h) (ln : Nat)
    (hm : 64 * ln + 64 ≤ p.memSize) :
    HierOk p (l1iAccess p h ln).hier ∧ (∀ l, flatLine p (l1iAccess p h ln).hier l = flatLine p h l) ∧
    (l1iAccess p h ln).hier.l1d = h.l1d ∧ (l1iAccess p h ln).hier.pf = h.pf ∧
    (lineInfo (l1iGeom p) h.l1i ln = none → (l1iAccess p h ln).data = belowL1 p h ln) := by
  have hg := (Params.sets_pos hp).1
  have hw := (ways_pos p).1
  unfold l1iAccess
  simp only
  split
  · rename_i i hf
    refine ⟨⟨hk.l1i.touch hg hf, hk.l1d, hk.l2, ?_, hk.l1dClean, hk.l2Clean, hk.ram⟩, fun _ => rfl, by rfl, by rfl, ?_⟩
    · intro k w hm
      simp only [setGet_setPut] at hm
      split at hm
      · obtain ⟨j, hj, rfl⟩ := List.getElem_of_mem hm
        rw [length_touch] at hj
        rw [getElem_touch]
        have := hk.l1iClean _ _ (List.getElem_mem hj)
        split <;> simpa using this
      · exact hk.l1iClean k w hm
    · intro hn
      rw [← findWay_none_iff, hf] at hn
      exact absurd hn (by simp)
  · rename_i hf
    rw [findWay_none_iff] at hf
    obtain ⟨hdata, hstep⟩ := fillLine_step hp hk.toL2 ln hm
    obtain ⟨hk1, hb1, hfl1⟩ := hk.l2Step hstep
    have hdl : (fillLine p h ln).data.length = 64 := by rw [hdata]; exact hk.toL2.length_below ln
    have hn1 : lineInfo (l1iGeom p) (fillLine p h ln).hier.l1i ln = none := by rw [hstep.l1i]; exact hf
    refine ⟨⟨hk1.l1i.installed hg hw ln _ false hdl hn1 hm, hk1.l1d, hk1.l2, ?_, hk1.l1dClean, hk1.l2Clean, hk1.ram⟩,
      hfl1, hstep.l1d, hstep.pf, fun _ => hdata⟩
    intro k w hmem
    simp only [l1iInsert, setGet_setPut] at hmem
    split at hmem
    · obtain ⟨j, hj, rfl⟩ := List.getElem_of_mem hmem
      rw [length_install] at hj
      rw [getElem_install]
      have := hk1.l1iClean _ _ (List.getElem_mem hj)
      split
      · rfl
      · simpa using this
    · exact hk1.l1iClean k w hmem

/-! ## The hierarchy after creation -/

theorem HierOk.created (p : Params) : HierOk p (State.created p).hier :=
  ⟨CacheOk.empty _ _, CacheOk.empty _ _, CacheOk.empty _ _,
    fun k w hw => by
      rw [show setGet (l1iGeom p) (State.created p).hier.l1i k = emptySet (l1iGeom p) from rfl] at hw
      rw [List.eq_of_mem_replicate hw]; rfl,
    fun ln d h => by
      rw [show (State.created p).hier.l1d = [] from rfl, lineInfo_nil] at h; exact absurd h (by simp),
    fun ln d h => by
      rw [show (State.created p).hier.l2 = [] from rfl, lineInfo_nil] at h; exact absurd h (by simp),
    fun _ _ => rfl⟩

end Sys2Proof.Machine
end

