-- ==== Sys2Proof/Laws/CacheHost.lean ====
section
/-! SUPPORT. Laws of cache maintenance (spec/22_caches.md R147, R149): what writing back, invalidating and the coherent
host write do to the lines the caches hold and to the flat memory of 20_memory.md R85. -/

namespace Sys2Proof.Machine

/-! ## Changing the ways of a set one by one -/

/-- A change of single ways that keeps tags and counters of the ways left valid keeps the set sound. -/
theorem SetOk.map {g : Geom} {ws : List Way} (h : SetOk g ws) (f : Way → Way)
    (hv : ∀ w, (f w).valid = true → w.valid = true ∧ (f w).tag = w.tag ∧ (f w).lru = w.lru)
    (hd : ∀ w, w.data.length = 64 → (f w).data.length = 64)
    (hi : ∀ w, (w.valid = false → w.dirty = false ∧ w.lru = 0) → (f w).valid = false →
      (f w).dirty = false ∧ (f w).lru = 0) : SetOk g (ws.map f) := by
  obtain ⟨h1, h2, h3, h4, h5⟩ := h
  refine ⟨by simpa using h1, ?_, ?_, ?_, ?_⟩
  · intro w hw
    obtain ⟨v, hv', rfl⟩ := List.mem_map.mp hw
    exact hd v (h2 v hv')
  · intro w hw
    obtain ⟨v, hv', rfl⟩ := List.mem_map.mp hw
    exact hi v (h3 v hv')
  · rw [List.pairwise_map]
    refine h4.imp fun {a b} hab ha hb => ?_
    rw [(hv a ha).2.1, (hv b hb).2.1]
    exact hab (hv a ha).1 (hv b hb).1
  · rw [List.pairwise_map]
    refine h5.imp fun {a b} hab ha hb => ?_
    rw [(hv a ha).2.2, (hv b hb).2.2]
    exact hab (hv a ha).1 (hv b hb).1

/-- Invalidating the way that holds a tag. -/
def dropWay (tag : Nat) (w : Way) : Way := if wayHolds tag w then invalidWay w else w

theorem setInfo_drop (tag : Nat) (ws : List Way) (t : Nat) :
    setInfo t (ws.map (dropWay tag)) = if t = tag then none else setInfo t ws := by
  induction ws with
  | nil => simp [setInfo]
  | cons w ws ih =>
    simp only [setInfo, List.map_cons, List.find?_cons] at ih ⊢
    by_cases hw : wayHolds tag w = true
    · have hno : wayHolds t (dropWay tag w) = false := by rw [dropWay, if_pos hw]; rfl
      rw [hno]
      simp only [ih]
      by_cases ht : t = tag
      · simp [ht]
      · have : wayHolds t w = false := by
          rw [wayHolds_iff] at hw
          cases hc : wayHolds t w with
          | false => rfl
          | true => rw [wayHolds_iff] at hc; exact absurd (hc.2.symm.trans hw.2) ht
        simp [ht, this]
    · have he : dropWay tag w = w := by simp [dropWay, hw]
      rw [he]
      by_cases ht : t = tag
      · subst t
        have : wayHolds tag w = false := by simpa using hw
        simp only [this, ih, if_true]
      · cases hc : wayHolds t w with
        | true => simp [ht]
        | false => simp only [ih, ht, if_false]

theorem setInfo_clean (ws : List Way) (t : Nat) :
    setInfo t (ws.map cleanWay) = (setInfo t ws).map fun bd => (false, bd.2) := by
  induction ws with
  | nil => simp [setInfo]
  | cons w ws ih =>
    simp only [setInfo, List.map_cons, List.find?_cons] at ih ⊢
    have : wayHolds t (cleanWay w) = wayHolds t w := rfl
    rw [this]
    cases wayHolds t w with
    | true => rfl
    | false => exact ih

/-- Replacing the payload of the way that holds a tag, and making it clean. -/
def refreshWay (tag : Nat) (d : List Byte) (w : Way) : Way :=
  if wayHolds tag w then { w with data := d, dirty := false } else w

theorem setInfo_refresh (tag : Nat) (d : List Byte) (ws : List Way) (t : Nat) :
    setInfo t (ws.map (refreshWay tag d)) =
      if t = tag then (setInfo t ws).map fun _ => (false, d) else setInfo t ws := by
  induction ws with
  | nil => simp [setInfo]
  | cons w ws ih =>
    simp only [setInfo, List.map_cons, List.find?_cons] at ih ⊢
    have hh : wayHolds t (refreshWay tag d w) = wayHolds t w := by
      unfold refreshWay; split <;> rfl
    rw [hh]
    cases hc : wayHolds t w with
    | false => exact ih
    | true =>
      by_cases ht : t = tag
      · subst t; simp [refreshWay, hc]
      · have : wayHolds tag w = false := by
          rw [wayHolds_iff] at hc
          cases hq : wayHolds tag w with
          | false => rfl
          | true => rw [wayHolds_iff] at hq; exact absurd (hc.2.symm.trans hq.2) ht
        simp [ht, refreshWay, this]

/-! ## One line dropped -/

theorem dropLine_eq (g : Geom) (c : Store (List Way)) (ln : Nat) :
    dropLine g c ln = setPut g c (setOf g ln) ((setGet g c (setOf g ln)).map (dropWay (tagOf g ln))) := rfl

theorem lineInfo_dropLine (g : Geom) (c : Store (List Way)) (ln l : Nat) :
    lineInfo g (dropLine g c ln) l = if l = ln then none else lineInfo g c l := by
  rw [dropLine_eq, lineInfo_setPut]
  by_cases hs : setOf g l = setOf g ln
  · rw [if_pos hs, setInfo_drop]
    by_cases ht : tagOf g l = tagOf g ln
    · rw [if_pos ht, if_pos (line_eq hs ht)]
    · rw [if_neg ht, if_neg fun e => ht (by rw [e]), lineInfo_eq, hs]
  · rw [if_neg hs, if_neg fun e => hs (by rw [e])]

theorem CacheOk.dropLine {g : Geom} {m : Nat} {c : Store (List Way)} (h : CacheOk g m c) (hg : 0 < g.sets) (ln : Nat) :
    CacheOk g m (dropLine g c ln) := by
  rw [dropLine_eq]
  refine h.setPut _ _ (setOf_lt g ln hg) ((h.sets _).map _ ?_ ?_ ?_) ?_
  · intro w hw
    unfold dropWay at hw ⊢
    split at hw
    · cases hw
    · rename_i hc; rw [if_neg hc]; exact ⟨hw, rfl, rfl⟩
  · intro w hw
    unfold dropWay; split
    · exact hw
    · exact hw
  · intro w hw hf
    unfold dropWay at hf ⊢
    split
    · exact ⟨rfl, rfl⟩
    · rename_i hc; rw [if_neg hc] at hf; exact hw hf
  · intro l b d hs hq
    rw [setInfo_drop] at hq
    split at hq
    · cases hq
    · rw [← hs] at hq; exact h.inRam l b d hq

/-- A sound cache's dirty copy of a line is what the line reads as, where it is dirty. -/
theorem dirtyCopy_eq {g : Geom} {m : Nat} {c : Store (List Way)} (h : CacheOk g m c) (ln : Nat) :
    dirtyCopy g c ln = (lineInfo g c ln).bind fun bd => if bd.1 then some bd.2 else none := by
  unfold dirtyCopy
  have ho := h.sets (setOf g ln)
  rw [lineInfo_eq]
  cases hf : (setGet g c (setOf g ln)).find? (fun w => wayHolds (tagOf g ln) w && w.dirty) with
  | some w =>
    have hp := List.find?_some hf
    have hm := List.mem_of_find?_eq_some hf
    rw [Bool.and_eq_true, wayHolds_iff] at hp
    have := setInfo_of_mem ho hm hp.1.1
    rw [hp.1.2] at this
    simp [this, hp.2]
  | none =>
    rw [List.find?_eq_none] at hf
    cases hq : setInfo (tagOf g ln) (setGet g c (setOf g ln)) with
    | none => rfl
    | some bd =>
      obtain ⟨b, d⟩ := bd
      obtain ⟨w, hw, hv, ht, hb, hd⟩ := mem_of_setInfo hq
      have := hf w hw
      rw [Bool.and_eq_true, wayHolds_iff] at this
      have hb' : b = false := by
        rw [← hb]; by_contra hc; exact this ⟨⟨hv, ht⟩, by simpa using hc⟩
      simp [hb']

/-- Writing a 64-byte line of RAM leaves the bytes beyond RAM alone. -/
theorem read_writeBytes_beyond {pm : List Host.Cell} {m ln : Nat} {d : List Byte} (hd : d.length = 64)
    (hm : 64 * ln + 64 ≤ m) (hr : ∀ a, m ≤ a → Memory.read pm a = 0) (a : Nat) (ha : m ≤ a) :
    Memory.read (Memory.writeBytes pm (64 * ln) d) a = 0 := by
  rw [Memory.read_writeBytes, if_neg (by omega)]
  exact hr a ha

/-! ## One line written back and invalidated everywhere -/

/-- The physical memory after a line is evicted. -/
theorem readLine_evict {p : Params} {h : Hierarchy} (hk : HierOk p h) (ln : Nat) :
    (∀ l, Memory.readLine (evictLine p h ln).pm l = if l = ln then flatLine p h ln else Memory.readLine h.pm l) ∧
    ∀ a, p.memSize ≤ a → Memory.read (evictLine p h ln).pm a = 0 := by
  have hpm : (evictLine p h ln).pm =
      match dirtyCopy (l1dGeom p) h.l1d ln with
      | some d => Memory.writeBytes h.pm (64 * ln) d
      | none =>
        match dirtyCopy (l2Geom p) h.l2 ln with
        | some d => Memory.writeBytes h.pm (64 * ln) d
        | none => h.pm := rfl
  rw [hpm, dirtyCopy_eq hk.l1d, dirtyCopy_eq hk.l2]
  have below : ∀ (hnd : ∀ d, lineInfo (l1dGeom p) h.l1d ln ≠ some (true, d)), flatLine p h ln = belowL1 p h ln := by
    intro hnd
    rw [flatLine]
    cases hq : lineInfo (l1dGeom p) h.l1d ln with
    | none => rfl
    | some bd =>
      obtain ⟨b, d⟩ := bd
      cases b with
      | true => exact absurd hq (hnd d)
      | false => exact hk.l1dClean ln d hq
  have l2case : ∀ (hnd : ∀ d, lineInfo (l1dGeom p) h.l1d ln ≠ some (true, d)),
      (∀ l, Memory.readLine
        (match (lineInfo (l2Geom p) h.l2 ln).bind fun bd => if bd.1 = true then some bd.2 else none with
         | some d => Memory.writeBytes h.pm (64 * ln) d
         | none => h.pm) l = if l = ln then flatLine p h ln else Memory.readLine h.pm l) ∧
      ∀ a, p.memSize ≤ a → Memory.read
        (match (lineInfo (l2Geom p) h.l2 ln).bind fun bd => if bd.1 = true then some bd.2 else none with
         | some d => Memory.writeBytes h.pm (64 * ln) d
         | none => h.pm) a = 0 := by
    intro hnd
    rw [below hnd, belowL1_eq]
    cases hq : lineInfo (l2Geom p) h.l2 ln with
    | none =>
      refine ⟨fun l => ?_, hk.ram⟩
      simp only [Option.bind_none, Option.map_none, Option.getD_none]
      split
      · rename_i e; rw [e]
      · rfl
    | some bd =>
      obtain ⟨b, d⟩ := bd
      cases b with
      | true =>
        have hd := hk.l2.length hq
        exact ⟨fun l => readLine_writeBytes h.pm ln d hd l,
          read_writeBytes_beyond hd (hk.l2.inRam _ _ _ hq) hk.ram⟩
      | false =>
        refine ⟨fun l => ?_, hk.ram⟩
        simp only [Option.bind_some, Option.map_some, Option.getD_some, Bool.false_eq_true, if_false]
        split
        · rename_i e; rw [e, hk.l2Clean ln d hq]
        · rfl
  cases hq : lineInfo (l1dGeom p) h.l1d ln with
  | none => exact l2case fun d => by rw [hq]; simp
  | some bd =>
    obtain ⟨b, d⟩ := bd
    cases b with
    | false => exact l2case fun d => by rw [hq]; simp
    | true =>
      have hd := hk.l1d.length hq
      have hf : flatLine p h ln = d := by rw [flatLine, hq]; rfl
      rw [hf]
      exact ⟨fun l => readLine_writeBytes h.pm ln d hd l,
        read_writeBytes_beyond hd (hk.l1d.inRam _ _ _ hq) hk.ram⟩

/-- Evicting a line (22_caches.md R149): the hierarchy stays sound, the flat memory is unchanged, no cache holds the line
and every other line is held as before. -/
theorem evictLine_ok {p : Params} (hp : p.valid = true) {h : Hierarchy} (hk : HierOk p h) (ln : Nat) :
    HierOk p (evictLine p h ln) ∧ (∀ l, flatLine p (evictLine p h ln) l = flatLine p h l) ∧
    (∀ l, lineInfo (l1iGeom p) (evictLine p h ln).l1i l = if l = ln then none else lineInfo (l1iGeom p) h.l1i l) ∧
    (∀ l, lineInfo (l1dGeom p) (evictLine p h ln).l1d l = if l = ln then none else lineInfo (l1dGeom p) h.l1d l) ∧
    (∀ l, lineInfo (l2Geom p) (evictLine p h ln).l2 l = if l = ln then none else lineInfo (l2Geom p) h.l2 l) ∧
    (evictLine p h ln).pf = h.pf := by
  obtain ⟨g1, g2, g3⟩ := Params.sets_pos hp
  obtain ⟨hr, hram⟩ := readLine_evict hk ln
  have i1 : ∀ l, lineInfo (l1iGeom p) (evictLine p h ln).l1i l =
      if l = ln then none else lineInfo (l1iGeom p) h.l1i l := lineInfo_dropLine _ _ _
  have i2 : ∀ l, lineInfo (l1dGeom p) (evictLine p h ln).l1d l =
      if l = ln then none else lineInfo (l1dGeom p) h.l1d l := lineInfo_dropLine _ _ _
  have i3 : ∀ l, lineInfo (l2Geom p) (evictLine p h ln).l2 l =
      if l = ln then none else lineInfo (l2Geom p) h.l2 l := lineInfo_dropLine _ _ _
  have hbelow : ∀ l, belowL1 p (evictLine p h ln) l = if l = ln then flatLine p h ln else belowL1 p h l := by
    intro l
    rw [belowL1_eq, belowL1_eq, i3, hr]
    split <;> rfl
  refine ⟨⟨hk.l1i.dropLine g1 ln, hk.l1d.dropLine g2 ln, hk.l2.dropLine g3 ln, ?_, ?_, ?_, hram⟩, ?_, i1, i2, i3, rfl⟩
  · intro k w hw
    have : (evictLine p h ln).l1i = dropLine (l1iGeom p) h.l1i ln := rfl
    rw [this, dropLine_eq, setGet_setPut] at hw
    split at hw
    · obtain ⟨v, hv, rfl⟩ := List.mem_map.mp hw
      unfold dropWay; split
      · rfl
      · exact hk.l1iClean _ v hv
    · exact hk.l1iClean k w hw
  · intro l d hl
    rw [i2] at hl
    rw [hbelow]
    split at hl
    · cases hl
    · rename_i hne; rw [if_neg hne]; exact hk.l1dClean l d hl
  · intro l d hl
    rw [i3] at hl
    rw [hr]
    split at hl
    · cases hl
    · rename_i hne; rw [if_neg hne]; exact hk.l2Clean l d hl
  · intro l
    rw [flatLine, i2, hbelow]
    by_cases e : l = ln
    · subst e; simp
    · rw [if_neg e, if_neg e]; rfl

/-- Evicting a run of lines. -/
theorem evictLines_ok {p : Params} (hp : p.valid = true) (count : Nat) :
    ∀ {h : Hierarchy} (_ : HierOk p h) (ln : Nat),
    HierOk p (evictLines p h ln count) ∧ (∀ l, flatLine p (evictLines p h ln count) l = flatLine p h l) ∧
    (∀ l, lineInfo (l1iGeom p) (evictLines p h ln count).l1i l =
      if ln ≤ l ∧ l < ln + count then none else lineInfo (l1iGeom p) h.l1i l) ∧
    (∀ l, lineInfo (l1dGeom p) (evictLines p h ln count).l1d l =
      if ln ≤ l ∧ l < ln + count then none else lineInfo (l1dGeom p) h.l1d l) ∧
    (∀ l, lineInfo (l2Geom p) (evictLines p h ln count).l2 l =
      if ln ≤ l ∧ l < ln + count then none else lineInfo (l2Geom p) h.l2 l) ∧
    (evictLines p h ln count).pf = h.pf := by
  induction count with
  | zero =>
    intro h hk ln
    have : ∀ l, ¬ (ln ≤ l ∧ l < ln + 0) := by intro l; omega
    simp only [evictLines, this, if_false, implies_true, and_true]
    exact hk
  | succ n ih =>
    intro h hk ln
    obtain ⟨a1, a2, a3, a4, a5, a6⟩ := evictLine_ok hp hk ln
    obtain ⟨b1, b2, b3, b4, b5, b6⟩ := ih a1 (ln + 1)
    have key : ∀ (l : Nat) (x : Option (Bool × List Byte)),
        (if ln + 1 ≤ l ∧ l < ln + 1 + n then none else if l = ln then none else x) =
        if ln ≤ l ∧ l < ln + (n + 1) then none else x := by
      intro l x
      by_cases h1 : ln + 1 ≤ l ∧ l < ln + 1 + n
      · rw [if_pos h1, if_pos (by omega)]
      · rw [if_neg h1]
        by_cases h2 : l = ln
        · rw [if_pos h2, if_pos (by omega)]
        · rw [if_neg h2, if_neg (by omega)]
    refine ⟨b1, fun l => (b2 l).trans (a2 l), fun l => ?_, fun l => ?_, fun l => ?_, b6.trans a6⟩
    · rw [evictLines, b3, a3, key]
    · rw [evictLines, b4, a4, key]
    · rw [evictLines, b5, a5, key]

/-- The lines a byte range overlaps are those evicted for it. -/
theorem linesIn_iff {a len ln : Nat} :
    (a / 64 ≤ ln ∧ ln < a / 64 + linesIn a len) ↔ ∃ b, a ≤ b ∧ b < a + len ∧ b / 64 = ln := by
  unfold linesIn
  split
  · rename_i h; subst h
    constructor
    · omega
    · rintro ⟨b, h1, h2, -⟩; omega
  · constructor
    · rintro ⟨h1, h2⟩
      by_cases h3 : a / 64 = ln
      · exact ⟨a, by omega, by omega, h3⟩
      · exact ⟨64 * ln, by omega, by omega, by omega⟩
    · rintro ⟨b, h1, h2, rfl⟩
      omega

/-- The bytes a cached line does not share with a range are left alone by a write to the range. -/
theorem readLine_writeBytes_other {pm : List Host.Cell} {a : Nat} {bs : List Byte} {ln : Nat}
    (h : ¬ (a / 64 ≤ ln ∧ ln < a / 64 + linesIn a bs.length)) :
    Memory.readLine (Memory.writeBytes pm a bs) ln = Memory.readLine pm ln := by
  refine getD_ext (by simp) (by simp) fun j hj => ?_
  rw [Memory.getD_readLine _ _ _ hj, Memory.getD_readLine _ _ _ hj, Memory.read_writeBytes, if_neg]
  rintro ⟨h1, h2⟩
  exact h (linesIn_iff.mpr ⟨64 * ln + j, h1, h2, by omega⟩)

/-- The coherent host write, line by line. -/
theorem hostWrite_lines {p : Params} (hp : p.valid = true) {h : Hierarchy} (hk : HierOk p h) (a : Nat)
    (bytes : List Byte) :
    (∀ l, lineInfo (l1iGeom p) (hostWrite p h a bytes).l1i l =
      if a / 64 ≤ l ∧ l < a / 64 + linesIn a bytes.length then none else lineInfo (l1iGeom p) h.l1i l) ∧
    (∀ l, lineInfo (l1dGeom p) (hostWrite p h a bytes).l1d l =
      if a / 64 ≤ l ∧ l < a / 64 + linesIn a bytes.length then none else lineInfo (l1dGeom p) h.l1d l) ∧
    (∀ l, lineInfo (l2Geom p) (hostWrite p h a bytes).l2 l =
      if a / 64 ≤ l ∧ l < a / 64 + linesIn a bytes.length then none else lineInfo (l2Geom p) h.l2 l) ∧
    (hostWrite p h a bytes).pf = h.pf := by
  obtain ⟨-, -, c1, c2, c3, c4⟩ := evictLines_ok hp (linesIn a bytes.length) hk (a / 64)
  exact ⟨c1, c2, c3, c4⟩

/-- The coherent host write keeps the hierarchy sound (22_caches.md R149, R152). -/
theorem hostWrite_hier {p : Params} (hp : p.valid = true) {h : Hierarchy} (hk : HierOk p h) (a : Nat)
    (bytes : List Byte) (hm : a + bytes.length ≤ p.memSize) : HierOk p (hostWrite p h a bytes) := by
  obtain ⟨e1, e2, c1, c2, c3, c4⟩ := evictLines_ok hp (linesIn a bytes.length) hk (a / 64)
  have hpm : (hostWrite p h a bytes).pm =
    Memory.writeBytes (evictLines p h (a / 64) (linesIn a bytes.length)).pm a bytes := rfl
  refine ⟨e1.l1i, e1.l1d, e1.l2, e1.l1iClean, ?_, ?_, ?_⟩
  · intro l d hl
    have hl' : lineInfo (l1dGeom p) (evictLines p h (a / 64) (linesIn a bytes.length)).l1d l = some (false, d) := hl
    have hout : ¬ (a / 64 ≤ l ∧ l < a / 64 + linesIn a bytes.length) := by
      intro hc; rw [c2, if_pos hc] at hl'; cases hl'
    have := e1.l1dClean l d hl'
    rw [this, belowL1_eq, belowL1_eq, hpm, readLine_writeBytes_other hout]
    rfl
  · intro l d hl
    have hl' : lineInfo (l2Geom p) (evictLines p h (a / 64) (linesIn a bytes.length)).l2 l = some (false, d) := hl
    have hout : ¬ (a / 64 ≤ l ∧ l < a / 64 + linesIn a bytes.length) := by
      intro hc; rw [c3, if_pos hc] at hl'; cases hl'
    rw [e1.l2Clean l d hl', hpm, readLine_writeBytes_other hout]
  · intro b hb
    rw [hpm, Memory.read_writeBytes, if_neg (by omega)]
    exact e1.ram b hb

/-- A line no cache holds is what physical memory holds. -/
theorem flatByte_uncached {p : Params} {h : Hierarchy} {a : Nat}
    (h1 : lineInfo (l1dGeom p) h.l1d (a / 64) = none) (h2 : lineInfo (l2Geom p) h.l2 (a / 64) = none) :
    flatByte p h a = Memory.read h.pm a := by
  rw [flatByte, cached_eq, cached_eq, h1, h2]; rfl

/-! ## Flushing -/

/-- The dirty line of L1D written to physical memory and refreshed in L2 (22_caches.md R147, step 1). -/
theorem flushL1Line_ok {p : Params} (hp : p.valid = true) {h h' : Hierarchy} (hk : HierOk p h) {ln : Nat}
    {d : List Byte} (hl : lineInfo (l1dGeom p) h.l1d ln = some (true, d))
    (he : h' = { h with pm := Memory.writeBytes h.pm (64 * ln) d, l2 := refreshL2 p h.l2 ln d }) :
    HierOk p h' ∧ (∀ l, flatLine p h' l = flatLine p h l) ∧ h'.l1i = h.l1i ∧ h'.l1d = h.l1d ∧ h'.pf = h.pf ∧
    (∀ l, belowL1 p h' l = if l = ln then d else belowL1 p h l) ∧
    ∀ l e, lineInfo (l2Geom p) h'.l2 l = some (true, e) → lineInfo (l2Geom p) h.l2 l = some (true, e) := by
  obtain ⟨-, -, g3⟩ := Params.sets_pos hp
  have hd := hk.l1d.length hl
  have hm := hk.l1d.inRam _ _ _ hl
  have hl2 : h'.l2 = setPut (l2Geom p) h.l2 (setOf (l2Geom p) ln)
      ((setGet (l2Geom p) h.l2 (setOf (l2Geom p) ln)).map (refreshWay (tagOf (l2Geom p) ln) d)) := by rw [he]; rfl
  have i2 : ∀ l, lineInfo (l2Geom p) h'.l2 l =
      if l = ln then (lineInfo (l2Geom p) h.l2 l).map fun _ => (false, d) else lineInfo (l2Geom p) h.l2 l := by
    intro l
    rw [hl2, lineInfo_setPut]
    by_cases hs : setOf (l2Geom p) l = setOf (l2Geom p) ln
    · rw [if_pos hs, setInfo_refresh, lineInfo_eq (l2Geom p) h.l2 l, hs]
      by_cases ht : tagOf (l2Geom p) l = tagOf (l2Geom p) ln
      · rw [if_pos ht, if_pos (line_eq hs ht)]
      · rw [if_neg ht, if_neg fun e => ht (by rw [e])]
    · rw [if_neg hs, if_neg fun e => hs (by rw [e])]
  have hr : ∀ l, Memory.readLine h'.pm l = if l = ln then d else Memory.readLine h.pm l := by
    intro l; rw [he]; exact readLine_writeBytes h.pm ln d hd l
  have hbelow : ∀ l, belowL1 p h' l = if l = ln then d else belowL1 p h l := by
    intro l
    rw [belowL1_eq, i2, hr, belowL1_eq]
    by_cases e : l = ln
    · rw [if_pos e, if_pos e, if_pos e]
      cases lineInfo (l2Geom p) h.l2 l <;> rfl
    · rw [if_neg e, if_neg e, if_neg e]
  have hl1 : h'.l1d = h.l1d := by rw [he]
  have hli : h'.l1i = h.l1i := by rw [he]
  have hok2 : CacheOk (l2Geom p) p.memSize h'.l2 := by
    rw [hl2]
    refine hk.l2.setPut _ _ (setOf_lt _ ln g3) ((hk.l2.sets _).map _ ?_ ?_ ?_) ?_
    · intro w hw
      unfold refreshWay at hw ⊢
      split at hw
      · rename_i hc; rw [if_pos hc]; exact ⟨hw, rfl, rfl⟩
      · rename_i hc; rw [if_neg hc]; exact ⟨hw, rfl, rfl⟩
    · intro w hw
      unfold refreshWay; split
      · exact hd
      · exact hw
    · intro w hw hf
      unfold refreshWay at hf ⊢
      split
      · rename_i hc; rw [if_pos hc] at hf; exact ⟨rfl, (hw hf).2⟩
      · rename_i hc; rw [if_neg hc] at hf; exact hw hf
    · intro l b e hs hq
      rw [setInfo_refresh] at hq
      have hh : lineInfo (l2Geom p) h.l2 l = setInfo (tagOf (l2Geom p) l)
        (setGet (l2Geom p) h.l2 (setOf (l2Geom p) ln)) := by rw [lineInfo_eq, hs]
      split at hq
      · rw [← hh] at hq
        cases hx : lineInfo (l2Geom p) h.l2 l with
        | none => rw [hx] at hq; cases hq
        | some bd => exact hk.l2.inRam l bd.1 bd.2 hx
      · rw [← hh] at hq; exact hk.l2.inRam l b e hq
  refine ⟨⟨by rw [hli]; exact hk.l1i, by rw [hl1]; exact hk.l1d, hok2, by rw [hli]; exact hk.l1iClean, ?_, ?_, ?_⟩,
    ?_, hli, hl1, by rw [he], hbelow, ?_⟩
  · intro l e hq
    rw [hl1] at hq
    rw [hbelow, if_neg]
    · exact hk.l1dClean l e hq
    · rintro rfl; rw [hl] at hq; cases hq
  · intro l e hq
    rw [i2] at hq
    rw [hr]
    split at hq
    · rename_i heq
      rw [if_pos heq]
      cases hx : lineInfo (l2Geom p) h.l2 l with
      | none => rw [hx] at hq; cases hq
      | some bd => rw [hx] at hq; simpa using hq.symm
    · rename_i hne; rw [if_neg hne]; exact hk.l2Clean l e hq
  · intro a ha
    rw [he]; exact read_writeBytes_beyond hd hm hk.ram a ha
  · intro l
    rw [flatLine, flatLine, hl1, hbelow]
    by_cases e : l = ln
    · subst e; rw [hl]; rfl
    · rw [if_neg e]
  · intro l e hq
    rw [i2] at hq
    split at hq
    · cases hx : lineInfo (l2Geom p) h.l2 l with
      | none => rw [hx] at hq; cases hq
      | some bd => rw [hx] at hq; cases hq
    · exact hq

/-- What flushing some ways of a set of L1D leaves. -/
structure L1Flushed (p : Params) (h h' : Hierarchy) : Prop where
  ok : HierOk p h'
  flat : ∀ l, flatLine p h' l = flatLine p h l
  l1i : h'.l1i = h.l1i
  l1d : h'.l1d = h.l1d
  pf : h'.pf = h.pf
  below : ∀ l, belowL1 p h' l = belowL1 p h l ∨ lineInfo (l1dGeom p) h.l1d l = some (true, belowL1 p h' l)
  l2 : ∀ l e, lineInfo (l2Geom p) h'.l2 l = some (true, e) → lineInfo (l2Geom p) h.l2 l = some (true, e)

theorem L1Flushed.refl {p : Params} {h : Hierarchy} (hk : HierOk p h) : L1Flushed p h h :=
  ⟨hk, fun _ => rfl, rfl, rfl, rfl, fun _ => .inl rfl, fun _ _ h => h⟩

theorem L1Flushed.trans {p : Params} {a b c : Hierarchy} (h : L1Flushed p a b) (k : L1Flushed p b c) :
    L1Flushed p a c := by
  refine ⟨k.ok, fun l => (k.flat l).trans (h.flat l), k.l1i.trans h.l1i, k.l1d.trans h.l1d, k.pf.trans h.pf,
    fun l => ?_, fun l e hq => h.l2 l e (k.l2 l e hq)⟩
  rcases k.below l with h1 | h1
  · rcases h.below l with h2 | h2
    · exact .inl (h1.trans h2)
    · exact .inr (by rw [h1]; exact h2)
  · exact .inr (by rw [← h.l1d]; exact h1)

theorem flushL1Ways_ok {p : Params} (hp : p.valid = true) (k : Nat) (hks : k < (l1dGeom p).sets) (ws : List Way) :
    ∀ {h : Hierarchy}, HierOk p h → (∀ w ∈ ws, w ∈ setGet (l1dGeom p) h.l1d k) →
    L1Flushed p h (flushL1Ways p k ws h) ∧
    ∀ w ∈ ws, w.valid = true → w.dirty = true →
      belowL1 p (flushL1Ways p k ws h) (lineOf (l1dGeom p) w.tag k) = w.data := by
  induction ws with
  | nil => intro h hk _; exact ⟨L1Flushed.refl hk, by simp⟩
  | cons w ws ih =>
    intro h hk hin
    have hw := hin w (by simp)
    by_cases hc : w.valid = true ∧ w.dirty = true
    · have hl : lineInfo (l1dGeom p) h.l1d (lineOf (l1dGeom p) w.tag k) = some (true, w.data) := by
        rw [lineInfo_eq, setOf_lineOf _ _ _ hks, tagOf_lineOf _ _ _ hks, setInfo_of_mem (hk.l1d.sets k) hw hc.1, hc.2]
      obtain ⟨s1, s2, s3, s4, s5, s6, s7⟩ := flushL1Line_ok hp hk hl rfl
      have hb : (w.valid && w.dirty) = true := by simp [hc]
      have hf1 := L1Flushed.mk (p := p) (h := h) s1 s2 s3 s4 s5 (fun l => by
        rw [s6]; by_cases e : l = lineOf (l1dGeom p) w.tag k
        · right; rw [if_pos e, e, hl]
        · left; rw [if_neg e]) s7
      obtain ⟨r1, r2⟩ := ih s1 (fun v hv => by rw [s4]; exact hin v (by simp [hv]))
      rw [flushL1Ways, if_pos hb]
      refine ⟨hf1.trans r1, ?_⟩
      intro v hv hvv hvd
      rcases List.mem_cons.mp hv with rfl | hv
      · rcases r1.below (lineOf (l1dGeom p) v.tag k) with h1 | h1
        · rw [h1, s6, if_pos rfl]
        · rw [s4, hl] at h1
          simpa using h1.symm
      · exact r2 v hv hvv hvd
    · have hb : ¬ (w.valid && w.dirty) = true := by simpa using hc
      rw [flushL1Ways, if_neg hb]
      obtain ⟨r1, r2⟩ := ih hk (fun v hv => hin v (by simp [hv]))
      refine ⟨r1, ?_⟩
      intro v hv hvv hvd
      rcases List.mem_cons.mp hv with rfl | hv
      · exact absurd ⟨hvv, hvd⟩ hc
      · exact r2 v hv hvv hvd

/-- A set made clean. -/
theorem SetOk.clean {g : Geom} {ws : List Way} (h : SetOk g ws) : SetOk g (ws.map cleanWay) :=
  h.map _ (fun _ hw => ⟨hw, rfl, rfl⟩) (fun _ hw => hw) (fun _ hw hf => ⟨rfl, (hw hf).2⟩)

theorem lineInfo_cleanSet (g : Geom) (c : Store (List Way)) (k l : Nat) :
    lineInfo g (setPut g c k ((setGet g c k).map cleanWay)) l =
      if setOf g l = k then (lineInfo g c l).map fun bd => (false, bd.2) else lineInfo g c l := by
  rw [lineInfo_setPut]
  split
  · rename_i hs; rw [setInfo_clean, lineInfo_eq, hs]
  · rfl

theorem CacheOk.cleanSet {g : Geom} {m : Nat} {c : Store (List Way)} (h : CacheOk g m c) (k : Nat) :
    CacheOk g m (Machine.setPut g c k ((setGet g c k).map cleanWay)) := by
  refine ⟨fun j => ?_, fun j hj w hw => ?_, fun l b d hq => ?_⟩
  · rw [setGet_setPut]; split
    · exact (h.sets k).clean
    · exact h.sets j
  · rw [setGet_setPut] at hw
    split at hw
    · rename_i e
      obtain ⟨v, hv, rfl⟩ := List.mem_map.mp hw
      exact h.unused k (by omega) v hv
    · exact h.unused j hj w hw
  · rw [lineInfo_cleanSet] at hq
    split at hq
    · cases hx : lineInfo g c l with
      | none => rw [hx] at hq; cases hq
      | some bd => exact h.inRam l bd.1 bd.2 hx
    · exact h.inRam l b d hq

/-- One set of L1D flushed (22_caches.md R147, step 1). -/
theorem flushL1Set_ok {p : Params} (hp : p.valid = true) {h : Hierarchy} (hk : HierOk p h) (k : Nat)
    (hks : k < (l1dGeom p).sets) :
    HierOk p (flushL1Set p h k) ∧ (∀ l, flatLine p (flushL1Set p h k) l = flatLine p h l) ∧
    (flushL1Set p h k).l1i = h.l1i ∧ (flushL1Set p h k).pf = h.pf ∧
    (∀ l, lineInfo (l1dGeom p) (flushL1Set p h k).l1d l =
      if setOf (l1dGeom p) l = k then (lineInfo (l1dGeom p) h.l1d l).map fun bd => (false, bd.2)
      else lineInfo (l1dGeom p) h.l1d l) := by
  obtain ⟨hf, hw⟩ := flushL1Ways_ok hp k hks (setGet (l1dGeom p) h.l1d k) hk (fun _ h => h)
  have hl1d : (flushL1Set p h k).l1d =
      setPut (l1dGeom p) h.l1d k ((setGet (l1dGeom p) h.l1d k).map cleanWay) := by
    rw [flushL1Set]; simp only [hf.l1d]
  have hpm : (flushL1Set p h k).pm = (flushL1Ways p k (setGet (l1dGeom p) h.l1d k) h).pm := rfl
  have hl2 : (flushL1Set p h k).l2 = (flushL1Ways p k (setGet (l1dGeom p) h.l1d k) h).l2 := rfl
  have hli : (flushL1Set p h k).l1i = h.l1i := hf.l1i
  have hbelow : ∀ l, belowL1 p (flushL1Set p h k) l = belowL1 p (flushL1Ways p k (setGet (l1dGeom p) h.l1d k) h) l := by
    intro l; rw [belowL1_eq, belowL1_eq, hpm, hl2]
  have hinfo : ∀ l, lineInfo (l1dGeom p) (flushL1Set p h k).l1d l =
      if setOf (l1dGeom p) l = k then (lineInfo (l1dGeom p) h.l1d l).map fun bd => (false, bd.2)
      else lineInfo (l1dGeom p) h.l1d l := by
    intro l; rw [hl1d, lineInfo_cleanSet]
  refine ⟨⟨by rw [hli]; exact hk.l1i, by rw [hl1d]; exact hk.l1d.cleanSet k, by rw [hl2]; exact hf.ok.l2,
    by rw [hli]; exact hk.l1iClean, ?_, ?_, ?_⟩, ?_, hli, hf.pf, hinfo⟩
  · intro l d hq
    rw [hinfo] at hq
    rw [hbelow]
    have old : ∀ e, lineInfo (l1dGeom p) h.l1d l = some (false, e) →
        e = belowL1 p (flushL1Ways p k (setGet (l1dGeom p) h.l1d k) h) l := by
      intro e he
      have := hf.ok.l1dClean l e (by rw [hf.l1d]; exact he)
      exact this
    split at hq
    · rename_i hs
      cases hx : lineInfo (l1dGeom p) h.l1d l with
      | none => rw [hx] at hq; cases hq
      | some bd =>
        obtain ⟨b, e⟩ := bd
        rw [hx] at hq
        simp only [Option.map_some, Option.some.injEq, Prod.mk.injEq, true_and] at hq
        subst hq
        cases b with
        | false => exact old e hx
        | true =>
          rw [lineInfo_eq, hs] at hx
          obtain ⟨w, hm, hv, ht, hd, rfl⟩ := mem_of_setInfo hx
          have := hw w hm hv hd
          rw [ht, ← hs, lineOf_tagOf_setOf] at this
          rw [hs] at this
          exact this.symm
    · exact old d hq
  · intro l d hq
    rw [hl2] at hq; rw [hpm]
    exact hf.ok.l2Clean l d hq
  · rw [hpm]; exact hf.ok.ram
  · intro l
    rw [← hf.flat l, flatLine, flatLine, hinfo, hbelow, hf.l1d]
    split
    · cases lineInfo (l1dGeom p) h.l1d l <;> rfl
    · rfl

/-- A dirty line of L2 written to physical memory (22_caches.md R147, step 2). -/
theorem flushL2Ways_read (p : Params) (k : Nat) (hks : k < (l2Geom p).sets) (c : Store (List Way))
    (hc : CacheOk (l2Geom p) p.memSize c) (ws : List Way) :
    ∀ (pm : List Host.Cell), (∀ w ∈ ws, w ∈ setGet (l2Geom p) c k) → (∀ a, p.memSize ≤ a → Memory.read pm a = 0) →
    (∀ l, (Memory.readLine (flushL2Ways p k ws pm) l = Memory.readLine pm l) ∨
      lineInfo (l2Geom p) c l = some (true, Memory.readLine (flushL2Ways p k ws pm) l)) ∧
    (∀ w ∈ ws, w.valid = true → w.dirty = true →
      Memory.readLine (flushL2Ways p k ws pm) (lineOf (l2Geom p) w.tag k) = w.data) ∧
    ∀ a, p.memSize ≤ a → Memory.read (flushL2Ways p k ws pm) a = 0 := by
  induction ws with
  | nil => intro pm _ hr; exact ⟨fun _ => .inl rfl, by simp, hr⟩
  | cons w ws ih =>
    intro pm hin hr
    have hw := hin w (by simp)
    by_cases hcd : w.valid = true ∧ w.dirty = true
    · have hl : lineInfo (l2Geom p) c (lineOf (l2Geom p) w.tag k) = some (true, w.data) := by
        rw [lineInfo_eq, setOf_lineOf _ _ _ hks, tagOf_lineOf _ _ _ hks, setInfo_of_mem (hc.sets k) hw hcd.1, hcd.2]
      have hd := hc.length hl
      have hm := hc.inRam _ _ _ hl
      have hb : (w.valid && w.dirty) = true := by simp [hcd]
      rw [flushL2Ways, if_pos hb]
      obtain ⟨r1, r2, r3⟩ := ih (Memory.writeBytes pm (64 * lineOf (l2Geom p) w.tag k) w.data)
        (fun v hv => hin v (by simp [hv])) (read_writeBytes_beyond hd hm hr)
      refine ⟨fun l => ?_, ?_, r3⟩
      · rcases r1 l with h1 | h1
        · rw [readLine_writeBytes pm _ _ hd] at h1
          split at h1
          · rename_i e; right; rw [h1, e, hl]
          · exact .inl h1
        · exact .inr h1
      · intro v hv hvv hvd
        rcases List.mem_cons.mp hv with rfl | hv
        · rcases r1 (lineOf (l2Geom p) v.tag k) with h1 | h1
          · rw [h1, readLine_writeBytes pm _ _ hd, if_pos rfl]
          · rw [hl] at h1; simpa using h1.symm
        · exact r2 v hv hvv hvd
    · have hb : ¬ (w.valid && w.dirty) = true := by simpa using hcd
      rw [flushL2Ways, if_neg hb]
      obtain ⟨r1, r2, r3⟩ := ih pm (fun v hv => hin v (by simp [hv])) hr
      refine ⟨r1, ?_, r3⟩
      intro v hv hvv hvd
      rcases List.mem_cons.mp hv with rfl | hv
      · exact absurd ⟨hvv, hvd⟩ hcd
      · exact r2 v hv hvv hvd

/-- One set of L2 flushed (22_caches.md R147, step 2). -/
theorem flushL2Set_ok {p : Params} {h : Hierarchy} (hk : HierOk p h) (k : Nat) (hks : k < (l2Geom p).sets) :
    HierOk p (flushL2Set p h k) ∧ (∀ l, flatLine p (flushL2Set p h k) l = flatLine p h l) ∧
    (flushL2Set p h k).l1i = h.l1i ∧ (flushL2Set p h k).l1d = h.l1d ∧ (flushL2Set p h k).pf = h.pf ∧
    (∀ l, lineInfo (l2Geom p) (flushL2Set p h k).l2 l =
      if setOf (l2Geom p) l = k then (lineInfo (l2Geom p) h.l2 l).map fun bd => (false, bd.2)
      else lineInfo (l2Geom p) h.l2 l) := by
  obtain ⟨r1, r2, r3⟩ := flushL2Ways_read p k hks h.l2 hk.l2 (setGet (l2Geom p) h.l2 k) h.pm (fun _ h => h) hk.ram
  have hl2 : (flushL2Set p h k).l2 = setPut (l2Geom p) h.l2 k ((setGet (l2Geom p) h.l2 k).map cleanWay) := rfl
  have hpm : (flushL2Set p h k).pm = flushL2Ways p k (setGet (l2Geom p) h.l2 k) h.pm := rfl
  have hinfo : ∀ l, lineInfo (l2Geom p) (flushL2Set p h k).l2 l =
      if setOf (l2Geom p) l = k then (lineInfo (l2Geom p) h.l2 l).map fun bd => (false, bd.2)
      else lineInfo (l2Geom p) h.l2 l := by
    intro l; rw [hl2, lineInfo_cleanSet]
  have hbelow : ∀ l, belowL1 p (flushL2Set p h k) l = belowL1 p h l := by
    intro l
    rw [belowL1_eq, belowL1_eq, hinfo]
    cases hx : lineInfo (l2Geom p) h.l2 l with
    | some bd => split <;> rfl
    | none =>
      have : Memory.readLine (flushL2Set p h k).pm l = Memory.readLine h.pm l := by
        rw [hpm]
        rcases r1 l with h1 | h1
        · exact h1
        · rw [hx] at h1; cases h1
      rw [this]; split <;> rfl
  refine ⟨⟨hk.l1i, hk.l1d, by rw [hl2]; exact hk.l2.cleanSet k, hk.l1iClean, ?_, ?_, r3⟩, ?_, rfl, rfl, rfl, hinfo⟩
  · intro l d hq
    rw [hbelow]; exact hk.l1dClean l d hq
  · intro l d hq
    rw [hinfo] at hq
    rw [hpm]
    have old : ∀ e, lineInfo (l2Geom p) h.l2 l = some (false, e) →
        e = Memory.readLine (flushL2Ways p k (setGet (l2Geom p) h.l2 k) h.pm) l := by
      intro e he
      rcases r1 l with h1 | h1
      · rw [h1]; exact hk.l2Clean l e he
      · rw [he] at h1; cases h1
    split at hq
    · rename_i hs
      cases hx : lineInfo (l2Geom p) h.l2 l with
      | none => rw [hx] at hq; cases hq
      | some bd =>
        obtain ⟨b, e⟩ := bd
        rw [hx] at hq
        simp only [Option.map_some, Option.some.injEq, Prod.mk.injEq, true_and] at hq
        subst hq
        cases b with
        | false => exact old e hx
        | true =>
          rw [lineInfo_eq, hs] at hx
          obtain ⟨w, hm, hv, ht, hd, rfl⟩ := mem_of_setInfo hx
          have := r2 w hm hv hd
          rw [ht, ← hs, lineOf_tagOf_setOf] at this
          rw [hs] at this
          exact this.symm
    · exact old d hq
  · intro l
    rw [flatLine, flatLine, hbelow]
    rfl

/-- Reading a set that is not listed. -/
theorem setGet_unlisted (g : Geom) (c : Store (List Way)) (k : Nat) (h : k ∉ listedSets c) :
    setGet g c k = emptySet g := by
  induction c with
  | nil => rfl
  | cons e c ih =>
    obtain ⟨j, ws⟩ := e
    simp only [listedSets, List.map_cons, List.mem_cons, not_or] at h
    rw [setGet, Store.get_cons, if_neg h.1]
    exact ih h.2

theorem lineInfo_unlisted (g : Geom) (c : Store (List Way)) (l : Nat) (h : setOf g l ∉ listedSets c) :
    lineInfo g c l = none := by
  rw [lineInfo_eq, setGet_unlisted g c _ h, setInfo_empty]

/-! ## Whole flushes -/

theorem flushL1Ways_invalid (p : Params) (k : Nat) (ws : List Way) (h : Hierarchy) (hi : ∀ w ∈ ws, w.valid = false) :
    flushL1Ways p k ws h = h := by
  induction ws with
  | nil => rfl
  | cons w ws ih =>
    rw [flushL1Ways, if_neg (by simp [hi w (by simp)])]
    exact ih fun v hv => hi v (by simp [hv])

theorem flushL2Ways_invalid (p : Params) (k : Nat) (ws : List Way) (pm : List Host.Cell)
    (hi : ∀ w ∈ ws, w.valid = false) : flushL2Ways p k ws pm = pm := by
  induction ws with
  | nil => rfl
  | cons w ws ih =>
    rw [flushL2Ways, if_neg (by simp [hi w (by simp)])]
    exact ih fun v hv => hi v (by simp [hv])

/-- Any listed set of L1D flushed; a set beyond the last holds nothing. -/
theorem flushL1Set_any {p : Params} (hp : p.valid = true) {h : Hierarchy} (hk : HierOk p h) (k : Nat) :
    HierOk p (flushL1Set p h k) ∧ (∀ l, flatLine p (flushL1Set p h k) l = flatLine p h l) ∧
    (flushL1Set p h k).l1i = h.l1i ∧ (flushL1Set p h k).pf = h.pf ∧
    (∀ l, lineInfo (l1dGeom p) (flushL1Set p h k).l1d l =
      if setOf (l1dGeom p) l = k then (lineInfo (l1dGeom p) h.l1d l).map fun bd => (false, bd.2)
      else lineInfo (l1dGeom p) h.l1d l) := by
  by_cases hks : k < (l1dGeom p).sets
  · exact flushL1Set_ok hp hk k hks
  · have he : flushL1Set p h k =
        { h with l1d := setPut (l1dGeom p) h.l1d k ((setGet (l1dGeom p) h.l1d k).map cleanWay) } := by
      rw [flushL1Set, flushL1Ways_invalid p k _ h fun w hw => hk.l1d.unused k (by omega) w hw]
    have hinfo : ∀ l, lineInfo (l1dGeom p) (flushL1Set p h k).l1d l = lineInfo (l1dGeom p) h.l1d l := by
      intro l
      rw [he, lineInfo_cleanSet, if_neg]
      have := setOf_lt (l1dGeom p) l (Params.sets_pos hp).2.1
      omega
    have hbelow : ∀ l, belowL1 p (flushL1Set p h k) l = belowL1 p h l := by intro l; rw [he]; rfl
    refine ⟨⟨by rw [he]; exact hk.l1i, by rw [he]; exact hk.l1d.cleanSet k, by rw [he]; exact hk.l2,
      by rw [he]; exact hk.l1iClean, ?_, by rw [he]; exact hk.l2Clean, by rw [he]; exact hk.ram⟩, ?_,
      by rw [he], by rw [he], ?_⟩
    · intro l d hq; rw [hinfo] at hq; rw [hbelow]; exact hk.l1dClean l d hq
    · intro l; rw [flatLine, flatLine, hinfo, hbelow]
    · intro l; rw [hinfo, if_neg]
      have := setOf_lt (l1dGeom p) l (Params.sets_pos hp).2.1
      omega

/-- Any listed set of L2 flushed. -/
theorem flushL2Set_any {p : Params} (hp : p.valid = true) {h : Hierarchy} (hk : HierOk p h) (k : Nat) :
    HierOk p (flushL2Set p h k) ∧ (∀ l, flatLine p (flushL2Set p h k) l = flatLine p h l) ∧
    (flushL2Set p h k).l1i = h.l1i ∧ (flushL2Set p h k).l1d = h.l1d ∧ (flushL2Set p h k).pf = h.pf ∧
    (∀ l, lineInfo (l2Geom p) (flushL2Set p h k).l2 l =
      if setOf (l2Geom p) l = k then (lineInfo (l2Geom p) h.l2 l).map fun bd => (false, bd.2)
      else lineInfo (l2Geom p) h.l2 l) := by
  by_cases hks : k < (l2Geom p).sets
  · exact flushL2Set_ok hk k hks
  · have he : flushL2Set p h k =
        { h with l2 := setPut (l2Geom p) h.l2 k ((setGet (l2Geom p) h.l2 k).map cleanWay) } := by
      rw [flushL2Set, flushL2Ways_invalid p k _ h.pm fun w hw => hk.l2.unused k (by omega) w hw]
    have hinfo : ∀ l, lineInfo (l2Geom p) (flushL2Set p h k).l2 l = lineInfo (l2Geom p) h.l2 l := by
      intro l
      rw [he, lineInfo_cleanSet, if_neg]
      have := setOf_lt (l2Geom p) l (Params.sets_pos hp).2.2
      omega
    have hpm : (flushL2Set p h k).pm = h.pm := by rw [he]
    have hbelow : ∀ l, belowL1 p (flushL2Set p h k) l = belowL1 p h l := by
      intro l; rw [belowL1_eq, belowL1_eq, hinfo, hpm]
    refine ⟨⟨hk.l1i, hk.l1d, by rw [he]; exact hk.l2.cleanSet k, hk.l1iClean, ?_, ?_, by rw [hpm]; exact hk.ram⟩, ?_,
      rfl, rfl, rfl, ?_⟩
    · intro l d hq; rw [hbelow]; exact hk.l1dClean l d hq
    · intro l d hq; rw [hinfo] at hq; rw [hpm]; exact hk.l2Clean l d hq
    · intro l; rw [flatLine, flatLine, hbelow]; rfl
    · intro l; rw [hinfo, if_neg]
      have := setOf_lt (l2Geom p) l (Params.sets_pos hp).2.2
      omega

/-- Flushing a list of sets of L1D: the flat memory stays, and every line of those sets is clean or gone. -/
theorem foldl_flushL1 {p : Params} (hp : p.valid = true) (ks : List Nat) :
    ∀ {h : Hierarchy}, HierOk p h →
    HierOk p (ks.foldl (flushL1Set p) h) ∧ (∀ l, flatLine p (ks.foldl (flushL1Set p) h) l = flatLine p h l) ∧
    (ks.foldl (flushL1Set p) h).l1i = h.l1i ∧ (ks.foldl (flushL1Set p) h).pf = h.pf ∧
    ∀ l, lineInfo (l1dGeom p) (ks.foldl (flushL1Set p) h).l1d l =
      if setOf (l1dGeom p) l ∈ ks then (lineInfo (l1dGeom p) h.l1d l).map fun bd => (false, bd.2)
      else lineInfo (l1dGeom p) h.l1d l := by
  induction ks with
  | nil => intro h hk; exact ⟨hk, fun _ => rfl, rfl, rfl, fun _ => rfl⟩
  | cons k ks ih =>
    intro h hk
    obtain ⟨a1, a2, a3, a4, a5⟩ := flushL1Set_any hp hk k
    obtain ⟨b1, b2, b3, b4, b5⟩ := ih a1
    refine ⟨b1, fun l => (b2 l).trans (a2 l), b3.trans a3, b4.trans a4, fun l => ?_⟩
    rw [List.foldl_cons, b5, a5]
    simp only [List.mem_cons]
    by_cases h1 : setOf (l1dGeom p) l = k
    · rw [if_pos h1, if_pos (Or.inl h1)]
      cases lineInfo (l1dGeom p) h.l1d l <;> simp
    · rw [if_neg h1]
      by_cases h2 : setOf (l1dGeom p) l ∈ ks
      · rw [if_pos h2, if_pos (Or.inr h2)]
      · rw [if_neg h2, if_neg (not_or.mpr ⟨h1, h2⟩)]

/-- Flushing a list of sets of L2. -/
theorem foldl_flushL2 {p : Params} (hp : p.valid = true) (ks : List Nat) :
    ∀ {h : Hierarchy}, HierOk p h →
    HierOk p (ks.foldl (flushL2Set p) h) ∧ (∀ l, flatLine p (ks.foldl (flushL2Set p) h) l = flatLine p h l) ∧
    (ks.foldl (flushL2Set p) h).l1i = h.l1i ∧ (ks.foldl (flushL2Set p) h).l1d = h.l1d ∧
    (ks.foldl (flushL2Set p) h).pf = h.pf ∧
    ∀ l, lineInfo (l2Geom p) (ks.foldl (flushL2Set p) h).l2 l =
      if setOf (l2Geom p) l ∈ ks then (lineInfo (l2Geom p) h.l2 l).map fun bd => (false, bd.2)
      else lineInfo (l2Geom p) h.l2 l := by
  induction ks with
  | nil => intro h hk; exact ⟨hk, fun _ => rfl, rfl, rfl, rfl, fun _ => rfl⟩
  | cons k ks ih =>
    intro h hk
    obtain ⟨a1, a2, a3, a4, a5, a6⟩ := flushL2Set_any hp hk k
    obtain ⟨b1, b2, b3, b4, b5, b6⟩ := ih a1
    refine ⟨b1, fun l => (b2 l).trans (a2 l), b3.trans a3, b4.trans a4, b5.trans a5, fun l => ?_⟩
    rw [List.foldl_cons, b6, a6]
    simp only [List.mem_cons]
    by_cases h1 : setOf (l2Geom p) l = k
    · rw [if_pos h1, if_pos (Or.inl h1)]
      cases lineInfo (l2Geom p) h.l2 l <;> simp
    · rw [if_neg h1]
      by_cases h2 : setOf (l2Geom p) l ∈ ks
      · rw [if_pos h2, if_pos (Or.inr h2)]
      · rw [if_neg h2, if_neg (not_or.mpr ⟨h1, h2⟩)]

end Sys2Proof.Machine
end

