-- ==== Sys2Proof/Laws/State.lean ====
section
/-! SUPPORT. One lemma per field for each update of the state, so that no proof unfolds a record update. -/

namespace Sys2Proof.Machine

/-! ### `setX` -/

@[simp] theorem setX_params (r : Reg) (w : Word) (s : State) :
    (setX r w s).params = s.params := by unfold setX; split <;> rfl
@[simp] theorem setX_x (r : Reg) (w : Word) (s : State) :
    (setX r w s).x = if r = 0 then s.x else s.x.set r.toNat w := by unfold setX; split <;> rfl
@[simp] theorem setX_v (r : Reg) (w : Word) (s : State) : (setX r w s).v = s.v := by unfold setX; split <;> rfl
@[simp] theorem setX_flags (r : Reg) (w : Word) (s : State) :
    (setX r w s).flags = s.flags := by unfold setX; split <;> rfl
@[simp] theorem setX_pc (r : Reg) (w : Word) (s : State) : (setX r w s).pc = s.pc := by unfold setX; split <;> rfl
@[simp] theorem setX_sp (r : Reg) (w : Word) (s : State) : (setX r w s).sp = s.sp := by unfold setX; split <;> rfl
@[simp] theorem setX_hier (r : Reg) (w : Word) (s : State) :
    (setX r w s).hier = s.hier := by unfold setX; split <;> rfl
@[simp] theorem setX_mmu (r : Reg) (w : Word) (s : State) : (setX r w s).mmu = s.mmu := by unfold setX; split <;> rfl
@[simp] theorem setX_mmioTable (r : Reg) (w : Word) (s : State) :
    (setX r w s).mmioTable = s.mmioTable := by unfold setX; split <;> rfl
@[simp] theorem setX_ic (r : Reg) (w : Word) (s : State) : (setX r w s).ic = s.ic := by unfold setX; split <;> rfl
@[simp] theorem setX_halted (r : Reg) (w : Word) (s : State) :
    (setX r w s).halted = s.halted := by unfold setX; split <;> rfl
@[simp] theorem setX_exitCode (r : Reg) (w : Word) (s : State) :
    (setX r w s).exitCode = s.exitCode := by unfold setX; split <;> rfl
@[simp] theorem setX_lastStatus (r : Reg) (w : Word) (s : State) :
    (setX r w s).lastStatus = s.lastStatus := by unfold setX; split <;> rfl
@[simp] theorem setX_latches (r : Reg) (w : Word) (s : State) :
    (setX r w s).latches = s.latches := by unfold setX; split <;> rfl
@[simp] theorem setX_predictor (r : Reg) (w : Word) (s : State) :
    (setX r w s).predictor = s.predictor := by unfold setX; split <;> rfl
@[simp] theorem setX_perf (r : Reg) (w : Word) (s : State) :
    (setX r w s).perf = s.perf := by unfold setX; split <;> rfl
@[simp] theorem setX_bkpt (r : Reg) (w : Word) (s : State) :
    (setX r w s).bkpt = s.bkpt := by unfold setX; split <;> rfl
@[simp] theorem setX_resume (r : Reg) (w : Word) (s : State) :
    (setX r w s).resume = s.resume := by unfold setX; split <;> rfl
@[simp] theorem setX_eventQ (r : Reg) (w : Word) (s : State) :
    (setX r w s).eventQ = s.eventQ := by unfold setX; split <;> rfl
@[simp] theorem setX_envCalls (r : Reg) (w : Word) (s : State) :
    (setX r w s).envCalls = s.envCalls := by unfold setX; split <;> rfl
@[simp] theorem setX_intAsked (r : Reg) (w : Word) (s : State) :
    (setX r w s).intAsked = s.intAsked := by unfold setX; split <;> rfl

/-! ### `setV` -/

@[simp] theorem setV_params (r : VReg) (w : VWord) (s : State) : (setV r w s).params = s.params := rfl
@[simp] theorem setV_x (r : VReg) (w : VWord) (s : State) : (setV r w s).x = s.x := rfl
@[simp] theorem setV_v (r : VReg) (w : VWord) (s : State) : (setV r w s).v = s.v.set r.toNat w := rfl
@[simp] theorem setV_flags (r : VReg) (w : VWord) (s : State) : (setV r w s).flags = s.flags := rfl
@[simp] theorem setV_pc (r : VReg) (w : VWord) (s : State) : (setV r w s).pc = s.pc := rfl
@[simp] theorem setV_sp (r : VReg) (w : VWord) (s : State) : (setV r w s).sp = s.sp := rfl
@[simp] theorem setV_hier (r : VReg) (w : VWord) (s : State) : (setV r w s).hier = s.hier := rfl
@[simp] theorem setV_mmu (r : VReg) (w : VWord) (s : State) : (setV r w s).mmu = s.mmu := rfl
@[simp] theorem setV_mmioTable (r : VReg) (w : VWord) (s : State) : (setV r w s).mmioTable = s.mmioTable := rfl
@[simp] theorem setV_ic (r : VReg) (w : VWord) (s : State) : (setV r w s).ic = s.ic := rfl
@[simp] theorem setV_halted (r : VReg) (w : VWord) (s : State) : (setV r w s).halted = s.halted := rfl
@[simp] theorem setV_exitCode (r : VReg) (w : VWord) (s : State) : (setV r w s).exitCode = s.exitCode := rfl
@[simp] theorem setV_lastStatus (r : VReg) (w : VWord) (s : State) : (setV r w s).lastStatus = s.lastStatus := rfl
@[simp] theorem setV_latches (r : VReg) (w : VWord) (s : State) : (setV r w s).latches = s.latches := rfl
@[simp] theorem setV_predictor (r : VReg) (w : VWord) (s : State) : (setV r w s).predictor = s.predictor := rfl
@[simp] theorem setV_perf (r : VReg) (w : VWord) (s : State) : (setV r w s).perf = s.perf := rfl
@[simp] theorem setV_bkpt (r : VReg) (w : VWord) (s : State) : (setV r w s).bkpt = s.bkpt := rfl
@[simp] theorem setV_resume (r : VReg) (w : VWord) (s : State) : (setV r w s).resume = s.resume := rfl
@[simp] theorem setV_eventQ (r : VReg) (w : VWord) (s : State) : (setV r w s).eventQ = s.eventQ := rfl
@[simp] theorem setV_envCalls (r : VReg) (w : VWord) (s : State) : (setV r w s).envCalls = s.envCalls := rfl
@[simp] theorem setV_intAsked (r : VReg) (w : VWord) (s : State) : (setV r w s).intAsked = s.intAsked := rfl

/-! ### `setPc` -/

@[simp] theorem setPc_params (t : Word) (s : State) : (setPc t s).params = s.params := rfl
@[simp] theorem setPc_x (t : Word) (s : State) : (setPc t s).x = s.x := rfl
@[simp] theorem setPc_v (t : Word) (s : State) : (setPc t s).v = s.v := rfl
@[simp] theorem setPc_flags (t : Word) (s : State) : (setPc t s).flags = s.flags := rfl
@[simp] theorem setPc_pc (t : Word) (s : State) : (setPc t s).pc = t := rfl
@[simp] theorem setPc_sp (t : Word) (s : State) : (setPc t s).sp = s.sp := rfl
@[simp] theorem setPc_hier (t : Word) (s : State) : (setPc t s).hier = s.hier := rfl
@[simp] theorem setPc_mmu (t : Word) (s : State) : (setPc t s).mmu = s.mmu := rfl
@[simp] theorem setPc_mmioTable (t : Word) (s : State) : (setPc t s).mmioTable = s.mmioTable := rfl
@[simp] theorem setPc_ic (t : Word) (s : State) : (setPc t s).ic = s.ic := rfl
@[simp] theorem setPc_halted (t : Word) (s : State) : (setPc t s).halted = s.halted := rfl
@[simp] theorem setPc_exitCode (t : Word) (s : State) : (setPc t s).exitCode = s.exitCode := rfl
@[simp] theorem setPc_lastStatus (t : Word) (s : State) : (setPc t s).lastStatus = s.lastStatus := rfl
@[simp] theorem setPc_latches (t : Word) (s : State) : (setPc t s).latches = s.latches := rfl
@[simp] theorem setPc_predictor (t : Word) (s : State) : (setPc t s).predictor = s.predictor := rfl
@[simp] theorem setPc_perf (t : Word) (s : State) : (setPc t s).perf = s.perf := rfl
@[simp] theorem setPc_bkpt (t : Word) (s : State) : (setPc t s).bkpt = s.bkpt := rfl
@[simp] theorem setPc_resume (t : Word) (s : State) : (setPc t s).resume = s.resume := rfl
@[simp] theorem setPc_eventQ (t : Word) (s : State) : (setPc t s).eventQ = s.eventQ := rfl
@[simp] theorem setPc_envCalls (t : Word) (s : State) : (setPc t s).envCalls = s.envCalls := rfl
@[simp] theorem setPc_intAsked (t : Word) (s : State) : (setPc t s).intAsked = s.intAsked := rfl

/-! ### `advance` -/

@[simp] theorem advance_params (s : State) : (advance s).params = s.params := rfl
@[simp] theorem advance_x (s : State) : (advance s).x = s.x := rfl
@[simp] theorem advance_v (s : State) : (advance s).v = s.v := rfl
@[simp] theorem advance_flags (s : State) : (advance s).flags = s.flags := rfl
@[simp] theorem advance_pc (s : State) : (advance s).pc = s.pc + 4 := rfl
@[simp] theorem advance_sp (s : State) : (advance s).sp = s.sp := rfl
@[simp] theorem advance_hier (s : State) : (advance s).hier = s.hier := rfl
@[simp] theorem advance_mmu (s : State) : (advance s).mmu = s.mmu := rfl
@[simp] theorem advance_mmioTable (s : State) : (advance s).mmioTable = s.mmioTable := rfl
@[simp] theorem advance_ic (s : State) : (advance s).ic = s.ic := rfl
@[simp] theorem advance_halted (s : State) : (advance s).halted = s.halted := rfl
@[simp] theorem advance_exitCode (s : State) : (advance s).exitCode = s.exitCode := rfl
@[simp] theorem advance_lastStatus (s : State) : (advance s).lastStatus = s.lastStatus := rfl
@[simp] theorem advance_latches (s : State) : (advance s).latches = s.latches := rfl
@[simp] theorem advance_predictor (s : State) : (advance s).predictor = s.predictor := rfl
@[simp] theorem advance_perf (s : State) : (advance s).perf = s.perf := rfl
@[simp] theorem advance_bkpt (s : State) : (advance s).bkpt = s.bkpt := rfl
@[simp] theorem advance_resume (s : State) : (advance s).resume = s.resume := rfl
@[simp] theorem advance_eventQ (s : State) : (advance s).eventQ = s.eventQ := rfl
@[simp] theorem advance_envCalls (s : State) : (advance s).envCalls = s.envCalls := rfl
@[simp] theorem advance_intAsked (s : State) : (advance s).intAsked = s.intAsked := rfl

/-! ### `setNzcv` -/

@[simp] theorem setNzcv_params (a : Nzcv) (s : State) : (setNzcv a s).params = s.params := rfl
@[simp] theorem setNzcv_x (a : Nzcv) (s : State) : (setNzcv a s).x = s.x := rfl
@[simp] theorem setNzcv_v (a : Nzcv) (s : State) : (setNzcv a s).v = s.v := rfl
@[simp] theorem setNzcv_flags (a : Nzcv) (s : State) : (setNzcv a s).flags = withNzcv s.flags a := rfl
@[simp] theorem setNzcv_pc (a : Nzcv) (s : State) : (setNzcv a s).pc = s.pc := rfl
@[simp] theorem setNzcv_sp (a : Nzcv) (s : State) : (setNzcv a s).sp = s.sp := rfl
@[simp] theorem setNzcv_hier (a : Nzcv) (s : State) : (setNzcv a s).hier = s.hier := rfl
@[simp] theorem setNzcv_mmu (a : Nzcv) (s : State) : (setNzcv a s).mmu = s.mmu := rfl
@[simp] theorem setNzcv_mmioTable (a : Nzcv) (s : State) : (setNzcv a s).mmioTable = s.mmioTable := rfl
@[simp] theorem setNzcv_ic (a : Nzcv) (s : State) : (setNzcv a s).ic = s.ic := rfl
@[simp] theorem setNzcv_halted (a : Nzcv) (s : State) : (setNzcv a s).halted = s.halted := rfl
@[simp] theorem setNzcv_exitCode (a : Nzcv) (s : State) : (setNzcv a s).exitCode = s.exitCode := rfl
@[simp] theorem setNzcv_lastStatus (a : Nzcv) (s : State) : (setNzcv a s).lastStatus = s.lastStatus := rfl
@[simp] theorem setNzcv_latches (a : Nzcv) (s : State) : (setNzcv a s).latches = s.latches := rfl
@[simp] theorem setNzcv_predictor (a : Nzcv) (s : State) : (setNzcv a s).predictor = s.predictor := rfl
@[simp] theorem setNzcv_perf (a : Nzcv) (s : State) : (setNzcv a s).perf = s.perf := rfl
@[simp] theorem setNzcv_bkpt (a : Nzcv) (s : State) : (setNzcv a s).bkpt = s.bkpt := rfl
@[simp] theorem setNzcv_resume (a : Nzcv) (s : State) : (setNzcv a s).resume = s.resume := rfl
@[simp] theorem setNzcv_eventQ (a : Nzcv) (s : State) : (setNzcv a s).eventQ = s.eventQ := rfl
@[simp] theorem setNzcv_envCalls (a : Nzcv) (s : State) : (setNzcv a s).envCalls = s.envCalls := rfl
@[simp] theorem setNzcv_intAsked (a : Nzcv) (s : State) : (setNzcv a s).intAsked = s.intAsked := rfl

/-! ### `countRetired` -/

@[simp] theorem countRetired_params (s : State) : (countRetired s).params = s.params := rfl
@[simp] theorem countRetired_x (s : State) : (countRetired s).x = s.x := rfl
@[simp] theorem countRetired_v (s : State) : (countRetired s).v = s.v := rfl
@[simp] theorem countRetired_flags (s : State) : (countRetired s).flags = s.flags := rfl
@[simp] theorem countRetired_pc (s : State) : (countRetired s).pc = s.pc := rfl
@[simp] theorem countRetired_sp (s : State) : (countRetired s).sp = s.sp := rfl
@[simp] theorem countRetired_hier (s : State) : (countRetired s).hier = s.hier := rfl
@[simp] theorem countRetired_mmu (s : State) : (countRetired s).mmu = s.mmu := rfl
@[simp] theorem countRetired_mmioTable (s : State) : (countRetired s).mmioTable = s.mmioTable := rfl
@[simp] theorem countRetired_ic (s : State) : (countRetired s).ic = s.ic := rfl
@[simp] theorem countRetired_halted (s : State) : (countRetired s).halted = s.halted := rfl
@[simp] theorem countRetired_exitCode (s : State) : (countRetired s).exitCode = s.exitCode := rfl
@[simp] theorem countRetired_lastStatus (s : State) : (countRetired s).lastStatus = s.lastStatus := rfl
@[simp] theorem countRetired_latches (s : State) : (countRetired s).latches = s.latches := rfl
@[simp] theorem countRetired_predictor (s : State) : (countRetired s).predictor = s.predictor := rfl
@[simp] theorem countRetired_perf (s : State) :
    (countRetired s).perf = { s.perf with retired := s.perf.retired + 1 } := rfl
@[simp] theorem countRetired_bkpt (s : State) : (countRetired s).bkpt = s.bkpt := rfl
@[simp] theorem countRetired_resume (s : State) : (countRetired s).resume = s.resume := rfl
@[simp] theorem countRetired_eventQ (s : State) : (countRetired s).eventQ = s.eventQ := rfl
@[simp] theorem countRetired_envCalls (s : State) : (countRetired s).envCalls = s.envCalls := rfl
@[simp] theorem countRetired_intAsked (s : State) : (countRetired s).intAsked = s.intAsked := rfl

/-! ### `countMispredict` -/

@[simp] theorem countMispredict_params (b : Bool) (s : State) : (countMispredict b s).params = s.params := rfl
@[simp] theorem countMispredict_x (b : Bool) (s : State) : (countMispredict b s).x = s.x := rfl
@[simp] theorem countMispredict_v (b : Bool) (s : State) : (countMispredict b s).v = s.v := rfl
@[simp] theorem countMispredict_flags (b : Bool) (s : State) : (countMispredict b s).flags = s.flags := rfl
@[simp] theorem countMispredict_pc (b : Bool) (s : State) : (countMispredict b s).pc = s.pc := rfl
@[simp] theorem countMispredict_sp (b : Bool) (s : State) : (countMispredict b s).sp = s.sp := rfl
@[simp] theorem countMispredict_hier (b : Bool) (s : State) : (countMispredict b s).hier = s.hier := rfl
@[simp] theorem countMispredict_mmu (b : Bool) (s : State) : (countMispredict b s).mmu = s.mmu := rfl
@[simp] theorem countMispredict_mmioTable (b : Bool) (s : State) :
    (countMispredict b s).mmioTable = s.mmioTable := rfl
@[simp] theorem countMispredict_ic (b : Bool) (s : State) : (countMispredict b s).ic = s.ic := rfl
@[simp] theorem countMispredict_halted (b : Bool) (s : State) : (countMispredict b s).halted = s.halted := rfl
@[simp] theorem countMispredict_exitCode (b : Bool) (s : State) : (countMispredict b s).exitCode = s.exitCode := rfl
@[simp] theorem countMispredict_lastStatus (b : Bool) (s : State) :
    (countMispredict b s).lastStatus = s.lastStatus := rfl
@[simp] theorem countMispredict_latches (b : Bool) (s : State) : (countMispredict b s).latches = s.latches := rfl
@[simp] theorem countMispredict_predictor (b : Bool) (s : State) :
    (countMispredict b s).predictor = s.predictor := rfl
@[simp] theorem countMispredict_perf (b : Bool) (s : State) :
    (countMispredict b s).perf = { s.perf with mispredicts := s.perf.mispredicts + (if b then 1 else 0) } := rfl
@[simp] theorem countMispredict_bkpt (b : Bool) (s : State) : (countMispredict b s).bkpt = s.bkpt := rfl
@[simp] theorem countMispredict_resume (b : Bool) (s : State) : (countMispredict b s).resume = s.resume := rfl
@[simp] theorem countMispredict_eventQ (b : Bool) (s : State) : (countMispredict b s).eventQ = s.eventQ := rfl
@[simp] theorem countMispredict_envCalls (b : Bool) (s : State) : (countMispredict b s).envCalls = s.envCalls := rfl
@[simp] theorem countMispredict_intAsked (b : Bool) (s : State) : (countMispredict b s).intAsked = s.intAsked := rfl

/-! ### `countMemOp` -/

@[simp] theorem countMemOp_params (s : State) : (countMemOp s).params = s.params := rfl
@[simp] theorem countMemOp_x (s : State) : (countMemOp s).x = s.x := rfl
@[simp] theorem countMemOp_v (s : State) : (countMemOp s).v = s.v := rfl
@[simp] theorem countMemOp_flags (s : State) : (countMemOp s).flags = s.flags := rfl
@[simp] theorem countMemOp_pc (s : State) : (countMemOp s).pc = s.pc := rfl
@[simp] theorem countMemOp_sp (s : State) : (countMemOp s).sp = s.sp := rfl
@[simp] theorem countMemOp_hier (s : State) : (countMemOp s).hier = s.hier := rfl
@[simp] theorem countMemOp_mmu (s : State) : (countMemOp s).mmu = s.mmu := rfl
@[simp] theorem countMemOp_mmioTable (s : State) : (countMemOp s).mmioTable = s.mmioTable := rfl
@[simp] theorem countMemOp_ic (s : State) : (countMemOp s).ic = s.ic := rfl
@[simp] theorem countMemOp_halted (s : State) : (countMemOp s).halted = s.halted := rfl
@[simp] theorem countMemOp_exitCode (s : State) : (countMemOp s).exitCode = s.exitCode := rfl
@[simp] theorem countMemOp_lastStatus (s : State) : (countMemOp s).lastStatus = s.lastStatus := rfl
@[simp] theorem countMemOp_latches (s : State) : (countMemOp s).latches = s.latches := rfl
@[simp] theorem countMemOp_predictor (s : State) : (countMemOp s).predictor = s.predictor := rfl
@[simp] theorem countMemOp_perf (s : State) :
    (countMemOp s).perf = { s.perf with memOps := s.perf.memOps + 1 } := rfl
@[simp] theorem countMemOp_bkpt (s : State) : (countMemOp s).bkpt = s.bkpt := rfl
@[simp] theorem countMemOp_resume (s : State) : (countMemOp s).resume = s.resume := rfl
@[simp] theorem countMemOp_eventQ (s : State) : (countMemOp s).eventQ = s.eventQ := rfl
@[simp] theorem countMemOp_envCalls (s : State) : (countMemOp s).envCalls = s.envCalls := rfl
@[simp] theorem countMemOp_intAsked (s : State) : (countMemOp s).intAsked = s.intAsked := rfl

/-! ### `countSimd` -/

@[simp] theorem countSimd_params (s : State) : (countSimd s).params = s.params := rfl
@[simp] theorem countSimd_x (s : State) : (countSimd s).x = s.x := rfl
@[simp] theorem countSimd_v (s : State) : (countSimd s).v = s.v := rfl
@[simp] theorem countSimd_flags (s : State) : (countSimd s).flags = s.flags := rfl
@[simp] theorem countSimd_pc (s : State) : (countSimd s).pc = s.pc := rfl
@[simp] theorem countSimd_sp (s : State) : (countSimd s).sp = s.sp := rfl
@[simp] theorem countSimd_hier (s : State) : (countSimd s).hier = s.hier := rfl
@[simp] theorem countSimd_mmu (s : State) : (countSimd s).mmu = s.mmu := rfl
@[simp] theorem countSimd_mmioTable (s : State) : (countSimd s).mmioTable = s.mmioTable := rfl
@[simp] theorem countSimd_ic (s : State) : (countSimd s).ic = s.ic := rfl
@[simp] theorem countSimd_halted (s : State) : (countSimd s).halted = s.halted := rfl
@[simp] theorem countSimd_exitCode (s : State) : (countSimd s).exitCode = s.exitCode := rfl
@[simp] theorem countSimd_lastStatus (s : State) : (countSimd s).lastStatus = s.lastStatus := rfl
@[simp] theorem countSimd_latches (s : State) : (countSimd s).latches = s.latches := rfl
@[simp] theorem countSimd_predictor (s : State) : (countSimd s).predictor = s.predictor := rfl
@[simp] theorem countSimd_perf (s : State) :
    (countSimd s).perf = { s.perf with simdOps := s.perf.simdOps + 1 } := rfl
@[simp] theorem countSimd_bkpt (s : State) : (countSimd s).bkpt = s.bkpt := rfl
@[simp] theorem countSimd_resume (s : State) : (countSimd s).resume = s.resume := rfl
@[simp] theorem countSimd_eventQ (s : State) : (countSimd s).eventQ = s.eventQ := rfl
@[simp] theorem countSimd_envCalls (s : State) : (countSimd s).envCalls = s.envCalls := rfl
@[simp] theorem countSimd_intAsked (s : State) : (countSimd s).intAsked = s.intAsked := rfl

/-! ### `countStall` -/

@[simp] theorem countStall_params (s : State) : (countStall s).params = s.params := rfl
@[simp] theorem countStall_x (s : State) : (countStall s).x = s.x := rfl
@[simp] theorem countStall_v (s : State) : (countStall s).v = s.v := rfl
@[simp] theorem countStall_flags (s : State) : (countStall s).flags = s.flags := rfl
@[simp] theorem countStall_pc (s : State) : (countStall s).pc = s.pc := rfl
@[simp] theorem countStall_sp (s : State) : (countStall s).sp = s.sp := rfl
@[simp] theorem countStall_hier (s : State) : (countStall s).hier = s.hier := rfl
@[simp] theorem countStall_mmu (s : State) : (countStall s).mmu = s.mmu := rfl
@[simp] theorem countStall_mmioTable (s : State) : (countStall s).mmioTable = s.mmioTable := rfl
@[simp] theorem countStall_ic (s : State) : (countStall s).ic = s.ic := rfl
@[simp] theorem countStall_halted (s : State) : (countStall s).halted = s.halted := rfl
@[simp] theorem countStall_exitCode (s : State) : (countStall s).exitCode = s.exitCode := rfl
@[simp] theorem countStall_lastStatus (s : State) : (countStall s).lastStatus = s.lastStatus := rfl
@[simp] theorem countStall_latches (s : State) : (countStall s).latches = s.latches := rfl
@[simp] theorem countStall_predictor (s : State) : (countStall s).predictor = s.predictor := rfl
@[simp] theorem countStall_perf (s : State) :
    (countStall s).perf = { s.perf with stalls := s.perf.stalls + 1 } := rfl
@[simp] theorem countStall_bkpt (s : State) : (countStall s).bkpt = s.bkpt := rfl
@[simp] theorem countStall_resume (s : State) : (countStall s).resume = s.resume := rfl
@[simp] theorem countStall_eventQ (s : State) : (countStall s).eventQ = s.eventQ := rfl
@[simp] theorem countStall_envCalls (s : State) : (countStall s).envCalls = s.envCalls := rfl
@[simp] theorem countStall_intAsked (s : State) : (countStall s).intAsked = s.intAsked := rfl

/-! ### `pushEvent` -/

@[simp] theorem pushEvent_params (e : Event) (s : State) :
    (pushEvent e s).params = s.params := by unfold pushEvent; split <;> rfl
@[simp] theorem pushEvent_x (e : Event) (s : State) : (pushEvent e s).x = s.x := by unfold pushEvent; split <;> rfl
@[simp] theorem pushEvent_v (e : Event) (s : State) : (pushEvent e s).v = s.v := by unfold pushEvent; split <;> rfl
@[simp] theorem pushEvent_flags (e : Event) (s : State) :
    (pushEvent e s).flags = s.flags := by unfold pushEvent; split <;> rfl
@[simp] theorem pushEvent_pc (e : Event) (s : State) :
    (pushEvent e s).pc = s.pc := by unfold pushEvent; split <;> rfl
@[simp] theorem pushEvent_sp (e : Event) (s : State) :
    (pushEvent e s).sp = s.sp := by unfold pushEvent; split <;> rfl
@[simp] theorem pushEvent_hier (e : Event) (s : State) :
    (pushEvent e s).hier = s.hier := by unfold pushEvent; split <;> rfl
@[simp] theorem pushEvent_mmu (e : Event) (s : State) :
    (pushEvent e s).mmu = s.mmu := by unfold pushEvent; split <;> rfl
@[simp] theorem pushEvent_mmioTable (e : Event) (s : State) :
    (pushEvent e s).mmioTable = s.mmioTable := by unfold pushEvent; split <;> rfl
@[simp] theorem pushEvent_ic (e : Event) (s : State) :
    (pushEvent e s).ic = s.ic := by unfold pushEvent; split <;> rfl
@[simp] theorem pushEvent_halted (e : Event) (s : State) :
    (pushEvent e s).halted = s.halted := by unfold pushEvent; split <;> rfl
@[simp] theorem pushEvent_exitCode (e : Event) (s : State) :
    (pushEvent e s).exitCode = s.exitCode := by unfold pushEvent; split <;> rfl
@[simp] theorem pushEvent_lastStatus (e : Event) (s : State) :
    (pushEvent e s).lastStatus = s.lastStatus := by unfold pushEvent; split <;> rfl
@[simp] theorem pushEvent_latches (e : Event) (s : State) :
    (pushEvent e s).latches = s.latches := by unfold pushEvent; split <;> rfl
@[simp] theorem pushEvent_predictor (e : Event) (s : State) :
    (pushEvent e s).predictor = s.predictor := by unfold pushEvent; split <;> rfl
@[simp] theorem pushEvent_perf (e : Event) (s : State) :
    (pushEvent e s).perf = s.perf := by unfold pushEvent; split <;> rfl
@[simp] theorem pushEvent_bkpt (e : Event) (s : State) :
    (pushEvent e s).bkpt = s.bkpt := by unfold pushEvent; split <;> rfl
@[simp] theorem pushEvent_resume (e : Event) (s : State) :
    (pushEvent e s).resume = s.resume := by unfold pushEvent; split <;> rfl
@[simp] theorem pushEvent_eventQ (e : Event) (s : State) :
    (pushEvent e s).eventQ = if s.eventQ.length < s.params.eventDepth then s.eventQ ++ [e] else s.eventQ := by unfold pushEvent; split <;> rfl
@[simp] theorem pushEvent_envCalls (e : Event) (s : State) :
    (pushEvent e s).envCalls = s.envCalls := by unfold pushEvent; split <;> rfl
@[simp] theorem pushEvent_intAsked (e : Event) (s : State) :
    (pushEvent e s).intAsked = s.intAsked := by unfold pushEvent; split <;> rfl

/-! ### `stopCore` -/

@[simp] theorem stopCore_params (st : Status) (k : Nat) (a n i : Word) (s : State) :
    (stopCore st k a n i s).params = s.params := by unfold stopCore pushEvent; split <;> rfl
@[simp] theorem stopCore_x (st : Status) (k : Nat) (a n i : Word) (s : State) :
    (stopCore st k a n i s).x = s.x := by unfold stopCore pushEvent; split <;> rfl
@[simp] theorem stopCore_v (st : Status) (k : Nat) (a n i : Word) (s : State) :
    (stopCore st k a n i s).v = s.v := by unfold stopCore pushEvent; split <;> rfl
@[simp] theorem stopCore_flags (st : Status) (k : Nat) (a n i : Word) (s : State) :
    (stopCore st k a n i s).flags = s.flags := by unfold stopCore pushEvent; split <;> rfl
@[simp] theorem stopCore_pc (st : Status) (k : Nat) (a n i : Word) (s : State) :
    (stopCore st k a n i s).pc = n := by unfold stopCore pushEvent; split <;> rfl
@[simp] theorem stopCore_sp (st : Status) (k : Nat) (a n i : Word) (s : State) :
    (stopCore st k a n i s).sp = s.sp := by unfold stopCore pushEvent; split <;> rfl
@[simp] theorem stopCore_hier (st : Status) (k : Nat) (a n i : Word) (s : State) :
    (stopCore st k a n i s).hier = s.hier := by unfold stopCore pushEvent; split <;> rfl
@[simp] theorem stopCore_mmu (st : Status) (k : Nat) (a n i : Word) (s : State) :
    (stopCore st k a n i s).mmu = s.mmu := by unfold stopCore pushEvent; split <;> rfl
@[simp] theorem stopCore_mmioTable (st : Status) (k : Nat) (a n i : Word) (s : State) :
    (stopCore st k a n i s).mmioTable = s.mmioTable := by unfold stopCore pushEvent; split <;> rfl
@[simp] theorem stopCore_ic (st : Status) (k : Nat) (a n i : Word) (s : State) :
    (stopCore st k a n i s).ic = s.ic := by unfold stopCore pushEvent; split <;> rfl
@[simp] theorem stopCore_halted (st : Status) (k : Nat) (a n i : Word) (s : State) :
    (stopCore st k a n i s).halted = true := by unfold stopCore pushEvent; split <;> rfl
@[simp] theorem stopCore_exitCode (st : Status) (k : Nat) (a n i : Word) (s : State) :
    (stopCore st k a n i s).exitCode = s.exitCode := by unfold stopCore pushEvent; split <;> rfl
@[simp] theorem stopCore_lastStatus (st : Status) (k : Nat) (a n i : Word) (s : State) :
    (stopCore st k a n i s).lastStatus = st := by unfold stopCore pushEvent; split <;> rfl
@[simp] theorem stopCore_latches (st : Status) (k : Nat) (a n i : Word) (s : State) :
    (stopCore st k a n i s).latches = s.latches := by unfold stopCore pushEvent; split <;> rfl
@[simp] theorem stopCore_predictor (st : Status) (k : Nat) (a n i : Word) (s : State) :
    (stopCore st k a n i s).predictor = s.predictor := by unfold stopCore pushEvent; split <;> rfl
@[simp] theorem stopCore_perf (st : Status) (k : Nat) (a n i : Word) (s : State) :
    (stopCore st k a n i s).perf = s.perf := by unfold stopCore pushEvent; split <;> rfl
@[simp] theorem stopCore_bkpt (st : Status) (k : Nat) (a n i : Word) (s : State) :
    (stopCore st k a n i s).bkpt = s.bkpt := by unfold stopCore pushEvent; split <;> rfl
@[simp] theorem stopCore_resume (st : Status) (k : Nat) (a n i : Word) (s : State) :
    (stopCore st k a n i s).resume = s.resume := by unfold stopCore pushEvent; split <;> rfl
@[simp] theorem stopCore_envCalls (st : Status) (k : Nat) (a n i : Word) (s : State) :
    (stopCore st k a n i s).envCalls = s.envCalls := by unfold stopCore pushEvent; split <;> rfl
@[simp] theorem stopCore_intAsked (st : Status) (k : Nat) (a n i : Word) (s : State) :
    (stopCore st k a n i s).intAsked = s.intAsked := by unfold stopCore pushEvent; split <;> rfl

/-! ### `pend` -/

@[simp] theorem pend_params (vs : BitVec 256) (s : State) : (pend vs s).params = s.params := rfl
@[simp] theorem pend_x (vs : BitVec 256) (s : State) : (pend vs s).x = s.x := rfl
@[simp] theorem pend_v (vs : BitVec 256) (s : State) : (pend vs s).v = s.v := rfl
@[simp] theorem pend_flags (vs : BitVec 256) (s : State) : (pend vs s).flags = s.flags := rfl
@[simp] theorem pend_pc (vs : BitVec 256) (s : State) : (pend vs s).pc = s.pc := rfl
@[simp] theorem pend_sp (vs : BitVec 256) (s : State) : (pend vs s).sp = s.sp := rfl
@[simp] theorem pend_hier (vs : BitVec 256) (s : State) : (pend vs s).hier = s.hier := rfl
@[simp] theorem pend_mmu (vs : BitVec 256) (s : State) : (pend vs s).mmu = s.mmu := rfl
@[simp] theorem pend_mmioTable (vs : BitVec 256) (s : State) : (pend vs s).mmioTable = s.mmioTable := rfl
@[simp] theorem pend_ic (vs : BitVec 256) (s : State) :
    (pend vs s).ic = { s.ic with pending := s.ic.pending ||| (vs &&& deviceMask) } := rfl
@[simp] theorem pend_halted (vs : BitVec 256) (s : State) : (pend vs s).halted = s.halted := rfl
@[simp] theorem pend_exitCode (vs : BitVec 256) (s : State) : (pend vs s).exitCode = s.exitCode := rfl
@[simp] theorem pend_lastStatus (vs : BitVec 256) (s : State) : (pend vs s).lastStatus = s.lastStatus := rfl
@[simp] theorem pend_latches (vs : BitVec 256) (s : State) : (pend vs s).latches = s.latches := rfl
@[simp] theorem pend_predictor (vs : BitVec 256) (s : State) : (pend vs s).predictor = s.predictor := rfl
@[simp] theorem pend_perf (vs : BitVec 256) (s : State) : (pend vs s).perf = s.perf := rfl
@[simp] theorem pend_bkpt (vs : BitVec 256) (s : State) : (pend vs s).bkpt = s.bkpt := rfl
@[simp] theorem pend_resume (vs : BitVec 256) (s : State) : (pend vs s).resume = s.resume := rfl
@[simp] theorem pend_eventQ (vs : BitVec 256) (s : State) : (pend vs s).eventQ = s.eventQ := rfl
@[simp] theorem pend_envCalls (vs : BitVec 256) (s : State) : (pend vs s).envCalls = s.envCalls := rfl
@[simp] theorem pend_intAsked (vs : BitVec 256) (s : State) : (pend vs s).intAsked = s.intAsked := rfl

/-! ### `afterAccess` -/

@[simp] theorem afterAccess_params (a : Accessed) (s : State) : (afterAccess a s).params = s.params := rfl
@[simp] theorem afterAccess_x (a : Accessed) (s : State) : (afterAccess a s).x = s.x := rfl
@[simp] theorem afterAccess_v (a : Accessed) (s : State) : (afterAccess a s).v = s.v := rfl
@[simp] theorem afterAccess_flags (a : Accessed) (s : State) : (afterAccess a s).flags = s.flags := rfl
@[simp] theorem afterAccess_pc (a : Accessed) (s : State) : (afterAccess a s).pc = s.pc := rfl
@[simp] theorem afterAccess_sp (a : Accessed) (s : State) : (afterAccess a s).sp = s.sp := rfl
@[simp] theorem afterAccess_hier (a : Accessed) (s : State) : (afterAccess a s).hier = a.hier := rfl
@[simp] theorem afterAccess_mmu (a : Accessed) (s : State) : (afterAccess a s).mmu = s.mmu := rfl
@[simp] theorem afterAccess_mmioTable (a : Accessed) (s : State) : (afterAccess a s).mmioTable = s.mmioTable := rfl
@[simp] theorem afterAccess_ic (a : Accessed) (s : State) : (afterAccess a s).ic = s.ic := rfl
@[simp] theorem afterAccess_halted (a : Accessed) (s : State) : (afterAccess a s).halted = s.halted := rfl
@[simp] theorem afterAccess_exitCode (a : Accessed) (s : State) : (afterAccess a s).exitCode = s.exitCode := rfl
@[simp] theorem afterAccess_lastStatus (a : Accessed) (s : State) :
    (afterAccess a s).lastStatus = s.lastStatus := rfl
@[simp] theorem afterAccess_latches (a : Accessed) (s : State) : (afterAccess a s).latches = s.latches := rfl
@[simp] theorem afterAccess_predictor (a : Accessed) (s : State) : (afterAccess a s).predictor = s.predictor := rfl
@[simp] theorem afterAccess_perf (a : Accessed) (s : State) :
    (afterAccess a s).perf = missCounts a.l1Miss a.l2Miss s.perf := rfl
@[simp] theorem afterAccess_bkpt (a : Accessed) (s : State) : (afterAccess a s).bkpt = s.bkpt := rfl
@[simp] theorem afterAccess_resume (a : Accessed) (s : State) : (afterAccess a s).resume = s.resume := rfl
@[simp] theorem afterAccess_eventQ (a : Accessed) (s : State) : (afterAccess a s).eventQ = s.eventQ := rfl
@[simp] theorem afterAccess_envCalls (a : Accessed) (s : State) : (afterAccess a s).envCalls = s.envCalls := rfl
@[simp] theorem afterAccess_intAsked (a : Accessed) (s : State) : (afterAccess a s).intAsked = s.intAsked := rfl

/-! ### `dropTlb` -/

@[simp] theorem dropTlb_params (va : Word) (s : State) : (dropTlb va s).params = s.params := rfl
@[simp] theorem dropTlb_x (va : Word) (s : State) : (dropTlb va s).x = s.x := rfl
@[simp] theorem dropTlb_v (va : Word) (s : State) : (dropTlb va s).v = s.v := rfl
@[simp] theorem dropTlb_flags (va : Word) (s : State) : (dropTlb va s).flags = s.flags := rfl
@[simp] theorem dropTlb_pc (va : Word) (s : State) : (dropTlb va s).pc = s.pc := rfl
@[simp] theorem dropTlb_sp (va : Word) (s : State) : (dropTlb va s).sp = s.sp := rfl
@[simp] theorem dropTlb_hier (va : Word) (s : State) : (dropTlb va s).hier = s.hier := rfl
@[simp] theorem dropTlb_mmu (va : Word) (s : State) :
    (dropTlb va s).mmu = { s.mmu with tlb := tlbDrop s.params.tlbEntries s.mmu.tlb (vpnOf va) } := rfl
@[simp] theorem dropTlb_mmioTable (va : Word) (s : State) : (dropTlb va s).mmioTable = s.mmioTable := rfl
@[simp] theorem dropTlb_ic (va : Word) (s : State) : (dropTlb va s).ic = s.ic := rfl
@[simp] theorem dropTlb_halted (va : Word) (s : State) : (dropTlb va s).halted = s.halted := rfl
@[simp] theorem dropTlb_exitCode (va : Word) (s : State) : (dropTlb va s).exitCode = s.exitCode := rfl
@[simp] theorem dropTlb_lastStatus (va : Word) (s : State) : (dropTlb va s).lastStatus = s.lastStatus := rfl
@[simp] theorem dropTlb_latches (va : Word) (s : State) : (dropTlb va s).latches = s.latches := rfl
@[simp] theorem dropTlb_predictor (va : Word) (s : State) : (dropTlb va s).predictor = s.predictor := rfl
@[simp] theorem dropTlb_perf (va : Word) (s : State) : (dropTlb va s).perf = s.perf := rfl
@[simp] theorem dropTlb_bkpt (va : Word) (s : State) : (dropTlb va s).bkpt = s.bkpt := rfl
@[simp] theorem dropTlb_resume (va : Word) (s : State) : (dropTlb va s).resume = s.resume := rfl
@[simp] theorem dropTlb_eventQ (va : Word) (s : State) : (dropTlb va s).eventQ = s.eventQ := rfl
@[simp] theorem dropTlb_envCalls (va : Word) (s : State) : (dropTlb va s).envCalls = s.envCalls := rfl
@[simp] theorem dropTlb_intAsked (va : Word) (s : State) : (dropTlb va s).intAsked = s.intAsked := rfl

/-! ### `countVector` -/

@[simp] theorem countVector_params (k : Nat) (s : State) : (countVector k s).params = s.params := rfl
@[simp] theorem countVector_x (k : Nat) (s : State) : (countVector k s).x = s.x := rfl
@[simp] theorem countVector_v (k : Nat) (s : State) : (countVector k s).v = s.v := rfl
@[simp] theorem countVector_flags (k : Nat) (s : State) : (countVector k s).flags = s.flags := rfl
@[simp] theorem countVector_pc (k : Nat) (s : State) : (countVector k s).pc = s.pc := rfl
@[simp] theorem countVector_sp (k : Nat) (s : State) : (countVector k s).sp = s.sp := rfl
@[simp] theorem countVector_hier (k : Nat) (s : State) : (countVector k s).hier = s.hier := rfl
@[simp] theorem countVector_mmu (k : Nat) (s : State) : (countVector k s).mmu = s.mmu := rfl
@[simp] theorem countVector_mmioTable (k : Nat) (s : State) : (countVector k s).mmioTable = s.mmioTable := rfl
@[simp] theorem countVector_ic (k : Nat) (s : State) :
    (countVector k s).ic = { s.ic with ivtStat := Store.set (fun _ => 0) s.ic.ivtStat k (statGet s k + 1) } := rfl
@[simp] theorem countVector_halted (k : Nat) (s : State) : (countVector k s).halted = s.halted := rfl
@[simp] theorem countVector_exitCode (k : Nat) (s : State) : (countVector k s).exitCode = s.exitCode := rfl
@[simp] theorem countVector_lastStatus (k : Nat) (s : State) : (countVector k s).lastStatus = s.lastStatus := rfl
@[simp] theorem countVector_latches (k : Nat) (s : State) : (countVector k s).latches = s.latches := rfl
@[simp] theorem countVector_predictor (k : Nat) (s : State) : (countVector k s).predictor = s.predictor := rfl
@[simp] theorem countVector_perf (k : Nat) (s : State) : (countVector k s).perf = s.perf := rfl
@[simp] theorem countVector_bkpt (k : Nat) (s : State) : (countVector k s).bkpt = s.bkpt := rfl
@[simp] theorem countVector_resume (k : Nat) (s : State) : (countVector k s).resume = s.resume := rfl
@[simp] theorem countVector_eventQ (k : Nat) (s : State) : (countVector k s).eventQ = s.eventQ := rfl
@[simp] theorem countVector_envCalls (k : Nat) (s : State) : (countVector k s).envCalls = s.envCalls := rfl
@[simp] theorem countVector_intAsked (k : Nat) (s : State) : (countVector k s).intAsked = s.intAsked := rfl

/-! ### `trapEnter` -/

@[simp] theorem trapEnter_params (a r : Word) (k : Nat) (i j : Word) (s : State) :
    (trapEnter a r k i j s).params = s.params := rfl
@[simp] theorem trapEnter_x (a r : Word) (k : Nat) (i j : Word) (s : State) : (trapEnter a r k i j s).x = s.x := rfl
@[simp] theorem trapEnter_v (a r : Word) (k : Nat) (i j : Word) (s : State) : (trapEnter a r k i j s).v = s.v := rfl
@[simp] theorem trapEnter_flags (a r : Word) (k : Nat) (i j : Word) (s : State) :
    (trapEnter a r k i j s).flags = flagsOnEntry s.flags := rfl
@[simp] theorem trapEnter_pc (a r : Word) (k : Nat) (i j : Word) (s : State) : (trapEnter a r k i j s).pc = a := rfl
@[simp] theorem trapEnter_sp (a r : Word) (k : Nat) (i j : Word) (s : State) :
    (trapEnter a r k i j s).sp = s.sp := rfl
@[simp] theorem trapEnter_hier (a r : Word) (k : Nat) (i j : Word) (s : State) :
    (trapEnter a r k i j s).hier = s.hier := rfl
@[simp] theorem trapEnter_mmu (a r : Word) (k : Nat) (i j : Word) (s : State) :
    (trapEnter a r k i j s).mmu = s.mmu := rfl
@[simp] theorem trapEnter_mmioTable (a r : Word) (k : Nat) (i j : Word) (s : State) :
    (trapEnter a r k i j s).mmioTable = s.mmioTable := rfl
@[simp] theorem trapEnter_ic (a r : Word) (k : Nat) (i j : Word) (s : State) :
    (trapEnter a r k i j s).ic = { s.ic with trapStk := Store.set (fun _ => noFrame) s.ic.trapStk s.ic.nest { retPc := r, flags := s.flags, vector := BitVec.ofNat 64 k, info0 := i, info1 := j }, nest := s.ic.nest + 1 } := rfl
@[simp] theorem trapEnter_halted (a r : Word) (k : Nat) (i j : Word) (s : State) :
    (trapEnter a r k i j s).halted = s.halted := rfl
@[simp] theorem trapEnter_exitCode (a r : Word) (k : Nat) (i j : Word) (s : State) :
    (trapEnter a r k i j s).exitCode = s.exitCode := rfl
@[simp] theorem trapEnter_lastStatus (a r : Word) (k : Nat) (i j : Word) (s : State) :
    (trapEnter a r k i j s).lastStatus = s.lastStatus := rfl
@[simp] theorem trapEnter_latches (a r : Word) (k : Nat) (i j : Word) (s : State) :
    (trapEnter a r k i j s).latches = s.latches := rfl
@[simp] theorem trapEnter_predictor (a r : Word) (k : Nat) (i j : Word) (s : State) :
    (trapEnter a r k i j s).predictor = s.predictor := rfl
@[simp] theorem trapEnter_perf (a r : Word) (k : Nat) (i j : Word) (s : State) :
    (trapEnter a r k i j s).perf = s.perf := rfl
@[simp] theorem trapEnter_bkpt (a r : Word) (k : Nat) (i j : Word) (s : State) :
    (trapEnter a r k i j s).bkpt = s.bkpt := rfl
@[simp] theorem trapEnter_resume (a r : Word) (k : Nat) (i j : Word) (s : State) :
    (trapEnter a r k i j s).resume = s.resume := rfl
@[simp] theorem trapEnter_eventQ (a r : Word) (k : Nat) (i j : Word) (s : State) :
    (trapEnter a r k i j s).eventQ = s.eventQ := rfl
@[simp] theorem trapEnter_envCalls (a r : Word) (k : Nat) (i j : Word) (s : State) :
    (trapEnter a r k i j s).envCalls = s.envCalls := rfl
@[simp] theorem trapEnter_intAsked (a r : Word) (k : Nat) (i j : Word) (s : State) :
    (trapEnter a r k i j s).intAsked = s.intAsked := rfl

/-! ### `trapReturn` -/

@[simp] theorem trapReturn_params (s : State) : (trapReturn s).params = s.params := rfl
@[simp] theorem trapReturn_x (s : State) : (trapReturn s).x = s.x := rfl
@[simp] theorem trapReturn_v (s : State) : (trapReturn s).v = s.v := rfl
@[simp] theorem trapReturn_flags (s : State) :
    (trapReturn s).flags = flagBits (frameAt s (s.ic.nest - 1)).flags := rfl
@[simp] theorem trapReturn_pc (s : State) : (trapReturn s).pc = (frameAt s (s.ic.nest - 1)).retPc := rfl
@[simp] theorem trapReturn_sp (s : State) : (trapReturn s).sp = s.sp := rfl
@[simp] theorem trapReturn_hier (s : State) : (trapReturn s).hier = s.hier := rfl
@[simp] theorem trapReturn_mmu (s : State) : (trapReturn s).mmu = s.mmu := rfl
@[simp] theorem trapReturn_mmioTable (s : State) : (trapReturn s).mmioTable = s.mmioTable := rfl
@[simp] theorem trapReturn_ic (s : State) : (trapReturn s).ic = { s.ic with nest := s.ic.nest - 1 } := rfl
@[simp] theorem trapReturn_halted (s : State) : (trapReturn s).halted = s.halted := rfl
@[simp] theorem trapReturn_exitCode (s : State) : (trapReturn s).exitCode = s.exitCode := rfl
@[simp] theorem trapReturn_lastStatus (s : State) : (trapReturn s).lastStatus = s.lastStatus := rfl
@[simp] theorem trapReturn_latches (s : State) : (trapReturn s).latches = s.latches := rfl
@[simp] theorem trapReturn_predictor (s : State) : (trapReturn s).predictor = s.predictor := rfl
@[simp] theorem trapReturn_perf (s : State) : (trapReturn s).perf = s.perf := rfl
@[simp] theorem trapReturn_bkpt (s : State) : (trapReturn s).bkpt = s.bkpt := rfl
@[simp] theorem trapReturn_resume (s : State) : (trapReturn s).resume = s.resume := rfl
@[simp] theorem trapReturn_eventQ (s : State) : (trapReturn s).eventQ = s.eventQ := rfl
@[simp] theorem trapReturn_envCalls (s : State) : (trapReturn s).envCalls = s.envCalls := rfl
@[simp] theorem trapReturn_intAsked (s : State) : (trapReturn s).intAsked = s.intAsked := rfl

/-! ### `unpend` -/

@[simp] theorem unpend_params (k : Nat) (s : State) : (unpend k s).params = s.params := rfl
@[simp] theorem unpend_x (k : Nat) (s : State) : (unpend k s).x = s.x := rfl
@[simp] theorem unpend_v (k : Nat) (s : State) : (unpend k s).v = s.v := rfl
@[simp] theorem unpend_flags (k : Nat) (s : State) : (unpend k s).flags = s.flags := rfl
@[simp] theorem unpend_pc (k : Nat) (s : State) : (unpend k s).pc = s.pc := rfl
@[simp] theorem unpend_sp (k : Nat) (s : State) : (unpend k s).sp = s.sp := rfl
@[simp] theorem unpend_hier (k : Nat) (s : State) : (unpend k s).hier = s.hier := rfl
@[simp] theorem unpend_mmu (k : Nat) (s : State) : (unpend k s).mmu = s.mmu := rfl
@[simp] theorem unpend_mmioTable (k : Nat) (s : State) : (unpend k s).mmioTable = s.mmioTable := rfl
@[simp] theorem unpend_ic (k : Nat) (s : State) :
    (unpend k s).ic = { s.ic with pending := s.ic.pending &&& ~~~(1#256 <<< k) } := rfl
@[simp] theorem unpend_halted (k : Nat) (s : State) : (unpend k s).halted = s.halted := rfl
@[simp] theorem unpend_exitCode (k : Nat) (s : State) : (unpend k s).exitCode = s.exitCode := rfl
@[simp] theorem unpend_lastStatus (k : Nat) (s : State) : (unpend k s).lastStatus = s.lastStatus := rfl
@[simp] theorem unpend_latches (k : Nat) (s : State) : (unpend k s).latches = s.latches := rfl
@[simp] theorem unpend_predictor (k : Nat) (s : State) : (unpend k s).predictor = s.predictor := rfl
@[simp] theorem unpend_perf (k : Nat) (s : State) : (unpend k s).perf = s.perf := rfl
@[simp] theorem unpend_bkpt (k : Nat) (s : State) : (unpend k s).bkpt = s.bkpt := rfl
@[simp] theorem unpend_resume (k : Nat) (s : State) : (unpend k s).resume = s.resume := rfl
@[simp] theorem unpend_eventQ (k : Nat) (s : State) : (unpend k s).eventQ = s.eventQ := rfl
@[simp] theorem unpend_envCalls (k : Nat) (s : State) : (unpend k s).envCalls = s.envCalls := rfl
@[simp] theorem unpend_intAsked (k : Nat) (s : State) : (unpend k s).intAsked = s.intAsked := rfl

/-! ### `resolveControl` -/

@[simp] theorem resolveControl_params (pc q : Word) (b : Bool) (n : Word) (s : State) :
    (resolveControl pc q b n s).params = s.params := rfl
@[simp] theorem resolveControl_x (pc q : Word) (b : Bool) (n : Word) (s : State) :
    (resolveControl pc q b n s).x = s.x := rfl
@[simp] theorem resolveControl_v (pc q : Word) (b : Bool) (n : Word) (s : State) :
    (resolveControl pc q b n s).v = s.v := rfl
@[simp] theorem resolveControl_flags (pc q : Word) (b : Bool) (n : Word) (s : State) :
    (resolveControl pc q b n s).flags = s.flags := rfl
@[simp] theorem resolveControl_pc (pc q : Word) (b : Bool) (n : Word) (s : State) :
    (resolveControl pc q b n s).pc = s.pc := rfl
@[simp] theorem resolveControl_sp (pc q : Word) (b : Bool) (n : Word) (s : State) :
    (resolveControl pc q b n s).sp = s.sp := rfl
@[simp] theorem resolveControl_hier (pc q : Word) (b : Bool) (n : Word) (s : State) :
    (resolveControl pc q b n s).hier = s.hier := rfl
@[simp] theorem resolveControl_mmu (pc q : Word) (b : Bool) (n : Word) (s : State) :
    (resolveControl pc q b n s).mmu = s.mmu := rfl
@[simp] theorem resolveControl_mmioTable (pc q : Word) (b : Bool) (n : Word) (s : State) :
    (resolveControl pc q b n s).mmioTable = s.mmioTable := rfl
@[simp] theorem resolveControl_ic (pc q : Word) (b : Bool) (n : Word) (s : State) :
    (resolveControl pc q b n s).ic = s.ic := rfl
@[simp] theorem resolveControl_halted (pc q : Word) (b : Bool) (n : Word) (s : State) :
    (resolveControl pc q b n s).halted = s.halted := rfl
@[simp] theorem resolveControl_exitCode (pc q : Word) (b : Bool) (n : Word) (s : State) :
    (resolveControl pc q b n s).exitCode = s.exitCode := rfl
@[simp] theorem resolveControl_lastStatus (pc q : Word) (b : Bool) (n : Word) (s : State) :
    (resolveControl pc q b n s).lastStatus = s.lastStatus := rfl
@[simp] theorem resolveControl_latches (pc q : Word) (b : Bool) (n : Word) (s : State) :
    (resolveControl pc q b n s).latches = s.latches := rfl
@[simp] theorem resolveControl_predictor (pc q : Word) (b : Bool) (n : Word) (s : State) :
    (resolveControl pc q b n s).predictor = train s.params s.predictor pc b n := rfl
@[simp] theorem resolveControl_perf (pc q : Word) (b : Bool) (n : Word) (s : State) :
    (resolveControl pc q b n s).perf = { s.perf with mispredicts := s.perf.mispredicts + (if n != q then 1 else 0) } := rfl
@[simp] theorem resolveControl_bkpt (pc q : Word) (b : Bool) (n : Word) (s : State) :
    (resolveControl pc q b n s).bkpt = s.bkpt := rfl
@[simp] theorem resolveControl_resume (pc q : Word) (b : Bool) (n : Word) (s : State) :
    (resolveControl pc q b n s).resume = s.resume := rfl
@[simp] theorem resolveControl_eventQ (pc q : Word) (b : Bool) (n : Word) (s : State) :
    (resolveControl pc q b n s).eventQ = s.eventQ := rfl
@[simp] theorem resolveControl_envCalls (pc q : Word) (b : Bool) (n : Word) (s : State) :
    (resolveControl pc q b n s).envCalls = s.envCalls := rfl
@[simp] theorem resolveControl_intAsked (pc q : Word) (b : Bool) (n : Word) (s : State) :
    (resolveControl pc q b n s).intAsked = s.intAsked := rfl

/-! ### `breakpointStop` -/

@[simp] theorem breakpointStop_params (a : Word) (s : State) :
    (breakpointStop a s).params = s.params := by unfold breakpointStop pushEvent; split <;> rfl
@[simp] theorem breakpointStop_x (a : Word) (s : State) :
    (breakpointStop a s).x = s.x := by unfold breakpointStop pushEvent; split <;> rfl
@[simp] theorem breakpointStop_v (a : Word) (s : State) :
    (breakpointStop a s).v = s.v := by unfold breakpointStop pushEvent; split <;> rfl
@[simp] theorem breakpointStop_flags (a : Word) (s : State) :
    (breakpointStop a s).flags = s.flags := by unfold breakpointStop pushEvent; split <;> rfl
@[simp] theorem breakpointStop_pc (a : Word) (s : State) :
    (breakpointStop a s).pc = a := by unfold breakpointStop pushEvent; split <;> rfl
@[simp] theorem breakpointStop_sp (a : Word) (s : State) :
    (breakpointStop a s).sp = s.sp := by unfold breakpointStop pushEvent; split <;> rfl
@[simp] theorem breakpointStop_hier (a : Word) (s : State) :
    (breakpointStop a s).hier = s.hier := by unfold breakpointStop pushEvent; split <;> rfl
@[simp] theorem breakpointStop_mmu (a : Word) (s : State) :
    (breakpointStop a s).mmu = s.mmu := by unfold breakpointStop pushEvent; split <;> rfl
@[simp] theorem breakpointStop_mmioTable (a : Word) (s : State) :
    (breakpointStop a s).mmioTable = s.mmioTable := by unfold breakpointStop pushEvent; split <;> rfl
@[simp] theorem breakpointStop_ic (a : Word) (s : State) :
    (breakpointStop a s).ic = s.ic := by unfold breakpointStop pushEvent; split <;> rfl
@[simp] theorem breakpointStop_halted (a : Word) (s : State) :
    (breakpointStop a s).halted = s.halted := by unfold breakpointStop pushEvent; split <;> rfl
@[simp] theorem breakpointStop_exitCode (a : Word) (s : State) :
    (breakpointStop a s).exitCode = s.exitCode := by unfold breakpointStop pushEvent; split <;> rfl
@[simp] theorem breakpointStop_lastStatus (a : Word) (s : State) :
    (breakpointStop a s).lastStatus = .breakpoint := by unfold breakpointStop pushEvent; split <;> rfl
@[simp] theorem breakpointStop_latches (a : Word) (s : State) :
    (breakpointStop a s).latches = s.latches := by unfold breakpointStop pushEvent; split <;> rfl
@[simp] theorem breakpointStop_predictor (a : Word) (s : State) :
    (breakpointStop a s).predictor = s.predictor := by unfold breakpointStop pushEvent; split <;> rfl
@[simp] theorem breakpointStop_perf (a : Word) (s : State) :
    (breakpointStop a s).perf = s.perf := by unfold breakpointStop pushEvent; split <;> rfl
@[simp] theorem breakpointStop_bkpt (a : Word) (s : State) :
    (breakpointStop a s).bkpt = s.bkpt := by unfold breakpointStop pushEvent; split <;> rfl
@[simp] theorem breakpointStop_resume (a : Word) (s : State) :
    (breakpointStop a s).resume = true := by unfold breakpointStop pushEvent; split <;> rfl
@[simp] theorem breakpointStop_envCalls (a : Word) (s : State) :
    (breakpointStop a s).envCalls = s.envCalls := by unfold breakpointStop pushEvent; split <;> rfl
@[simp] theorem breakpointStop_intAsked (a : Word) (s : State) :
    (breakpointStop a s).intAsked = s.intAsked := by unfold breakpointStop pushEvent; split <;> rfl

/-! ### `squash` -/

@[simp] theorem squash_params (s : State) : (squash s).params = s.params := rfl
@[simp] theorem squash_x (s : State) : (squash s).x = s.x := rfl
@[simp] theorem squash_v (s : State) : (squash s).v = s.v := rfl
@[simp] theorem squash_flags (s : State) : (squash s).flags = s.flags := rfl
@[simp] theorem squash_pc (s : State) : (squash s).pc = archPc s := rfl
@[simp] theorem squash_sp (s : State) : (squash s).sp = s.sp := rfl
@[simp] theorem squash_hier (s : State) : (squash s).hier = s.hier := rfl
@[simp] theorem squash_mmu (s : State) : (squash s).mmu = s.mmu := rfl
@[simp] theorem squash_mmioTable (s : State) : (squash s).mmioTable = s.mmioTable := rfl
@[simp] theorem squash_ic (s : State) : (squash s).ic = s.ic := rfl
@[simp] theorem squash_halted (s : State) : (squash s).halted = s.halted := rfl
@[simp] theorem squash_exitCode (s : State) : (squash s).exitCode = s.exitCode := rfl
@[simp] theorem squash_lastStatus (s : State) : (squash s).lastStatus = s.lastStatus := rfl
@[simp] theorem squash_latches (s : State) :
    (squash s).latches = { ifId := none, idEx := none, exMem := none, memWb := none } := rfl
@[simp] theorem squash_predictor (s : State) : (squash s).predictor = s.predictor := rfl
@[simp] theorem squash_perf (s : State) : (squash s).perf = s.perf := rfl
@[simp] theorem squash_bkpt (s : State) : (squash s).bkpt = s.bkpt := rfl
@[simp] theorem squash_resume (s : State) : (squash s).resume = s.resume := rfl
@[simp] theorem squash_eventQ (s : State) : (squash s).eventQ = s.eventQ := rfl
@[simp] theorem squash_envCalls (s : State) : (squash s).envCalls = s.envCalls := rfl
@[simp] theorem squash_intAsked (s : State) : (squash s).intAsked = s.intAsked := rfl

/-! ### `startStep` -/

@[simp] theorem startStep_params (s : State) : (startStep s).params = s.params := rfl
@[simp] theorem startStep_x (s : State) : (startStep s).x = s.x := rfl
@[simp] theorem startStep_v (s : State) : (startStep s).v = s.v := rfl
@[simp] theorem startStep_flags (s : State) : (startStep s).flags = s.flags := rfl
@[simp] theorem startStep_pc (s : State) : (startStep s).pc = s.pc := rfl
@[simp] theorem startStep_sp (s : State) : (startStep s).sp = s.sp := rfl
@[simp] theorem startStep_hier (s : State) : (startStep s).hier = s.hier := rfl
@[simp] theorem startStep_mmu (s : State) : (startStep s).mmu = s.mmu := rfl
@[simp] theorem startStep_mmioTable (s : State) : (startStep s).mmioTable = s.mmioTable := rfl
@[simp] theorem startStep_ic (s : State) : (startStep s).ic = s.ic := rfl
@[simp] theorem startStep_halted (s : State) : (startStep s).halted = s.halted := rfl
@[simp] theorem startStep_exitCode (s : State) : (startStep s).exitCode = s.exitCode := rfl
@[simp] theorem startStep_lastStatus (s : State) : (startStep s).lastStatus = .ok := rfl
@[simp] theorem startStep_latches (s : State) : (startStep s).latches = s.latches := rfl
@[simp] theorem startStep_predictor (s : State) : (startStep s).predictor = s.predictor := rfl
@[simp] theorem startStep_perf (s : State) : (startStep s).perf = s.perf := rfl
@[simp] theorem startStep_bkpt (s : State) : (startStep s).bkpt = s.bkpt := rfl
@[simp] theorem startStep_resume (s : State) : (startStep s).resume = s.resume := rfl
@[simp] theorem startStep_eventQ (s : State) : (startStep s).eventQ = s.eventQ := rfl
@[simp] theorem startStep_envCalls (s : State) : (startStep s).envCalls = s.envCalls := rfl
@[simp] theorem startStep_intAsked (s : State) : (startStep s).intAsked = s.intAsked := rfl

/-! ### `askEnvironment` -/

@[simp] theorem askEnvironment_params (s : State) : (askEnvironment s).params = s.params := rfl
@[simp] theorem askEnvironment_x (s : State) : (askEnvironment s).x = s.x := rfl
@[simp] theorem askEnvironment_v (s : State) : (askEnvironment s).v = s.v := rfl
@[simp] theorem askEnvironment_flags (s : State) : (askEnvironment s).flags = s.flags := rfl
@[simp] theorem askEnvironment_pc (s : State) : (askEnvironment s).pc = s.pc := rfl
@[simp] theorem askEnvironment_sp (s : State) : (askEnvironment s).sp = s.sp := rfl
@[simp] theorem askEnvironment_hier (s : State) : (askEnvironment s).hier = s.hier := rfl
@[simp] theorem askEnvironment_mmu (s : State) : (askEnvironment s).mmu = s.mmu := rfl
@[simp] theorem askEnvironment_mmioTable (s : State) : (askEnvironment s).mmioTable = s.mmioTable := rfl
@[simp] theorem askEnvironment_ic (s : State) : (askEnvironment s).ic = s.ic := rfl
@[simp] theorem askEnvironment_halted (s : State) : (askEnvironment s).halted = s.halted := rfl
@[simp] theorem askEnvironment_exitCode (s : State) : (askEnvironment s).exitCode = s.exitCode := rfl
@[simp] theorem askEnvironment_lastStatus (s : State) : (askEnvironment s).lastStatus = s.lastStatus := rfl
@[simp] theorem askEnvironment_latches (s : State) : (askEnvironment s).latches = s.latches := rfl
@[simp] theorem askEnvironment_predictor (s : State) : (askEnvironment s).predictor = s.predictor := rfl
@[simp] theorem askEnvironment_perf (s : State) : (askEnvironment s).perf = s.perf := rfl
@[simp] theorem askEnvironment_bkpt (s : State) : (askEnvironment s).bkpt = s.bkpt := rfl
@[simp] theorem askEnvironment_resume (s : State) : (askEnvironment s).resume = s.resume := rfl
@[simp] theorem askEnvironment_eventQ (s : State) : (askEnvironment s).eventQ = s.eventQ := rfl
@[simp] theorem askEnvironment_envCalls (s : State) : (askEnvironment s).envCalls = s.envCalls := rfl
@[simp] theorem askEnvironment_intAsked (s : State) : (askEnvironment s).intAsked = s.intAsked + 1 := rfl

/-! ### `startTick` -/

@[simp] theorem startTick_params (s : State) : (startTick s).params = s.params := rfl
@[simp] theorem startTick_x (s : State) : (startTick s).x = s.x := rfl
@[simp] theorem startTick_v (s : State) : (startTick s).v = s.v := rfl
@[simp] theorem startTick_flags (s : State) : (startTick s).flags = s.flags := rfl
@[simp] theorem startTick_pc (s : State) : (startTick s).pc = s.pc := rfl
@[simp] theorem startTick_sp (s : State) : (startTick s).sp = s.sp := rfl
@[simp] theorem startTick_hier (s : State) : (startTick s).hier = s.hier := rfl
@[simp] theorem startTick_mmu (s : State) : (startTick s).mmu = s.mmu := rfl
@[simp] theorem startTick_mmioTable (s : State) : (startTick s).mmioTable = s.mmioTable := rfl
@[simp] theorem startTick_ic (s : State) : (startTick s).ic = s.ic := rfl
@[simp] theorem startTick_halted (s : State) : (startTick s).halted = s.halted := rfl
@[simp] theorem startTick_exitCode (s : State) : (startTick s).exitCode = s.exitCode := rfl
@[simp] theorem startTick_lastStatus (s : State) : (startTick s).lastStatus = .ok := rfl
@[simp] theorem startTick_latches (s : State) : (startTick s).latches = s.latches := rfl
@[simp] theorem startTick_predictor (s : State) : (startTick s).predictor = s.predictor := rfl
@[simp] theorem startTick_perf (s : State) : (startTick s).perf = { s.perf with cycles := s.perf.cycles + 1 } := rfl
@[simp] theorem startTick_bkpt (s : State) : (startTick s).bkpt = s.bkpt := rfl
@[simp] theorem startTick_resume (s : State) : (startTick s).resume = s.resume := rfl
@[simp] theorem startTick_eventQ (s : State) : (startTick s).eventQ = s.eventQ := rfl
@[simp] theorem startTick_envCalls (s : State) : (startTick s).envCalls = s.envCalls := rfl
@[simp] theorem startTick_intAsked (s : State) : (startTick s).intAsked = s.intAsked := rfl

/-! ### `setIfId` -/

@[simp] theorem setIfId_params (l : Option IfId) (s : State) : (setIfId l s).params = s.params := rfl
@[simp] theorem setIfId_x (l : Option IfId) (s : State) : (setIfId l s).x = s.x := rfl
@[simp] theorem setIfId_v (l : Option IfId) (s : State) : (setIfId l s).v = s.v := rfl
@[simp] theorem setIfId_flags (l : Option IfId) (s : State) : (setIfId l s).flags = s.flags := rfl
@[simp] theorem setIfId_pc (l : Option IfId) (s : State) : (setIfId l s).pc = s.pc := rfl
@[simp] theorem setIfId_sp (l : Option IfId) (s : State) : (setIfId l s).sp = s.sp := rfl
@[simp] theorem setIfId_hier (l : Option IfId) (s : State) : (setIfId l s).hier = s.hier := rfl
@[simp] theorem setIfId_mmu (l : Option IfId) (s : State) : (setIfId l s).mmu = s.mmu := rfl
@[simp] theorem setIfId_mmioTable (l : Option IfId) (s : State) : (setIfId l s).mmioTable = s.mmioTable := rfl
@[simp] theorem setIfId_ic (l : Option IfId) (s : State) : (setIfId l s).ic = s.ic := rfl
@[simp] theorem setIfId_halted (l : Option IfId) (s : State) : (setIfId l s).halted = s.halted := rfl
@[simp] theorem setIfId_exitCode (l : Option IfId) (s : State) : (setIfId l s).exitCode = s.exitCode := rfl
@[simp] theorem setIfId_lastStatus (l : Option IfId) (s : State) : (setIfId l s).lastStatus = s.lastStatus := rfl
@[simp] theorem setIfId_latches (l : Option IfId) (s : State) :
    (setIfId l s).latches = { s.latches with ifId := l } := rfl
@[simp] theorem setIfId_predictor (l : Option IfId) (s : State) : (setIfId l s).predictor = s.predictor := rfl
@[simp] theorem setIfId_perf (l : Option IfId) (s : State) : (setIfId l s).perf = s.perf := rfl
@[simp] theorem setIfId_bkpt (l : Option IfId) (s : State) : (setIfId l s).bkpt = s.bkpt := rfl
@[simp] theorem setIfId_resume (l : Option IfId) (s : State) : (setIfId l s).resume = s.resume := rfl
@[simp] theorem setIfId_eventQ (l : Option IfId) (s : State) : (setIfId l s).eventQ = s.eventQ := rfl
@[simp] theorem setIfId_envCalls (l : Option IfId) (s : State) : (setIfId l s).envCalls = s.envCalls := rfl
@[simp] theorem setIfId_intAsked (l : Option IfId) (s : State) : (setIfId l s).intAsked = s.intAsked := rfl

/-! ### `setIdEx` -/

@[simp] theorem setIdEx_params (l : Option IdEx) (s : State) : (setIdEx l s).params = s.params := rfl
@[simp] theorem setIdEx_x (l : Option IdEx) (s : State) : (setIdEx l s).x = s.x := rfl
@[simp] theorem setIdEx_v (l : Option IdEx) (s : State) : (setIdEx l s).v = s.v := rfl
@[simp] theorem setIdEx_flags (l : Option IdEx) (s : State) : (setIdEx l s).flags = s.flags := rfl
@[simp] theorem setIdEx_pc (l : Option IdEx) (s : State) : (setIdEx l s).pc = s.pc := rfl
@[simp] theorem setIdEx_sp (l : Option IdEx) (s : State) : (setIdEx l s).sp = s.sp := rfl
@[simp] theorem setIdEx_hier (l : Option IdEx) (s : State) : (setIdEx l s).hier = s.hier := rfl
@[simp] theorem setIdEx_mmu (l : Option IdEx) (s : State) : (setIdEx l s).mmu = s.mmu := rfl
@[simp] theorem setIdEx_mmioTable (l : Option IdEx) (s : State) : (setIdEx l s).mmioTable = s.mmioTable := rfl
@[simp] theorem setIdEx_ic (l : Option IdEx) (s : State) : (setIdEx l s).ic = s.ic := rfl
@[simp] theorem setIdEx_halted (l : Option IdEx) (s : State) : (setIdEx l s).halted = s.halted := rfl
@[simp] theorem setIdEx_exitCode (l : Option IdEx) (s : State) : (setIdEx l s).exitCode = s.exitCode := rfl
@[simp] theorem setIdEx_lastStatus (l : Option IdEx) (s : State) : (setIdEx l s).lastStatus = s.lastStatus := rfl
@[simp] theorem setIdEx_latches (l : Option IdEx) (s : State) :
    (setIdEx l s).latches = { s.latches with idEx := l } := rfl
@[simp] theorem setIdEx_predictor (l : Option IdEx) (s : State) : (setIdEx l s).predictor = s.predictor := rfl
@[simp] theorem setIdEx_perf (l : Option IdEx) (s : State) : (setIdEx l s).perf = s.perf := rfl
@[simp] theorem setIdEx_bkpt (l : Option IdEx) (s : State) : (setIdEx l s).bkpt = s.bkpt := rfl
@[simp] theorem setIdEx_resume (l : Option IdEx) (s : State) : (setIdEx l s).resume = s.resume := rfl
@[simp] theorem setIdEx_eventQ (l : Option IdEx) (s : State) : (setIdEx l s).eventQ = s.eventQ := rfl
@[simp] theorem setIdEx_envCalls (l : Option IdEx) (s : State) : (setIdEx l s).envCalls = s.envCalls := rfl
@[simp] theorem setIdEx_intAsked (l : Option IdEx) (s : State) : (setIdEx l s).intAsked = s.intAsked := rfl

/-! ### `setExMem` -/

@[simp] theorem setExMem_params (l : Option ExMem) (s : State) : (setExMem l s).params = s.params := rfl
@[simp] theorem setExMem_x (l : Option ExMem) (s : State) : (setExMem l s).x = s.x := rfl
@[simp] theorem setExMem_v (l : Option ExMem) (s : State) : (setExMem l s).v = s.v := rfl
@[simp] theorem setExMem_flags (l : Option ExMem) (s : State) : (setExMem l s).flags = s.flags := rfl
@[simp] theorem setExMem_pc (l : Option ExMem) (s : State) : (setExMem l s).pc = s.pc := rfl
@[simp] theorem setExMem_sp (l : Option ExMem) (s : State) : (setExMem l s).sp = s.sp := rfl
@[simp] theorem setExMem_hier (l : Option ExMem) (s : State) : (setExMem l s).hier = s.hier := rfl
@[simp] theorem setExMem_mmu (l : Option ExMem) (s : State) : (setExMem l s).mmu = s.mmu := rfl
@[simp] theorem setExMem_mmioTable (l : Option ExMem) (s : State) : (setExMem l s).mmioTable = s.mmioTable := rfl
@[simp] theorem setExMem_ic (l : Option ExMem) (s : State) : (setExMem l s).ic = s.ic := rfl
@[simp] theorem setExMem_halted (l : Option ExMem) (s : State) : (setExMem l s).halted = s.halted := rfl
@[simp] theorem setExMem_exitCode (l : Option ExMem) (s : State) : (setExMem l s).exitCode = s.exitCode := rfl
@[simp] theorem setExMem_lastStatus (l : Option ExMem) (s : State) : (setExMem l s).lastStatus = s.lastStatus := rfl
@[simp] theorem setExMem_latches (l : Option ExMem) (s : State) :
    (setExMem l s).latches = { s.latches with exMem := l } := rfl
@[simp] theorem setExMem_predictor (l : Option ExMem) (s : State) : (setExMem l s).predictor = s.predictor := rfl
@[simp] theorem setExMem_perf (l : Option ExMem) (s : State) : (setExMem l s).perf = s.perf := rfl
@[simp] theorem setExMem_bkpt (l : Option ExMem) (s : State) : (setExMem l s).bkpt = s.bkpt := rfl
@[simp] theorem setExMem_resume (l : Option ExMem) (s : State) : (setExMem l s).resume = s.resume := rfl
@[simp] theorem setExMem_eventQ (l : Option ExMem) (s : State) : (setExMem l s).eventQ = s.eventQ := rfl
@[simp] theorem setExMem_envCalls (l : Option ExMem) (s : State) : (setExMem l s).envCalls = s.envCalls := rfl
@[simp] theorem setExMem_intAsked (l : Option ExMem) (s : State) : (setExMem l s).intAsked = s.intAsked := rfl

/-! ### `setMemWb` -/

@[simp] theorem setMemWb_params (l : Option MemWb) (s : State) : (setMemWb l s).params = s.params := rfl
@[simp] theorem setMemWb_x (l : Option MemWb) (s : State) : (setMemWb l s).x = s.x := rfl
@[simp] theorem setMemWb_v (l : Option MemWb) (s : State) : (setMemWb l s).v = s.v := rfl
@[simp] theorem setMemWb_flags (l : Option MemWb) (s : State) : (setMemWb l s).flags = s.flags := rfl
@[simp] theorem setMemWb_pc (l : Option MemWb) (s : State) : (setMemWb l s).pc = s.pc := rfl
@[simp] theorem setMemWb_sp (l : Option MemWb) (s : State) : (setMemWb l s).sp = s.sp := rfl
@[simp] theorem setMemWb_hier (l : Option MemWb) (s : State) : (setMemWb l s).hier = s.hier := rfl
@[simp] theorem setMemWb_mmu (l : Option MemWb) (s : State) : (setMemWb l s).mmu = s.mmu := rfl
@[simp] theorem setMemWb_mmioTable (l : Option MemWb) (s : State) : (setMemWb l s).mmioTable = s.mmioTable := rfl
@[simp] theorem setMemWb_ic (l : Option MemWb) (s : State) : (setMemWb l s).ic = s.ic := rfl
@[simp] theorem setMemWb_halted (l : Option MemWb) (s : State) : (setMemWb l s).halted = s.halted := rfl
@[simp] theorem setMemWb_exitCode (l : Option MemWb) (s : State) : (setMemWb l s).exitCode = s.exitCode := rfl
@[simp] theorem setMemWb_lastStatus (l : Option MemWb) (s : State) : (setMemWb l s).lastStatus = s.lastStatus := rfl
@[simp] theorem setMemWb_latches (l : Option MemWb) (s : State) :
    (setMemWb l s).latches = { s.latches with memWb := l } := rfl
@[simp] theorem setMemWb_predictor (l : Option MemWb) (s : State) : (setMemWb l s).predictor = s.predictor := rfl
@[simp] theorem setMemWb_perf (l : Option MemWb) (s : State) : (setMemWb l s).perf = s.perf := rfl
@[simp] theorem setMemWb_bkpt (l : Option MemWb) (s : State) : (setMemWb l s).bkpt = s.bkpt := rfl
@[simp] theorem setMemWb_resume (l : Option MemWb) (s : State) : (setMemWb l s).resume = s.resume := rfl
@[simp] theorem setMemWb_eventQ (l : Option MemWb) (s : State) : (setMemWb l s).eventQ = s.eventQ := rfl
@[simp] theorem setMemWb_envCalls (l : Option MemWb) (s : State) : (setMemWb l s).envCalls = s.envCalls := rfl
@[simp] theorem setMemWb_intAsked (l : Option MemWb) (s : State) : (setMemWb l s).intAsked = s.intAsked := rfl

/-! ### `flushYounger` -/

@[simp] theorem flushYounger_params (s : State) : (flushYounger s).params = s.params := rfl
@[simp] theorem flushYounger_x (s : State) : (flushYounger s).x = s.x := rfl
@[simp] theorem flushYounger_v (s : State) : (flushYounger s).v = s.v := rfl
@[simp] theorem flushYounger_flags (s : State) : (flushYounger s).flags = s.flags := rfl
@[simp] theorem flushYounger_pc (s : State) : (flushYounger s).pc = s.pc := rfl
@[simp] theorem flushYounger_sp (s : State) : (flushYounger s).sp = s.sp := rfl
@[simp] theorem flushYounger_hier (s : State) : (flushYounger s).hier = s.hier := rfl
@[simp] theorem flushYounger_mmu (s : State) : (flushYounger s).mmu = s.mmu := rfl
@[simp] theorem flushYounger_mmioTable (s : State) : (flushYounger s).mmioTable = s.mmioTable := rfl
@[simp] theorem flushYounger_ic (s : State) : (flushYounger s).ic = s.ic := rfl
@[simp] theorem flushYounger_halted (s : State) : (flushYounger s).halted = s.halted := rfl
@[simp] theorem flushYounger_exitCode (s : State) : (flushYounger s).exitCode = s.exitCode := rfl
@[simp] theorem flushYounger_lastStatus (s : State) : (flushYounger s).lastStatus = s.lastStatus := rfl
@[simp] theorem flushYounger_latches (s : State) :
    (flushYounger s).latches = { ifId := none, idEx := none, exMem := none, memWb := s.latches.memWb } := rfl
@[simp] theorem flushYounger_predictor (s : State) : (flushYounger s).predictor = s.predictor := rfl
@[simp] theorem flushYounger_perf (s : State) : (flushYounger s).perf = s.perf := rfl
@[simp] theorem flushYounger_bkpt (s : State) : (flushYounger s).bkpt = s.bkpt := rfl
@[simp] theorem flushYounger_resume (s : State) : (flushYounger s).resume = s.resume := rfl
@[simp] theorem flushYounger_eventQ (s : State) : (flushYounger s).eventQ = s.eventQ := rfl
@[simp] theorem flushYounger_envCalls (s : State) : (flushYounger s).envCalls = s.envCalls := rfl
@[simp] theorem flushYounger_intAsked (s : State) : (flushYounger s).intAsked = s.intAsked := rfl

/-! ### Reading registers -/

theorem getX_congr {s t : State} (h : t.x = s.x) (r : Reg) : getX t r = getX s r := by simp [getX, h]

theorem getV_congr {s t : State} (h : t.v = s.v) (r : VReg) : getV t r = getV s r := by simp [getV, h]

@[simp] theorem getX_zero (s : State) : getX s 0 = 0 := rfl

/-- A written general register is read back, R0 stays 0, every other register keeps its value. -/
theorem getX_setX (r q : Reg) (w : Word) (s : State) :
    getX (setX r w s) q = if q = r then (if r = 0 then 0 else w) else getX s q := by
  unfold setX getX
  by_cases hr : r = 0
  · subst hr; by_cases hq : q = 0 <;> simp_all
  · rw [if_neg hr]
    by_cases hq : q = 0
    · subst hq; rw [if_pos rfl, if_neg (Ne.symm hr), if_pos rfl]
    · simp only [hr, hq, if_false, Vector.getElem_set, BitVec.toNat_inj]
      by_cases h : r = q
      · subst h; simp
      · simp [h, Ne.symm h]

/-- A written vector register is read back, every other one keeps its value. -/
theorem getV_setV (r q : VReg) (w : VWord) (s : State) :
    getV (setV r w s) q = if q = r then w else getV s q := by
  simp only [setV, getV, Vector.getElem_set, BitVec.toNat_inj]
  by_cases h : r = q
  · subst h; simp
  · simp [h, Ne.symm h]

@[simp] theorem getV_setX (r : Reg) (q : VReg) (w : Word) (s : State) : getV (setX r w s) q = getV s q :=
  getV_congr (setX_v r w s) q

@[simp] theorem getX_setV (r : VReg) (q : Reg) (w : VWord) (s : State) : getX (setV r w s) q = getX s q := rfl

@[simp] theorem getX_setPc (t : Word) (s : State) (y : Reg) : getX (setPc t s) y = getX s y :=
  getX_congr (setPc_x _ _) y
@[simp] theorem getV_setPc (t : Word) (s : State) (y : VReg) : getV (setPc t s) y = getV s y :=
  getV_congr (setPc_v _ _) y
@[simp] theorem getX_advance (s : State) (y : Reg) : getX (advance s) y = getX s y := getX_congr (advance_x _) y
@[simp] theorem getV_advance (s : State) (y : VReg) : getV (advance s) y = getV s y := getV_congr (advance_v _) y
@[simp] theorem getX_setNzcv (a : Nzcv) (s : State) (y : Reg) : getX (setNzcv a s) y = getX s y :=
  getX_congr (setNzcv_x _ _) y
@[simp] theorem getV_setNzcv (a : Nzcv) (s : State) (y : VReg) : getV (setNzcv a s) y = getV s y :=
  getV_congr (setNzcv_v _ _) y
@[simp] theorem getX_countRetired (s : State) (y : Reg) : getX (countRetired s) y = getX s y :=
  getX_congr (countRetired_x _) y
@[simp] theorem getV_countRetired (s : State) (y : VReg) : getV (countRetired s) y = getV s y :=
  getV_congr (countRetired_v _) y
@[simp] theorem getX_countMispredict (b : Bool) (s : State) (y : Reg) : getX (countMispredict b s) y = getX s y :=
  getX_congr (countMispredict_x _ _) y
@[simp] theorem getV_countMispredict (b : Bool) (s : State) (y : VReg) : getV (countMispredict b s) y = getV s y :=
  getV_congr (countMispredict_v _ _) y
@[simp] theorem getX_countMemOp (s : State) (y : Reg) : getX (countMemOp s) y = getX s y :=
  getX_congr (countMemOp_x _) y
@[simp] theorem getV_countMemOp (s : State) (y : VReg) : getV (countMemOp s) y = getV s y :=
  getV_congr (countMemOp_v _) y
@[simp] theorem getX_countSimd (s : State) (y : Reg) : getX (countSimd s) y = getX s y :=
  getX_congr (countSimd_x _) y
@[simp] theorem getV_countSimd (s : State) (y : VReg) : getV (countSimd s) y = getV s y :=
  getV_congr (countSimd_v _) y
@[simp] theorem getX_countStall (s : State) (y : Reg) : getX (countStall s) y = getX s y :=
  getX_congr (countStall_x _) y
@[simp] theorem getV_countStall (s : State) (y : VReg) : getV (countStall s) y = getV s y :=
  getV_congr (countStall_v _) y
@[simp] theorem getX_pushEvent (e : Event) (s : State) (y : Reg) : getX (pushEvent e s) y = getX s y :=
  getX_congr (pushEvent_x _ _) y
@[simp] theorem getV_pushEvent (e : Event) (s : State) (y : VReg) : getV (pushEvent e s) y = getV s y :=
  getV_congr (pushEvent_v _ _) y
@[simp] theorem getX_stopCore (st : Status) (k : Nat) (a n i : Word) (s : State) (y : Reg) : getX (stopCore st k a n i s) y = getX s y :=
  getX_congr (stopCore_x _ _ _ _ _ _) y
@[simp] theorem getV_stopCore (st : Status) (k : Nat) (a n i : Word) (s : State) (y : VReg) : getV (stopCore st k a n i s) y = getV s y :=
  getV_congr (stopCore_v _ _ _ _ _ _) y
@[simp] theorem getX_pend (vs : BitVec 256) (s : State) (y : Reg) : getX (pend vs s) y = getX s y :=
  getX_congr (pend_x _ _) y
@[simp] theorem getV_pend (vs : BitVec 256) (s : State) (y : VReg) : getV (pend vs s) y = getV s y :=
  getV_congr (pend_v _ _) y
@[simp] theorem getX_afterAccess (a : Accessed) (s : State) (y : Reg) : getX (afterAccess a s) y = getX s y :=
  getX_congr (afterAccess_x _ _) y
@[simp] theorem getV_afterAccess (a : Accessed) (s : State) (y : VReg) : getV (afterAccess a s) y = getV s y :=
  getV_congr (afterAccess_v _ _) y
@[simp] theorem getX_dropTlb (va : Word) (s : State) (y : Reg) : getX (dropTlb va s) y = getX s y :=
  getX_congr (dropTlb_x _ _) y
@[simp] theorem getV_dropTlb (va : Word) (s : State) (y : VReg) : getV (dropTlb va s) y = getV s y :=
  getV_congr (dropTlb_v _ _) y
@[simp] theorem getX_countVector (k : Nat) (s : State) (y : Reg) : getX (countVector k s) y = getX s y :=
  getX_congr (countVector_x _ _) y
@[simp] theorem getV_countVector (k : Nat) (s : State) (y : VReg) : getV (countVector k s) y = getV s y :=
  getV_congr (countVector_v _ _) y
@[simp] theorem getX_trapEnter (a r : Word) (k : Nat) (i j : Word) (s : State) (y : Reg) : getX (trapEnter a r k i j s) y = getX s y :=
  getX_congr (trapEnter_x _ _ _ _ _ _) y
@[simp] theorem getV_trapEnter (a r : Word) (k : Nat) (i j : Word) (s : State) (y : VReg) : getV (trapEnter a r k i j s) y = getV s y :=
  getV_congr (trapEnter_v _ _ _ _ _ _) y
@[simp] theorem getX_trapReturn (s : State) (y : Reg) : getX (trapReturn s) y = getX s y :=
  getX_congr (trapReturn_x _) y
@[simp] theorem getV_trapReturn (s : State) (y : VReg) : getV (trapReturn s) y = getV s y :=
  getV_congr (trapReturn_v _) y
@[simp] theorem getX_unpend (k : Nat) (s : State) (y : Reg) : getX (unpend k s) y = getX s y :=
  getX_congr (unpend_x _ _) y
@[simp] theorem getV_unpend (k : Nat) (s : State) (y : VReg) : getV (unpend k s) y = getV s y :=
  getV_congr (unpend_v _ _) y
@[simp] theorem getX_resolveControl (pc q : Word) (b : Bool) (n : Word) (s : State) (y : Reg) : getX (resolveControl pc q b n s) y = getX s y :=
  getX_congr (resolveControl_x _ _ _ _ _) y
@[simp] theorem getV_resolveControl (pc q : Word) (b : Bool) (n : Word) (s : State) (y : VReg) : getV (resolveControl pc q b n s) y = getV s y :=
  getV_congr (resolveControl_v _ _ _ _ _) y
@[simp] theorem getX_breakpointStop (a : Word) (s : State) (y : Reg) : getX (breakpointStop a s) y = getX s y :=
  getX_congr (breakpointStop_x _ _) y
@[simp] theorem getV_breakpointStop (a : Word) (s : State) (y : VReg) : getV (breakpointStop a s) y = getV s y :=
  getV_congr (breakpointStop_v _ _) y
@[simp] theorem getX_squash (s : State) (y : Reg) : getX (squash s) y = getX s y := getX_congr (squash_x _) y
@[simp] theorem getV_squash (s : State) (y : VReg) : getV (squash s) y = getV s y := getV_congr (squash_v _) y
@[simp] theorem getX_startStep (s : State) (y : Reg) : getX (startStep s) y = getX s y :=
  getX_congr (startStep_x _) y
@[simp] theorem getV_startStep (s : State) (y : VReg) : getV (startStep s) y = getV s y :=
  getV_congr (startStep_v _) y
@[simp] theorem getX_startTick (s : State) (y : Reg) : getX (startTick s) y = getX s y :=
  getX_congr (startTick_x _) y
@[simp] theorem getV_startTick (s : State) (y : VReg) : getV (startTick s) y = getV s y :=
  getV_congr (startTick_v _) y
@[simp] theorem getX_setIfId (l : Option IfId) (s : State) (y : Reg) : getX (setIfId l s) y = getX s y :=
  getX_congr (setIfId_x _ _) y
@[simp] theorem getV_setIfId (l : Option IfId) (s : State) (y : VReg) : getV (setIfId l s) y = getV s y :=
  getV_congr (setIfId_v _ _) y
@[simp] theorem getX_setIdEx (l : Option IdEx) (s : State) (y : Reg) : getX (setIdEx l s) y = getX s y :=
  getX_congr (setIdEx_x _ _) y
@[simp] theorem getV_setIdEx (l : Option IdEx) (s : State) (y : VReg) : getV (setIdEx l s) y = getV s y :=
  getV_congr (setIdEx_v _ _) y
@[simp] theorem getX_setExMem (l : Option ExMem) (s : State) (y : Reg) : getX (setExMem l s) y = getX s y :=
  getX_congr (setExMem_x _ _) y
@[simp] theorem getV_setExMem (l : Option ExMem) (s : State) (y : VReg) : getV (setExMem l s) y = getV s y :=
  getV_congr (setExMem_v _ _) y
@[simp] theorem getX_setMemWb (l : Option MemWb) (s : State) (y : Reg) : getX (setMemWb l s) y = getX s y :=
  getX_congr (setMemWb_x _ _) y
@[simp] theorem getV_setMemWb (l : Option MemWb) (s : State) (y : VReg) : getV (setMemWb l s) y = getV s y :=
  getV_congr (setMemWb_v _ _) y
@[simp] theorem getX_flushYounger (s : State) (y : Reg) : getX (flushYounger s) y = getX s y :=
  getX_congr (flushYounger_x _) y
@[simp] theorem getV_flushYounger (s : State) (y : VReg) : getV (flushYounger s) y = getV s y :=
  getV_congr (flushYounger_v _) y

end Sys2Proof.Machine
end

