-- ==== Sys2Proof/Laws/Ops.lean ====
section
/-! SUPPORT. What each shared operation of Machine/Ops.lean can do, said once: as one record update, or as the list of
its outcomes with the conditions under which each happens. -/

namespace Sys2Proof.Machine

/-! ## Registers, events and stopping as one update -/

theorem setX_eq (r : Reg) (w : Word) (s : State) :
    setX r w s = { s with x := if r = 0 then s.x else s.x.set r.toNat w } := by
  unfold setX; split <;> rfl

theorem pushEvent_eq (e : Event) (s : State) :
    pushEvent e s = { s with eventQ := if s.eventQ.length < s.params.eventDepth then s.eventQ ++ [e] else s.eventQ } := by
  unfold pushEvent; split <;> rfl

theorem stopCore_eq (st : Status) (vec : Nat) (a next i0 : Word) (s : State) :
    stopCore st vec a next i0 s =
      { s with halted := true, pc := next, lastStatus := st,
               eventQ := if s.eventQ.length < s.params.eventDepth
                 then s.eventQ ++ [{ kind := .halted, vector := vec, pc := a, info0 := i0, info1 := 0 }]
                 else s.eventQ } := by
  rw [stopCore, pushEvent_eq]

theorem breakpointStop_eq (a : Word) (s : State) :
    breakpointStop a s =
      { s with pc := a, resume := true, lastStatus := .breakpoint,
               eventQ := if s.eventQ.length < s.params.eventDepth
                 then s.eventQ ++ [{ kind := .breakpoint, vector := 0, pc := a, info0 := 0, info1 := 0 }]
                 else s.eventQ } := by
  rw [breakpointStop, pushEvent_eq]

/-- A queue within its depth stays within it (51_host_interface.md R388). -/
theorem pushEvent_events (e : Event) (s : State) (h : s.eventQ.length ≤ s.params.eventDepth) :
    (pushEvent e s).eventQ.length ≤ s.params.eventDepth := by
  rw [pushEvent_eq]; dsimp only; split
  · simp; omega
  · exact h

/-! ## Taking an exception -/

/-- What `Deliver` can do (60_exceptions.md R410): the default handler halts, a guest handler with room for a frame is
entered, and without room the core halts. -/
theorem deliver_cases (e : Exc) (ret : Word) (s : State) :
    let s1 := pushEvent { kind := .exception, vector := e.vector, pc := ret, info0 := e.info0, info1 := e.info1 }
      (countVector e.vector s)
    (ivtGet s e.vector = .default ∧ deliver e ret s = stopCore (haltStatus e.vector) e.vector ret ret 0 s1) ∨
    (∃ addr, ivtGet s e.vector = .guest addr ∧ s.ic.nest < s.params.maxNest ∧
      deliver e ret s = trapEnter addr ret e.vector e.info0 e.info1 s1) ∨
    (∃ addr, ivtGet s e.vector = .guest addr ∧ s.params.maxNest ≤ s.ic.nest ∧
      deliver e ret s = stopCore .error e.vector ret ret 0 s1) := by
  intro s1
  unfold deliver
  cases h : ivtGet s e.vector with
  | default => exact .inl ⟨rfl, rfl⟩
  | guest addr =>
    by_cases hn : s.ic.nest < s.params.maxNest
    · exact .inr (.inl ⟨addr, rfl, hn, by simp only [hn, if_true]; rfl⟩)
    · exact .inr (.inr ⟨addr, rfl, by omega, by simp only [hn, if_false]; rfl⟩)

/-- What the SYSCALL trap can do (43_system.md R271, 60_exceptions.md R413). -/
theorem syscallTrap_cases (pc : Word) (s : State) :
    (ivtGet s 128 = .default ∧ syscallTrap pc s = defaultService pc (countVector 128 s)) ∨
    (∃ addr, ivtGet s 128 = .guest addr ∧ s.ic.nest < s.params.maxNest ∧
      syscallTrap pc s = trapEnter addr (pc + 4) 128 (getX s 1) 0 (countVector 128 s)) ∨
    (∃ addr, ivtGet s 128 = .guest addr ∧ s.params.maxNest ≤ s.ic.nest ∧
      syscallTrap pc s = stopCore .error 128 pc (pc + 4) 0 (countVector 128 s)) := by
  unfold syscallTrap
  cases h : ivtGet s 128 with
  | default => exact .inl ⟨rfl, rfl⟩
  | guest addr =>
    by_cases hn : s.ic.nest < s.params.maxNest
    · exact .inr (.inl ⟨addr, rfl, hn, by simp only [hn, if_true]⟩)
    · exact .inr (.inr ⟨addr, rfl, by omega, by simp only [hn, if_false]⟩)

/-- What the default service can do (43_system.md R272, R273), by the number in R1. -/
theorem defaultService_cases (pc : Word) (s : State) :
    ((getX s 1).toNat = 0 ∧
      defaultService pc s = stopCore .halted 0 pc (pc + 4) (getX s 2) { s with exitCode := getX s 2 }) ∨
    (1 ≤ (getX s 1).toNat ∧ (getX s 1).toNat ≤ 4 ∧ defaultService pc s = envService (getX s 1).toNat pc s) ∨
    (5 ≤ (getX s 1).toNat ∧ defaultService pc s = setPc (pc + 4) (setX 1 (BitVec.allOnes 64) s)) := by
  unfold defaultService
  by_cases h0 : (getX s 1).toNat = 0
  · exact .inl ⟨h0, by simp only [h0, if_true]⟩
  · by_cases h4 : (getX s 1).toNat ≤ 4
    · exact .inr (.inl ⟨by omega, h4, by simp only [h0, h4, if_true, if_false]⟩)
    · exact .inr (.inr ⟨by omega, by simp only [h0, h4, if_false]⟩)

/-! ## Interrupts -/

/-- The lowest pending vector (60_exceptions.md R417 c). -/
theorem lowestPending_eq_some {p : BitVec 256} {v : Nat} :
    lowestPending p = some v ↔ v < 256 ∧ p.getLsbD v = true ∧ ∀ u < v, p.getLsbD u = false := by
  unfold lowestPending
  rw [List.find?_range_eq_some]
  simp only [List.mem_range, Bool.not_eq_true']
  exact and_left_comm

theorem lowestPending_eq_none {p : BitVec 256} : lowestPending p = none ↔ p = 0 := by
  unfold lowestPending
  rw [List.find?_eq_none]
  constructor
  · intro h
    apply BitVec.eq_of_getLsbD_eq
    intro i hi
    simpa using h i (List.mem_range.mpr hi)
  · rintro rfl i -
    simp

/-- What is delivered is the lowest pending vector, with interrupts enabled and, for a guest handler, room for a frame
(60_exceptions.md R420). -/
theorem deliverable_eq_some {s : State} {v : Nat} :
    deliverable s = some v ↔ flagIE s.flags = true ∧ lowestPending s.ic.pending = some v ∧
      (ivtGet s v = .default ∨ ∃ addr, ivtGet s v = .guest addr ∧ s.ic.nest < s.params.maxNest) := by
  unfold deliverable
  by_cases hi : flagIE s.flags = true
  · simp only [hi, if_true, true_and]
    cases hl : lowestPending s.ic.pending with
    | none => simp
    | some u =>
      simp only [Option.some.injEq]
      cases hv : ivtGet s u with
      | default =>
        simp only [Option.some.injEq]
        constructor
        · rintro rfl; exact ⟨rfl, .inl hv⟩
        · exact fun h => h.1
      | guest addr =>
        by_cases hn : s.ic.nest < s.params.maxNest
        · rw [if_pos hn, Option.some.injEq]
          constructor
          · rintro rfl; exact ⟨rfl, .inr ⟨addr, hv, hn⟩⟩
          · exact fun h => h.1
        · simp only [hn, if_false, reduceCtorEq, false_iff]
          rintro ⟨rfl, h | ⟨a, -, h⟩⟩
          · rw [hv] at h; cases h
          · exact h
  · simp [hi]

/-! ## Memory access -/

/-- What a translation leaves: only the page table and the TLB can change (21_translation.md R96). -/
theorem translateS_done {s t : State} {va : Word} {acc : Acc} {pa : Nat} (h : translateS s va acc = .done pa t) :
    (translate s.params.tlbEntries s.mmu (userMode s) va acc).2 = .pa pa ∧
      t = { s with mmu := (translate s.params.tlbEntries s.mmu (userMode s) va acc).1 } := by
  unfold translateS at h
  simp only at h
  split at h
  · rename_i a ha; cases h; exact ⟨ha, rfl⟩
  · cases h

theorem translateS_raised {s t : State} {va : Word} {acc : Acc} {e : Exc} (h : translateS s va acc = .raised e t) :
    (translate s.params.tlbEntries s.mmu (userMode s) va acc).2 = .exc e ∧
      t = { s with mmu := (translate s.params.tlbEntries s.mmu (userMode s) va acc).1 } := by
  unfold translateS at h
  simp only at h
  split at h
  · cases h
  · rename_i a ha; cases h; exact ⟨ha, rfl⟩

/-- What `MemRead` can do (20_memory.md R71). -/
theorem memRead_cases (s : State) (va : Word) (n : Nat) :
    (va.toNat % n ≠ 0 ∧ memRead s va n = .raised (alignmentFault va .read n) s) ∨
    (va.toNat % n = 0 ∧ ∃ e t, translateS s va .read = .raised e t ∧ memRead s va n = .raised e t) ∨
    (va.toNat % n = 0 ∧ ∃ pa t, translateS s va .read = .done pa t ∧
      ((inWindow s.params pa = true ∧ memRead s va n = .done (mmioRead t pa n).1 (mmioRead t pa n).2) ∨
       (inWindow s.params pa = false ∧ s.params.memSize < pa + n ∧
        memRead s va n = .raised (pageFault va 0 .read .bounds) s) ∨
       (inWindow s.params pa = false ∧ pa + n ≤ s.params.memSize ∧
        memRead s va n = .done (ramRead t pa n).1 (ramRead t pa n).2))) := by
  unfold memRead
  by_cases hm : va.toNat % n = 0
  · simp only [hm, ne_eq, not_true, if_false, true_and, false_and, false_or]
    cases ht : translateS s va .read with
    | raised e t => exact .inl ⟨e, t, rfl, rfl⟩
    | done pa t =>
      refine .inr ⟨pa, t, rfl, ?_⟩
      obtain ⟨-, rfl⟩ := translateS_done ht
      by_cases hw : inWindow s.params pa = true
      · exact .inl ⟨hw, by simp only [hw, if_true]⟩
      · by_cases hb : s.params.memSize < pa + n
        · exact .inr (.inl ⟨by simpa using hw, hb, by simp only [hw, hb, if_true]; rfl⟩)
        · exact .inr (.inr ⟨by simpa using hw, by omega, by simp only [hw, hb, if_false]; rfl⟩)
  · exact .inl ⟨hm, by simp only [ne_eq, hm, not_false_iff, if_true]⟩

/-- What `MemWrite` can do (20_memory.md R72). -/
theorem memWrite_cases (s : State) (va : Word) (n : Nat) (val : VWord) :
    (va.toNat % n ≠ 0 ∧ memWrite s va n val = .raised (alignmentFault va .write n) s) ∨
    (va.toNat % n = 0 ∧ ∃ e t, translateS s va .write = .raised e t ∧ memWrite s va n val = .raised e t) ∨
    (va.toNat % n = 0 ∧ ∃ pa t, translateS s va .write = .done pa t ∧
      ((inWindow s.params pa = true ∧ memWrite s va n val = .done () (dropTlb va (mmioWrite t pa n val))) ∨
       (inWindow s.params pa = false ∧ s.params.memSize < pa + n ∧
        memWrite s va n val = .raised (pageFault va 0 .write .bounds) s) ∨
       (inWindow s.params pa = false ∧ pa + n ≤ s.params.memSize ∧
        memWrite s va n val = .done () (dropTlb va (ramWrite t pa n val))))) := by
  unfold memWrite
  by_cases hm : va.toNat % n = 0
  · simp only [hm, ne_eq, not_true, if_false, true_and, false_and, false_or]
    cases ht : translateS s va .write with
    | raised e t => exact .inl ⟨e, t, rfl, rfl⟩
    | done pa t =>
      refine .inr ⟨pa, t, rfl, ?_⟩
      obtain ⟨-, rfl⟩ := translateS_done ht
      by_cases hw : inWindow s.params pa = true
      · exact .inl ⟨hw, by simp only [hw, if_true]⟩
      · by_cases hb : s.params.memSize < pa + n
        · exact .inr (.inl ⟨by simpa using hw, hb, by simp only [hw, hb, if_true]; rfl⟩)
        · exact .inr (.inr ⟨by simpa using hw, by omega, by simp only [hw, hb, if_false]; rfl⟩)
  · exact .inl ⟨hm, by simp only [ne_eq, hm, not_false_iff, if_true]⟩

/-- What `Fetch` can do (20_memory.md R73). -/
theorem fetch_cases (s : State) (va : Word) :
    (va.toNat % 4 ≠ 0 ∧ fetch s va = .raised (alignmentFault va .fetch 4) s) ∨
    (va.toNat % 4 = 0 ∧ ∃ e t, translateS s va .fetch = .raised e t ∧ fetch s va = .raised e t) ∨
    (va.toNat % 4 = 0 ∧ ∃ pa t, translateS s va .fetch = .done pa t ∧
      (((inWindow s.params pa = true ∨ s.params.memSize < pa + 4) ∧
        fetch s va = .raised (pageFault va 0 .fetch .bounds) s) ∨
       (inWindow s.params pa = false ∧ pa + 4 ≤ s.params.memSize ∧
        fetch s va = .done (ramFetch t pa).1 (ramFetch t pa).2))) := by
  unfold fetch
  by_cases hm : va.toNat % 4 = 0
  · simp only [hm, ne_eq, not_true, if_false, true_and, false_and, false_or]
    cases ht : translateS s va .fetch with
    | raised e t => exact .inl ⟨e, t, rfl, rfl⟩
    | done pa t =>
      refine .inr ⟨pa, t, rfl, ?_⟩
      obtain ⟨-, rfl⟩ := translateS_done ht
      by_cases hw : inWindow s.params pa = true
      · exact .inl ⟨.inl hw, by simp only [hw, Bool.true_or, if_true]⟩
      · by_cases hb : s.params.memSize < pa + 4
        · exact .inl ⟨.inr hb, by simp only [hb, decide_true, Bool.or_true, if_true]⟩
        · exact .inr ⟨by simpa using hw, by omega, by simp only [hw, hb, decide_false, Bool.or_false]; rfl⟩
  · exact .inl ⟨hm, by simp only [ne_eq, hm, not_false_iff, if_true]⟩

end Sys2Proof.Machine
end

