-- ==== Sys2Proof/Laws/Paging.lean ====
section
/-! SUPPORT. What a walk and a translation can do to the page table and the TLB (spec/21_translation.md). -/

namespace Sys2Proof.Machine

/-! ## Reading and writing the page table and the TLB -/

theorem ptIndex_lt (va : Word) (level : Nat) : ptIndex va level < 512 := Nat.mod_lt _ (by norm_num)

theorem ptGet_ptSet (pt : Store Word) (t i u j : Nat) (e : Word) (hi : i < 512) (hj : j < 512) :
    ptGet (ptSet pt t i e) u j = if u = t ∧ j = i then e else ptGet pt u j := by
  unfold ptGet ptSet
  rw [Store.get_set]
  have : (512 * u + j = 512 * t + i) ↔ (u = t ∧ j = i) := by omega
  simp only [this]

theorem tlbGet_tlbSet (tlb : Store TlbEntry) (k j : Nat) (e : TlbEntry) :
    tlbGet (tlbSet tlb k e) j = if j = k then e else tlbGet tlb j := Store.get_set _ _ _ _ _

@[simp] theorem tlbGet_nil (k : Nat) : tlbGet [] k = tlbInvalid := rfl

/-- Dropping a page invalidates at most its own entry. -/
theorem tlbGet_tlbDrop (entries : Nat) (tlb : Store TlbEntry) (vpn k : Nat) :
    tlbGet (tlbDrop entries tlb vpn) k =
      if k = vpn % entries ∧ tlbHolds (tlbGet tlb k) vpn = true then { tlbGet tlb k with valid := false }
      else tlbGet tlb k := by
  unfold tlbDrop
  by_cases hk : k = vpn % entries
  · subst hk
    by_cases hh : tlbHolds (tlbGet tlb (vpn % entries)) vpn = true
    · simp only [hh, if_true, tlbGet_tlbSet, and_self]
    · rw [if_neg hh, if_neg fun h => hh h.2]
  · simp only [hk, false_and, if_false]
    split
    · rw [tlbGet_tlbSet, if_neg hk]
    · rfl

/-- After dropping a page no entry holds it (21_translation.md R104). -/
theorem tlbHolds_tlbDrop (entries : Nat) (tlb : Store TlbEntry) (vpn : Nat) :
    tlbHolds (tlbGet (tlbDrop entries tlb vpn) (vpn % entries)) vpn = false := by
  rw [tlbGet_tlbDrop]
  by_cases hh : tlbHolds (tlbGet tlb (vpn % entries)) vpn = true
  · rw [if_pos ⟨rfl, hh⟩]; simp [tlbHolds]
  · rw [if_neg fun h => hh h.2]; simpa using hh

/-! ## Page tables that agree but for the accessed and dirty bits -/

/-- `m` differs from `pt` in the accessed and dirty bits only, and every dirty bit of `pt` is set in `m`. -/
structure PtMore (pt m : Store Word) : Prop where
  present : ∀ t i, i < 512 → pteP (ptGet m t i) = pteP (ptGet pt t i)
  writable : ∀ t i, i < 512 → pteW (ptGet m t i) = pteW (ptGet pt t i)
  user : ∀ t i, i < 512 → pteU (ptGet m t i) = pteU (ptGet pt t i)
  frame : ∀ t i, i < 512 → pteFrame (ptGet m t i) = pteFrame (ptGet pt t i)
  dirty : ∀ t i, i < 512 → pteD (ptGet pt t i) = true → pteD (ptGet m t i) = true

theorem PtMore.refl (pt : Store Word) : PtMore pt pt :=
  ⟨fun _ _ _ => rfl, fun _ _ _ => rfl, fun _ _ _ => rfl, fun _ _ _ => rfl, fun _ _ _ h => h⟩

theorem PtMore.trans {a b c : Store Word} (h : PtMore a b) (k : PtMore b c) : PtMore a c :=
  ⟨fun t i hi => (k.present t i hi).trans (h.present t i hi), fun t i hi => (k.writable t i hi).trans (h.writable t i hi),
    fun t i hi => (k.user t i hi).trans (h.user t i hi), fun t i hi => (k.frame t i hi).trans (h.frame t i hi),
    fun t i hi hd => k.dirty t i hi (h.dirty t i hi hd)⟩

/-- The frame field is made of bits 12 to 51. -/
theorem pteFrame_congr {e f : Word} (h : ∀ k, 12 ≤ k → e.getLsbD k = f.getLsbD k) : pteFrame e = pteFrame f := by
  have : e.toNat / 2 ^ 12 = f.toNat / 2 ^ 12 := by
    apply Nat.eq_of_testBit_eq
    intro k
    rw [Nat.testBit_div_two_pow, Nat.testBit_div_two_pow]
    exact h (k + 12) (by omega)
  simp only [pteFrame, this]

theorem getLsbD_or_low (e : Word) (c k : Nat) (hc : c < 2 ^ k) :
    (e ||| BitVec.ofNat 64 c).getLsbD k = e.getLsbD k := by
  have : c.testBit k = false := Nat.testBit_lt_two_pow hc
  simp [BitVec.getLsbD_or, BitVec.getLsbD_ofNat, this]

/-- Setting `A` (bit 3) or `D` (bit 4) keeps everything else. -/
theorem PtMore.or (pt : Store Word) (t i : Nat) (bits : Word) (hi : i < 512) (hb : bits = 8 ∨ bits = 16) :
    PtMore pt (ptOr pt t i bits) := by
  have key : ∀ u j, j < 512 → ptGet (ptOr pt t i bits) u j =
      if u = t ∧ j = i then ptGet pt t i ||| bits else ptGet pt u j := by
    intro u j hj; rw [ptOr, ptGet_ptSet _ _ _ _ _ _ hi hj]
  have low : ∀ e : Word, (e ||| bits).getLsbD 0 = e.getLsbD 0 ∧ (e ||| bits).getLsbD 1 = e.getLsbD 1 ∧
      (e ||| bits).getLsbD 2 = e.getLsbD 2 ∧ (e.getLsbD 4 = true → (e ||| bits).getLsbD 4 = true) := by
    intro e
    rcases hb with rfl | rfl <;> simp +contextual
  have high : ∀ e : Word, pteFrame (e ||| bits) = pteFrame e := by
    intro e
    apply pteFrame_congr
    intro k hk
    have h2 : (2 : Nat) ^ 12 ≤ 2 ^ k := Nat.pow_le_pow_right (by norm_num) hk
    rcases hb with rfl | rfl
    · exact getLsbD_or_low e 8 k (by omega)
    · exact getLsbD_or_low e 16 k (by omega)
  refine ⟨?_, ?_, ?_, ?_, ?_⟩ <;> intro u j hj <;> rw [key u j hj] <;> split
  · rename_i h; obtain ⟨rfl, rfl⟩ := h; exact (low _).1
  · rfl
  · rename_i h; obtain ⟨rfl, rfl⟩ := h; exact (low _).2.1
  · rfl
  · rename_i h; obtain ⟨rfl, rfl⟩ := h; exact (low _).2.2.1
  · rfl
  · rename_i h; obtain ⟨rfl, rfl⟩ := h; exact high _
  · rfl
  · rename_i h; obtain ⟨rfl, rfl⟩ := h; exact (low _).2.2.2
  · exact fun h => h

/-! ## Walks -/

/-- Every index on a walk's path is below 512. -/
theorem walkFrom_index {pt : Store Word} {va : Word} {levels : List Nat} {t pfn : Nat} {path : List PathStep}
    (h : walkFrom pt va levels t = .found pfn path) : ∀ s ∈ path, s.index < 512 := by
  induction levels generalizing t path with
  | nil => simp only [walkFrom, WalkResult.found.injEq] at h; obtain ⟨-, rfl⟩ := h; simp
  | cons l ls ih =>
    simp only [walkFrom] at h
    split at h
    · split at h
      · cases h
      · rename_i q hq
        simp only [WalkResult.found.injEq] at h
        obtain ⟨rfl, rfl⟩ := h
        intro s hs
        rcases List.mem_cons.mp hs with rfl | hs
        · exact ptIndex_lt va l
        · exact ih hq s hs
    · cases h

/-- The last step of a path holds the content of the page table there. -/
theorem walkFrom_entry {pt : Store Word} {va : Word} {levels : List Nat} {t pfn : Nat} {path : List PathStep}
    (h : walkFrom pt va levels t = .found pfn path) : ∀ s ∈ path, s.entry = ptGet pt s.table s.index := by
  induction levels generalizing t path with
  | nil => simp only [walkFrom, WalkResult.found.injEq] at h; obtain ⟨-, rfl⟩ := h; simp
  | cons l ls ih =>
    simp only [walkFrom] at h
    split at h
    · split at h
      · cases h
      · rename_i q hq
        simp only [WalkResult.found.injEq] at h
        obtain ⟨rfl, rfl⟩ := h
        intro s hs
        rcases List.mem_cons.mp hs with rfl | hs
        · rfl
        · exact ih hq s hs
    · cases h

/-- The same walk over a page table with more accessed and dirty bits finds the same frame and permissions, in the same
places. -/
theorem walkFrom_more {pt m : Store Word} (hm : PtMore pt m) {va : Word} {levels : List Nat} {t pfn : Nat}
    {path : List PathStep} (h : walkFrom pt va levels t = .found pfn path) :
    ∃ q, walkFrom m va levels t = .found pfn q ∧ pathW q = pathW path ∧ pathU q = pathU path ∧
      q.map (fun s => (s.table, s.index)) = path.map (fun s => (s.table, s.index)) := by
  induction levels generalizing t path with
  | nil =>
    simp only [walkFrom, WalkResult.found.injEq] at h; obtain ⟨rfl, rfl⟩ := h
    exact ⟨[], rfl, rfl, rfl, rfl⟩
  | cons l ls ih =>
    simp only [walkFrom] at h
    split at h
    · rename_i hp
      split at h
      · cases h
      · rename_i p hq
        simp only [WalkResult.found.injEq] at h
        obtain ⟨rfl, rfl⟩ := h
        obtain ⟨q, h1, h2, h3, h4⟩ := ih hq
        refine ⟨{ level := l, table := t, index := ptIndex va l, entry := ptGet m t (ptIndex va l) } :: q, ?_, ?_, ?_, ?_⟩
        · simp only [walkFrom]
          rw [hm.present _ _ (ptIndex_lt va l), hm.frame _ _ (ptIndex_lt va l), if_pos hp, h1]
        · simp only [pathW, List.all_cons] at h2 ⊢
          rw [hm.writable _ _ (ptIndex_lt va l), h2]
        · simp only [pathU, List.all_cons] at h3 ⊢
          rw [hm.user _ _ (ptIndex_lt va l), h3]
        · simp only [List.map_cons, h4]
    · cases h

/-- The dirty bit a walk reports, read off the page table at the place of the path's last step. -/
theorem pathD_eq {pt : Store Word} {va : Word} {levels : List Nat} {t pfn : Nat} {path : List PathStep}
    (h : walkFrom pt va levels t = .found pfn path) :
    pathD path = (path.map (fun s => (s.table, s.index))).getLast?.any fun k => pteD (ptGet pt k.1 k.2) := by
  have he := walkFrom_entry h
  rw [pathD, List.getLast?_map]
  cases hl : path.getLast? with
  | none => rfl
  | some s =>
    have := he s (List.mem_of_getLast? hl)
    simp [this]

/-- A walk over a page table with more dirty bits reports no fewer. -/
theorem pathD_more {pt m : Store Word} (hm : PtMore pt m) {va : Word} {levels : List Nat} {t pfn : Nat}
    {path q : List PathStep} (h : walkFrom pt va levels t = .found pfn path) (hq : walkFrom m va levels t = .found pfn q)
    (hmap : q.map (fun s => (s.table, s.index)) = path.map (fun s => (s.table, s.index)))
    (hd : pathD path = true) : pathD q = true := by
  rw [pathD_eq hq, hmap]
  rw [pathD_eq h] at hd
  cases hl : (path.map (fun s => (s.table, s.index))).getLast? with
  | none => rw [hl] at hd; exact hd
  | some k =>
    rw [hl] at hd
    obtain ⟨s, hs, rfl⟩ : ∃ s ∈ path, (s.table, s.index) = k := by
      have := List.mem_of_getLast? hl
      simpa using this
    exact hm.dirty _ _ (walkFrom_index h s hs) hd

/-- The walk of an address below 2^48 depends on its page alone. -/
theorem walk_congr (pt : Store Word) {va vb : Word} (ha : va.toNat < 2 ^ 48) (hb : vb.toNat < 2 ^ 48)
    (h : vpnOf va = vpnOf vb) : walk pt va = walk pt vb := by
  have hd : va.toNat / 2 ^ 12 = vb.toNat / 2 ^ 12 := by
    simp only [vpnOf] at h; omega
  have hi : ∀ k, ptIndex va k = ptIndex vb k := by
    intro k
    simp only [ptIndex, Nat.pow_add, ← Nat.div_div_eq_div_mul, hd]
  have : ∀ levels t, walkFrom pt va levels t = walkFrom pt vb levels t := by
    intro levels
    induction levels with
    | nil => intro t; rfl
    | cons l ls ih => intro t; simp only [walkFrom, hi, ih]
  exact this _ _

/-- Setting `A` along a path changes accessed bits only. -/
theorem PtMore.setAccessed {pt : Store Word} {path : List PathStep} (h : ∀ s ∈ path, s.index < 512) :
    PtMore pt (setAccessed pt path) := by
  unfold Machine.setAccessed
  induction path generalizing pt with
  | nil => exact PtMore.refl pt
  | cons s ss ih =>
    exact (PtMore.or pt s.table s.index 8 (h s (by simp)) (.inl rfl)).trans (ih fun s hs => h s (by simp [hs]))

/-- Setting `D` at the end of a path changes dirty bits only. -/
theorem PtMore.setDirty {pt : Store Word} {path : List PathStep} (h : ∀ s ∈ path, s.index < 512) :
    PtMore pt (setDirty pt path) := by
  unfold Machine.setDirty
  cases hl : path.getLast? with
  | none => exact PtMore.refl pt
  | some s => exact PtMore.or pt s.table s.index 16 (h s (List.mem_of_getLast? hl)) (.inr rfl)

/-! ## Translations -/

/-- What a translation can do (21_translation.md R96): refuse an address of 2^48 or more; answer from the TLB; or miss. -/
theorem translate_cases (entries : Nat) (m : Mmu) (um : Bool) (va : Word) (acc : Acc) :
    (2 ^ 48 ≤ va.toNat ∧ translate entries m um va acc = (m, .exc (pageFault va 5 acc .bounds))) ∨
    (va.toNat < 2 ^ 48 ∧ tlbHolds (tlbGet m.tlb (vpnOf va % entries)) (vpnOf va) = true ∧
      tlbAnswers (tlbGet m.tlb (vpnOf va % entries)) um acc = true ∧
      translate entries m um va acc = (m, .pa (physAddr (tlbGet m.tlb (vpnOf va % entries)).pfn va))) ∨
    (va.toNat < 2 ^ 48 ∧ translate entries m um va acc = translateMiss entries m um va acc) := by
  unfold translate
  by_cases h : 2 ^ 48 ≤ va.toNat
  · exact .inl ⟨h, by simp only [h, if_true]⟩
  · simp only [h, if_false]
    by_cases h2 : (tlbHolds (tlbGet m.tlb (vpnOf va % entries)) (vpnOf va) &&
        tlbAnswers (tlbGet m.tlb (vpnOf va % entries)) um acc) = true
    · rw [if_pos h2]
      rw [Bool.and_eq_true] at h2
      exact .inr (.inl ⟨by omega, h2.1, h2.2, rfl⟩)
    · rw [if_neg h2]
      exact .inr (.inr ⟨by omega, rfl⟩)

/-- What a translation that misses can do (21_translation.md R96, R101). -/
theorem translateMiss_cases (entries : Nat) (m : Mmu) (um : Bool) (va : Word) (acc : Acc) :
    (∃ e, translateMiss entries m um va acc = ({ m with tlb := tlbDrop entries m.tlb (vpnOf va) }, .exc e)) ∨
    (∃ pfn path, walk m.pt va = .found pfn path ∧ (acc = .write → pathW path = true) ∧
      (um = true → pathU path = true) ∧
      translateMiss entries m um va acc =
        ({ pt := if acc = .write then setDirty (setAccessed m.pt path) path else setAccessed m.pt path,
           tlb := tlbSet (tlbDrop entries m.tlb (vpnOf va)) (vpnOf va % entries)
             { valid := true, vpn := vpnOf va, pfn := pfn, w := pathW path, u := pathU path,
               d := decide (acc = .write) || pathD path } },
         .pa (physAddr pfn va))) := by
  unfold translateMiss
  simp only
  split
  · exact .inl ⟨_, rfl⟩
  · rename_i pfn path hw
    split
    · exact .inl ⟨_, rfl⟩
    · rename_i h1
      split
      · exact .inl ⟨_, rfl⟩
      · rename_i h2
        refine .inr ⟨pfn, path, hw, ?_, ?_, rfl⟩
        · intro ha; simpa [ha] using h1
        · intro hu; simpa [hu] using h2

/-- A physical address keeps the page offset (21_translation.md R96). -/
theorem physAddr_mod (pfn : Nat) (va : Word) : physAddr pfn va % 4096 = va.toNat % 4096 := by
  simp only [physAddr, pageOffset]; omega

theorem translate_offset {entries : Nat} {m : Mmu} {um : Bool} {va : Word} {acc : Acc} {pa : Nat}
    (h : (translate entries m um va acc).2 = .pa pa) : pa % 4096 = va.toNat % 4096 := by
  rcases translate_cases entries m um va acc with ⟨-, e⟩ | ⟨-, -, -, e⟩ | ⟨-, e⟩
  · rw [e] at h; cases h
  · rw [e] at h; cases h; exact physAddr_mod _ _
  · rw [e] at h
    rcases translateMiss_cases entries m um va acc with ⟨x, e⟩ | ⟨pfn, path, -, -, -, e⟩ <;> rw [e] at h <;> cases h
    exact physAddr_mod _ _

/-! ## Sound TLBs (21_translation.md R106) -/

theorem TlbOk.nil (entries : Nat) (pt : Store Word) : TlbOk entries { pt := pt, tlb := [] } := by
  intro k hk; cases hk

/-- Dropping a page keeps the TLB sound. -/
theorem TlbOk.drop {entries : Nat} {m : Mmu} (h : TlbOk entries m) (vpn : Nat) :
    TlbOk entries { m with tlb := tlbDrop entries m.tlb vpn } := by
  intro k hk va hva hv hi
  simp only [tlbGet_tlbDrop] at hk hv ⊢
  split at hk
  · cases hk
  · rename_i hc
    rw [if_neg hc] at hv ⊢
    exact h k hk va hva hv hi

/-- More accessed and dirty bits keep the TLB sound. -/
theorem TlbOk.more {entries : Nat} {m : Mmu} (h : TlbOk entries m) {pt : Store Word} (hm : PtMore m.pt pt) :
    TlbOk entries { m with pt := pt } := by
  intro k hk va hva hv hi
  obtain ⟨path, h1, h2, h3, h4⟩ := h k hk va hva hv hi
  obtain ⟨q, g1, g2, g3, g4⟩ := walkFrom_more hm h1
  exact ⟨q, g1, h2.trans g2.symm, h3.trans g3.symm, fun hd => pathD_more hm h1 g1 g4 (h4 hd)⟩

/-- A translation keeps the TLB sound. -/
theorem TlbOk.translate {entries : Nat} {m : Mmu} (h : TlbOk entries m) (um : Bool) (va : Word) (acc : Acc) :
    TlbOk entries (translate entries m um va acc).1 := by
  rcases translate_cases entries m um va acc with ⟨-, e⟩ | ⟨-, -, -, e⟩ | ⟨hlt, e⟩
  · rw [e]; exact h
  · rw [e]; exact h
  · rw [e]
    rcases translateMiss_cases entries m um va acc with ⟨x, e⟩ | ⟨pfn, path, hw, -, -, e⟩
    · rw [e]; exact h.drop _
    · rw [e]
      have hi := walkFrom_index hw
      have hmore : PtMore m.pt
          (if acc = .write then setDirty (setAccessed m.pt path) path else setAccessed m.pt path) := by
        split
        · exact (PtMore.setAccessed hi).trans (PtMore.setDirty hi)
        · exact PtMore.setAccessed hi
      have hbase := (h.drop (vpnOf va)).more hmore
      intro k hk vb hvb hv hidx
      by_cases hkk : k = vpnOf va % entries
      · subst hkk
        simp only [tlbGet_tlbSet, if_true] at hk hv ⊢
        obtain ⟨q, g1, g2, g3, g4⟩ := walkFrom_more hmore hw
        refine ⟨q, ?_, g2.symm, g3.symm, ?_⟩
        · rw [walk_congr _ hvb hlt hv]; exact g1
        · intro hd
          simp only [Bool.or_eq_true, decide_eq_true_eq] at hd
          rcases hd with hwr | hd
          · have hl : path.getLast? ≠ none := by
              rw [ne_eq, List.getLast?_eq_none_iff]
              rintro rfl
              simp only [walk, walkFrom] at hw
              split at hw
              · split at hw <;> simp at hw
              · cases hw
            obtain ⟨s, hs⟩ := Option.ne_none_iff_exists'.mp hl
            have hsi := hi s (List.mem_of_getLast? hs)
            rw [pathD_eq g1, g4, List.getLast?_map, hs]
            simp only [hwr, if_true, Option.map_some, Option.any_some, setDirty, hs, ptOr]
            rw [ptGet_ptSet _ _ _ _ _ _ hsi hsi]
            simp [pteD]
          · exact pathD_more hmore hw g1 g4 hd
      · simp only [tlbGet_tlbSet, hkk, if_false] at hk hv ⊢
        exact hbase k hk vb hvb hv hidx

end Sys2Proof.Machine
end

