-- ==== Sys2Proof/Laws/Access.lean ====
section
/-! SUPPORT. What the memory primitives of spec/20_memory.md R71 to R77 do to the flat memory (R85) and to the rest of
the state, and that they keep the hierarchy and the TLB sound. -/

namespace Sys2Proof.Machine

/-! ## Alignment -/

/-- An aligned access of up to 32 bytes lies inside one line (20_memory.md R67). -/
theorem in_line {va pa n : Nat} (h : va % n = 0) (hp : pa % 4096 = va % 4096)
    (hn : n = 1 ∨ n = 2 ∨ n = 4 ∨ n = 8 ∨ n = 32) : pa % 64 + n ≤ 64 := by
  rcases hn with rfl | rfl | rfl | rfl | rfl <;> omega

/-- A line that shares a byte with RAM lies inside it: the size of RAM is a multiple of 4096 (00_scope.md R10). -/
theorem line_in_ram {p : Params} (hp : p.valid = true) {a : Nat} (h : a < p.memSize) : 64 * (a / 64) + 64 ≤ p.memSize := by
  rw [Params.valid_iff] at hp; omega

/-! ## RAM -/

/-- A RAM read returns the bytes of the flat memory and changes none (20_memory.md R71, R85). -/
theorem ramRead_ok {s : State} (hp : s.params.valid = true) (hk : HierOk s.params s.hier) {pa n : Nat}
    (hn : pa % 64 + n ≤ 64) (h0 : 0 < n) (hm : pa + n ≤ s.params.memSize) :
    (ramRead s pa n).1 = ofBytes (fun j => s.flat (pa + j)) n ∧
    HierOk s.params (ramRead s pa n).2.hier ∧ ∀ a, (ramRead s pa n).2.flat a = s.flat a := by
  obtain ⟨a1, a2, a3, -, -⟩ := l1dAccess_ok hp hk (pa / 64) (line_in_ram hp (by omega))
  obtain ⟨b1, b2, -, -, -⟩ := runPrefetcher_ok hp a2 (BitVec.ofNat 64 pa)
  refine ⟨?_, b1, fun a => flatByte_congr (fun l => (b2 l).trans (a3 l)) a⟩
  rw [ramRead]
  dsimp only
  rw [a1, lineValue]
  refine ofBytes_congr _ _ _ fun j hj => ?_
  rw [State.flat, flatByte_eq]
  have h1 : (pa + j) / 64 = pa / 64 := by omega
  have h2 : (pa + j) % 64 = pa % 64 + j := by omega
  rw [h1, h2]

/-- A RAM write stores its bytes in the flat memory and changes no other (20_memory.md R72, R85). -/
theorem ramWrite_ok {s : State} (hp : s.params.valid = true) (hk : HierOk s.params s.hier) {pa n : Nat} (val : VWord)
    (hn : pa % 64 + n ≤ 64) (h0 : 0 < n) (hm : pa + n ≤ s.params.memSize) :
    HierOk s.params (ramWrite s pa n val).hier ∧
    ∀ a, (ramWrite s pa n val).flat a = if pa ≤ a ∧ a < pa + n then byteOf val (a - pa) else s.flat a := by
  obtain ⟨a1, a2, -⟩ := l1dWrite_ok hp hk pa n val hn hm h0
  obtain ⟨b1, b2, -, -, -⟩ := runPrefetcher_ok hp a1 (BitVec.ofNat 64 pa)
  refine ⟨b1, fun a => ?_⟩
  rw [← show flatByte s.params (l1dWrite s.params s.hier pa n val).hier a =
    if pa ≤ a ∧ a < pa + n then byteOf val (a - pa) else s.flat a from a2 a]
  exact flatByte_congr b2 a

/-- A RAM fetch changes no byte of the flat memory (20_memory.md R73). -/
theorem ramFetch_ok {s : State} (hp : s.params.valid = true) (hk : HierOk s.params s.hier) {pa : Nat}
    (hm : pa + 4 ≤ s.params.memSize) :
    HierOk s.params (ramFetch s pa).2.hier ∧ ∀ a, (ramFetch s pa).2.flat a = s.flat a := by
  obtain ⟨a1, a2, -⟩ := l1iAccess_ok hp hk (pa / 64) (line_in_ram hp (by omega))
  exact ⟨a1, fun a => flatByte_congr a2 a⟩

/-! ## The primitives keep the memory system sound -/

theorem MemoryOk.translateS_done {s t : State} (h : MemoryOk s) {va : Word} {acc : Acc} {pa : Nat}
    (ht : translateS s va acc = .done pa t) : MemoryOk t ∧ pa % 4096 = va.toNat % 4096 := by
  obtain ⟨h1, rfl⟩ := Machine.translateS_done ht
  exact ⟨⟨h.params, h.hier, h.tlb.translate _ _ _⟩, translate_offset h1⟩

theorem MemoryOk.translateS_raised {s t : State} (h : MemoryOk s) {va : Word} {acc : Acc} {e : Exc}
    (ht : translateS s va acc = .raised e t) : MemoryOk t := by
  obtain ⟨-, rfl⟩ := Machine.translateS_raised ht
  exact ⟨h.params, h.hier, h.tlb.translate _ _ _⟩

theorem MemoryOk.mmioRead {s : State} (h : MemoryOk s) (pa n : Nat) : MemoryOk (mmioRead s pa n).2 := by
  unfold Machine.mmioRead
  split
  · exact h
  · exact ⟨h.params, h.hier, h.tlb⟩

theorem MemoryOk.mmioWrite {s : State} (h : MemoryOk s) (pa n : Nat) (val : VWord) :
    MemoryOk (mmioWrite s pa n val) := by
  unfold Machine.mmioWrite
  split
  · exact h
  · exact ⟨h.params, h.hier, h.tlb⟩

theorem MemoryOk.ramRead {s : State} (h : MemoryOk s) {pa n : Nat} (hn : pa % 64 + n ≤ 64) (h0 : 0 < n)
    (hm : pa + n ≤ s.params.memSize) : MemoryOk (ramRead s pa n).2 :=
  ⟨h.params, (ramRead_ok h.params h.hier hn h0 hm).2.1, h.tlb⟩

theorem MemoryOk.ramWrite {s : State} (h : MemoryOk s) {pa n : Nat} (val : VWord) (hn : pa % 64 + n ≤ 64) (h0 : 0 < n)
    (hm : pa + n ≤ s.params.memSize) : MemoryOk (ramWrite s pa n val) :=
  ⟨h.params, (ramWrite_ok h.params h.hier val hn h0 hm).1, h.tlb⟩

theorem MemoryOk.ramFetch {s : State} (h : MemoryOk s) {pa : Nat} (hm : pa + 4 ≤ s.params.memSize) :
    MemoryOk (ramFetch s pa).2 :=
  ⟨h.params, (ramFetch_ok h.params h.hier hm).1, h.tlb⟩

theorem MemoryOk.dropTlb {s : State} (h : MemoryOk s) (va : Word) : MemoryOk (dropTlb va s) :=
  ⟨h.params, h.hier, h.tlb.drop _⟩

/-- `MemRead` keeps the memory system sound, whatever it answers. -/
theorem MemoryOk.memRead {s : State} (h : MemoryOk s) (va : Word) {n : Nat}
    (hn : n = 1 ∨ n = 2 ∨ n = 4 ∨ n = 8 ∨ n = 32) :
    (∀ v t, memRead s va n = .done v t → MemoryOk t) ∧ ∀ e t, memRead s va n = .raised e t → MemoryOk t := by
  rcases memRead_cases s va n with ⟨-, e⟩ | ⟨-, x, t, ht, e⟩ | ⟨hm, pa, t, ht, hr⟩
  · rw [e]; exact ⟨fun _ _ h1 => (by cases h1), fun _ _ h1 => by cases h1; exact h⟩
  · rw [e]; exact ⟨fun _ _ h1 => (by cases h1), fun _ _ h1 => by cases h1; exact h.translateS_raised ht⟩
  · obtain ⟨hok, hoff⟩ := h.translateS_done ht
    have hp : t.params = s.params := by obtain ⟨-, rfl⟩ := Machine.translateS_done ht; rfl
    have h0 : 0 < n := by rcases hn with rfl | rfl | rfl | rfl | rfl <;> norm_num
    rcases hr with ⟨-, e⟩ | ⟨-, -, e⟩ | ⟨-, hb, e⟩
    · rw [e]; exact ⟨fun _ _ h1 => (by cases h1; exact hok.mmioRead _ _), fun _ _ h1 => by cases h1⟩
    · rw [e]; exact ⟨fun _ _ h1 => (by cases h1), fun _ _ h1 => by cases h1; exact h⟩
    · rw [e]
      exact ⟨fun _ _ h1 => (by cases h1; exact hok.ramRead (in_line hm hoff hn) h0 (by rw [hp]; exact hb)),
        fun _ _ h1 => by cases h1⟩

/-- `MemWrite` keeps the memory system sound, whatever it answers. -/
theorem MemoryOk.memWrite {s : State} (h : MemoryOk s) (va : Word) {n : Nat} (val : VWord)
    (hn : n = 1 ∨ n = 2 ∨ n = 4 ∨ n = 8 ∨ n = 32) :
    (∀ v t, memWrite s va n val = .done v t → MemoryOk t) ∧
      ∀ e t, memWrite s va n val = .raised e t → MemoryOk t := by
  rcases memWrite_cases s va n val with ⟨-, e⟩ | ⟨-, x, t, ht, e⟩ | ⟨hm, pa, t, ht, hr⟩
  · rw [e]; exact ⟨fun _ _ h1 => (by cases h1), fun _ _ h1 => by cases h1; exact h⟩
  · rw [e]; exact ⟨fun _ _ h1 => (by cases h1), fun _ _ h1 => by cases h1; exact h.translateS_raised ht⟩
  · obtain ⟨hok, hoff⟩ := h.translateS_done ht
    have hp : t.params = s.params := by obtain ⟨-, rfl⟩ := Machine.translateS_done ht; rfl
    have h0 : 0 < n := by rcases hn with rfl | rfl | rfl | rfl | rfl <;> norm_num
    rcases hr with ⟨-, e⟩ | ⟨-, -, e⟩ | ⟨-, hb, e⟩
    · rw [e]; exact ⟨fun _ _ h1 => (by cases h1; exact (hok.mmioWrite _ _ _).dropTlb _), fun _ _ h1 => by cases h1⟩
    · rw [e]; exact ⟨fun _ _ h1 => (by cases h1), fun _ _ h1 => by cases h1; exact h⟩
    · rw [e]
      exact ⟨fun _ _ h1 => (by
          cases h1
          exact (hok.ramWrite val (in_line hm hoff hn) h0 (by rw [hp]; exact hb)).dropTlb _),
        fun _ _ h1 => by cases h1⟩

/-- `Fetch` keeps the memory system sound, whatever it answers. -/
theorem MemoryOk.fetch {s : State} (h : MemoryOk s) (va : Word) :
    (∀ w t, fetch s va = .done w t → MemoryOk t) ∧ ∀ e t, fetch s va = .raised e t → MemoryOk t := by
  rcases fetch_cases s va with ⟨-, e⟩ | ⟨-, x, t, ht, e⟩ | ⟨hm, pa, t, ht, hr⟩
  · rw [e]; exact ⟨fun _ _ h1 => (by cases h1), fun _ _ h1 => by cases h1; exact h⟩
  · rw [e]; exact ⟨fun _ _ h1 => (by cases h1), fun _ _ h1 => by cases h1; exact h.translateS_raised ht⟩
  · obtain ⟨hok, -⟩ := h.translateS_done ht
    have hp : t.params = s.params := by obtain ⟨-, rfl⟩ := Machine.translateS_done ht; rfl
    rcases hr with ⟨-, e⟩ | ⟨-, hb, e⟩
    · rw [e]; exact ⟨fun _ _ h1 => (by cases h1), fun _ _ h1 => by cases h1; exact h⟩
    · rw [e]
      exact ⟨fun _ _ h1 => (by cases h1; exact hok.ramFetch (by rw [hp]; exact hb)), fun _ _ h1 => by cases h1⟩

/-- The environment's writes keep the hierarchy sound (43_system.md R272). -/
theorem applyWrites_ok {p : Params} (hp : p.valid = true) (ws : List (Nat × List Byte)) :
    ∀ {h : Hierarchy}, HierOk p h → HierOk p (applyWrites p ws h) := by
  induction ws with
  | nil => intro h hk; exact hk
  | cons w ws ih =>
    intro h hk
    obtain ⟨a, bytes⟩ := w
    rw [applyWrites]
    apply ih
    split
    · exact hostWrite_hier hp hk a bytes ‹_›
    · exact hk

/-- Soundness of the memory system depends on parameters, hierarchy, page table and TLB alone. -/
theorem MemoryOk.congr {s t : State} (h : MemoryOk s) (hp : t.params = s.params) (hh : t.hier = s.hier)
    (hm : t.mmu = s.mmu) : MemoryOk t :=
  ⟨by rw [hp]; exact h.params, by rw [hp, hh]; exact h.hier, by rw [hp, hm]; exact h.tlb⟩

end Sys2Proof.Machine
end

