-- ==== Sys2Proof/Laws/PerInstr.lean ====
section
/-! SUPPORT. The per-instruction family `TableRow`: the encoding of every instruction carries the fixed bits its row of
spec/opcode_table.json gives (30_encoding.md R165, R170, R171). -/

namespace Sys2Proof.Laws

/-- Mask and match of an R, I or J row: the primary opcode. -/
def primaryRow (op : BitVec 6) : IWord × IWord := (0xFC000000#32, op ++ 0#26)

/-- Mask and match of a VLOAD or VSTORE row: the primary opcode and bit 25 zero. -/
def vectorMemRow (op : BitVec 6) : IWord × IWord := (0xFE000000#32, op ++ 0#26)

/-- Mask and match of a V row: opcode 0x30, bits 25, 20, 15 and 10 to 8 zero, `vfunct`. -/
def vectorRow (vfunct : BitVec 8) : IWord × IWord := (0xFE1087FF#32, 0x30#6 ++ 0#18 ++ vfunct)

/-- Mask and match of an instruction's row in spec/opcode_table.json. -/
def rowOf : Instr → IWord × IWord
  | .add _ _ _ _ _ => primaryRow 0x00#6
  | .sub _ _ _ _ _ => primaryRow 0x01#6
  | .mul _ _ _ _ _ => primaryRow 0x02#6
  | .mulh _ _ _ _ _ => primaryRow 0x03#6
  | .div _ _ _ _ _ => primaryRow 0x04#6
  | .mod _ _ _ _ _ => primaryRow 0x05#6
  | .and _ _ _ _ _ => primaryRow 0x06#6
  | .or _ _ _ _ _ => primaryRow 0x07#6
  | .xor _ _ _ _ _ => primaryRow 0x08#6
  | .not _ _ _ _ _ => primaryRow 0x09#6
  | .shl _ _ _ _ _ => primaryRow 0x0A#6
  | .shr _ _ _ _ _ => primaryRow 0x0B#6
  | .sar _ _ _ _ _ => primaryRow 0x0C#6
  | .rol _ _ _ _ _ => primaryRow 0x0D#6
  | .ror _ _ _ _ _ => primaryRow 0x0E#6
  | .ld _ _ _ => primaryRow 0x0F#6
  | .lw _ _ _ => primaryRow 0x10#6
  | .lh _ _ _ => primaryRow 0x11#6
  | .lb _ _ _ => primaryRow 0x12#6
  | .st _ _ _ => primaryRow 0x13#6
  | .sw _ _ _ => primaryRow 0x14#6
  | .sh _ _ _ => primaryRow 0x15#6
  | .sb _ _ _ => primaryRow 0x16#6
  | .beq _ _ _ => primaryRow 0x17#6
  | .bne _ _ _ => primaryRow 0x18#6
  | .blt _ _ _ => primaryRow 0x19#6
  | .bge _ _ _ => primaryRow 0x1A#6
  | .bltu _ _ _ => primaryRow 0x1B#6
  | .bgeu _ _ _ => primaryRow 0x1C#6
  | .jmp _ => primaryRow 0x1D#6
  | .call _ => primaryRow 0x1E#6
  | .ret _ => primaryRow 0x1F#6
  | .syscall _ => primaryRow 0x20#6
  | .halt _ => primaryRow 0x21#6
  | .nop _ => primaryRow 0x22#6
  | .cmp _ _ _ _ _ => primaryRow 0x23#6
  | .test _ _ _ _ _ => primaryRow 0x24#6
  | .ldd _ _ _ => primaryRow 0x25#6
  | .iret _ => primaryRow 0x26#6
  | .vadd _ _ _ => vectorRow 0x00#8
  | .vsub _ _ _ => vectorRow 0x01#8
  | .vmul _ _ _ => vectorRow 0x02#8
  | .vmulh _ _ _ => vectorRow 0x03#8
  | .vdiv _ _ _ => vectorRow 0x04#8
  | .vmod _ _ _ => vectorRow 0x05#8
  | .vand _ _ _ => vectorRow 0x06#8
  | .vor _ _ _ => vectorRow 0x07#8
  | .vxor _ _ _ => vectorRow 0x08#8
  | .vnot _ _ _ => vectorRow 0x09#8
  | .vshl _ _ _ => vectorRow 0x0A#8
  | .vshr _ _ _ => vectorRow 0x0B#8
  | .vsar _ _ _ => vectorRow 0x0C#8
  | .vrol _ _ _ => vectorRow 0x0D#8
  | .vror _ _ _ => vectorRow 0x0E#8
  | .vaddf64 _ _ _ => vectorRow 0x10#8
  | .vsubf64 _ _ _ => vectorRow 0x11#8
  | .vmulf64 _ _ _ => vectorRow 0x12#8
  | .vfmaf64 _ _ _ => vectorRow 0x13#8
  | .vload _ _ _ => vectorMemRow 0x31#6
  | .vstore _ _ _ => vectorMemRow 0x32#6

/-- The fixed bits of the instruction's row stand in its encoding. -/
def TableRow.Statement (i : Instr) : Prop := encode i &&& (rowOf i).1 = (rowOf i).2

theorem encodeR_row (op : BitVec 6) (rd rs1 rs2 : Reg) (shamt : BitVec 5) (funct : BitVec 6) :
    encodeR op rd rs1 rs2 shamt funct &&& (primaryRow op).1 = (primaryRow op).2 := by
  apply BitVec.eq_of_getLsbD_eq
  intro i hi
  simp only [encodeR, primaryRow, BitVec.getLsbD_and, BitVec.getLsbD_append]
  interval_cases i <;> simp

theorem encodeI_row (op : BitVec 6) (rd rs1 : Reg) (imm : BitVec 16) :
    encodeI op rd rs1 imm &&& (primaryRow op).1 = (primaryRow op).2 := by
  apply BitVec.eq_of_getLsbD_eq
  intro i hi
  simp only [encodeI, primaryRow, BitVec.getLsbD_and, BitVec.getLsbD_append]
  interval_cases i <;> simp

theorem encodeJ_row (op : BitVec 6) (imm : BitVec 26) :
    encodeJ op imm &&& (primaryRow op).1 = (primaryRow op).2 := by
  apply BitVec.eq_of_getLsbD_eq
  intro i hi
  simp only [encodeJ, primaryRow, BitVec.getLsbD_and, BitVec.getLsbD_append]
  interval_cases i <;> simp

theorem encodeV_row (vfunct : BitVec 8) (vd vs1 vs2 : VReg) :
    encodeV vfunct vd vs1 vs2 &&& (vectorRow vfunct).1 = (vectorRow vfunct).2 := by
  apply BitVec.eq_of_getLsbD_eq
  intro i hi
  simp only [encodeV, vectorRow, BitVec.getLsbD_and, BitVec.getLsbD_append, BitVec.getLsbD_setWidth]
  interval_cases i <;> simp

theorem encodeW_row (op : BitVec 6) (vd : VReg) (rs1 : Reg) (imm : BitVec 16) :
    encodeI op (vd.setWidth 5) rs1 imm &&& (vectorMemRow op).1 = (vectorMemRow op).2 := by
  apply BitVec.eq_of_getLsbD_eq
  intro i hi
  simp only [encodeI, vectorMemRow, BitVec.getLsbD_and, BitVec.getLsbD_append, BitVec.getLsbD_setWidth]
  interval_cases i <;> simp

theorem TableRow.add (rd rs1 rs2 : Reg) (shamt : BitVec 5) (funct : BitVec 6) :
    TableRow.Statement (.add rd rs1 rs2 shamt funct) :=
    encodeR_row 0x00#6 rd rs1 rs2 shamt funct
theorem TableRow.sub (rd rs1 rs2 : Reg) (shamt : BitVec 5) (funct : BitVec 6) :
    TableRow.Statement (.sub rd rs1 rs2 shamt funct) :=
    encodeR_row 0x01#6 rd rs1 rs2 shamt funct
theorem TableRow.mul (rd rs1 rs2 : Reg) (shamt : BitVec 5) (funct : BitVec 6) :
    TableRow.Statement (.mul rd rs1 rs2 shamt funct) :=
    encodeR_row 0x02#6 rd rs1 rs2 shamt funct
theorem TableRow.mulh (rd rs1 rs2 : Reg) (shamt : BitVec 5) (funct : BitVec 6) :
    TableRow.Statement (.mulh rd rs1 rs2 shamt funct) :=
    encodeR_row 0x03#6 rd rs1 rs2 shamt funct
theorem TableRow.div (rd rs1 rs2 : Reg) (shamt : BitVec 5) (funct : BitVec 6) :
    TableRow.Statement (.div rd rs1 rs2 shamt funct) :=
    encodeR_row 0x04#6 rd rs1 rs2 shamt funct
theorem TableRow.mod (rd rs1 rs2 : Reg) (shamt : BitVec 5) (funct : BitVec 6) :
    TableRow.Statement (.mod rd rs1 rs2 shamt funct) :=
    encodeR_row 0x05#6 rd rs1 rs2 shamt funct
theorem TableRow.and (rd rs1 rs2 : Reg) (shamt : BitVec 5) (funct : BitVec 6) :
    TableRow.Statement (.and rd rs1 rs2 shamt funct) :=
    encodeR_row 0x06#6 rd rs1 rs2 shamt funct
theorem TableRow.or (rd rs1 rs2 : Reg) (shamt : BitVec 5) (funct : BitVec 6) :
    TableRow.Statement (.or rd rs1 rs2 shamt funct) :=
    encodeR_row 0x07#6 rd rs1 rs2 shamt funct
theorem TableRow.xor (rd rs1 rs2 : Reg) (shamt : BitVec 5) (funct : BitVec 6) :
    TableRow.Statement (.xor rd rs1 rs2 shamt funct) :=
    encodeR_row 0x08#6 rd rs1 rs2 shamt funct
theorem TableRow.not (rd rs1 rs2 : Reg) (shamt : BitVec 5) (funct : BitVec 6) :
    TableRow.Statement (.not rd rs1 rs2 shamt funct) :=
    encodeR_row 0x09#6 rd rs1 rs2 shamt funct
theorem TableRow.shl (rd rs1 rs2 : Reg) (shamt : BitVec 5) (funct : BitVec 6) :
    TableRow.Statement (.shl rd rs1 rs2 shamt funct) :=
    encodeR_row 0x0A#6 rd rs1 rs2 shamt funct
theorem TableRow.shr (rd rs1 rs2 : Reg) (shamt : BitVec 5) (funct : BitVec 6) :
    TableRow.Statement (.shr rd rs1 rs2 shamt funct) :=
    encodeR_row 0x0B#6 rd rs1 rs2 shamt funct
theorem TableRow.sar (rd rs1 rs2 : Reg) (shamt : BitVec 5) (funct : BitVec 6) :
    TableRow.Statement (.sar rd rs1 rs2 shamt funct) :=
    encodeR_row 0x0C#6 rd rs1 rs2 shamt funct
theorem TableRow.rol (rd rs1 rs2 : Reg) (shamt : BitVec 5) (funct : BitVec 6) :
    TableRow.Statement (.rol rd rs1 rs2 shamt funct) :=
    encodeR_row 0x0D#6 rd rs1 rs2 shamt funct
theorem TableRow.ror (rd rs1 rs2 : Reg) (shamt : BitVec 5) (funct : BitVec 6) :
    TableRow.Statement (.ror rd rs1 rs2 shamt funct) :=
    encodeR_row 0x0E#6 rd rs1 rs2 shamt funct
theorem TableRow.ld (rd rs1 : Reg) (imm : BitVec 16) :
    TableRow.Statement (.ld rd rs1 imm) :=
    encodeI_row 0x0F#6 rd rs1 imm
theorem TableRow.lw (rd rs1 : Reg) (imm : BitVec 16) :
    TableRow.Statement (.lw rd rs1 imm) :=
    encodeI_row 0x10#6 rd rs1 imm
theorem TableRow.lh (rd rs1 : Reg) (imm : BitVec 16) :
    TableRow.Statement (.lh rd rs1 imm) :=
    encodeI_row 0x11#6 rd rs1 imm
theorem TableRow.lb (rd rs1 : Reg) (imm : BitVec 16) :
    TableRow.Statement (.lb rd rs1 imm) :=
    encodeI_row 0x12#6 rd rs1 imm
theorem TableRow.st (rd rs1 : Reg) (imm : BitVec 16) :
    TableRow.Statement (.st rd rs1 imm) :=
    encodeI_row 0x13#6 rd rs1 imm
theorem TableRow.sw (rd rs1 : Reg) (imm : BitVec 16) :
    TableRow.Statement (.sw rd rs1 imm) :=
    encodeI_row 0x14#6 rd rs1 imm
theorem TableRow.sh (rd rs1 : Reg) (imm : BitVec 16) :
    TableRow.Statement (.sh rd rs1 imm) :=
    encodeI_row 0x15#6 rd rs1 imm
theorem TableRow.sb (rd rs1 : Reg) (imm : BitVec 16) :
    TableRow.Statement (.sb rd rs1 imm) :=
    encodeI_row 0x16#6 rd rs1 imm
theorem TableRow.beq (rd rs1 : Reg) (imm : BitVec 16) :
    TableRow.Statement (.beq rd rs1 imm) :=
    encodeI_row 0x17#6 rd rs1 imm
theorem TableRow.bne (rd rs1 : Reg) (imm : BitVec 16) :
    TableRow.Statement (.bne rd rs1 imm) :=
    encodeI_row 0x18#6 rd rs1 imm
theorem TableRow.blt (rd rs1 : Reg) (imm : BitVec 16) :
    TableRow.Statement (.blt rd rs1 imm) :=
    encodeI_row 0x19#6 rd rs1 imm
theorem TableRow.bge (rd rs1 : Reg) (imm : BitVec 16) :
    TableRow.Statement (.bge rd rs1 imm) :=
    encodeI_row 0x1A#6 rd rs1 imm
theorem TableRow.bltu (rd rs1 : Reg) (imm : BitVec 16) :
    TableRow.Statement (.bltu rd rs1 imm) :=
    encodeI_row 0x1B#6 rd rs1 imm
theorem TableRow.bgeu (rd rs1 : Reg) (imm : BitVec 16) :
    TableRow.Statement (.bgeu rd rs1 imm) :=
    encodeI_row 0x1C#6 rd rs1 imm
theorem TableRow.jmp (imm : BitVec 26) :
    TableRow.Statement (.jmp imm) :=
    encodeJ_row 0x1D#6 imm
theorem TableRow.call (imm : BitVec 26) :
    TableRow.Statement (.call imm) :=
    encodeJ_row 0x1E#6 imm
theorem TableRow.ret (imm : BitVec 26) :
    TableRow.Statement (.ret imm) :=
    encodeJ_row 0x1F#6 imm
theorem TableRow.syscall (imm : BitVec 26) :
    TableRow.Statement (.syscall imm) :=
    encodeJ_row 0x20#6 imm
theorem TableRow.halt (imm : BitVec 26) :
    TableRow.Statement (.halt imm) :=
    encodeJ_row 0x21#6 imm
theorem TableRow.nop (imm : BitVec 26) :
    TableRow.Statement (.nop imm) :=
    encodeJ_row 0x22#6 imm
theorem TableRow.cmp (rd rs1 rs2 : Reg) (shamt : BitVec 5) (funct : BitVec 6) :
    TableRow.Statement (.cmp rd rs1 rs2 shamt funct) :=
    encodeR_row 0x23#6 rd rs1 rs2 shamt funct
theorem TableRow.test (rd rs1 rs2 : Reg) (shamt : BitVec 5) (funct : BitVec 6) :
    TableRow.Statement (.test rd rs1 rs2 shamt funct) :=
    encodeR_row 0x24#6 rd rs1 rs2 shamt funct
theorem TableRow.ldd (rd rs1 : Reg) (imm : BitVec 16) :
    TableRow.Statement (.ldd rd rs1 imm) :=
    encodeI_row 0x25#6 rd rs1 imm
theorem TableRow.iret (imm : BitVec 26) :
    TableRow.Statement (.iret imm) :=
    encodeJ_row 0x26#6 imm
theorem TableRow.vadd (vd vs1 vs2 : VReg) :
    TableRow.Statement (.vadd vd vs1 vs2) :=
    encodeV_row 0x00#8 vd vs1 vs2
theorem TableRow.vsub (vd vs1 vs2 : VReg) :
    TableRow.Statement (.vsub vd vs1 vs2) :=
    encodeV_row 0x01#8 vd vs1 vs2
theorem TableRow.vmul (vd vs1 vs2 : VReg) :
    TableRow.Statement (.vmul vd vs1 vs2) :=
    encodeV_row 0x02#8 vd vs1 vs2
theorem TableRow.vmulh (vd vs1 vs2 : VReg) :
    TableRow.Statement (.vmulh vd vs1 vs2) :=
    encodeV_row 0x03#8 vd vs1 vs2
theorem TableRow.vdiv (vd vs1 vs2 : VReg) :
    TableRow.Statement (.vdiv vd vs1 vs2) :=
    encodeV_row 0x04#8 vd vs1 vs2
theorem TableRow.vmod (vd vs1 vs2 : VReg) :
    TableRow.Statement (.vmod vd vs1 vs2) :=
    encodeV_row 0x05#8 vd vs1 vs2
theorem TableRow.vand (vd vs1 vs2 : VReg) :
    TableRow.Statement (.vand vd vs1 vs2) :=
    encodeV_row 0x06#8 vd vs1 vs2
theorem TableRow.vor (vd vs1 vs2 : VReg) :
    TableRow.Statement (.vor vd vs1 vs2) :=
    encodeV_row 0x07#8 vd vs1 vs2
theorem TableRow.vxor (vd vs1 vs2 : VReg) :
    TableRow.Statement (.vxor vd vs1 vs2) :=
    encodeV_row 0x08#8 vd vs1 vs2
theorem TableRow.vnot (vd vs1 vs2 : VReg) :
    TableRow.Statement (.vnot vd vs1 vs2) :=
    encodeV_row 0x09#8 vd vs1 vs2
theorem TableRow.vshl (vd vs1 vs2 : VReg) :
    TableRow.Statement (.vshl vd vs1 vs2) :=
    encodeV_row 0x0A#8 vd vs1 vs2
theorem TableRow.vshr (vd vs1 vs2 : VReg) :
    TableRow.Statement (.vshr vd vs1 vs2) :=
    encodeV_row 0x0B#8 vd vs1 vs2
theorem TableRow.vsar (vd vs1 vs2 : VReg) :
    TableRow.Statement (.vsar vd vs1 vs2) :=
    encodeV_row 0x0C#8 vd vs1 vs2
theorem TableRow.vrol (vd vs1 vs2 : VReg) :
    TableRow.Statement (.vrol vd vs1 vs2) :=
    encodeV_row 0x0D#8 vd vs1 vs2
theorem TableRow.vror (vd vs1 vs2 : VReg) :
    TableRow.Statement (.vror vd vs1 vs2) :=
    encodeV_row 0x0E#8 vd vs1 vs2
theorem TableRow.vaddf64 (vd vs1 vs2 : VReg) :
    TableRow.Statement (.vaddf64 vd vs1 vs2) :=
    encodeV_row 0x10#8 vd vs1 vs2
theorem TableRow.vsubf64 (vd vs1 vs2 : VReg) :
    TableRow.Statement (.vsubf64 vd vs1 vs2) :=
    encodeV_row 0x11#8 vd vs1 vs2
theorem TableRow.vmulf64 (vd vs1 vs2 : VReg) :
    TableRow.Statement (.vmulf64 vd vs1 vs2) :=
    encodeV_row 0x12#8 vd vs1 vs2
theorem TableRow.vfmaf64 (vd vs1 vs2 : VReg) :
    TableRow.Statement (.vfmaf64 vd vs1 vs2) :=
    encodeV_row 0x13#8 vd vs1 vs2
theorem TableRow.vload (vd : VReg) (rs1 : Reg) (imm : BitVec 16) :
    TableRow.Statement (.vload vd rs1 imm) :=
    encodeW_row 0x31#6 vd rs1 imm
theorem TableRow.vstore (vd : VReg) (rs1 : Reg) (imm : BitVec 16) :
    TableRow.Statement (.vstore vd rs1 imm) :=
    encodeW_row 0x32#6 vd rs1 imm

end Sys2Proof.Laws
end

