-- ==== Sys2Proof/Laws/Reference.lean ====
section
/-! SUPPORT. The reference interpreter of Machine/Reference.lean: what its operations can do, and that it leaves latches,
caches, TLB, predictor and counters as they are (spec/70_reset_and_hazards.md R467). -/

namespace Sys2Proof.Machine

/-! ## Memory -/

/-- With empty caches the flat memory is `PM`. -/
theorem flatByte_bare (p : Params) {h : Hierarchy} (hd : h.l1d = []) (h2 : h.l2 = []) (a : Nat) :
    flatByte p h a = Memory.read h.pm a := by
  have h0 (g : Geom) (ln : Nat) : cached g [] ln = none := by
    unfold cached setGet findData
    rw [Store.get_nil, Option.map_eq_none_iff, List.find?_eq_none]
    intro w hw
    rw [(List.mem_replicate.mp hw).2]
    simp [wayHolds, emptyWay]
  unfold flatByte
  rw [hd, h2, h0, h0]

/-- Nothing to drop from an empty cache. -/
theorem dropLine_nil (g : Geom) (ln : Nat) : dropLine g [] ln = [] := by
  have h0 : (setGet g [] (setOf g ln)).map (fun w => if wayHolds (tagOf g ln) w then invalidWay w else w) = emptySet g := by
    simp [setGet, emptySet, wayHolds, emptyWay]
  unfold dropLine setPut Store.set
  rw [h0, if_pos rfl]; rfl

/-- A coherent host write over empty caches only writes `PM` (22_caches.md R149). -/
theorem hostWrite_bare (p : Params) {h : Hierarchy} (hi : h.l1i = []) (hd : h.l1d = []) (h2 : h.l2 = []) (a : Nat)
    (bytes : List Byte) : hostWrite p h a bytes = { h with pm := Memory.writeBytes h.pm a bytes } := by
  have h0 (g : Geom) (ln : Nat) : dirtyCopy g [] ln = none := by
    unfold dirtyCopy setGet
    rw [Store.get_nil, Option.map_eq_none_iff, List.find?_eq_none]
    intro w hw
    rw [(List.mem_replicate.mp hw).2]
    simp [wayHolds, emptyWay]
  have h1 (ln : Nat) : evictLine p h ln = h := by
    obtain ⟨pm, l1i, l1d, l2, pf⟩ := h
    subst hi hd h2
    simp only [evictLine, h0, dropLine_nil]
  have hn (n : Nat) : ∀ ln, evictLines p h ln n = h := by
    induction n with
    | zero => exact fun _ => rfl
    | succ n ih => exact fun ln => by rw [evictLines, h1, ih]
  simp only [hostWrite, hn]

/-- What a reference translation leaves: only the page table can change. -/
theorem refTranslate_done {s t : State} {va : Word} {acc : Acc} {pa : Nat} (h : refTranslate s va acc = .done pa t) :
    (translate s.params.tlbEntries { s.mmu with tlb := [] } (userMode s) va acc).2 = .pa pa ∧
      t = { s with mmu := { s.mmu with
        pt := (translate s.params.tlbEntries { s.mmu with tlb := [] } (userMode s) va acc).1.pt } } := by
  unfold refTranslate at h
  simp only at h
  split at h
  · rename_i a ha; cases h; exact ⟨ha, rfl⟩
  · cases h

theorem refTranslate_raised {s t : State} {va : Word} {acc : Acc} {e : Exc} (h : refTranslate s va acc = .raised e t) :
    (translate s.params.tlbEntries { s.mmu with tlb := [] } (userMode s) va acc).2 = .exc e ∧ t = s := by
  unfold refTranslate at h
  simp only at h
  split at h
  · cases h
  · rename_i a ha; cases h; exact ⟨ha, rfl⟩

/-- What `refRead` can do (20_memory.md R71). -/
theorem refRead_cases (s : State) (va : Word) (n : Nat) :
    (va.toNat % n ≠ 0 ∧ refRead s va n = .raised (alignmentFault va .read n) s) ∨
    (va.toNat % n = 0 ∧ ∃ e, refTranslate s va .read = .raised e s ∧ refRead s va n = .raised e s) ∨
    (va.toNat % n = 0 ∧ ∃ pa t, refTranslate s va .read = .done pa t ∧
      ((inWindow s.params pa = true ∧ refRead s va n = .done (mmioRead t pa n).1 (mmioRead t pa n).2) ∨
       (inWindow s.params pa = false ∧ s.params.memSize < pa + n ∧
        refRead s va n = .raised (pageFault va 0 .read .bounds) s) ∨
       (inWindow s.params pa = false ∧ pa + n ≤ s.params.memSize ∧ refRead s va n = .done (pmValue t pa n) t))) := by
  unfold refRead
  by_cases hm : va.toNat % n = 0
  · simp only [hm, ne_eq, not_true, if_false, true_and, false_and, false_or]
    cases ht : refTranslate s va .read with
    | raised e t =>
      obtain rfl := (refTranslate_raised ht).2
      exact .inl ⟨e, rfl, rfl⟩
    | done pa t =>
      refine .inr ⟨pa, t, rfl, ?_⟩
      obtain ⟨-, rfl⟩ := refTranslate_done ht
      by_cases hw : inWindow s.params pa = true
      · exact .inl ⟨hw, by simp only [hw, if_true]⟩
      · by_cases hb : s.params.memSize < pa + n
        · exact .inr (.inl ⟨by simpa using hw, hb, by simp only [hw, hb, if_true]; rfl⟩)
        · exact .inr (.inr ⟨by simpa using hw, by omega, by simp only [hw, hb, if_false]; rfl⟩)
  · exact .inl ⟨hm, by simp only [ne_eq, hm, not_false_iff, if_true]⟩

/-- What `refWrite` can do (20_memory.md R72). -/
theorem refWrite_cases (s : State) (va : Word) (n : Nat) (val : VWord) :
    (va.toNat % n ≠ 0 ∧ refWrite s va n val = .raised (alignmentFault va .write n) s) ∨
    (va.toNat % n = 0 ∧ ∃ e, refTranslate s va .write = .raised e s ∧ refWrite s va n val = .raised e s) ∨
    (va.toNat % n = 0 ∧ ∃ pa t, refTranslate s va .write = .done pa t ∧
      ((inWindow s.params pa = true ∧ refWrite s va n val = .done () (mmioWrite t pa n val)) ∨
       (inWindow s.params pa = false ∧ s.params.memSize < pa + n ∧
        refWrite s va n val = .raised (pageFault va 0 .write .bounds) s) ∨
       (inWindow s.params pa = false ∧ pa + n ≤ s.params.memSize ∧
        refWrite s va n val = .done () (pmStore pa n val t)))) := by
  unfold refWrite
  by_cases hm : va.toNat % n = 0
  · simp only [hm, ne_eq, not_true, if_false, true_and, false_and, false_or]
    cases ht : refTranslate s va .write with
    | raised e t =>
      obtain rfl := (refTranslate_raised ht).2
      exact .inl ⟨e, rfl, rfl⟩
    | done pa t =>
      refine .inr ⟨pa, t, rfl, ?_⟩
      obtain ⟨-, rfl⟩ := refTranslate_done ht
      by_cases hw : inWindow s.params pa = true
      · exact .inl ⟨hw, by simp only [hw, if_true]⟩
      · by_cases hb : s.params.memSize < pa + n
        · exact .inr (.inl ⟨by simpa using hw, hb, by simp only [hw, hb, if_true]; rfl⟩)
        · exact .inr (.inr ⟨by simpa using hw, by omega, by simp only [hw, hb, if_false]; rfl⟩)
  · exact .inl ⟨hm, by simp only [ne_eq, hm, not_false_iff, if_true]⟩

/-- What `refFetch` can do (20_memory.md R73). -/
theorem refFetch_cases (s : State) (va : Word) :
    (va.toNat % 4 ≠ 0 ∧ refFetch s va = .raised (alignmentFault va .fetch 4) s) ∨
    (va.toNat % 4 = 0 ∧ ∃ e, refTranslate s va .fetch = .raised e s ∧ refFetch s va = .raised e s) ∨
    (va.toNat % 4 = 0 ∧ ∃ pa t, refTranslate s va .fetch = .done pa t ∧
      (((inWindow s.params pa = true ∨ s.params.memSize < pa + 4) ∧
        refFetch s va = .raised (pageFault va 0 .fetch .bounds) s) ∨
       (inWindow s.params pa = false ∧ pa + 4 ≤ s.params.memSize ∧
        refFetch s va = .done ((pmValue t pa 4).setWidth 32) t))) := by
  unfold refFetch
  by_cases hm : va.toNat % 4 = 0
  · simp only [hm, ne_eq, not_true, if_false, true_and, false_and, false_or]
    cases ht : refTranslate s va .fetch with
    | raised e t =>
      obtain rfl := (refTranslate_raised ht).2
      exact .inl ⟨e, rfl, rfl⟩
    | done pa t =>
      refine .inr ⟨pa, t, rfl, ?_⟩
      obtain ⟨-, rfl⟩ := refTranslate_done ht
      by_cases hw : inWindow s.params pa = true
      · exact .inl ⟨.inl hw, by simp only [hw, Bool.true_or, if_true]⟩
      · by_cases hb : s.params.memSize < pa + 4
        · exact .inl ⟨.inr hb, by simp only [hb, decide_true, Bool.or_true, if_true]⟩
        · exact .inr ⟨by simpa using hw, by omega, by simp only [hw, hb, decide_false, Bool.or_false]; rfl⟩
  · exact .inl ⟨hm, by simp only [ne_eq, hm, not_false_iff, if_true]⟩

/-! ## What the reference interpreter has no part in -/

/-- Latches, caches, TLB, predictor and counters are those of `s`. -/
structure SameHidden (s t : State) : Prop where
  latches : t.latches = s.latches
  l1i : t.hier.l1i = s.hier.l1i
  l1d : t.hier.l1d = s.hier.l1d
  l2 : t.hier.l2 = s.hier.l2
  pf : t.hier.pf = s.hier.pf
  tlb : t.mmu.tlb = s.mmu.tlb
  predictor : t.predictor = s.predictor
  perf : t.perf = s.perf

theorem SameHidden.refl (s : State) : SameHidden s s := ⟨rfl, rfl, rfl, rfl, rfl, rfl, rfl, rfl⟩

theorem SameHidden.trans {a b c : State} (h : SameHidden a b) (k : SameHidden b c) : SameHidden a c :=
  ⟨k.latches.trans h.latches, k.l1i.trans h.l1i, k.l1d.trans h.l1d, k.l2.trans h.l2, k.pf.trans h.pf,
    k.tlb.trans h.tlb, k.predictor.trans h.predictor, k.perf.trans h.perf⟩

/-- An update of the other fields leaves them. -/
theorem SameHidden.of_eq {s t : State} (hl : t.latches = s.latches) (hh : t.hier = s.hier) (hm : t.mmu = s.mmu)
    (hp : t.predictor = s.predictor) (hf : t.perf = s.perf) : SameHidden s t :=
  ⟨hl, by rw [hh], by rw [hh], by rw [hh], by rw [hh], by rw [hm], hp, hf⟩

theorem SameHidden.deliver (e : Exc) (ret : Word) (s : State) : SameHidden s (deliver e ret s) := by
  obtain ⟨-, h⟩ | ⟨_, -, -, h⟩ | ⟨_, -, -, h⟩ := deliver_cases e ret s <;> rw [h] <;>
    exact .of_eq (by simp) (by simp) (by simp) (by simp) (by simp)

theorem SameHidden.deliverInterrupt (v : Nat) (ret : Word) (s : State) : SameHidden s (deliverInterrupt v ret s) := by
  unfold Machine.deliverInterrupt
  split <;> exact .of_eq (by simp) (by simp) (by simp) (by simp) (by simp)

theorem SameHidden.refTranslate_done {s t : State} {va : Word} {acc : Acc} {pa : Nat}
    (h : refTranslate s va acc = .done pa t) : SameHidden s t := by
  rw [(Machine.refTranslate_done h).2]
  exact ⟨rfl, rfl, rfl, rfl, rfl, rfl, rfl, rfl⟩

theorem SameHidden.mmioRead (s : State) (pa n : Nat) : SameHidden s (mmioRead s pa n).2 := by
  unfold Machine.mmioRead
  split <;> exact .of_eq rfl rfl rfl rfl rfl

theorem SameHidden.mmioWrite (s : State) (pa n : Nat) (val : VWord) : SameHidden s (mmioWrite s pa n val) := by
  unfold Machine.mmioWrite
  split <;> exact .of_eq rfl rfl rfl rfl rfl

theorem SameHidden.refRead {s t : State} {va : Word} {n : Nat}
    (h : (∃ val, refRead s va n = .done val t) ∨ ∃ e, refRead s va n = .raised e t) : SameHidden s t := by
  obtain ⟨-, k⟩ | ⟨-, e, -, k⟩ | ⟨-, pa, u, hu, ⟨-, k⟩ | ⟨-, -, k⟩ | ⟨-, -, k⟩⟩ := refRead_cases s va n <;>
    rw [k] at h <;> obtain ⟨_, h⟩ | ⟨_, h⟩ := h <;> cases h
  · exact .refl s
  · exact .refl s
  · exact (refTranslate_done hu).trans (.mmioRead u pa n)
  · exact .refl s
  · exact refTranslate_done hu

theorem SameHidden.refWrite {s t : State} {va : Word} {n : Nat} {val : VWord}
    (h : refWrite s va n val = .done () t ∨ ∃ e, refWrite s va n val = .raised e t) : SameHidden s t := by
  obtain ⟨-, k⟩ | ⟨-, e, -, k⟩ | ⟨-, pa, u, hu, ⟨-, k⟩ | ⟨-, -, k⟩ | ⟨-, -, k⟩⟩ := refWrite_cases s va n val <;>
    rw [k] at h <;> obtain h | ⟨_, h⟩ := h <;> cases h
  · exact .refl s
  · exact .refl s
  · exact (refTranslate_done hu).trans (.mmioWrite u pa n val)
  · exact .refl s
  · exact (refTranslate_done hu).trans ⟨rfl, rfl, rfl, rfl, rfl, rfl, rfl, rfl⟩

theorem SameHidden.refFetch {s t : State} {va : Word}
    (h : (∃ w, refFetch s va = .done w t) ∨ ∃ e, refFetch s va = .raised e t) : SameHidden s t := by
  obtain ⟨-, k⟩ | ⟨-, e, -, k⟩ | ⟨-, pa, u, hu, ⟨-, k⟩ | ⟨-, -, k⟩⟩ := refFetch_cases s va <;>
    rw [k] at h <;> obtain ⟨_, h⟩ | ⟨_, h⟩ := h <;> cases h
  · exact .refl s
  · exact .refl s
  · exact .refl s
  · exact refTranslate_done hu

/-- No cache holds anything. -/
def CachesEmpty (s : State) : Prop := s.hier.l1i = [] ∧ s.hier.l1d = [] ∧ s.hier.l2 = []

theorem CachesEmpty.of_same {s t : State} (h : CachesEmpty s) (k : SameHidden s t) : CachesEmpty t :=
  ⟨k.l1i.trans h.1, k.l1d.trans h.2.1, k.l2.trans h.2.2⟩

/-- The writes of an environment's answer leave empty caches empty. -/
theorem applyWrites_bare (p : Params) (ws : List (Nat × List Byte)) : ∀ h : Hierarchy, h.l1i = [] → h.l1d = [] →
    h.l2 = [] → ∃ pm, applyWrites p ws h = { h with pm := pm } := by
  induction ws with
  | nil => exact fun h _ _ _ => ⟨h.pm, rfl⟩
  | cons w ws ih =>
    intro h hi hd h2
    rw [applyWrites]
    split
    · rw [hostWrite_bare p hi hd h2]
      exact ih _ hi hd h2
    · exact ih h hi hd h2

theorem SameHidden.defaultService {s : State} (h : CachesEmpty s) (pc : Word) : SameHidden s (defaultService pc s) := by
  obtain ⟨-, k⟩ | ⟨-, -, k⟩ | ⟨-, k⟩ := defaultService_cases pc s <;> rw [k]
  · exact .of_eq (by simp) (by simp) (by simp) (by simp) (by simp)
  · unfold envService
    simp only
    split
    · obtain ⟨pm, hp⟩ := applyWrites_bare s.params
        (Config.envSyscall s.envCalls (getX s 1).toNat (getX s 2) (getX s 3) (getX s 4) (flatByte s.params s.hier)).2
        s.hier h.1 h.2.1 h.2.2
      rw [hp]
      exact ⟨by simp, by simp, by simp, by simp, by simp, by simp, by simp, by simp⟩
    · exact .of_eq (by simp) (by simp) (by simp) (by simp) (by simp)
  · exact .of_eq (by simp) (by simp) (by simp) (by simp) (by simp)

theorem SameHidden.systemEvent {s : State} (h : CachesEmpty s) (i : Instr) (pc : Word) :
    SameHidden s (systemEvent i pc s) := by
  unfold Machine.systemEvent
  split
  · obtain ⟨-, k⟩ | ⟨_, -, -, k⟩ | ⟨_, -, -, k⟩ := syscallTrap_cases pc s <;> rw [k]
    · have h1 : SameHidden s (countVector 128 s) := .of_eq rfl rfl rfl rfl rfl
      exact h1.trans (.defaultService (h.of_same h1) pc)
    · exact .of_eq (by simp) (by simp) (by simp) (by simp) (by simp)
    · exact .of_eq (by simp) (by simp) (by simp) (by simp) (by simp)
  · unfold haltCore
    exact .of_eq (by simp) (by simp) (by simp) (by simp) (by simp)
  · exact .of_eq rfl rfl rfl rfl rfl
  · exact .refl s

theorem SameHidden.refRetire {s : State} (h : CachesEmpty s) (i : Instr) (c : Computed) (result : VWord) :
    SameHidden s (refRetire i c result s) := by
  have h1 : SameHidden s (commitFlags c.flags (commitDest (destOf i) result s)) := by
    unfold commitFlags commitDest
    split <;> split <;> exact .of_eq (by simp) (by simp) (by simp) (by simp) (by simp)
  unfold Machine.refRetire
  simp only
  split
  · exact h1.trans (.systemEvent (h.of_same h1) i _)
  · exact h1.trans (.of_eq rfl rfl rfl rfl rfl)

theorem SameHidden.refExec {s : State} (h : CachesEmpty s) (i : Instr) : SameHidden s (refExec i s) := by
  unfold Machine.refExec
  simp only
  split
  · exact .deliver _ _ s
  · split
    · exact .refRetire h i _ _
    · split
      · next k => exact (refRead (.inr ⟨_, k⟩)).trans (.deliver _ _ _)
      · next k =>
        have h1 := refRead (.inl ⟨_, k⟩)
        exact h1.trans (.refRetire (h.of_same h1) i _ _)
    · split
      · next k => exact (refWrite (.inr ⟨_, k⟩)).trans (.deliver _ _ _)
      · next k =>
        have h1 := refWrite (.inl k)
        exact h1.trans (.refRetire (h.of_same h1) i _ _)

theorem SameHidden.refRound {s : State} (h : CachesEmpty s) (take : Bool) : SameHidden s (refRound take s) := by
  have h0 : SameHidden s (startStep s) := .of_eq rfl rfl rfl rfl rfl
  unfold Machine.refRound
  split
  · exact .refl s
  · simp only
    split
    · exact h0.trans (.of_eq (by simp) (by simp) (by simp) (by simp) (by simp))
    · split
      · exact h0.trans (.deliverInterrupt _ _ _)
      · have h1 : SameHidden s { startStep s with resume := false } := .of_eq rfl rfl rfl rfl rfl
        unfold refFetchAndExec
        split
        · next k => exact h1.trans ((refFetch (.inr ⟨_, k⟩)).trans (.deliver _ _ _))
        · next k =>
          have h2 := h1.trans (refFetch (.inl ⟨_, k⟩))
          refine h2.trans ?_
          split
          · exact .deliver _ _ _
          · exact .refExec (h.of_same h2) _

/-- The reference interpreter changes no latch, cache, TLB entry, prediction or counter (70_reset_and_hazards.md R467). -/
theorem SameHidden.refRun (inputs : List RefInput) : ∀ {s : State}, CachesEmpty s → SameHidden s (refRun inputs s) := by
  induction inputs with
  | nil => exact fun _ => .refl _
  | cons i is ih =>
    intro s h
    have h1 : SameHidden s (refInput s i) := by
      cases i with
      | trigger vs => exact .of_eq rfl rfl rfl rfl rfl
      | round take => exact .refRound h take
    exact h1.trans (ih (h.of_same h1))

theorem cachesEmpty_architectural (s : State) : CachesEmpty (architectural s) := ⟨rfl, rfl, rfl⟩

end Sys2Proof.Machine
end

