-- ==== Sys2Proof/Tests/Slice0.lean ====
section
/-! SUPPORT. Tests. Words and expected results are those of spec/95_test_vectors.md unless a docstring says that they are
computed by hand from a rule. The last part shows, for every statement with hypotheses, states that meet them. -/

namespace Sys2Proof.Tests

-- The kernel evaluates these theorems one after another; checked side by side they would each hold a thread.
set_option Elab.async false

open Sys2Proof Sys2Proof.Machine Sys2Proof.Claims

/-! ## Decoding: one word per constructor, from the field values by the formats of 30_encoding.md R161 to R171 -/

/-- The scalar ALU instructions. -/
theorem test_decode_alu :
    [decode true 0x0289C000#32,
     decode true 0x059AB800#32,
     decode true 0x0BFBC000#32,
     decode true 0x0EBE8800#32,
     decode true 0x103B7800#32,
     decode true 0x173F4000#32,
     decode true 0x1AA2E800#32,
     decode true 0x1CC46000#32,
     decode true 0x221C4000#32,
     decode true 0x25B20000#32,
     decode true 0x2A680800#32,
     decode true 0x2F077000#32,
     decode true 0x3126F000#32,
     decode true 0x37996800#32,
     decode true 0x38D9D000#32,
     decode true 0x8C05A000#32,
     decode true 0x900F2800#32] =
    [some (.add 20 9 24 0 0),
     some (.sub 12 26 23 0 0),
     some (.mul 31 27 24 0 0),
     some (.mulh 21 30 17 0 0),
     some (.div 1 27 15 0 0),
     some (.mod 25 31 8 0 0),
     some (.and 21 2 29 0 0),
     some (.or 6 4 12 0 0),
     some (.xor 16 28 8 0 0),
     some (.not 13 18 0 0 0),
     some (.shl 19 8 1 0 0),
     some (.shr 24 7 14 0 0),
     some (.sar 9 6 30 0 0),
     some (.rol 28 25 13 0 0),
     some (.ror 6 25 26 0 0),
     some (.cmp 0 5 20 0 0),
     some (.test 0 15 5 0 0)] := by decide +kernel

/-- LD, the loads and stores and the conditional branches. -/
theorem test_decode_loads_stores_branches :
    [decode true 0x3CA0815C#32,
     decode true 0x40F9B729#32,
     decode true 0x47E6AA9E#32,
     decode true 0x494BB2EA#32,
     decode true 0x4E5DB46C#32,
     decode true 0x50DFB266#32,
     decode true 0x57FFE21A#32,
     decode true 0x5941DC76#32,
     decode true 0x5DC6A54C#32,
     decode true 0x6123D4F4#32,
     decode true 0x655B80DD#32,
     decode true 0x6A96D680#32,
     decode true 0x6C6ADAF8#32,
     decode true 0x736AFB12#32,
     decode true 0x96EBAF4D#32] =
    [some (.ld 5 0 0x815C),
     some (.lw 7 25 0xB729),
     some (.lh 31 6 0xAA9E),
     some (.lb 10 11 0xB2EA),
     some (.st 18 29 0xB46C),
     some (.sw 6 31 0xB266),
     some (.sh 31 31 0xE21A),
     some (.sb 10 1 0xDC76),
     some (.beq 14 6 0xA54C),
     some (.bne 9 3 0xD4F4),
     some (.blt 10 27 0x80DD),
     some (.bge 20 22 0xD680),
     some (.bltu 3 10 0xDAF8),
     some (.bgeu 27 10 0xFB12),
     some (.ldd 23 11 0xAF4D)] := by decide +kernel

/-- The J format. -/
theorem test_decode_jumps_system :
    [decode true 0x77ECC483#32,
     decode true 0x7BE3E117#32,
     decode true 0x7C000000#32,
     decode true 0x80000000#32,
     decode true 0x84000000#32,
     decode true 0x88000000#32,
     decode true 0x98000000#32] =
    [some (.jmp 0x3ECC483),
     some (.call 0x3E3E117),
     some (.ret 0),
     some (.syscall 0),
     some (.halt 0),
     some (.nop 0),
     some (.iret 0)] := by decide +kernel

/-- The V format. -/
theorem test_decode_vector :
    [decode true 0xC1830800#32,
     decode true 0xC0A16001#32,
     decode true 0xC0CE3802#32,
     decode true 0xC0296803#32,
     decode true 0xC0E63804#32,
     decode true 0xC14E0805#32,
     decode true 0xC1016006#32,
     decode true 0xC06A2007#32,
     decode true 0xC04D2008#32,
     decode true 0xC1EE4009#32,
     decode true 0xC0C9300A#32,
     decode true 0xC1E9280B#32,
     decode true 0xC1A8100C#32,
     decode true 0xC14C680D#32,
     decode true 0xC1A6700E#32,
     decode true 0xC0A13810#32,
     decode true 0xC0443011#32,
     decode true 0xC12A3012#32,
     decode true 0xC1E33013#32] =
    [some (.vadd 12 3 1),
     some (.vsub 5 1 12),
     some (.vmul 6 14 7),
     some (.vmulh 1 9 13),
     some (.vdiv 7 6 7),
     some (.vmod 10 14 1),
     some (.vand 8 1 12),
     some (.vor 3 10 4),
     some (.vxor 2 13 4),
     some (.vnot 15 14 8),
     some (.vshl 6 9 6),
     some (.vshr 15 9 5),
     some (.vsar 13 8 2),
     some (.vrol 10 12 13),
     some (.vror 13 6 14),
     some (.vaddf64 5 1 7),
     some (.vsubf64 2 4 6),
     some (.vmulf64 9 10 6),
     some (.vfmaf64 15 3 6)] := by decide +kernel

/-- VLOAD and VSTORE. -/
theorem test_decode_vector_memory :
    [decode true 0xC4BE9792#32,
     decode true 0xC8B6D119#32] =
    [some (.vload 5 30 0x9792),
     some (.vstore 5 22 0xD119)] := by decide +kernel

/-- One word of each family written out bit by bit: opcode and fields as 30_encoding.md R161 to R164 place them. -/
theorem test_decode_bit_by_bit :
    [decode false 0b00000000011000010001000000000000#32,
     decode false 0b01000000101000100000000000001000#32,
     decode false 0b01100000001000001111111111111100#32,
     decode false 0b01110100000000000000000000010000#32,
     decode false 0b10011000000000000000000000000000#32,
     decode false 0b11000000100001010011000000010011#32,
     decode false 0b11001000011000100000000001000000#32] =
    [some (.add 3 1 2 0 0), some (.lw 5 2 8), some (.bne 1 0 0xFFFC), some (.jmp 16), some (.iret 0),
     some (.vfmaf64 4 5 6), some (.vstore 3 2 64)] := by decide +kernel

/-- Section 2, the illegal words, and the words whose unused fields are ignored. -/
theorem test_decode_illegal :
    ([0xFC000000#32, 0x9C000000#32, 0xBC000000#32, 0xCC000000#32, 0xFFFFFFFF#32, 0xC061100F#32, 0xC0611014#32,
      0xC06110FF#32, 0xC0611100#32, 0xC2611000#32, 0xC0711000#32, 0xC0619000#32, 0xC0618009#32, 0xC6220000#32].all
      fun w => decode false w == none) = true ∧
    decode false 0x00000000#32 = some (.add 0 0 0 0 0) ∧
    decode false 0x006117FF#32 = some (.add 3 1 2 31 63) ∧ decode true 0x006117FF#32 = none ∧
    decode false 0x87FFFFFF#32 = some (.halt 0x3FFFFFF) ∧ decode true 0x87FFFFFF#32 = none := by decide +kernel

/-- The table's numbering of the bits: a 32-bit row (30_encoding.md R160, 20_memory.md R65). -/
theorem test_decodeTableWord : decodeTableWord 32 0x00611000 = some (.add 3 1 2 0 0) ∧
    decodeTableWord 32 0xFC000000 = none := by decide +kernel

/-! ## WellFormed: under `STRICT_RESERVED` an ill-formed term of each instruction with an unused field is refused -/

theorem test_ill_formed_refused :
    ([(.add 0 1 0 1 0 : Instr), .add 0 1 0 0 1, .sub 0 1 0 1 0, .sub 0 1 0 0 1, .mul 0 1 0 1 0, .mul 0 1 0 0 1,
     .mulh 0 1 0 1 0, .mulh 0 1 0 0 1, .div 0 1 0 1 0, .div 0 1 0 0 1, .mod 0 1 0 1 0, .mod 0 1 0 0 1,
     .and 0 1 0 1 0, .and 0 1 0 0 1, .or 0 1 0 1 0, .or 0 1 0 0 1, .xor 0 1 0 1 0, .xor 0 1 0 0 1, .not 0 1 0 1 0,
     .not 0 1 0 0 1, .not 4 1 1 0 0, .shl 0 1 0 1 0, .shl 0 1 0 0 1, .shr 0 1 0 1 0, .shr 0 1 0 0 1,
     .sar 0 1 0 1 0, .sar 0 1 0 0 1, .rol 0 1 0 1 0, .rol 0 1 0 0 1, .ror 0 1 0 1 0, .ror 0 1 0 0 1, .ld 1 1 0,
     .ret 1, .syscall 1, .halt 1, .nop 1, .cmp 0 1 0 1 0, .cmp 0 1 0 0 1, .cmp 1 1 2 0 0, .test 0 1 0 1 0,
     .test 0 1 0 0 1, .test 1 1 2 0 0, .iret 1].all
      fun i => !i.wellFormed true && i.wellFormed false && (decode true (encode i) == none)) = true := by decide +kernel

/-- The same instructions with their unused fields 0, and those without one, are well-formed. -/
theorem test_well_formed_accepted :
    ([(.add 31 31 31 0 0 : Instr), .not 4 1 0 0 0, .cmp 0 1 2 0 0, .test 0 1 2 0 0, .ld 1 0 0xFFFF, .lw 31 31 0xFFFF,
      .beq 31 31 0xFFFF, .jmp 0x3FFFFFF, .ret 0, .vadd 15 15 15, .vload 15 31 0xFFFF].all
      fun i => i.wellFormed true) = true := by decide +kernel

/-! ## Helpers -/

/-- The next state of an outcome, the reset state where there is none. -/
def after (o : Host.Outcome State Fault Refusal) : State := match o with | .next t => t | _ => State.reset

/-- The reset state with some general registers set. -/
def regs (l : List (Nat × Nat)) : State :=
  { State.reset with
    x := l.foldl (fun x e => if h : e.1 < 32 then x.set e.1 (BitVec.ofNat 64 e.2) h else x) State.reset.x }

/-- The reset state with some general registers set and the pc at 0x10000. -/
def at0x10000 (l : List (Nat × Nat)) : State := { regs l with pc := 0x10000 }

/-- The state after one instruction on given registers. -/
def run1 (i : Instr) (l : List (Nat × Nat)) : State := after (exec i (at0x10000 l))

/-- Rows (a, b, result, flags) of section 3 for an instruction that reads R1 and R2 and writes R3, `PC` and `PERF[0]`
moving on. -/
def rowsOk (i : Instr) (rows : List (Nat × Nat × Nat × Nat)) : Bool :=
  rows.all fun e =>
    let t := run1 i [(1, e.1), (2, e.2.1)]
    (getX t 3).toNat == e.2.2.1 && t.flags.toNat == e.2.2.2 && t.pc == 0x10004#64 && t.perf.retired == 1#64

/-! ## Scalar ALU (section 3) -/

theorem test_add : rowsOk (.add 3 1 2 0 0)
    [(1, 2, 3, 0),
     (0xFFFFFFFFFFFFFFFF, 1, 0, 3),
     (0x7FFFFFFFFFFFFFFF, 1, 0x8000000000000000, 0xC),
     (0x8000000000000000, 0x8000000000000000, 0, 7),
     (0, 0, 0, 1)] = true := by decide +kernel

theorem test_sub : rowsOk (.sub 3 1 2 0 0)
    [(5, 5, 0, 1),
     (0, 1, 0xFFFFFFFFFFFFFFFF, 0xA),
     (0x8000000000000000, 1, 0x7FFFFFFFFFFFFFFF, 4),
     (0x7FFFFFFFFFFFFFFF, 0xFFFFFFFFFFFFFFFF, 0x8000000000000000, 0xE),
     (3, 2, 1, 0)] = true := by decide +kernel

theorem test_mul : rowsOk (.mul 3 1 2 0 0)
    [(0xFFFFFFFFFFFFFFFF, 0xFFFFFFFFFFFFFFFF, 1, 0),
     (0x100000000, 0x100000000, 0, 1),
     (3, 0xFFFFFFFFFFFFFFFE, 0xFFFFFFFFFFFFFFFA, 8)] = true := by decide +kernel

theorem test_mulh : rowsOk (.mulh 3 1 2 0 0)
    [(0xFFFFFFFFFFFFFFFF, 0xFFFFFFFFFFFFFFFF, 0, 1),
     (0x8000000000000000, 0x8000000000000000, 0x4000000000000000, 0),
     (0x8000000000000000, 2, 0xFFFFFFFFFFFFFFFF, 8),
     (0x7FFFFFFFFFFFFFFF, 0x7FFFFFFFFFFFFFFF, 0x3FFFFFFFFFFFFFFF, 0),
     (0xFFFFFFFFFFFFFFFF, 1, 0xFFFFFFFFFFFFFFFF, 8)] = true := by decide +kernel

theorem test_div : rowsOk (.div 3 1 2 0 0)
    [(7, 2, 3, 0),
     (0xFFFFFFFFFFFFFFF9, 2, 0xFFFFFFFFFFFFFFFD, 8),
     (7, 0xFFFFFFFFFFFFFFFE, 0xFFFFFFFFFFFFFFFD, 8),
     (0xFFFFFFFFFFFFFFF9, 0xFFFFFFFFFFFFFFFE, 3, 0),
     (5, 0, 0xFFFFFFFFFFFFFFFF, 8),
     (0, 0, 0xFFFFFFFFFFFFFFFF, 8),
     (0x8000000000000000, 0xFFFFFFFFFFFFFFFF, 0x8000000000000000, 8),
     (1, 2, 0, 1)] = true := by decide +kernel

theorem test_mod : rowsOk (.mod 3 1 2 0 0)
    [(7, 2, 1, 0),
     (0xFFFFFFFFFFFFFFF9, 2, 0xFFFFFFFFFFFFFFFF, 8),
     (7, 0xFFFFFFFFFFFFFFFE, 1, 0),
     (0xFFFFFFFFFFFFFFF9, 0xFFFFFFFFFFFFFFFE, 0xFFFFFFFFFFFFFFFF, 8),
     (5, 0, 5, 0),
     (0, 0, 0, 1),
     (0x8000000000000000, 0xFFFFFFFFFFFFFFFF, 0, 1),
     (0x8000000000000000, 0, 0x8000000000000000, 8)] = true := by decide +kernel

theorem test_and : rowsOk (.and 3 1 2 0 0)
    [(0xF0F0, 0xFF0, 0xF0, 0),
     (0xFFFFFFFFFFFFFFFF, 0x8000000000000000, 0x8000000000000000, 8)] = true := by decide +kernel

theorem test_or : rowsOk (.or 3 1 2 0 0)
    [(0, 0, 0, 1),
     (0x8000000000000000, 1, 0x8000000000000001, 8)] = true := by decide +kernel

theorem test_xor : rowsOk (.xor 3 1 2 0 0)
    [(0xAAAA, 0xAAAA, 0, 1),
     (0xFFFFFFFFFFFFFFFF, 1, 0xFFFFFFFFFFFFFFFE, 8)] = true := by decide +kernel

theorem test_not : rowsOk (.not 3 1 2 0 0)
    [(0, 0x55, 0xFFFFFFFFFFFFFFFF, 8),
     (0xFFFFFFFFFFFFFFFF, 0x55, 0, 1)] = true := by decide +kernel

theorem test_shl : rowsOk (.shl 3 1 2 0 0)
    [(1, 0x3F, 0x8000000000000000, 8),
     (1, 0x40, 1, 0),
     (3, 0x3F, 0x8000000000000000, 8),
     (0xFFFFFFFFFFFFFFFF, 4, 0xFFFFFFFFFFFFFFF0, 8),
     (1, 0xFFFFFFFFFFFFFFC1, 2, 0)] = true := by decide +kernel

theorem test_shr : rowsOk (.shr 3 1 2 0 0)
    [(0x8000000000000000, 0x3F, 1, 0),
     (0x8000000000000000, 0x40, 0x8000000000000000, 8),
     (0xFFFFFFFFFFFFFFFF, 1, 0x7FFFFFFFFFFFFFFF, 0)] = true := by decide +kernel

theorem test_sar : rowsOk (.sar 3 1 2 0 0)
    [(0x8000000000000000, 0x3F, 0xFFFFFFFFFFFFFFFF, 8),
     (0x8000000000000000, 1, 0xC000000000000000, 8),
     (0x4000000000000000, 0x3E, 1, 0),
     (0xFFFFFFFFFFFFFFFF, 0x40, 0xFFFFFFFFFFFFFFFF, 8)] = true := by decide +kernel

theorem test_rol : rowsOk (.rol 3 1 2 0 0)
    [(0x8000000000000000, 1, 1, 0),
     (0x123456789ABCDEF, 4, 0x123456789ABCDEF0, 0),
     (5, 0, 5, 0),
     (5, 0x40, 5, 0)] = true := by decide +kernel

theorem test_ror : rowsOk (.ror 3 1 2 0 0)
    [(1, 1, 0x8000000000000000, 8),
     (0x123456789ABCDEF, 4, 0xF0123456789ABCDE, 8),
     (5, 0x80, 5, 0)] = true := by decide +kernel

theorem test_cmp : rowsOk (.cmp 3 1 2 0 0)
    [(5, 5, 0, 1),
     (1, 2, 0, 0xA),
     (0x8000000000000000, 1, 0, 4),
     (0xFFFFFFFFFFFFFFFF, 1, 0, 8)] = true := by decide +kernel

theorem test_test : rowsOk (.test 3 1 2 0 0)
    [(0xF0, 0xF, 0, 1),
     (0x8000000000000000, 0xFFFFFFFFFFFFFFFF, 0, 8)] = true := by decide +kernel

/-- A write to R0 is dropped and the flags still follow the result; IE and UM keep their values. -/
theorem test_add_r0_and_modes :
    (run1 (.add 0 1 2 0 0) [(1, 1), (2, 2)]).x = (regs [(1, 1), (2, 2)]).x ∧
    (after (exec (.add 1 0 0 0 0) { regs [] with flags := 0x30#64 })).flags = 0x31#64 := by decide +kernel

theorem test_ld : getX (run1 (.ld 1 0 0xFFFF) []) 1 = 0xFFFFFFFFFFFFFFFF#64 ∧
    getX (run1 (.ld 1 0 0x7FFF) []) 1 = 0x7FFF#64 ∧
    getX (run1 (.ld 1 0 0x8000) []) 1 = 0xFFFFFFFFFFFF8000#64 := by decide +kernel

/-! ## Loads and stores (section 4) -/

/-- The reset state with R2 = 0x2000, R5 = 0x123489AB and sixteen bytes at 0x2000. -/
def memBase (bytes : List Byte) : State :=
  let s := regs [(2, 0x2000), (5, 0x123489AB)]
  { s with hier := hostWrite s.params s.hier 0x2000 bytes }

def loadBytes : List Byte := [0x80, 0xFF, 0x7F, 0, 0xFF, 0xFF, 0xFF, 0x7F, 1, 2, 3, 4, 5, 6, 7, 0x88]

/-- Loads of R5 and their results, `PERF[6]` counting. -/
def loadsOk (rows : List (Instr × Nat)) : Bool :=
  rows.all fun e =>
    let t := after (exec e.1 (memBase loadBytes))
    (getX t 5).toNat == e.2 && t.perf.memOps == 1#64 && t.perf.l1Misses == 1#64

theorem test_lb : loadsOk [(.lb 5 2 0, 0xFFFFFFFFFFFFFF80), (.lb 5 2 1, 0xFFFFFFFFFFFFFFFF), (.lb 5 2 2, 0x7F),
    (.lb 5 2 3, 0)] = true := by decide +kernel

theorem test_lh : loadsOk [(.lh 5 2 0, 0xFFFFFFFFFFFFFF80), (.lh 5 2 2, 0x7F), (.lh 5 2 6, 0x7FFF)] = true := by
  decide +kernel

theorem test_lw : loadsOk [(.lw 5 2 0, 0x7FFF80), (.lw 5 2 4, 0x7FFFFFFF), (.lw 5 2 12,
     0xFFFFFFFF88070605)] = true := by
  decide +kernel

theorem test_ldd : loadsOk [(.ldd 5 2 0, 0x7FFFFFFF007FFF80), (.ldd 5 2 8, 0x8807060504030201)] = true := by
  decide +kernel

/-- The sixteen bytes the host reads at 0x2000 after a store over bytes 0xEE. -/
def storedBytes (i : Instr) : List Byte :=
  let t := after (exec i (memBase (List.replicate 16 0xEE)))
  hostRead t.params t.hier 0x2000 16

theorem test_sb : storedBytes (.sb 5 2 3) =
    [0xEE, 0xEE, 0xEE, 0xAB, 0xEE, 0xEE, 0xEE, 0xEE, 0xEE, 0xEE, 0xEE, 0xEE, 0xEE, 0xEE, 0xEE,
     0xEE] := by decide +kernel

theorem test_sh : storedBytes (.sh 5 2 2) =
    [0xEE, 0xEE, 0xAB, 0x89, 0xEE, 0xEE, 0xEE, 0xEE, 0xEE, 0xEE, 0xEE, 0xEE, 0xEE, 0xEE, 0xEE,
     0xEE] := by decide +kernel

theorem test_sw : storedBytes (.sw 5 2 4) =
    [0xEE, 0xEE, 0xEE, 0xEE, 0xAB, 0x89, 0x34, 0x12, 0xEE, 0xEE, 0xEE, 0xEE, 0xEE, 0xEE, 0xEE,
     0xEE] := by decide +kernel

theorem test_st : storedBytes (.st 5 2 8) =
    [0xEE, 0xEE, 0xEE, 0xEE, 0xEE, 0xEE, 0xEE, 0xEE, 0xAB, 0x89, 0x34, 0x12, 0x00, 0x00, 0x00,
     0x00] := by decide +kernel

/-- The events of a misaligned access and an access beyond RAM, and that the core halts with nothing written, neither
accessed or dirty bits nor a TLB entry (41_loadstore.md R231, 92_eei_decisions.md D20). -/
theorem test_access_faults :
    ((after (exec (.ldd 5 2 4) (memBase loadBytes))).eventQ.map fun e => (e.vector, e.info0.toNat, e.info1.toNat)) =
      [(17, 0x2004, 0x801), (17, 0, 0)] ∧
    ((after (exec (.sh 5 2 3) (memBase loadBytes))).eventQ.map fun e => (e.vector, e.info0.toNat, e.info1.toNat)) =
      [(17, 0x2003, 0x202), (17, 0, 0)] ∧
    ((run1 (.ldd 5 2 0) [(2, 0x200000)]).eventQ.map fun e => (e.vector, e.info0.toNat, e.info1.toNat)) =
      [(14, 0x200000, 0xD00), (14, 0, 0)] ∧
    (run1 (.ldd 5 2 0) [(2, 0x200000)]).halted = true ∧ (run1 (.ldd 5 2 0) [(2, 0x200000)]).pc = 0x10000#64 ∧
    (run1 (.ldd 5 2 0) [(2, 0x200000)]).mmu = State.reset.mmu ∧
    (run1 (.st 5 2 0) [(2, 0x200000)]).mmu = State.reset.mmu := by
  decide +kernel

/-! ## Control transfer (section 5) -/

/-- Rows (a, b, taken) of section 5 for a branch on R1 and R2 at 0x10000 with offset −8. -/
def branchOk (i : Instr) (rows : List (Nat × Nat × Bool)) : Bool :=
  rows.all fun e => (run1 i [(1, e.1), (2, e.2.1)]).pc == (if e.2.2 then 0xFFF8#64 else 0x10004#64)

theorem test_beq : branchOk (.beq 1 2 0xFFF8)
    [(0, 0, true),
     (1, 2, false),
     (2, 1, false),
     (0xFFFFFFFFFFFFFFFF, 1, false),
     (1, 0xFFFFFFFFFFFFFFFF, false),
     (0x8000000000000000, 0x7FFFFFFFFFFFFFFF, false),
     (0xFFFFFFFFFFFFFFFF, 0xFFFFFFFFFFFFFFFF, true)] = true := by decide +kernel

theorem test_bne : branchOk (.bne 1 2 0xFFF8)
    [(0, 0, false),
     (1, 2, true),
     (2, 1, true),
     (0xFFFFFFFFFFFFFFFF, 1, true),
     (1, 0xFFFFFFFFFFFFFFFF, true),
     (0x8000000000000000, 0x7FFFFFFFFFFFFFFF, true),
     (0xFFFFFFFFFFFFFFFF, 0xFFFFFFFFFFFFFFFF, false)] = true := by decide +kernel

theorem test_blt : branchOk (.blt 1 2 0xFFF8)
    [(0, 0, false),
     (1, 2, true),
     (2, 1, false),
     (0xFFFFFFFFFFFFFFFF, 1, true),
     (1, 0xFFFFFFFFFFFFFFFF, false),
     (0x8000000000000000, 0x7FFFFFFFFFFFFFFF, true),
     (0xFFFFFFFFFFFFFFFF, 0xFFFFFFFFFFFFFFFF, false)] = true := by decide +kernel

theorem test_bge : branchOk (.bge 1 2 0xFFF8)
    [(0, 0, true),
     (1, 2, false),
     (2, 1, true),
     (0xFFFFFFFFFFFFFFFF, 1, false),
     (1, 0xFFFFFFFFFFFFFFFF, true),
     (0x8000000000000000, 0x7FFFFFFFFFFFFFFF, false),
     (0xFFFFFFFFFFFFFFFF, 0xFFFFFFFFFFFFFFFF, true)] = true := by decide +kernel

theorem test_bltu : branchOk (.bltu 1 2 0xFFF8)
    [(0, 0, false),
     (1, 2, true),
     (2, 1, false),
     (0xFFFFFFFFFFFFFFFF, 1, false),
     (1, 0xFFFFFFFFFFFFFFFF, true),
     (0x8000000000000000, 0x7FFFFFFFFFFFFFFF, false),
     (0xFFFFFFFFFFFFFFFF, 0xFFFFFFFFFFFFFFFF, false)] = true := by decide +kernel

theorem test_bgeu : branchOk (.bgeu 1 2 0xFFF8)
    [(0, 0, true),
     (1, 2, false),
     (2, 1, true),
     (0xFFFFFFFFFFFFFFFF, 1, true),
     (1, 0xFFFFFFFFFFFFFFFF, false),
     (0x8000000000000000, 0x7FFFFFFFFFFFFFFF, true),
     (0xFFFFFFFFFFFFFFFF, 0xFFFFFFFFFFFFFFFF, true)] = true := by decide +kernel

theorem test_jmp : (run1 (.jmp 16) []).pc = 0x10010#64 ∧ (run1 (.jmp 0) []).pc = 0x10000#64 ∧
    (run1 (.jmp 0x3FFFFF8) []).pc = 0xFFF8#64 := by decide +kernel

theorem test_call : (run1 (.call 12) []).pc = 0x1000C#64 ∧ getX (run1 (.call 12) []) 31 = 0x10004#64 := by
  decide +kernel

theorem test_ret : (run1 (.ret 0) [(31, 0x10008)]).pc = 0x10008#64 ∧ (run1 (.ret 0) [(31,
     0x10006)]).pc = 0x10006#64 := by
  decide +kernel

/-! ## System instructions (section 8, 43_system.md R273, R278) -/

theorem test_syscall_exit :
    (run1 (.syscall 0) [(1, 0), (2, 7)]).exitCode = 7#64 ∧ (run1 (.syscall 0) [(1, 0), (2, 7)]).halted = true ∧
    (run1 (.syscall 0) [(1, 0), (2, 7)]).pc = 0x10004#64 := by decide +kernel

theorem test_syscall_unknown : getX (run1 (.syscall 0) [(1, 99)]) 1 = 0xFFFFFFFFFFFFFFFF#64 ∧
    (run1 (.syscall 0) [(1, 99)]).pc = 0x10004#64 ∧ (run1 (.syscall 0) [(1, 99)]).ic.ivtStat = [(128, 1#64)] := by
  decide +kernel

theorem test_halt : (run1 (.halt 0) []).halted = true ∧ (run1 (.halt 0) []).pc = 0x10004#64 ∧
    (run1 (.halt 0) []).lastStatus = .halted := by decide +kernel

theorem test_halt_user :
    ((after (exec (.halt 0) { regs [] with flags := 0x20#64 })).eventQ.map
      fun e => (e.vector, e.info0.toNat, e.info1.toNat)) = [(13, 0x84000000, 1), (13, 0, 0)] := by decide +kernel

theorem test_nop : run1 (.nop 0) [] =
    { at0x10000 [] with pc := 0x10004, perf := { State.reset.perf with retired := 1 } } := by decide +kernel

/-- 43_system.md R278: IRET from the frame an interrupt of vector 0x21 pushed. -/
def inHandler : State :=
  let f : Frame := { retPc := 0x10010, flags := 0x10, vector := 0x21, info0 := 0, info1 := 0 }
  { at0x10000 [] with ic := { State.reset.ic with nest := 1, trapStk := [(0, f)] } }

theorem test_iret : (after (exec (.iret 0) inHandler)).pc = 0x10010#64 ∧
    (after (exec (.iret 0) inHandler)).flags = 0x10#64 ∧ (after (exec (.iret 0) inHandler)).ic.nest = 0 := by
  decide +kernel

theorem test_iret_empty : ((run1 (.iret 0) []).eventQ.map fun e => (e.vector, e.info0.toNat, e.info1.toNat)) =
    [(13, 0x98000000, 2), (13, 0, 0)] := by decide +kernel

/-! ## Vectors (section 7) -/

/-- A vector value from its lanes, lane 0 first. -/
def vec (l : List Nat) : VWord := BitVec.ofNat 256 (l.foldr (fun a n => a + 2 ^ 64 * n) 0)

/-- V1 and V2 of section 7. -/
def vecBase : State :=
  { regs [] with
    v := (State.reset.v.set 1 (vec [1, 0xFFFFFFFFFFFFFFFF, 0x8000000000000000, 0x0123456789ABCDEF])).set 2
      (vec [2, 1, 0xFFFFFFFFFFFFFFFF, 4]) }

/-- V3 after an instruction on V1 and V2, the flags and the counters as 44_simd.md R285, R287 say. -/
def vecOk (i : Instr) (l : List Nat) : Bool :=
  let t := after (exec i vecBase)
  getV t 3 == vec l && t.flags == 0#64 && t.perf.simdOps == 1#64 && t.perf.retired == 1#64

theorem test_vadd : vecOk (.vadd 3 1 2)
    [3, 0, 0x7FFFFFFFFFFFFFFF, 0x123456789ABCDF3] = true := by decide +kernel

theorem test_vsub : vecOk (.vsub 3 1 2)
    [0xFFFFFFFFFFFFFFFF, 0xFFFFFFFFFFFFFFFE, 0x8000000000000001, 0x123456789ABCDEB] = true := by decide +kernel

theorem test_vmul : vecOk (.vmul 3 1 2)
    [2, 0xFFFFFFFFFFFFFFFF, 0x8000000000000000, 0x48D159E26AF37BC] = true := by decide +kernel

theorem test_vmulh : vecOk (.vmulh 3 1 2)
    [0, 0xFFFFFFFFFFFFFFFF, 0, 0] = true := by decide +kernel

theorem test_vdiv : vecOk (.vdiv 3 1 2)
    [0, 0xFFFFFFFFFFFFFFFF, 0x8000000000000000, 0x48D159E26AF37B] = true := by decide +kernel

theorem test_vmod : vecOk (.vmod 3 1 2)
    [1, 0, 0, 3] = true := by decide +kernel

theorem test_vand : vecOk (.vand 3 1 2)
    [0, 1, 0x8000000000000000, 4] = true := by decide +kernel

theorem test_vor : vecOk (.vor 3 1 2)
    [3, 0xFFFFFFFFFFFFFFFF, 0xFFFFFFFFFFFFFFFF, 0x123456789ABCDEF] = true := by decide +kernel

theorem test_vxor : vecOk (.vxor 3 1 2)
    [3, 0xFFFFFFFFFFFFFFFE, 0x7FFFFFFFFFFFFFFF, 0x123456789ABCDEB] = true := by decide +kernel

theorem test_vnot : vecOk (.vnot 3 1 0)
    [0xFFFFFFFFFFFFFFFE, 0, 0x7FFFFFFFFFFFFFFF, 0xFEDCBA9876543210] = true := by decide +kernel

theorem test_vshl : vecOk (.vshl 3 1 2)
    [4, 0xFFFFFFFFFFFFFFFE, 0, 0x123456789ABCDEF0] = true := by decide +kernel

theorem test_vshr : vecOk (.vshr 3 1 2)
    [0, 0x7FFFFFFFFFFFFFFF, 1, 0x123456789ABCDE] = true := by decide +kernel

theorem test_vsar : vecOk (.vsar 3 1 2)
    [0, 0xFFFFFFFFFFFFFFFF, 0xFFFFFFFFFFFFFFFF, 0x123456789ABCDE] = true := by decide +kernel

theorem test_vrol : vecOk (.vrol 3 1 2)
    [4, 0xFFFFFFFFFFFFFFFF, 0x4000000000000000, 0x123456789ABCDEF0] = true := by decide +kernel

theorem test_vror : vecOk (.vror 3 1 2)
    [0x4000000000000000, 0xFFFFFFFFFFFFFFFF, 1, 0xF0123456789ABCDE] = true := by decide +kernel

/-- Rows (a, b, c, result): lane 0 of `vd` after a double-precision instruction with `vs1`,
     `vs2` and old `vd` given. -/
def doublesOk (i : Instr) (rows : List (Nat × Nat × Nat × Nat)) : Bool :=
  rows.all fun e =>
    let s := { regs [] with v := ((State.reset.v.set 1 (vec [e.1])).set 2 (vec [e.2.1])).set 3 (vec [e.2.2.1]) }
    (lane (getV (after (exec i s)) 3) 0).toNat == e.2.2.2

theorem test_vaddf64 : doublesOk (.vaddf64 3 1 2)
    [(0x3FF0000000000000, 0x4000000000000000, 0, 0x4008000000000000),
     (0x3FB999999999999A, 0x3FC999999999999A, 0, 0x3FD3333333333334),
     (0x7FF0000000000000, 0xFFF0000000000000, 0, 0x7FF8000000000000),
     (0x7FF0000000000000, 0x3FF0000000000000, 0, 0x7FF0000000000000),
     (0, 0x8000000000000000, 0, 0),
     (0x8000000000000000, 0x8000000000000000, 0, 0x8000000000000000),
     (0x3FF0000000000000, 0xBFF0000000000000, 0, 0),
     (0x7FEFFFFFFFFFFFFF, 0x7FEFFFFFFFFFFFFF, 0, 0x7FF0000000000000),
     (1, 1, 0, 2),
     (0x3FF0000000000000, 0x3CA0000000000000, 0, 0x3FF0000000000000),
     (0x3FF0000000000001, 0x3CA0000000000000, 0, 0x3FF0000000000002),
     (0x3FF0000000000000, 0x3CA0000000000001, 0, 0x3FF0000000000001),
     (0x7FF0000000000001, 0x3FF0000000000000, 0, 0x7FF8000000000000)] = true := by decide +kernel

theorem test_vsubf64 : doublesOk (.vsubf64 3 1 2)
    [(0x3FF0000000000000, 0x3FF0000000000000, 0, 0),
     (0xBFF0000000000000, 0xBFF0000000000000, 0, 0),
     (0x8000000000000000, 0, 0, 0x8000000000000000),
     (0, 0x8000000000000000, 0, 0),
     (0x7FF0000000000000, 0x7FF0000000000000, 0, 0x7FF8000000000000),
     (0x4008000000000000, 0x4014000000000000, 0, 0xC000000000000000)] = true := by decide +kernel

theorem test_vmulf64 : doublesOk (.vmulf64 3 1 2)
    [(0x4008000000000000, 0xC000000000000000, 0, 0xC018000000000000),
     (0x7FF0000000000000, 0, 0, 0x7FF8000000000000),
     (0xFFF0000000000000, 0xBFF0000000000000, 0, 0x7FF0000000000000),
     (0x8000000000000000, 0x4014000000000000, 0, 0x8000000000000000),
     (0x7FEFFFFFFFFFFFFF, 0x4000000000000000, 0, 0x7FF0000000000000),
     (1, 0x3FE0000000000000, 0, 0),
     (1, 0x3FE8000000000000, 0, 1),
     (0x1E60000000000000, 0x1E60000000000000, 0, 1),
     (0x3FF8000000000000, 0x3FF8000000000000, 0, 0x4002000000000000)] = true := by decide +kernel

theorem test_vfmaf64 : doublesOk (.vfmaf64 3 1 2)
    [(0x4000000000000000, 0x4008000000000000, 0x4010000000000000, 0x4024000000000000),
     (0x3FF0000000000001, 0x3FF0000000000001, 0xBFF0000000000002, 0x3970000000000000),
     (0x3FB999999999999A, 0x4024000000000000, 0xBFF0000000000000, 0x3C90000000000000),
     (0x7FF0000000000000, 0, 0x3FF0000000000000, 0x7FF8000000000000),
     (0x7FF0000000000000, 0x3FF0000000000000, 0xFFF0000000000000, 0x7FF8000000000000),
     (0x3FF0000000000000, 0x3FF0000000000000, 0xBFF0000000000000, 0),
     (0x8000000000000000, 0x3FF0000000000000, 0x8000000000000000, 0x8000000000000000),
     (0x8000000000000000, 0x3FF0000000000000, 0, 0),
     (0x7FEFFFFFFFFFFFFF, 0x4000000000000000, 0xFFF0000000000000, 0xFFF0000000000000),
     (0x1A70000000000000, 0x1A70000000000000, 0x3FF0000000000000, 0x3FF0000000000000),
     (0, 0x3FF0000000000000, 0x7FF8000000000000, 0x7FF8000000000000)] = true := by decide +kernel

/-- Section 7, vector memory: the quadwords 1, 2, 3, 4 at 0x3020. -/
def quadwords : State :=
  let s := regs [(2, 0x3000)]
  let bytes : List Byte := [1, 2, 3, 4].flatMap fun b => [b, 0, 0, 0, 0, 0, 0, 0]
  { s with hier := hostWrite s.params s.hier 0x3020 bytes }

theorem test_vload : getV (after (exec (.vload 1 2 32) quadwords)) 1 = vec [1, 2, 3, 4] := by decide +kernel

theorem test_vstore :
    let t := after (exec (.vstore 1 2 0) { quadwords with v := State.reset.v.set 1 (vec [1, 2, 3, 4]) })
    hostRead t.params t.hier 0x3000 32 = [1, 2, 3, 4].flatMap fun (b : Byte) => [b, 0, 0, 0, 0, 0, 0, 0] := by
  decide +kernel

/-! ## The step -/

/-- The first instruction after reset is the one placed. -/
theorem test_withFetchWord : getX (after (step (State.reset.withFetchWord 32 0x3C20002A))) 1 = 42#64 ∧
    (after (step (State.reset.withFetchWord 32 0x3C20002A))).pc = 4#64 := by decide +kernel

/-- Section 2: the all-zero word of reset memory is `ADD R0, R0, R0`. -/
theorem test_step_from_reset : (after (step State.reset)).flags = 1#64 ∧ (after (step State.reset)).pc = 4#64 := by
  decide +kernel

/-- V-T1, steps 1 and 3: the leaf of page 2 after a read and after a write, and its TLB entry dropped by the store. -/
theorem test_accessed_and_dirty :
    (ptGet (run1 (.ldd 5 2 0) [(2, 0x2000)]).mmu.pt 262657 2) = 0x200F#64 ∧
    (ptGet (run1 (.st 5 2 8) [(2, 0x2000)]).mmu.pt 262657 2) = 0x201F#64 ∧
    (tlbGet (run1 (.ldd 5 2 0) [(2, 0x2000)]).mmu.tlb 2).valid = true ∧
    (tlbGet (run1 (.st 5 2 8) [(2, 0x2000)]).mmu.tlb 2).valid = false := by decide +kernel

/-- One tick from reset fetches into IF/ID and retires nothing (50_pipeline.md R362, tick 1). -/
theorem test_tick : (tick State.reset).perf.cycles = 1#64 ∧ (tick State.reset).perf.retired = 0#64 ∧
    (tick State.reset).latches.ifId.isSome = true ∧ (tick State.reset).pc = 4#64 := by decide +kernel

/-- CMP and TEST carry their result in EX/MEM and write no register (50_pipeline.md R336, 40_alu.md R217, R218). -/
theorem test_compare_latch :
    (compute (fun r => if r = 1 then 5 else 7) (fun _ => 0) 0 (.cmp 0 1 2 0 0)).result = 0xFFFFFFFFFFFFFFFE#256 ∧
    (compute (fun r => if r = 1 then 6 else 3) (fun _ => 0) 0 (.test 0 1 2 0 0)).result = 2#256 ∧
    destOf (.cmp 0 1 2 0 0) = .none := by decide +kernel

/-- Scenario A of 50_pipeline.md R362 on the reference interpreter: R3 = 100 and halted after four turns. -/
theorem test_reference :
    let image : List Byte := [0x3C20002A, 0x3C40003A, 0x00611000, 0x84000000].flatMap wordBytes
    let s := { State.reset with hier := hostWrite Params.default State.reset.hier 0 image }
    let t := refRun (List.replicate 4 (.round true)) (architectural s)
    getX t 3 = 100#64 ∧ t.halted = true ∧ t.pc = 16#64 := by decide +kernel

/-! ## Witnesses: for each statement with hypotheses, states and operands that meet them together -/

theorem witness_DecodeOfEncode : (Instr.add 31 31 31 0 0).wellFormed true = true ∧
    (Instr.halt 0x3FFFFFF).wellFormed false = true := by decide +kernel

theorem witness_EncodeOfDecode : decode true 0x00611000#32 = some (.add 3 1 2 0 0) ∧
    decode false 0x87FFFFFF#32 = some (.halt 0x3FFFFFF) := by decide +kernel

/-- A state whose parameters, hierarchy and page table are those of reset is sound. -/
theorem memoryOk_of_fresh {s : State} (hp : s.params = Params.default) (hh : s.hier = State.reset.hier)
    (hm : s.mmu = State.reset.mmu) : MemoryOk s where
  params := by rw [hp]; decide +kernel
  hier := by rw [hp, hh]; exact HierOk.created Params.default
  tlb := by rw [hp, hm]; exact TlbOk.nil _ _

/-- What a translation answers, as a check that evaluates. -/
def goesTo (s : State) (va : Word) (acc : Acc) (pa : Nat) : Bool :=
  match translateS s va acc with | .done a _ => a == pa | .raised _ _ => false

theorem translateS_of_goesTo {s : State} {va : Word} {acc : Acc} {pa : Nat} (h : goesTo s va acc pa = true) :
    ∃ t, translateS s va acc = .done pa t := by
  unfold goesTo at h
  split at h
  next a t e => exact ⟨t, by rw [e, eq_of_beq h]⟩
  next => exact absurd h (by decide)

/-- The hypotheses of the RAM statements, as a check that evaluates. -/
def ramCheck (s : State) (va : Word) (acc : Acc) (n pa : Nat) : Bool :=
  decide (va.toNat % n = 0) && goesTo s va acc pa && !inWindow s.params pa && decide (pa + n ≤ s.params.memSize)

theorem toRam_of_check {s : State} {va : Word} {acc : Acc} {n pa : Nat} (h : ramCheck s va acc n pa = true) :
    ∃ t, ToRam s va acc n pa t := by
  simp only [ramCheck, Bool.and_eq_true, Bool.not_eq_true', decide_eq_true_eq] at h
  obtain ⟨t, ht⟩ := translateS_of_goesTo h.1.1.2
  exact ⟨t, h.1.1.1, ht, h.1.2, h.2⟩

theorem toDevice_of_goesTo {s : State} {va : Word} {acc : Acc} {n pa : Nat} (h1 : va.toNat % n = 0)
    (h2 : goesTo s va acc pa = true) (h3 : inWindow s.params pa = true) : ∃ t, ToDevice s va acc n pa t :=
  (translateS_of_goesTo h2).imp fun _ ht => ⟨h1, ht, h3⟩

/-- What a fetch answers, as a check that evaluates. -/
def fetches (s : State) (va : Word) (w : IWord) : Bool :=
  match fetch s va with | .done v _ => v == w | .raised _ _ => false

theorem fetch_of_fetches {s : State} {va : Word} {w : IWord} (h : fetches s va w = true) :
    ∃ t, fetch s va = .done w t := by
  unfold fetches at h
  split at h
  next a t e => exact ⟨t, by rw [e, eq_of_beq h]⟩
  next => exact absurd h (by decide)

/-- A fetch that faults, as a check that evaluates. -/
def fetchFaults (s : State) (va : Word) : Bool :=
  match fetch s va with | .done _ _ => false | .raised _ _ => true

theorem fetch_of_fetchFaults {s : State} {va : Word} (h : fetchFaults s va = true) :
    ∃ e t, fetch s va = .raised e t := by
  unfold fetchFaults at h
  split at h
  next => exact absurd h (by decide)
  next e t he => exact ⟨e, t, he⟩

/-- The reset state with `LD R1, 42` where the first fetch reads. -/
def placed : State := State.reset.withFetchWord 32 0x3C20002A

theorem witness_StepRunsDecoded : ∃ (t : State) (w : IWord) (i : Instr), placed.halted = false ∧
    placed.latches.memWb = none ∧ breakpointAt (squash (startStep placed)) = false ∧
    deliverable (squash (startStep placed)) = none ∧
    fetch { squash (startStep placed) with resume := false } (archPc placed) = .done w t ∧
    decode placed.params.strictReserved w = some i := by
  obtain ⟨t, ht⟩ := fetch_of_fetches (s := { squash (startStep placed) with resume := false }) (va := archPc placed)
    (w := 0x3C20002A#32) (by decide +kernel)
  exact ⟨t, _, .ld 1 0 42, by decide +kernel, by decide +kernel, by decide +kernel, by decide +kernel, ht,
    by decide +kernel⟩

theorem witness_FetchReadsMemory : ∃ t, MemoryOk State.reset ∧ ToRam State.reset 0xFFFFC#64 .fetch 4 0xFFFFC t ∧
    lineInfo (l1iGeom State.reset.params) State.reset.hier.l1i (0xFFFFC / 64) = none ∧
    ∀ d, lineInfo (l1dGeom State.reset.params) State.reset.hier.l1d (0xFFFFC / 64) ≠ some (true, d) := by
  obtain ⟨t, ht⟩ := toRam_of_check (s := State.reset) (va := 0xFFFFC#64) (acc := .fetch) (n := 4) (pa := 0xFFFFC)
    (by decide +kernel)
  have h : lineInfo (l1dGeom State.reset.params) State.reset.hier.l1d (0xFFFFC / 64) = none := by decide +kernel
  exact ⟨t, memoryOk_of_fresh rfl rfl rfl, ht, by decide +kernel, fun d => by rw [h]; exact fun e => nomatch e⟩

theorem witness_FlagContract : (∃ t, Gives (.add 3 1 2 0 0) (regs [(1, 0x8000000000000000), (2, 2 ^ 64 - 1)]) t) ∧
    (∃ t, Gives (.sub 3 1 2 0 0) (regs [(1, 0x8000000000000000), (2, 1)]) t) ∧
    ∃ t, Gives (.cmp 3 1 2 0 0) (regs [(1, 1), (2, 2)]) t := ⟨⟨_, rfl⟩, ⟨_, rfl⟩, ⟨_, rfl⟩⟩

theorem witness_VectorLanes : ∃ a b c : Nat → Word, a = laneBits (getV vecBase 1) ∧ b = laneBits (getV vecBase 2) ∧
    c = laneBits (getV vecBase 3) := ⟨_, _, _, rfl, rfl, rfl⟩

/-- The greatest finite double, the least subnormal one and zero; twice the first overflows,
     the last is an exact zero. -/
theorem witness_DoublesRoundOnce :
    F64Finite 0x7FEFFFFFFFFFFFFF#64 ∧ F64Finite 0x8000000000000001#64 ∧ F64Finite 0#64 ∧
    (2 ^ 54 - 1) * 2 ^ 3118 ≤
      ((f64Units 0x7FEFFFFFFFFFFFFF#64 + f64Units 0x7FEFFFFFFFFFFFFF#64) * 2 ^ 1074).natAbs ∧
    (f64Units 0#64 - f64Units 0#64) * 2 ^ 1074 = 0 := by
  unfold F64Finite
  decide +kernel

/-- A NaN, an infinity of each sign, zero, one and the greatest finite double: a state for each clause. -/
theorem witness_DoublesSpecialOperands :
    F64IsNan 0x7FF0000000000001#64 ∧ F64IsInf 0x7FF0000000000000#64 ∧ F64IsInf 0xFFF0000000000000#64 ∧
    (0x7FF0000000000000#64).msb ≠ (0xFFF0000000000000#64).msb ∧ (0x7FF0000000000000#64).msb = (0x7FF0000000000000#64).msb ∧
    (F64Finite 0x8000000000000000#64 ∧ f64Units 0x8000000000000000#64 = 0) ∧
    (F64Finite 1#64 ∧ f64Units 1#64 ≠ 0) ∧ F64Finite 0x7FEFFFFFFFFFFFFF#64 := by
  unfold F64Finite F64IsNan F64IsInf
  decide +kernel

/-- Each scalar load at the last place of RAM, with a negative offset. -/
theorem witness_ScalarLoadFromRam : ∀ e ∈ [(Instr.lb 5 2 0xFFFF, 1, 0xFFFF), (.lh 5 2 0xFFFE, 2, 0xFFFE),
      (.lw 5 2 0xFFFC, 4, 0xFFFC), (.ldd 5 2 0xFFF8, 8, 0xFFF8)],
    ∃ t, MemoryOk (regs [(2, 0x100000)]) ∧ ScalarLoad 5 2 e.2.2 e.1 e.2.1 ∧
      ToRam (regs [(2, 0x100000)]) (address (regs [(2, 0x100000)]) 2 e.2.2) .read e.2.1 (0x100000 - e.2.1) t := by
  have hm : MemoryOk (regs [(2, 0x100000)]) := memoryOk_of_fresh rfl rfl rfl
  simp only [List.forall_mem_cons, List.not_mem_nil, false_implies, implies_true, and_true]
  exact ⟨(toRam_of_check (by decide +kernel)).imp fun _ h => ⟨hm, .lb, h⟩,
    (toRam_of_check (by decide +kernel)).imp fun _ h => ⟨hm, .lh, h⟩,
    (toRam_of_check (by decide +kernel)).imp fun _ h => ⟨hm, .lw, h⟩,
    (toRam_of_check (by decide +kernel)).imp fun _ h => ⟨hm, .ldd, h⟩⟩

/-- Each scalar store at address 0. -/
theorem witness_ScalarStoreToRam : ∀ e ∈ [(Instr.sb 5 0 0, 1), (.sh 5 0 0, 2), (.sw 5 0 0, 4), (.st 5 0 0, 8)],
    ∃ t, MemoryOk State.reset ∧ ScalarStore 5 0 0 e.1 e.2 ∧
      ToRam State.reset (address State.reset 0 0) .write e.2 0 t := by
  have hm : MemoryOk State.reset := memoryOk_of_fresh rfl rfl rfl
  simp only [List.forall_mem_cons, List.not_mem_nil, false_implies, implies_true, and_true]
  exact ⟨(toRam_of_check (by decide +kernel)).imp fun _ h => ⟨hm, .sb, h⟩,
    (toRam_of_check (by decide +kernel)).imp fun _ h => ⟨hm, .sh, h⟩,
    (toRam_of_check (by decide +kernel)).imp fun _ h => ⟨hm, .sw, h⟩,
    (toRam_of_check (by decide +kernel)).imp fun _ h => ⟨hm, .st, h⟩⟩

/-- VLOAD and VSTORE at the last 32 bytes of RAM. -/
theorem witness_VectorLoadStoreRam : MemoryOk (regs [(2, 0x100000)]) ∧
    (∃ t, ToRam (regs [(2, 0x100000)]) (address (regs [(2, 0x100000)]) 2 0xFFE0) .read 32 0xFFFE0 t) ∧
    ∃ t, ToRam (regs [(2, 0x100000)]) (address (regs [(2, 0x100000)]) 2 0xFFE0) .write 32 0xFFFE0 t :=
  ⟨memoryOk_of_fresh rfl rfl rfl, toRam_of_check (by decide +kernel), toRam_of_check (by decide +kernel)⟩

/-- The least and the greatest misalignments. -/
theorem witness_MisalignedAccessFaults :
    (AccessForm (.lh 5 0 1) .read 2 0 1 ∧ (address State.reset 0 1).toNat % 2 ≠ 0) ∧
    (AccessForm (.vstore 5 0 31) .write 32 0 31 ∧ (address State.reset 0 31).toNat % 32 ≠ 0) :=
  ⟨⟨.lh 5 0 1, by decide +kernel⟩, ⟨.vstore 5 0 31, by decide +kernel⟩⟩

/-- A byte load at 2^48 raises; one at the end of RAM translates and is out of bounds. -/
theorem witness_AccessFaultsAreTaken :
    (AccessForm (.lb 5 2 0) .read 1 2 0 ∧ (address (regs [(2, 2 ^ 48)]) 2 0).toNat % 1 = 0 ∧
      ∃ e t, translateS (regs [(2, 2 ^ 48)]) (address (regs [(2, 2 ^ 48)]) 2 0) .read = .raised e t) ∧
    (∃ t, translateS (regs [(2, 0x100000)]) (address (regs [(2, 0x100000)]) 2 0) .read = .done 0x100000 t ∧
      inWindow (regs [(2, 0x100000)]).params 0x100000 = false ∧ (regs [(2,
     0x100000)]).params.memSize < 0x100000 + 1) :=
  ⟨⟨.lb 5 2 0, Nat.mod_one _, _, _, rfl⟩,
    (translateS_of_goesTo (by decide +kernel)).imp fun _ h => ⟨h, by decide +kernel, by decide +kernel⟩⟩

/-- R2 at the start of the device window, and one page of it registered. -/
def deviceBase : State :=
  { regs [(2, 0x800000000000)] with mmioTable := [{ base := 0x800000000000, size := 0x1000, handler := 1 }] }

/-- For each clause: the first byte behind a registered range,
     read and written; and in the range its last byte and its last
32 bytes, read and written. -/
theorem witness_DeviceWindowAccess :
    (AccessForm (.lb 5 2 0x1000) .read 1 2 0x1000 ∧ AccessForm (.sb 5 2 0x1000) .write 1 2 0x1000 ∧
      (∃ t, ToDevice deviceBase (address deviceBase 2 0x1000) .read 1 0x800000001000 t) ∧
      (∃ t, ToDevice deviceBase (address deviceBase 2 0x1000) .write 1 0x800000001000 t) ∧
      ∀ r ∈ deviceBase.mmioTable, 0x800000001000 < r.base ∨ r.base + r.size ≤ 0x800000001000) ∧
    (AccessForm (.lb 5 2 0xFFF) .read 1 2 0xFFF ∧ ScalarLoad 5 2 0xFFF (.lb 5 2 0xFFF) 1 ∧
      AccessForm (.sb 5 2 0xFFF) .write 1 2 0xFFF ∧ ScalarStore 5 2 0xFFF (.sb 5 2 0xFFF) 1 ∧
      (∃ t, ToDevice deviceBase (address deviceBase 2 0xFFF) .read 1 0x800000000FFF t) ∧
      (∃ t, ToDevice deviceBase (address deviceBase 2 0xFFF) .write 1 0x800000000FFF t) ∧
      ∃ r answer written, findRange deviceBase.mmioTable 0x800000000FFF = some r ∧
        answer = Config.mmioRead r.handler deviceBase.envCalls (0x800000000FFF - r.base) 1 ∧
        written = Config.mmioWrite r.handler deviceBase.envCalls (0x800000000FFF - r.base) 1) ∧
    (AccessForm (.vload 5 2 0xFE0) .read 32 2 0xFE0 ∧ AccessForm (.vstore 5 2 0xFE0) .write 32 2 0xFE0 ∧
      (∃ t, ToDevice deviceBase (address deviceBase 2 0xFE0) .read 32 0x800000000FE0 t) ∧
      (∃ t, ToDevice deviceBase (address deviceBase 2 0xFE0) .write 32 0x800000000FE0 t) ∧
      ∃ r, findRange deviceBase.mmioTable 0x800000000FE0 = some r) :=
  ⟨⟨.lb 5 2 0x1000, .sb 5 2 0x1000, toDevice_of_goesTo (Nat.mod_one _) (by decide +kernel) (by decide +kernel),
      toDevice_of_goesTo (Nat.mod_one _) (by decide +kernel) (by decide +kernel), by decide +kernel⟩,
    ⟨.lb 5 2 0xFFF, .lb, .sb 5 2 0xFFF, .sb,
      toDevice_of_goesTo (Nat.mod_one _) (by decide +kernel) (by decide +kernel),
      toDevice_of_goesTo (Nat.mod_one _) (by decide +kernel) (by decide +kernel),
      ⟨{ base := 0x800000000000, size := 0x1000, handler := 1 }, _, _, by decide +kernel, rfl, rfl⟩⟩,
    ⟨.vload 5 2 0xFE0, .vstore 5 2 0xFE0,
     toDevice_of_goesTo (by decide +kernel) (by decide +kernel) (by decide +kernel),
      toDevice_of_goesTo (by decide +kernel) (by decide +kernel) (by decide +kernel),
      ⟨{ base := 0x800000000000, size := 0x1000, handler := 1 }, by decide +kernel⟩⟩⟩

theorem witness_BranchResult : ∃ go : Bool → Word,
    ∀ c, go c = if c then State.reset.pc + (0xFFF8#16).signExtend 64 else State.reset.pc + 4 := ⟨_, fun _ => rfl⟩

/-- The runs of a loop `BEQ R1, R0, -8` at address 0: after each one the pc is back at the branch. -/
def loopRun : Nat → State
  | 0 => State.reset
  | k + 1 => after (exec (.beq 1 0 0xFFF8) { loopRun k with pc := 0 })

theorem witness_LoopMispredictions :
    CondBranch 1 0 0xFFF8 (.beq 1 0 0xFFF8) (fun a b => a == b) ∧
    loopRun 0 = State.reset ∧ State.reset.predictor = { bp := [], btb := [] } ∧
    (0xFFF8#16).signExtend 64 ≠ (4 : Word) ∧
    (∀ k < 3, ∃ w : State, (getX w 1 == getX w 0) = true ∧ w.pc = State.reset.pc ∧ w.params = State.reset.params ∧
      w.predictor = (loopRun k).predictor ∧ w.perf = (loopRun k).perf ∧ Gives (.beq 1 0 0xFFF8) w (loopRun (k + 1))) ∧
    ∃ w u : State, (getX w 1 == getX w 0) = false ∧ w.pc = State.reset.pc ∧ w.params = State.reset.params ∧
      w.predictor = (loopRun 3).predictor ∧ w.perf = (loopRun 3).perf ∧ Gives (.beq 1 0 0xFFF8) w u := by
  refine ⟨.beq, rfl, rfl, by decide, fun k hk => ⟨{ loopRun k with pc := 0 }, ?_, rfl, ?_, rfl, rfl, rfl⟩,
    { regs [(1, 1)] with predictor := (loopRun 3).predictor, perf := (loopRun 3).perf }, _, by decide +kernel, rfl,
     rfl,
    rfl, rfl, rfl⟩
  · match k, hk with
    | 0, _ => decide +kernel
    | 1, _ => decide +kernel
    | 2, _ => decide +kernel
  · match k, hk with
    | 0, _ => decide +kernel
    | 1, _ => decide +kernel
    | 2, _ => decide +kernel

theorem witness_PredictionTransparency : ∃ t, Gives (.bne 1 0 8) (regs [(1, 1)]) t := ⟨_, rfl⟩

/-- The reset state in user mode. -/
def userState : State := { State.reset with flags := 0x20 }

theorem witness_HaltStopsCore : flagUM State.reset.flags = false ∧ (run1 (.halt 0) []).halted = true := by decide +kernel

theorem witness_PrivilegeFaults : flagUM userState.flags = true ∧ flagUM State.reset.flags = false ∧
    State.reset.ic.nest = 0 := by decide +kernel

/-- The reset state with a guest handler in every slot of a list and a given depth. -/
def guestAt (slots : List Nat) (nest : Nat) : State :=
  { State.reset with ic := { State.reset.ic with ivt := slots.map fun v => (v, .guest 0x20000), nest := nest } }

theorem witness_IretReturns : (flagUM inHandler.flags = false ∧ 0 < inHandler.ic.nest) ∧
    flagUM (guestAt [] 16).flags = false ∧ 0 < (guestAt [] 16).ic.nest := by decide +kernel

/-- The last depth with room for a frame, and the first without. -/
theorem witness_SyscallToGuest :
    (ivtGet (guestAt [128] 15) 128 = .guest 0x20000 ∧ (guestAt [128] 15).ic.nest < (guestAt [128] 15).params.maxNest) ∧
    ivtGet (guestAt [128] 16) 128 = .guest 0x20000 ∧
    (guestAt [128] 16).params.maxNest ≤ (guestAt [128] 16).ic.nest := by decide +kernel

theorem witness_SyscallExitAndUnknown : ivtGet State.reset 128 = .default ∧ getX State.reset 1 = 0 ∧
    ivtGet (regs [(1, 5)]) 128 = .default ∧ 5 ≤ (getX (regs [(1, 5)]) 1).toNat ∧
    5 ≤ (getX (regs [(1, 2 ^ 64 - 1)]) 1).toNat := by decide +kernel

/-- Read, whose answer may write memory, and close, whose may not. -/
theorem witness_SyscallEnvironment :
    (∃ answer, MemoryOk (regs [(1, 1)]) ∧ ivtGet (regs [(1, 1)]) 128 = .default ∧ (getX (regs [(1, 1)]) 1).toNat = 1 ∧
      answer = Config.envSyscall 0 1 (getX (regs [(1, 1)]) 2) (getX (regs [(1, 1)]) 3) (getX (regs [(1, 1)]) 4)
        (regs [(1, 1)]).flat) ∧
    MemoryOk (regs [(1, 4)]) ∧ ivtGet (regs [(1, 4)]) 128 = .default ∧ (getX (regs [(1, 4)]) 1).toNat = 4 :=
  ⟨⟨_, memoryOk_of_fresh rfl rfl rfl, by decide +kernel, by decide +kernel, rfl⟩, memoryOk_of_fresh rfl rfl rfl,
    by decide +kernel, by decide +kernel⟩

theorem witness_FaultWithDefaultHandler : ivtGet State.reset (invalidOpcode 0).vector = .default := by decide +kernel

theorem witness_FaultWithGuestHandler :
    (ivtGet (guestAt [14] 15) 14 = .guest 0x20000 ∧ (guestAt [14] 15).ic.nest < (guestAt [14] 15).params.maxNest) ∧
    ivtGet (guestAt [14] 16) 14 = .guest 0x20000 ∧
    (guestAt [14] 16).params.maxNest ≤ (guestAt [14] 16).ic.nest := by decide +kernel

theorem witness_ReturnUndoesEntry : ∃ t, ({ State.reset with flags := 0x3F } : State).flags.toNat < 64 ∧
    Gives (.iret 0) (trapEnter 0x20000 0x1000C 14 1 2 { State.reset with flags := 0x3F }) t :=
  ⟨_, by decide, rfl⟩

/-- Interrupts enabled and one vector pending. -/
def pendingAt (v : Nat) (slots : List Nat) (nest : Nat) : State :=
  let s := guestAt slots nest
  { s with flags := 0x10, ic := { s.ic with pending := 1#256 <<< v } }

/-- The lowest and the highest device vector, to either handler, at the last depth with room for a frame. -/
theorem witness_InterruptDelivery : ∀ v ∈ [32, 255], ∀ slots ∈ [[], [v]],
    (pendingAt v slots 15).halted = false ∧ (pendingAt v slots 15).quiet ∧ breakpointAt (pendingAt v slots 15) = false ∧
    flagIE (pendingAt v slots 15).flags = true ∧ v < 256 ∧ (pendingAt v slots 15).ic.pending.getLsbD v = true ∧
    (∀ u < v, (pendingAt v slots 15).ic.pending.getLsbD u = false) ∧
    (ivtGet (pendingAt v slots 15) v = if slots = [] then .default else .guest 0x20000) ∧
    (pendingAt v slots 15).ic.nest < (pendingAt v slots 15).params.maxNest := by
  unfold State.quiet
  decide +kernel

/-- Interrupts disabled, and a guest handler with the save stack full. -/
theorem witness_InterruptDelivery_heldBack :
    (State.reset.halted = false ∧ State.reset.quiet ∧ breakpointAt State.reset = false ∧
      flagIE State.reset.flags = false) ∧
    ((pendingAt 33 [33] 16).halted = false ∧ (pendingAt 33 [33] 16).quiet ∧ breakpointAt (pendingAt 33 [33] 16) = false ∧
      flagIE (pendingAt 33 [33] 16).flags = true ∧ (pendingAt 33 [33] 16).ic.pending.getLsbD 33 = true ∧
      (∀ u < 33, (pendingAt 33 [33] 16).ic.pending.getLsbD u = false) ∧
      ivtGet (pendingAt 33 [33] 16) 33 = .guest 0x20000 ∧
      (pendingAt 33 [33] 16).params.maxNest ≤ (pendingAt 33 [33] 16).ic.nest) := by
  unfold State.quiet
  decide +kernel

/-- A fetch at the end of RAM, an illegal word at 0, and a misaligned pc. -/
theorem witness_FetchFaultsAndIllegalWords :
    (∃ e t, fetch { ({ State.reset with pc := 0x100000 } : State) with lastStatus := .ok, resume := false } 0x100000 =
      .raised e t) ∧
    (∃ t, fetch { State.reset.withFetchWord 32 0xFC000000 with lastStatus := .ok, resume := false }
        (State.reset.withFetchWord 32 0xFC000000).pc = .done 0xFC000000#32 t ∧
      decode State.reset.params.strictReserved 0xFC000000#32 = none) ∧
    ((2 : Word).toNat % 4 ≠ 0 ∧ ({ State.reset with pc := 2 } : State).quiet ∧
      breakpointAt { State.reset with pc := 2 } = false ∧ deliverable { State.reset with pc := 2 } = none) :=
  ⟨fetch_of_fetchFaults (by decide +kernel),
    (fetch_of_fetches (by decide +kernel)).imp fun _ h => ⟨h, by decide +kernel⟩,
    by decide, rfl, by decide +kernel, by decide +kernel⟩

theorem witness_BreakpointStops : ({ State.reset with bkpt := [0] } : State).halted = false ∧
    ({ State.reset with bkpt := [0] } : State).quiet ∧
    ({ State.reset with bkpt := [0] } : State).pc ∈ ({ State.reset with bkpt := [0] } : State).bkpt ∧
    ({ State.reset with bkpt := [0] } : State).resume = false ∧ deliverable { State.reset with bkpt := [0] } = none := by
  unfold State.quiet
  decide +kernel

/-- An IRET that sets IE and takes a frame off, and a SYSCALL that leaves user mode. -/
theorem witness_ModeChangesOnlyByTrapAndReturn :
    (∃ t, Gives (.iret 0) inHandler t ∧ flagIE inHandler.flags = false ∧ flagIE t.flags = true ∧
      t.ic.nest < inHandler.ic.nest) ∧
    ∃ t, Gives (.syscall 0) { guestAt [128] 0 with flags := 0x20 } t ∧ flagUM t.flags = false := by
  refine ⟨⟨after (exec (.iret 0) inHandler), rfl, ?_⟩,
    ⟨after (exec (.syscall 0) { guestAt [128] 0 with flags := 0x20 }), rfl, ?_⟩⟩
  · decide +kernel
  · decide +kernel

theorem witness_WhatNoInstructionChanges : (∃ t, Gives (.st 5 2 0) (memBase loadBytes) t) ∧
    isAlu (.st 5 2 0) = false ∧ ∀ imm, Instr.st 5 2 0 ≠ .iret imm :=
  ⟨⟨after (exec (.st 5 2 0) (memBase loadBytes)), rfl⟩, rfl, fun _ h => nomatch h⟩

theorem witness_IdentityMap : (0xFFFFFFFFFFFF#64).toNat < 2 ^ 48 ∧ 2 ^ 48 ≤ (0x1000000000000#64).toNat := by decide

/-- A TLB with a valid entry. -/
theorem witness_TlbTransparency : TlbOk 64 (translate 64 { pt := [], tlb := [] } false 0x2000 .read).1 ∧
    (tlbGet (translate 64 { pt := [], tlb := [] } false 0x2000 .read).1.tlb 2).valid = true :=
  ⟨(TlbOk.nil 64 []).translate false 0x2000 .read, by decide +kernel⟩

theorem witness_WalkOutcome : ∃ e4 e3 e2 e1 : Word, (0xFFFFFFFFFFFF#64).toNat < 2 ^ 48 ∧
    e4 = ptGet [] 0 ((0xFFFFFFFFFFFF#64).toNat / 2 ^ 39 % 512) ∧
    e3 = ptGet [] (e4.toNat / 2 ^ 12 % 2 ^ 40) ((0xFFFFFFFFFFFF#64).toNat / 2 ^ 30 % 512) ∧
    e2 = ptGet [] (e3.toNat / 2 ^ 12 % 2 ^ 40) ((0xFFFFFFFFFFFF#64).toNat / 2 ^ 21 % 512) ∧
    e1 = ptGet [] (e2.toNat / 2 ^ 12 % 2 ^ 40) ((0xFFFFFFFFFFFF#64).toNat / 2 ^ 12 % 512) :=
  ⟨_, _, _, _, by decide, rfl, rfl, rfl, rfl⟩

/-- A direct-mapped set, and one of L1D. -/
theorem witness_LruEviction :
    (0 < (⟨1, 1⟩ : Geom).ways ∧ [7].length = (⟨1, 1⟩ : Geom).ways ∧ [3, 7].Nodup) ∧
    0 < (l1dGeom Params.default).ways ∧ [1, 2, 3, 4, 5, 6, 7, 8].length = (l1dGeom Params.default).ways ∧
    [0, 1, 2, 3, 4, 5, 6, 7, 8].Nodup := by decide +kernel

/-- The reset state after a store that left a dirty line in L1D. -/
def dirtyState : State := ramWrite State.reset 0x2000 8 5

theorem dirtyState_ok : MemoryOk dirtyState :=
  (memoryOk_of_fresh rfl rfl rfl : MemoryOk State.reset).ramWrite 5 (by decide) (by decide) (by decide +kernel)

theorem witness_FlushWritesEverythingBack : dirtyState.params.valid = true ∧
    HierOk dirtyState.params dirtyState.hier ∧
    (lineInfo (l1dGeom dirtyState.params) dirtyState.hier.l1d (0x2000 / 64)).map (·.1) = some true :=
  ⟨dirtyState_ok.params, dirtyState_ok.hier, by decide +kernel⟩

/-- The last byte of RAM. -/
theorem witness_HostWriteIsCoherent : dirtyState.params.valid = true ∧ HierOk dirtyState.params dirtyState.hier ∧
    0xFFFFF + [(1 : Byte)].length ≤ dirtyState.params.memSize :=
  ⟨dirtyState_ok.params, dirtyState_ok.hier, by decide +kernel⟩

/-- A store, whose fetch is predicted sequential, and a branch. -/
theorem witness_StagesRefineMeaning : State.reset.quiet ∧
    predict State.reset.params State.reset.predictor State.reset.pc = State.reset.pc + 4 ∧
    (∃ t, Gives (.st 5 0 0) State.reset t) ∧ isControl (.beq 0 0 8) = true ∧ ∃ t, Gives (.beq 0 0 8) State.reset t :=
  ⟨rfl, by decide +kernel, ⟨after (exec (.st 5 0 0) State.reset), rfl⟩, rfl, _, rfl⟩

/-! ### The two levels -/

theorem fetchesFlat_reset : FetchesFlat State.reset 0 := by
  intro pa t h
  have h1 := (translateS_done h.translated).1
  rw [show (translate State.reset.params.tlbEntries State.reset.mmu (userMode State.reset) 0 .fetch).2 = .pa 0 by
    decide +kernel] at h1
  cases h1
  rw [(translateS_done h.translated).2]
  show (ramFetch State.reset 0).1 = _
  decide +kernel

theorem witness_StepRefinesReference : ∃ r, MemoryOk State.reset ∧ State.reset.latches.memWb = none ∧
    FetchesFlat State.reset (archPc State.reset) ∧
    r = refRound (Config.takesInterrupt State.reset.intAsked) (architectural State.reset) :=
  ⟨_, ⟨by decide +kernel, HierOk.created _, TlbOk.nil _ _⟩, rfl, fetchesFlat_reset, rfl⟩

/-- The loop `JMP 0` at address 0, its page already marked accessed. -/
def spin : State :=
  { State.reset with
    hier := hostWrite Params.default State.reset.hier 0 (wordBytes 0x74000000),
    mmu := { State.reset.mmu with pt := (translate 64 { pt := [], tlb := [] } false 0 .fetch).1.pt } }

/-- The loop with some vectors pending. -/
def spinWith (p : BitVec 256) : State := { spin with ic := { spin.ic with pending := p } }

theorem spin_architectural : architectural spin = spinWith 0 := by decide +kernel

theorem spin_fetch : (translate spin.params.tlbEntries { spin.mmu with tlb := [] } (userMode spin) 0 .fetch).2 = .pa 0 ∧
    (translate spin.params.tlbEntries { spin.mmu with tlb := [] } (userMode spin) 0 .fetch).1.pt = spin.mmu.pt ∧
    (pmValue spin 0 4).setWidth 32 = 0x74000000#32 ∧ flagIE spin.flags = false ∧ breakpointAt spin = false := by decide +kernel

theorem refFetch_spin (p : BitVec 256) : refFetch (spinWith p) 0 = .done 0x74000000#32 (spinWith p) := by
  obtain ⟨h1, h2, h3, -⟩ := spin_fetch
  have ht : refTranslate (spinWith p) 0 .fetch = .done 0 (spinWith p) := by
    have e : translate (spinWith p).params.tlbEntries { (spinWith p).mmu with tlb := [] } (userMode (spinWith p)) 0 .fetch =
      translate spin.params.tlbEntries { spin.mmu with tlb := [] } (userMode spin) 0 .fetch := rfl
    unfold refTranslate
    simp only [e, h1, h2]
    rfl
  obtain ⟨h, -⟩ | ⟨-, e, h, -⟩ | ⟨-, pa, t, h, k⟩ := refFetch_cases (spinWith p) 0
  · exact absurd rfl h
  · rw [ht] at h; cases h
  · rw [ht] at h; cases h
    obtain ⟨hb, -⟩ | ⟨-, -, k⟩ := k
    · exact absurd hb (by show ¬ (inWindow spin.params 0 = true ∨ spin.params.memSize < 0 + 4); decide +kernel)
    · rw [k]; exact congrArg (Access.done · _) h3

/-- Interrupts are disabled there, so a turn of the interpreter comes back to the same state. -/
theorem refRound_spin (p : BitVec 256) (take : Bool) : refRound take (spinWith p) = spinWith p := by
  obtain ⟨-, -, -, h5, h6⟩ := spin_fetch
  have hd : deliverable (spinWith p) = none := by
    unfold deliverable
    rw [if_neg (by rw [show flagIE (spinWith p).flags = false from h5]; exact Bool.false_ne_true)]
  have hh : (spinWith p).halted = false := rfl
  have hb : breakpointAt (spinWith p) = false := h6
  have hs : startStep (spinWith p) = spinWith p := rfl
  have he : refFetchAndExec (spinWith p) = spinWith p := by
    unfold refFetchAndExec
    rw [show refFetch { spinWith p with resume := false } (spinWith p).pc = .done 0x74000000#32 (spinWith p) from
      refFetch_spin p]
    rfl
  unfold refRound
  simp only [hh, hb, hs, hd, he, ite_self, Bool.false_eq_true, if_false]

theorem refRun_spin (inputs : List RefInput) : ∀ p, ∃ q, refRun inputs (spinWith p) = spinWith q := by
  induction inputs with
  | nil => exact fun p => ⟨p, rfl⟩
  | cons i is ih =>
    intro p
    cases i with
    | trigger vs => exact ih _
    | round take =>
      show ∃ q, refRun is (refRound take (spinWith p)) = _
      rw [refRound_spin]
      exact ih p

theorem spin_flat : ∀ j < 4, Memory.read spin.hier.pm j = spin.flat j := by decide +kernel

theorem neverRunsStored_spin : NeverRunsStored spin := by
  intro before after r t pa hr _ ht j hj
  rw [spin_architectural] at hr ⊢
  obtain ⟨q, hq⟩ := refRun_spin before 0
  obtain ⟨q', hq'⟩ := refRun_spin (before ++ after) 0
  rw [hq]
  rw [hq'] at hr
  subst hr
  have h0 := (refTranslate_done ht).1
  rw [show translate (spinWith q').params.tlbEntries { (spinWith q').mmu with tlb := [] } (userMode (spinWith q'))
      (spinWith q').pc .fetch = translate spin.params.tlbEntries { spin.mmu with tlb := [] } (userMode spin) 0 .fetch
    from rfl, spin_fetch.1] at h0
  cases h0
  rw [Nat.zero_add]
  exact spin_flat j hj

theorem memoryOk_spin : MemoryOk spin where
  params := by decide +kernel
  hier := hostWrite_hier (by decide +kernel) (HierOk.created Params.default) 0 _ (by decide +kernel)
  tlb := by rw [show spin.mmu = { pt := spin.mmu.pt, tlb := [] } from by decide +kernel]; exact TlbOk.nil _ _

theorem codeCoherent_spin : CodeCoherent spin where
  l1i := by
    intro ln b d h
    rw [show spin.hier.l1i = [] by decide +kernel, lineInfo_nil] at h
    cases h
  l1d := by
    intro ln d h
    rw [show spin.hier.l1d = [] by decide +kernel, lineInfo_nil] at h
    cases h

theorem witness_TicksRefineReference : spin.quiet ∧ spin.bkpt = [] ∧ MemoryOk spin ∧ CodeCoherent spin ∧
    NeverRunsStored spin := ⟨rfl, rfl, memoryOk_spin, codeCoherent_spin, neverRunsStored_spin⟩

/-- An instruction in MEM/WB that will write R3. -/
def inWb (exc : LatchExc) : MemWb :=
  { pc := 0x10000, instr := some (.ld 3 0 42), exc := exc, dest := .g 3, result := 42, flags := none }

theorem witness_ForwardingIsCurrent : (setMemWb (some (inWb .none)) State.reset).latches.memWb = some (inWb .none) ∧
    (inWb .none).dest ≠ .g 0 := by decide +kernel

/-- `ADD R3, R1, R2` in IF/ID behind a load of R1 in EX/MEM, and alone. -/
def behindLoad : State :=
  let f : IfId := { pc := 0x10004, word := 0x00611000, exc := .none, predNext := 0x10008 }
  let e : ExMem :=
    { pc := 0x10000, instr := some (.lw 1 2 0), exc := .none, dest := .g 1, result := 0, flags := none, ea := 0,
      sdata := 0 }
  { State.reset with latches := { ifId := some f, idEx := none, exMem := some e, memWb := none } }

theorem witness_LoadUseStall : ∃ (f : IfId) (e : ExMem), behindLoad.latches.ifId = some f ∧ f.exc = .none ∧
    decode behindLoad.params.strictReserved f.word = some (.add 3 1 2 0 0) ∧ behindLoad.latches.exMem = some e ∧
    e.exc = .none ∧ e.instr = some (.lw 1 2 0) ∧ e.dest ≠ .none ∧ e.dest ∈ srcsOf (.add 3 1 2 0 0) ∧
    e.dest ∉ srcsOf (.add 3 4 5 0 0) :=
  ⟨_, _, rfl, rfl, by decide +kernel, rfl, rfl, rfl, by decide, by decide, by decide⟩

/-- An instruction in Execute at 0x10000 with a predicted next address. -/
def inEx (i : Instr) (predNext : Word) : State :=
  let d : IdEx := { pc := 0x10000, instr := some i, exc := .none, predNext := predNext }
  { State.reset with latches := { ifId := none, idEx := some d, exMem := none, memWb := none } }

/-- Predicted rightly and wrongly, for a branch and for another instruction. -/
theorem witness_ControlResolution : ∀ i ∈ [Instr.beq 0 0 8, .nop 0], ∀ p ∈ [(0x10004 : Word), 0x10008],
    ∃ d, (inEx i p).latches.idEx = some d ∧ d.instr = some i ∧ d.exc = .none ∧
      ((compute (operandG (inEx i p)) (operandV (inEx i p)) d.pc i).next = d.predNext ↔
        (i = .beq 0 0 8 ↔ p = 0x10008)) := by
  simp only [List.forall_mem_cons, List.not_mem_nil, false_implies, implies_true, and_true]
  exact ⟨⟨⟨_, rfl, rfl, rfl, by decide +kernel⟩, ⟨_, rfl, rfl, rfl, by decide +kernel⟩⟩,
    ⟨_, rfl, rfl, rfl, by decide +kernel⟩, ⟨_, rfl, rfl, rfl, by decide +kernel⟩⟩

theorem witness_PreciseWriteback : ∀ x ∈ [LatchExc.fault (invalidOpcode 0), .breakpointStop],
    (setMemWb (some (inWb x)) State.reset).latches.memWb = some (inWb x) ∧ (inWb x).exc ≠ .none := by
  decide +kernel

/-- The reset state is sound in the first two senses and its step has a next state. -/
theorem witness_StepKeeps : ControlOk State.reset ∧ MemoryOk State.reset ∧ StoresOk State.reset ∧
    ∃ t, step State.reset = .next t :=
  ⟨⟨by decide +kernel, by decide, by decide, by decide +kernel, by decide, by decide⟩,
    memoryOk_of_fresh rfl rfl rfl, ⟨rfl, rfl, rfl, rfl, rfl, rfl, rfl, rfl, rfl, rfl, rfl⟩,
    after (step State.reset), rfl⟩

theorem witness_ResetPortPreservesImage : ∃ u, MemoryOk dirtyState ∧ u = dirtyState.resetPort :=
  ⟨_, dirtyState_ok, rfl⟩

/-- An image that ends at the end of RAM, and one a byte longer. -/
theorem witness_LoadProgramPlacesImage : MemoryOk dirtyState ∧
    0xFFFFC + [1, 2, 3, (4 : Byte)].length ≤ dirtyState.params.memSize ∧
    dirtyState.params.memSize < 0xFFFFD + [1, 2, 3, (4 : Byte)].length :=
  ⟨dirtyState_ok, by decide +kernel, by decide +kernel⟩

/-- The indices and vectors at the edges of each clause. -/
theorem witness_RegisterAndTriggerPorts :
    (34 < 35 ∧ 0 ≤ 34 ∧ 34 ≤ 34) ∧ (31 < 32 ∧ 256 ≤ 256) ∧ 32 ≤ 32 ∧ 255 < 256 ∧ 127 ≠ 128 ∧ 129 ≠ 128 := by decide

end Sys2Proof.Tests
end

