-- ==== Sys2Proof/Proofs/KeptBySteps.lean ====
section
/-! What a predicate on states has to be kept by so that every step keeps it, said once: the memory primitives, the
instructions, and the architectural step and the tick (`AccessKeeps`, `ExecKeeps`, `StepKeeps`). -/

namespace Sys2Proof.Machine

/-! ## Hierarchies made from one another -/

/-- `k` comes from `h` by writes to physical memory, writes of whole cache sets and runs of the prefetcher's registers:
all that any cache operation does. -/
inductive HierSteps (p : Params) (h : Hierarchy) : Hierarchy → Prop where
  | refl : HierSteps p h h
  | pm {k : Hierarchy} (a : Nat) (bs : List Byte) :
      HierSteps p h k → HierSteps p h { k with pm := Memory.writeBytes k.pm a bs }
  | l1i {k : Hierarchy} (j : Nat) (ws : List Way) :
      HierSteps p h k → HierSteps p h { k with l1i := setPut (l1iGeom p) k.l1i j ws }
  | l1d {k : Hierarchy} (j : Nat) (ws : List Way) :
      HierSteps p h k → HierSteps p h { k with l1d := setPut (l1dGeom p) k.l1d j ws }
  | l2 {k : Hierarchy} (j : Nat) (ws : List Way) :
      HierSteps p h k → HierSteps p h { k with l2 := setPut (l2Geom p) k.l2 j ws }
  | pf {k : Hierarchy} (pa : Word) : HierSteps p h k → HierSteps p h { k with pf := pfNext k.pf pa }

section
variable {p : Params} {h k : Hierarchy}

theorem HierSteps.l2Insert (hk : HierSteps p h k) (ln : Nat) (d : List Byte) (b : Bool) :
    HierSteps p h (l2Insert p k ln d b) := by
  unfold Machine.l2Insert
  dsimp only
  split
  · exact (hk.pm _ _).l2 _ _
  · exact hk.l2 _ _

theorem HierSteps.l2Put (hk : HierSteps p h k) (ln : Nat) (d : List Byte) : HierSteps p h (l2Put p k ln d) := by
  unfold Machine.l2Put
  dsimp only
  split
  · exact hk.l2 _ _
  · exact hk.l2Insert _ _ _

theorem HierSteps.fillLine (hk : HierSteps p h k) (ln : Nat) : HierSteps p h (fillLine p k ln).hier := by
  unfold Machine.fillLine
  dsimp only
  split
  · exact hk.l2 _ _
  · exact hk.l2Insert _ _ _

theorem HierSteps.l1dInsert (hk : HierSteps p h k) (ln : Nat) (d : List Byte) :
    HierSteps p h (l1dInsert p k ln d) := by
  unfold Machine.l1dInsert
  dsimp only
  split
  · exact (hk.l2Put _ _).l1d _ _
  · exact hk.l1d _ _

theorem HierSteps.l1iAccess (hk : HierSteps p h k) (ln : Nat) : HierSteps p h (l1iAccess p k ln).hier := by
  unfold Machine.l1iAccess
  dsimp only
  split
  · exact hk.l1i _ _
  · exact (hk.fillLine _).l1i _ _

theorem HierSteps.l1dAccess (hk : HierSteps p h k) (ln : Nat) : HierSteps p h (l1dAccess p k ln).hier := by
  unfold Machine.l1dAccess
  dsimp only
  split
  · exact hk.l1d _ _
  · exact (hk.fillLine _).l1dInsert _ _

theorem HierSteps.l1dStore (hk : HierSteps p h k) (ln : Nat) (d : List Byte) : HierSteps p h (l1dStore p k ln d) := by
  unfold Machine.l1dStore
  dsimp only
  split
  · exact hk.l1d _ _
  · exact hk

theorem HierSteps.l1dWrite (hk : HierSteps p h k) (pa n : Nat) (val : VWord) :
    HierSteps p h (l1dWrite p k pa n val).hier :=
  (hk.l1dAccess _).l1dStore _ _

theorem HierSteps.prefetchLine (hk : HierSteps p h k) (t : Word) : HierSteps p h (prefetchLine p k t) := by
  unfold Machine.prefetchLine
  dsimp only
  split
  · exact hk
  · split
    · exact hk
    · exact hk.l2Insert _ _ _

theorem HierSteps.runPrefetcher (hk : HierSteps p h k) (pa : Word) : HierSteps p h (runPrefetcher p k pa) := by
  unfold Machine.runPrefetcher
  dsimp only
  split
  · exact (hk.pf pa).prefetchLine _
  · exact hk.pf pa

theorem HierSteps.evictLine (hk : HierSteps p h k) (ln : Nat) : HierSteps p h (evictLine p k ln) := by
  unfold Machine.evictLine
  dsimp only
  split
  · exact (((hk.pm _ _).l1i _ _).l1d _ _).l2 _ _
  · split
    · exact (((hk.pm _ _).l1i _ _).l1d _ _).l2 _ _
    · exact ((hk.l1i _ _).l1d _ _).l2 _ _

theorem HierSteps.evictLines (count : Nat) :
    ∀ {k : Hierarchy} (ln : Nat), HierSteps p h k → HierSteps p h (evictLines p k ln count) := by
  induction count with
  | zero => exact fun _ hk => hk
  | succ count ih => exact fun ln hk => ih (ln + 1) (hk.evictLine ln)

theorem HierSteps.hostWrite (hk : HierSteps p h k) (a : Nat) (bs : List Byte) : HierSteps p h (hostWrite p k a bs) :=
  (HierSteps.evictLines _ _ hk).pm _ _

theorem HierSteps.applyWrites (ws : List (Nat × List Byte)) :
    ∀ {k : Hierarchy}, HierSteps p h k → HierSteps p h (applyWrites p ws k) := by
  induction ws with
  | nil => exact fun hk => hk
  | cons w ws ih =>
    intro k hk
    rw [Machine.applyWrites]
    split
    · exact ih (hk.hostWrite _ _)
    · exact ih hk

end

/-! ## Updates outside the core of the state -/

/-- `t` differs from `s` at most in the vector registers, the pc, the stop fields, the latches, `RESUME`, the model's own
two counters and the performance counters other than `PERF[1]` and `PERF[5]`. -/
def SameCore (s t : State) : Prop :=
  { s with
    v := t.v, pc := t.pc, halted := t.halted, exitCode := t.exitCode, lastStatus := t.lastStatus, latches := t.latches,
    perf := { t.perf with cycles := s.perf.cycles, stalls := s.perf.stalls }, resume := t.resume,
    envCalls := t.envCalls, intAsked := t.intAsked } = t

/-! ## Memory accesses -/

/-- The state an access leaves, whatever it answers. -/
def Access.left {α : Type} : Access α → State
  | .done _ t => t
  | .raised _ t => t

/-- The sizes of a data access (20_memory.md R67). -/
def AccessSize (n : Nat) : Prop := n = 1 ∨ n = 2 ∨ n = 4 ∨ n = 8 ∨ n = 32

/-- `P` is kept by all that a memory access does to the state: translation, the device window and the caches. -/
structure AccessKeeps (P : State → Prop) : Prop where
  core : ∀ {s t : State}, P s → SameCore s t → P t
  mmu : ∀ {s : State} (um : Bool) (va : Word) (acc : Acc), P s →
    P { s with mmu := (translate s.params.tlbEntries s.mmu um va acc).1 }
  dropTlb : ∀ {s : State} (va : Word), P s → P (dropTlb va s)
  pend : ∀ {s : State} (vs : BitVec 256), P s → P (pend vs s)
  hier : ∀ {s : State} {h : Hierarchy}, HierSteps s.params s.hier h → P s → P { s with hier := h }

namespace AccessKeeps

variable {P : State → Prop} {s : State}

theorem translateS_done (K : AccessKeeps P) (hp : P s) {t : State} {va : Word} {acc : Acc} {pa : Nat}
    (h : translateS s va acc = .done pa t) : P t := by
  rw [(Machine.translateS_done h).2]
  exact K.mmu _ _ _ hp

theorem translateS_raised (K : AccessKeeps P) (hp : P s) {t : State} {va : Word} {acc : Acc} {e : Exc}
    (h : translateS s va acc = .raised e t) : P t := by
  rw [(Machine.translateS_raised h).2]
  exact K.mmu _ _ _ hp

theorem mmioRead (K : AccessKeeps P) (hp : P s) (pa n : Nat) : P (mmioRead s pa n).2 := by
  unfold Machine.mmioRead
  split
  · exact hp
  · exact K.pend _ (K.core hp rfl)

theorem mmioWrite (K : AccessKeeps P) (hp : P s) (pa n : Nat) (val : VWord) : P (mmioWrite s pa n val) := by
  unfold Machine.mmioWrite
  split
  · exact hp
  · exact K.pend _ (K.core hp rfl)

theorem afterAccess (K : AccessKeeps P) (hp : P s) {a : Accessed} (ha : HierSteps s.params s.hier a.hier) :
    P (afterAccess a s) :=
  K.core (K.hier ha hp) rfl

theorem ramRead (K : AccessKeeps P) (hp : P s) (pa n : Nat) : P (ramRead s pa n).2 :=
  K.afterAccess hp ((HierSteps.refl.l1dAccess _).runPrefetcher _)

theorem ramWrite (K : AccessKeeps P) (hp : P s) (pa n : Nat) (val : VWord) : P (ramWrite s pa n val) :=
  K.afterAccess hp ((HierSteps.refl.l1dWrite _ _ _).runPrefetcher _)

theorem ramFetch (K : AccessKeeps P) (hp : P s) (pa : Nat) : P (ramFetch s pa).2 :=
  K.afterAccess hp (HierSteps.refl.l1iAccess _)

theorem memRead (K : AccessKeeps P) (hp : P s) (va : Word) (n : Nat) : P (memRead s va n).left := by
  obtain ⟨-, e⟩ | ⟨-, _, t, ht, e⟩ | ⟨-, pa, t, ht, ⟨-, e⟩ | ⟨-, -, e⟩ | ⟨-, -, e⟩⟩ := memRead_cases s va n <;> rw [e]
  · exact hp
  · exact K.translateS_raised hp ht
  · exact K.mmioRead (K.translateS_done hp ht) pa n
  · exact hp
  · exact K.ramRead (K.translateS_done hp ht) pa n

theorem memWrite (K : AccessKeeps P) (hp : P s) (va : Word) (n : Nat) (val : VWord) :
    P (memWrite s va n val).left := by
  obtain ⟨-, e⟩ | ⟨-, _, t, ht, e⟩ | ⟨-, pa, t, ht, ⟨-, e⟩ | ⟨-, -, e⟩ | ⟨-, -, e⟩⟩ := memWrite_cases s va n val <;>
    rw [e]
  · exact hp
  · exact K.translateS_raised hp ht
  · exact K.dropTlb va (K.mmioWrite (K.translateS_done hp ht) pa n val)
  · exact hp
  · exact K.dropTlb va (K.ramWrite (K.translateS_done hp ht) pa n val)

theorem fetch (K : AccessKeeps P) (hp : P s) (va : Word) : P (fetch s va).left := by
  obtain ⟨-, e⟩ | ⟨-, _, t, ht, e⟩ | ⟨-, pa, t, ht, ⟨-, e⟩ | ⟨-, -, e⟩⟩ := fetch_cases s va <;> rw [e]
  · exact hp
  · exact K.translateS_raised hp ht
  · exact hp
  · exact K.ramFetch (K.translateS_done hp ht) pa

theorem applyWrites (K : AccessKeeps P) (hp : P s) (ws : List (Nat × List Byte)) :
    P { s with hier := applyWrites s.params ws s.hier } :=
  K.hier (HierSteps.refl.applyWrites ws) hp

end AccessKeeps

/-! ## Instructions -/

/-- `P` is kept by every operation an instruction is made of. -/
structure ExecKeeps (P : State → Prop) : Prop where
  core : ∀ {s t : State}, P s → SameCore s t → P t
  setX : ∀ {s : State} (r : Reg) (w : Word), P s → P (setX r w s)
  setNzcv : ∀ {s : State} (a : Nzcv), P s → P (setNzcv a s)
  train : ∀ {s : State} (pc : Word) (taken : Bool) (target : Word), P s →
    P { s with predictor := train s.params s.predictor pc taken target }
  pushEvent : ∀ {s : State} (e : Event), P s → P (pushEvent e s)
  countVector : ∀ {s : State} (v : Nat), P s → P (countVector v s)
  trapEnter : ∀ {s : State} (addr ret : Word) (v : Nat) (i j : Word), s.ic.nest < s.params.maxNest → P s →
    P (trapEnter addr ret v i j s)
  trapReturn : ∀ {s : State}, P s → P (trapReturn s)
  memRead : ∀ {s : State} (va : Word) {n : Nat}, AccessSize n → P s → P (memRead s va n).left
  memWrite : ∀ {s : State} (va : Word) {n : Nat} (val : VWord), AccessSize n → P s → P (memWrite s va n val).left
  applyWrites : ∀ {s : State} (ws : List (Nat × List Byte)), P s →
    P { s with hier := applyWrites s.params ws s.hier }

namespace ExecKeeps

variable {P : State → Prop} {s : State}

theorem countRetired (K : ExecKeeps P) (hp : P s) : P (countRetired s) := K.core hp rfl

theorem countMemOp (K : ExecKeeps P) (hp : P s) : P (countMemOp s) := K.core hp rfl

theorem stopCore (K : ExecKeeps P) (hp : P s) (st : Status) (v : Nat) (a next i0 : Word) :
    P (stopCore st v a next i0 s) :=
  K.pushEvent _ (K.core hp rfl)

theorem deliver (K : ExecKeeps P) (hp : P s) (e : Exc) (ret : Word) : P (deliver e ret s) := by
  have hs := K.pushEvent { kind := .exception, vector := e.vector, pc := ret, info0 := e.info0, info1 := e.info1 }
    (K.countVector e.vector hp)
  obtain ⟨-, h⟩ | ⟨addr, -, hn, h⟩ | ⟨addr, -, -, h⟩ := deliver_cases e ret s <;> rw [h]
  · exact K.stopCore hs ..
  · exact K.trapEnter _ _ _ _ _ (by simpa using hn) hs
  · exact K.stopCore hs ..

theorem envService (K : ExecKeeps P) (hp : P s) (n : Nat) (pc : Word) : P (envService n pc s) := by
  have called {u : State} (hu : P u) : P { u with envCalls := u.envCalls + 1 } := K.core hu rfl
  unfold Machine.envService
  dsimp only
  split
  · exact K.core (K.setX 1 _ (called (K.applyWrites _ hp))) rfl
  · exact K.core (K.setX 1 _ (called hp)) rfl

theorem defaultService (K : ExecKeeps P) (hp : P s) (pc : Word) : P (defaultService pc s) := by
  obtain ⟨-, h⟩ | ⟨-, -, h⟩ | ⟨-, h⟩ := defaultService_cases pc s <;> rw [h]
  · exact K.stopCore (K.core (t := { s with exitCode := getX s 2 }) hp rfl) ..
  · exact K.envService hp _ pc
  · exact K.core (K.setX _ _ hp) rfl

theorem syscallTrap (K : ExecKeeps P) (hp : P s) (pc : Word) : P (syscallTrap pc s) := by
  have hs := K.countVector 128 hp
  obtain ⟨-, h⟩ | ⟨addr, -, hn, h⟩ | ⟨addr, -, -, h⟩ := syscallTrap_cases pc s <;> rw [h]
  · exact K.defaultService hs pc
  · exact K.trapEnter _ _ _ _ _ hn hs
  · exact K.stopCore hs ..

theorem haltCore (K : ExecKeeps P) (hp : P s) (pc : Word) : P (haltCore pc s) := K.stopCore hp ..

theorem systemEvent (K : ExecKeeps P) (hp : P s) (i : Instr) (pc : Word) : P (systemEvent i pc s) := by
  unfold Machine.systemEvent
  split
  · exact K.syscallTrap hp pc
  · exact K.haltCore hp pc
  · exact K.trapReturn hp
  · exact hp

theorem resolveControl (K : ExecKeeps P) (hp : P s) (pc predNext : Word) (taken : Bool) (next : Word) :
    P (resolveControl pc predNext taken next s) :=
  K.core (K.train pc taken next hp) rfl

theorem finishControl (K : ExecKeeps P) (hp : P s) (taken : Bool) (next : Word) : P (finishControl taken next s) :=
  K.core (K.resolveControl hp _ _ taken next) rfl

theorem loadWith (K : ExecKeeps P) (hp : P s) {commit : VWord → State → State}
    (hc : ∀ val u, P u → P (commit val u)) (ea : Word) {n : Nat} (hn : AccessSize n) {t : State}
    (h : loadWith commit ea n s = .next t) : P t := by
  have hm := K.memRead ea hn hp
  unfold Machine.loadWith at h
  split at h <;> rename_i hr <;> rw [hr] at hm <;> cases h
  · exact K.deliver hm _ _
  · exact K.core (K.countRetired (hc _ _ (K.countMemOp hm))) rfl

theorem storeWith (K : ExecKeeps P) (hp : P s) {retire : State → State} (hr : ∀ u, P u → P (retire u))
    (ea : Word) {n : Nat} (hn : AccessSize n) (val : VWord) {t : State}
    (h : storeWith retire ea n val s = .next t) : P t := by
  have hm := K.memWrite ea val hn hp
  unfold Machine.storeWith at h
  split at h <;> rename_i hw <;> rw [hw] at hm <;> cases h
  · exact K.deliver hm _ _
  · exact K.core (hr _ (K.countMemOp hm)) rfl

theorem execHalt (K : ExecKeeps P) (hp : P s) (imm : BitVec 26) {t : State} (h : execHalt imm s = .next t) : P t := by
  unfold Machine.execHalt at h
  split at h <;> cases h
  · exact K.deliver hp _ _
  · exact K.haltCore (K.countRetired hp) _

theorem execIret (K : ExecKeeps P) (hp : P s) (imm : BitVec 26) {t : State} (h : execIret imm s = .next t) : P t := by
  unfold Machine.execIret at h
  split at h <;> cases h
  · exact K.deliver hp _ _
  · exact K.trapReturn (K.countRetired hp)

end ExecKeeps

/-- The shapes the meanings of the sixty instructions have: each is one of the templates of the execution chapters. -/
inductive ExecForm (s : State) : Instr → Host.Outcome State Fault Refusal → Prop where
  | alu {i : Instr} (hi : Claims.isAlu i = true) (rd : Reg) (o : AluOut) : ExecForm s i (.next (finishAlu rd o s))
  | compare {i : Instr} (hi : Claims.isAlu i = true) (f : Nzcv) : ExecForm s i (.next (finishCompare f s))
  | loadImmediate {i : Instr} (rd : Reg) (w : Word) : ExecForm s i (.next (advance (countRetired (setX rd w s))))
  | vector {i : Instr} (vd : VReg) (r : VWord) : ExecForm s i (.next (finishVector vd r s))
  | transfer {i : Instr} (taken : Bool) (next : Word) : ExecForm s i (.next (finishControl taken next s))
  | call {i : Instr} (link next : Word) : ExecForm s i (.next (setX 31 link (finishControl true next s)))
  | load {i : Instr} (rd : Reg) (ea : Word) {n : Nat} (hn : AccessSize n) :
      ExecForm s i (loadWith (fun val => setX rd (loadedWord n val)) ea n s)
  | vectorLoad {i : Instr} (vd : VReg) (ea : Word) :
      ExecForm s i (loadWith (fun val t => countSimd (setV vd val t)) ea 32 s)
  | store {i : Instr} (ea : Word) {n : Nat} (hn : AccessSize n) (val : VWord) :
      ExecForm s i (storeWith countRetired ea n val s)
  | vectorStore {i : Instr} (ea : Word) (val : VWord) : ExecForm s i (storeWith retireSimd ea 32 val s)
  | nop {i : Instr} : ExecForm s i (.next (advance (countRetired s)))
  | syscall {i : Instr} : ExecForm s i (.next (syscallTrap s.pc (countRetired s)))
  | halt (imm : BitVec 26) : ExecForm s (.halt imm) (execHalt imm s)
  | iret (imm : BitVec 26) : ExecForm s (.iret imm) (execIret imm s)

theorem exec_form (i : Instr) (s : State) : ExecForm s i (exec i s) := by
  cases i
  case add | sub | mul | mulh | div | mod | and | or | xor | not | shl | shr | sar | rol | ror => exact .alu rfl _ _
  case cmp | test => exact .compare rfl _
  case ld => exact .loadImmediate _ _
  case vadd | vsub | vmul | vmulh | vdiv | vmod | vand | vor | vxor | vnot | vshl | vshr | vsar | vrol | vror =>
    exact .vector _ _
  case vaddf64 | vsubf64 | vmulf64 | vfmaf64 => exact .vector _ _
  case beq | bne | blt | bge | bltu | bgeu | jmp | ret => exact .transfer _ _
  case call => exact .call _ _
  case lb => exact .load _ _ (.inl rfl)
  case lh => exact .load _ _ (.inr (.inl rfl))
  case lw => exact .load _ _ (.inr (.inr (.inl rfl)))
  case ldd => exact .load _ _ (.inr (.inr (.inr (.inl rfl))))
  case sb => exact .store _ (.inl rfl) _
  case sh => exact .store _ (.inr (.inl rfl)) _
  case sw => exact .store _ (.inr (.inr (.inl rfl))) _
  case st => exact .store _ (.inr (.inr (.inr (.inl rfl)))) _
  case vload => exact .vectorLoad _ _
  case vstore => exact .vectorStore _ _
  case nop => exact .nop
  case syscall => exact .syscall
  case halt => exact .halt _
  case iret => exact .iret _

/-- Whatever the operations keep, every instruction keeps. -/
theorem ExecKeeps.exec {P : State → Prop} (K : ExecKeeps P) {s t : State} (hp : P s) {i : Instr}
    (h : exec i s = .next t) : P t := by
  have form := exec_form i s
  generalize Machine.exec i s = o at form h
  cases form with
  | alu _ rd o => cases h; exact K.core (K.setNzcv _ (K.setX _ _ hp)) rfl
  | compare _ f => cases h; exact K.core (K.setNzcv _ hp) rfl
  | loadImmediate rd w => cases h; exact K.core (K.setX _ _ hp) rfl
  | vector vd r => cases h; exact K.core hp rfl
  | transfer taken next => cases h; exact K.finishControl hp _ _
  | call link next => cases h; exact K.setX _ _ (K.finishControl hp _ _)
  | load rd ea hn => exact K.loadWith hp (fun _ _ hu => K.setX _ _ hu) ea hn h
  | vectorLoad vd ea =>
    refine K.loadWith hp ?_ ea (by simp [AccessSize]) h
    exact fun _ _ hu => K.core hu rfl
  | store ea hn val => exact K.storeWith hp (fun _ => K.countRetired) ea hn val h
  | vectorStore ea val =>
    refine K.storeWith hp ?_ ea (by simp [AccessSize]) val h
    exact fun _ hu => K.core hu rfl
  | nop => cases h; exact K.core hp rfl
  | syscall => cases h; exact K.syscallTrap (K.countRetired hp) _
  | halt imm => exact K.execHalt hp imm h
  | iret imm => exact K.execIret hp imm h

/-! ## The step and the tick -/

/-- `P` is kept by every operation the architectural step or the tick is made of. -/
structure StepKeeps (P : State → Prop) : Prop extends ExecKeeps P where
  fetch : ∀ {s : State} (va : Word), P s → P (fetch s va).left
  unpend : ∀ {s : State} (v : Nat), P s → P (unpend v s)
  untrain : ∀ {s : State} (pc : Word), P s → P { s with predictor := untrain s.params s.predictor pc }
  startTick : ∀ {s : State}, P s → P (startTick s)
  countStall : ∀ {s : State}, P s → P (countStall s)

/-- The size of the access an instruction makes in Memory. -/
theorem accessSize_of_load {i : Instr} {n : Nat} {f : VWord → VWord} (h : memActOf i = .load n f) : AccessSize n := by
  cases i <;> cases h <;> simp [AccessSize]

theorem accessSize_of_store {i : Instr} {n : Nat} (h : memActOf i = .store n) : AccessSize n := by
  cases i <;> cases h <;> simp [AccessSize]

/-- An access in Memory is that of the instruction in EX/MEM. -/
theorem memActIn_eq (e : ExMem) : memActIn e = .pass ∨ ∃ i, memActIn e = memActOf i := by
  unfold memActIn
  split
  · split
    · exact .inr ⟨_, rfl⟩
    · exact .inl rfl
  · exact .inl rfl

namespace StepKeeps

variable {P : State → Prop} {s : State}

theorem flushYounger (K : StepKeeps P) (hp : P s) : P (flushYounger s) := K.core hp rfl

theorem squash (K : StepKeeps P) (hp : P s) : P (squash s) := K.core hp rfl

theorem breakpointStop (K : StepKeeps P) (hp : P s) (a : Word) : P (breakpointStop a s) :=
  K.pushEvent _ (K.core hp rfl)

theorem deliverInterrupt (K : StepKeeps P) (hp : P s) {u : State} {v : Nat} (hd : deliverable u = some v)
    (hic : s.ic = u.ic) (hm : s.params = u.params) (ret : Word) : P (deliverInterrupt v ret s) := by
  have hs := K.countVector v (K.unpend v hp)
  obtain ⟨-, -, hv⟩ := deliverable_eq_some.mp hd
  have hget : ivtGet s v = ivtGet u v := by rw [ivtGet, hic, ivtGet]
  unfold Machine.deliverInterrupt
  obtain hv | ⟨addr, hv, hn⟩ := hv <;> rw [hget, hv]
  · exact K.pushEvent _ hs
  · exact K.trapEnter _ _ _ _ _ (by simpa [hic, hm] using hn) (K.pushEvent _ hs)

theorem commitWb (K : StepKeeps P) (hp : P s) (m : MemWb) : P (commitWb m s) := by
  have hd : P (commitDest m.dest m.result s) := by
    unfold commitDest
    split
    · exact hp
    · exact K.setX _ _ hp
    · exact K.core hp rfl
  have hf : P (commitFlags m.flags (commitDest m.dest m.result s)) := by
    unfold commitFlags
    split
    · exact hd
    · exact K.setNzcv _ hd
  unfold Machine.commitWb
  dsimp only
  split
  · exact K.core hf rfl
  · exact K.core hf rfl

theorem writeback (K : StepKeeps P) (hp : P s) : P (writeback s).1 := by
  have h1 : P (setMemWb none s) := K.core hp rfl
  have h2 := K.flushYounger h1
  unfold Machine.writeback
  dsimp only
  split
  · exact hp
  · split
    · exact K.breakpointStop h2 _
    · exact K.deliver h2 _ _
    · split
      · exact K.deliver h2 _ _
      · split
        · exact K.systemEvent (K.flushYounger (K.commitWb h1 _)) _ _
        · exact K.commitWb h1 _

theorem interruptPoint (K : StepKeeps P) (hp : P s) : P (interruptPoint s) := by
  unfold Machine.interruptPoint
  split
  · exact hp
  · rename_i hd
    split
    · exact K.deliverInterrupt hp hd rfl rfl _
    · exact K.deliverInterrupt (K.flushYounger hp) hd rfl rfl _

theorem memoryStage (K : StepKeeps P) (hp : P s) : P (memoryStage s) := by
  unfold Machine.memoryStage
  split
  · exact hp
  · rename_i e _
    have h1 : P (setExMem none s) := K.core hp rfl
    dsimp only
    obtain ha | ⟨i, ha⟩ := memActIn_eq e <;> rw [ha]
    · exact K.core hp rfl
    · split
      · exact K.core hp rfl
      · rename_i n extend hl
        have hm := K.memRead e.ea (accessSize_of_load hl) h1
        split <;> rename_i hr <;> rw [hr] at hm <;> exact K.core hm rfl
      · rename_i n hl
        have hm := K.memWrite e.ea e.sdata (accessSize_of_store hl) h1
        split <;> rename_i hw <;> rw [hw] at hm <;> exact K.core hm rfl

theorem resolve (K : StepKeeps P) (hp : P s) (i : Instr) (pc predNext : Word) (c : Computed) :
    P (resolve i pc predNext c s) := by
  have hr : P (if isControl i then Machine.resolveControl pc predNext c.taken c.next s
      else resolveOther pc predNext c.next s) := by
    split
    · exact K.resolveControl hp _ _ _ _
    · unfold resolveOther
      split
      · exact K.core (K.untrain pc hp) rfl
      · exact hp
  unfold Machine.resolve redirect
  split
  · exact K.core hr rfl
  · exact hr

theorem executeStage (K : StepKeeps P) (hp : P s) : P (executeStage s) := by
  unfold Machine.executeStage
  split
  · exact hp
  · have h1 : P (setIdEx none s) := K.core hp rfl
    dsimp only
    split
    · exact K.core (K.resolve h1 _ _ _ _) rfl
    · exact K.core hp rfl

theorem decodeStage (K : StepKeeps P) (hp : P s) : P (decodeStage s) := by
  unfold Machine.decodeStage
  split
  · exact hp
  · dsimp only
    split
    · exact K.countStall hp
    · exact K.core hp rfl

theorem fetchStage (K : StepKeeps P) (hp : P s) : P (fetchStage s) := by
  unfold Machine.fetchStage
  split
  · exact hp
  · split
    · exact K.core hp rfl
    · have hf : P (Machine.fetch { s with resume := false } s.pc).left := K.fetch _ (K.core hp rfl)
      split <;> rename_i hr <;> rw [hr] at hf <;> exact K.core hf rfl

/-- Whatever the operations keep, every tick keeps. -/
theorem tick (K : StepKeeps P) (hp : P s) : P (tick s) := by
  have hw := K.writeback (K.startTick hp)
  unfold Machine.tick
  dsimp only
  split
  · exact hp
  · split
    · exact hw
    · refine K.fetchStage (K.decodeStage (K.executeStage (K.memoryStage ?_)))
      split
      · exact hw
      · exact K.interruptPoint hw

theorem execWord (K : StepKeeps P) (hp : P s) (w : IWord) {t : State} (h : execWord w s = .next t) : P t := by
  unfold Machine.execWord at h
  split at h
  · cases h; exact K.deliver hp _ _
  · exact K.exec hp h

theorem fetchAndExec (K : StepKeeps P) (hp : P s) {t : State} (h : fetchAndExec s = .next t) : P t := by
  have hf : P (Machine.fetch { s with resume := false } s.pc).left := K.fetch _ (K.core hp rfl)
  unfold Machine.fetchAndExec at h
  split at h <;> rename_i hr <;> rw [hr] at hf
  · cases h; exact K.deliver hf _ _
  · exact K.execWord hf _ h

theorem interpret (K : StepKeeps P) (hp : P s) {t : State} (h : interpret s = .next t) : P t := by
  have ha : P (askEnvironment s) := K.core hp rfl
  unfold Machine.interpret at h
  split at h
  · cases h; exact K.breakpointStop hp _
  · split at h
    · rename_i hd
      split at h
      · cases h; exact K.deliverInterrupt ha hd rfl rfl _
      · exact K.fetchAndExec ha h
    · exact K.fetchAndExec hp h

theorem finishOldest (K : StepKeeps P) (hp : P s) : P (finishOldest s) := by
  have hw := K.writeback hp
  unfold Machine.finishOldest
  dsimp only
  split
  · exact hw
  · exact K.squash hw

/-- Whatever the operations keep, every architectural step keeps. -/
theorem step (K : StepKeeps P) (hp : P s) {t : State} (h : step s = .next t) : P t := by
  have hs : P (startStep s) := K.core hp rfl
  unfold Machine.step archStep at h
  split at h
  · cases h; exact hp
  · split at h
    · cases h; exact K.finishOldest hs
    · exact K.interpret (K.squash hs) h

end StepKeeps

end Sys2Proof.Machine
end

