-- ==== Sys2Proof/Proofs/ControlOk.lean ====
section
/-! Every operation keeps `ControlOk` (spec/10_state.md R22, R30, R33; 51_host_interface.md R388, R389; 22_caches.md
R145), so every step and tick does. -/

namespace Sys2Proof.Machine

/-! ## The flags word -/

theorem nzcvWord_lt (a : Nzcv) : (nzcvWord a).toNat < 2 ^ 4 := by
  obtain ⟨z, c, v, n⟩ := a
  revert z c v n
  decide

theorem withNzcv_lt (f : Word) (a : Nzcv) : (withNzcv f a).toNat < 64 := by
  have hk : (f &&& 0x30#64).toNat < 2 ^ 6 := by
    rw [BitVec.toNat_and]
    exact Nat.and_lt_two_pow _ (by decide)
  have ha : (nzcvWord a).toNat < 2 ^ 6 := (nzcvWord_lt a).trans (by norm_num)
  rw [withNzcv, BitVec.toNat_or]
  exact Nat.or_lt_two_pow hk ha

theorem flagsOnEntry_lt (f : Word) : (flagsOnEntry f).toNat < 64 := by
  rw [flagsOnEntry, BitVec.toNat_and]
  exact Nat.and_lt_two_pow (n := 6) _ (by decide)

theorem flagBits_lt (f : Word) : (flagBits f).toNat < 64 := by
  rw [flagBits, BitVec.toNat_and]
  exact Nat.and_lt_two_pow (n := 6) _ (by decide)

/-! ## The set of pending vectors -/

/-- More vectors of the mask stay within the mask. -/
theorem outside_or_and {p m : BitVec 256} (h : p &&& ~~~m = 0) (vs : BitVec 256) :
    (p ||| (vs &&& m)) &&& ~~~m = 0 := by
  rw [BitVec.and_or_distrib_right, h, BitVec.and_assoc, BitVec.and_not_self]
  simp

/-- Fewer vectors stay within the mask. -/
theorem outside_and {p m : BitVec 256} (h : p &&& ~~~m = 0) (q : BitVec 256) : (p &&& q) &&& ~~~m = 0 := by
  rw [BitVec.and_assoc, BitVec.and_comm q, ← BitVec.and_assoc, h]
  exact BitVec.zero_and

/-! ## The prefetcher's confidence -/

theorem pfNext_conf (f : Prefetcher) (pa : Word) (h : f.conf ≤ 3) : (pfNext f pa).conf ≤ 3 := by
  unfold pfNext
  dsimp only
  split
  · exact h
  · split
    · exact Nat.min_le_right _ _
    · exact Nat.zero_le _

theorem HierSteps.conf {p : Params} {h k : Hierarchy} (hk : HierSteps p h k) (hc : h.pf.conf ≤ 3) :
    k.pf.conf ≤ 3 := by
  induction hk with
  | refl => exact hc
  | pm _ _ _ ih => exact ih
  | l1i _ _ _ ih => exact ih
  | l1d _ _ _ ih => exact ih
  | l2 _ _ _ ih => exact ih
  | pf pa _ ih => exact pfNext_conf _ pa ih

/-! ## Every operation -/

namespace ControlOk

variable {s t : State}

theorem sameCore (h : ControlOk s) (e : SameCore s t) : ControlOk t := by
  rw [← e]
  exact ⟨h.r0, h.flags, h.nest, h.pending, h.events, h.confidence⟩

theorem setX (h : ControlOk s) (r : Reg) (w : Word) : ControlOk (setX r w s) := by
  have r0 : (Machine.setX r w s).x[0] = 0 := by
    rw [setX_x]
    split
    · exact h.r0
    · rename_i hr
      have hn : r.toNat ≠ 0 := fun e => hr (BitVec.eq_of_toNat_eq e)
      rw [Vector.getElem_set_ne _ _ hn, h.r0]
  exact ⟨r0, by simpa using h.flags, by simpa using h.nest, by simpa using h.pending, by simpa using h.events,
    by simpa using h.confidence⟩

theorem pushEvent (h : ControlOk s) (e : Event) : ControlOk (pushEvent e s) where
  r0 := by simpa using h.r0
  flags := by simpa using h.flags
  nest := by simpa using h.nest
  pending := by simpa using h.pending
  events := by rw [pushEvent_params]; exact pushEvent_events e s h.events
  confidence := by simpa using h.confidence

theorem access : AccessKeeps ControlOk where
  core := sameCore
  mmu _ _ _ h := ⟨h.r0, h.flags, h.nest, h.pending, h.events, h.confidence⟩
  dropTlb _ h := ⟨h.r0, h.flags, h.nest, h.pending, h.events, h.confidence⟩
  pend vs h := ⟨h.r0, h.flags, h.nest, outside_or_and h.pending vs, h.events, h.confidence⟩
  hier hk h := ⟨h.r0, h.flags, h.nest, h.pending, h.events, hk.conf h.confidence⟩

theorem stepKeeps : StepKeeps ControlOk where
  core := sameCore
  setX r w h := h.setX r w
  setNzcv a h := ⟨h.r0, withNzcv_lt _ a, h.nest, h.pending, h.events, h.confidence⟩
  train _ _ _ h := ⟨h.r0, h.flags, h.nest, h.pending, h.events, h.confidence⟩
  pushEvent e h := h.pushEvent e
  countVector _ h := ⟨h.r0, h.flags, h.nest, h.pending, h.events, h.confidence⟩
  trapEnter _ _ _ _ _ hn h := ⟨h.r0, flagsOnEntry_lt _, hn, h.pending, h.events, h.confidence⟩
  trapReturn h := ⟨h.r0, flagBits_lt _, (Nat.sub_le _ 1).trans h.nest, h.pending, h.events, h.confidence⟩
  memRead va _ _ h := access.memRead h va _
  memWrite va _ val _ h := access.memWrite h va _ val
  applyWrites ws h := access.applyWrites h ws
  fetch va h := access.fetch h va
  unpend _ h := ⟨h.r0, h.flags, h.nest, outside_and h.pending _, h.events, h.confidence⟩
  untrain _ h := ⟨h.r0, h.flags, h.nest, h.pending, h.events, h.confidence⟩
  startTick h := ⟨h.r0, h.flags, h.nest, h.pending, h.events, h.confidence⟩
  countStall h := ⟨h.r0, h.flags, h.nest, h.pending, h.events, h.confidence⟩

theorem created (p : Params) : ControlOk (State.created p) where
  r0 := by simp [State.created]
  flags := by simp [State.created]
  nest := Nat.zero_le _
  pending := BitVec.zero_and
  events := Nat.zero_le _
  confidence := Nat.zero_le _

end ControlOk

end Sys2Proof.Machine

namespace Sys2Proof.Claims

open Sys2Proof.Machine

/-- Settles O54: every operation the step and the tick are made of keeps `ControlOk`. -/
theorem stepKeepsControlOk : Obligations.StepKeepsControlOk :=
  fun _ _ h => ⟨ControlOk.stepKeeps.step h, ControlOk.stepKeeps.tick h⟩

end Sys2Proof.Claims
end

