-- ==== Sys2Proof/Proofs/StoresOk.lean ====
section
/-! Every operation keeps the canonical form of every sparse array (log entry 3), so every step and tick does. -/

namespace Sys2Proof.Machine

/-! ## Caches and physical memory -/

/-- Physical memory and the three caches are in canonical form. -/
structure HierCanonical (p : Params) (h : Hierarchy) : Prop where
  pm : Memory.wf h.pm = true
  l1i : Store.wf (fun _ => emptySet (l1iGeom p)) h.l1i = true
  l1d : Store.wf (fun _ => emptySet (l1dGeom p)) h.l1d = true
  l2 : Store.wf (fun _ => emptySet (l2Geom p)) h.l2 = true

theorem wf_setPut (g : Geom) (c : Store (List Way)) (k : Nat) (ws : List Way)
    (h : Store.wf (fun _ => emptySet g) c = true) : Store.wf (fun _ => emptySet g) (setPut g c k ws) = true :=
  Store.wf_set _ c k ws h

theorem HierSteps.canonical {p : Params} {h k : Hierarchy} (hk : HierSteps p h k) (hc : HierCanonical p h) :
    HierCanonical p k := by
  induction hk with
  | refl => exact hc
  | pm a bs _ ih => exact ⟨Memory.wf_writeBytes _ a bs ih.pm, ih.l1i, ih.l1d, ih.l2⟩
  | l1i j ws _ ih => exact ⟨ih.pm, wf_setPut _ _ j ws ih.l1i, ih.l1d, ih.l2⟩
  | l1d j ws _ ih => exact ⟨ih.pm, ih.l1i, wf_setPut _ _ j ws ih.l1d, ih.l2⟩
  | l2 j ws _ ih => exact ⟨ih.pm, ih.l1i, ih.l1d, wf_setPut _ _ j ws ih.l2⟩
  | pf _ _ ih => exact ⟨ih.pm, ih.l1i, ih.l1d, ih.l2⟩

/-! ## The page table and the TLB -/

theorem wf_ptOr {pt : Store Word} (h : Store.wf ptInitAt pt = true) (t i : Nat) (bits : Word) :
    Store.wf ptInitAt (ptOr pt t i bits) = true :=
  Store.wf_set _ _ _ _ h

theorem wf_setAccessed (path : List PathStep) :
    ∀ {pt : Store Word}, Store.wf ptInitAt pt = true → Store.wf ptInitAt (setAccessed pt path) = true := by
  induction path with
  | nil => exact fun h => h
  | cons _ _ ih => exact fun h => ih (wf_ptOr h _ _ _)

theorem wf_setDirty {pt : Store Word} (h : Store.wf ptInitAt pt = true) (path : List PathStep) :
    Store.wf ptInitAt (setDirty pt path) = true := by
  unfold setDirty
  split
  · exact h
  · exact wf_ptOr h _ _ _

theorem wf_tlbSet {tlb : Store TlbEntry} (h : Store.wf (fun _ => tlbInvalid) tlb = true) (k : Nat) (e : TlbEntry) :
    Store.wf (fun _ => tlbInvalid) (tlbSet tlb k e) = true :=
  Store.wf_set _ _ _ _ h

theorem wf_tlbDrop {tlb : Store TlbEntry} (h : Store.wf (fun _ => tlbInvalid) tlb = true) (entries vpn : Nat) :
    Store.wf (fun _ => tlbInvalid) (tlbDrop entries tlb vpn) = true := by
  unfold tlbDrop
  dsimp only
  split
  · exact wf_tlbSet h _ _
  · exact h

/-- The page table and the TLB are in canonical form. -/
structure MmuCanonical (m : Mmu) : Prop where
  pt : Store.wf ptInitAt m.pt = true
  tlb : Store.wf (fun _ => tlbInvalid) m.tlb = true

theorem MmuCanonical.translate {m : Mmu} (h : MmuCanonical m) (entries : Nat) (um : Bool) (va : Word) (acc : Acc) :
    MmuCanonical (translate entries m um va acc).1 := by
  obtain ⟨-, e⟩ | ⟨-, -, -, e⟩ | ⟨-, e⟩ := translate_cases entries m um va acc <;> rw [e]
  · exact h
  · exact h
  · have hd := wf_tlbDrop h.tlb entries (vpnOf va)
    obtain ⟨_, e⟩ | ⟨pfn, path, -, -, -, e⟩ := translateMiss_cases entries m um va acc <;> rw [e]
    · exact ⟨h.pt, hd⟩
    · have ha := wf_setAccessed path h.pt
      constructor <;> dsimp only
      · split
        · exact wf_setDirty ha path
        · exact ha
      · exact wf_tlbSet hd _ _

/-! ## The predictor -/

/-- The counters and the branch target buffer are in canonical form. -/
structure PredictorCanonical (b : Predictor) : Prop where
  bp : Store.wf (fun _ => (0 : BitVec 2)) b.bp = true
  btb : Store.wf (fun _ => btbInvalid) b.btb = true

theorem PredictorCanonical.btbSet {b : Predictor} (h : PredictorCanonical b) (p : Params) (pc : Word) (e : BtbEntry) :
    PredictorCanonical (btbSet p b pc e) :=
  ⟨h.bp, Store.wf_set _ _ _ _ h.btb⟩

theorem PredictorCanonical.train {b : Predictor} (h : PredictorCanonical b) (p : Params) (pc : Word) (taken : Bool)
    (target : Word) : PredictorCanonical (train p b pc taken target) := by
  have counted (c : BitVec 2) :
      PredictorCanonical { b with bp := Store.set (fun _ => 0) b.bp (bpIndex p pc) c } :=
    ⟨Store.wf_set _ _ _ _ h.bp, h.btb⟩
  unfold Machine.train
  dsimp only
  split
  · exact (counted _).btbSet p pc _
  · exact counted _

/-! ## Every operation -/

namespace StoresOk

variable {s t : State}

theorem hierCanonical (h : StoresOk s) : HierCanonical s.params s.hier := ⟨h.pm, h.l1i, h.l1d, h.l2⟩

theorem mmuCanonical (h : StoresOk s) : MmuCanonical s.mmu := ⟨h.pt, h.tlb⟩

theorem predictorCanonical (h : StoresOk s) : PredictorCanonical s.predictor := ⟨h.bp, h.btb⟩

theorem withHier (h : StoresOk s) {k : Hierarchy} (hk : HierCanonical s.params k) : StoresOk { s with hier := k } :=
  ⟨hk.pm, hk.l1i, hk.l1d, hk.l2, h.pt, h.tlb, h.ivt, h.ivtStat, h.trapStk, h.bp, h.btb⟩

theorem withMmu (h : StoresOk s) {m : Mmu} (hm : MmuCanonical m) : StoresOk { s with mmu := m } :=
  ⟨h.pm, h.l1i, h.l1d, h.l2, hm.pt, hm.tlb, h.ivt, h.ivtStat, h.trapStk, h.bp, h.btb⟩

theorem withPredictor (h : StoresOk s) {b : Predictor} (hb : PredictorCanonical b) :
    StoresOk { s with predictor := b } :=
  ⟨h.pm, h.l1i, h.l1d, h.l2, h.pt, h.tlb, h.ivt, h.ivtStat, h.trapStk, hb.bp, hb.btb⟩

/-- Canonical form depends on the parameters and the parts that hold sparse arrays alone. -/
theorem congr (h : StoresOk s) (hp : t.params = s.params) (hh : t.hier = s.hier) (hm : t.mmu = s.mmu)
    (hv : t.ic.ivt = s.ic.ivt) (hs : t.ic.ivtStat = s.ic.ivtStat) (hf : t.ic.trapStk = s.ic.trapStk)
    (hb : t.predictor = s.predictor) : StoresOk t where
  pm := by rw [hh]; exact h.pm
  l1i := by rw [hp, hh]; exact h.l1i
  l1d := by rw [hp, hh]; exact h.l1d
  l2 := by rw [hp, hh]; exact h.l2
  pt := by rw [hm]; exact h.pt
  tlb := by rw [hm]; exact h.tlb
  ivt := by rw [hv]; exact h.ivt
  ivtStat := by rw [hs]; exact h.ivtStat
  trapStk := by rw [hf]; exact h.trapStk
  bp := by rw [hb]; exact h.bp
  btb := by rw [hb]; exact h.btb

theorem sameCore (h : StoresOk s) (e : SameCore s t) : StoresOk t := by
  rw [← e]
  exact h.congr rfl rfl rfl rfl rfl rfl rfl

theorem countVector (h : StoresOk s) (v : Nat) : StoresOk (countVector v s) :=
  ⟨h.pm, h.l1i, h.l1d, h.l2, h.pt, h.tlb, h.ivt, Store.wf_set _ _ _ _ h.ivtStat, h.trapStk, h.bp, h.btb⟩

theorem trapEnter (h : StoresOk s) (addr ret : Word) (v : Nat) (i j : Word) : StoresOk (trapEnter addr ret v i j s) :=
  ⟨h.pm, h.l1i, h.l1d, h.l2, h.pt, h.tlb, h.ivt, h.ivtStat, Store.wf_set _ _ _ _ h.trapStk, h.bp, h.btb⟩

theorem access : AccessKeeps StoresOk where
  core := sameCore
  mmu um va acc h := h.withMmu (h.mmuCanonical.translate _ um va acc)
  dropTlb _ h := h.withMmu ⟨h.pt, wf_tlbDrop h.tlb _ _⟩
  pend _ h := h.congr rfl rfl rfl rfl rfl rfl rfl
  hier hk h := h.withHier (hk.canonical h.hierCanonical)

theorem stepKeeps : StepKeeps StoresOk where
  core := sameCore
  setX _ _ h := h.congr (by simp) (by simp) (by simp) (by simp) (by simp) (by simp) (by simp)
  setNzcv _ h := h.congr rfl rfl rfl rfl rfl rfl rfl
  train pc taken target h := h.withPredictor (h.predictorCanonical.train _ pc taken target)
  pushEvent _ h := h.congr (by simp) (by simp) (by simp) (by simp) (by simp) (by simp) (by simp)
  countVector v h := h.countVector v
  trapEnter addr ret v i j _ h := h.trapEnter addr ret v i j
  trapReturn h := h.congr rfl rfl rfl rfl rfl rfl rfl
  memRead va _ _ h := access.memRead h va _
  memWrite va _ val _ h := access.memWrite h va _ val
  applyWrites ws h := access.applyWrites h ws
  fetch va h := access.fetch h va
  unpend _ h := h.congr rfl rfl rfl rfl rfl rfl rfl
  untrain pc h := h.withPredictor (h.predictorCanonical.btbSet _ pc _)
  startTick h := h.congr rfl rfl rfl rfl rfl rfl rfl
  countStall h := h.congr rfl rfl rfl rfl rfl rfl rfl

theorem created (p : Params) : StoresOk (State.created p) := ⟨rfl, rfl, rfl, rfl, rfl, rfl, rfl, rfl, rfl, rfl, rfl⟩

end StoresOk

end Sys2Proof.Machine

namespace Sys2Proof.Claims

open Sys2Proof.Machine

/-- Settles O56: every operation the step and the tick are made of writes its sparse arrays through `Store.set`. -/
theorem stepKeepsCanonicalForm : Obligations.StepKeepsCanonicalForm :=
  fun _ _ h => ⟨StoresOk.stepKeeps.step h, StoresOk.stepKeeps.tick h⟩

end Sys2Proof.Claims
end

