-- ==== Sys2Proof/Proofs/ModesAndFrames.lean ====
section
/-! What an instruction can do to the flags word and the depth of the trap save stack (spec/10_state.md R30 to R33,
60_exceptions.md R412, R414), and what of the state it leaves alone. -/

namespace Sys2Proof.Machine

/-! ## The mode bits and the arithmetic flags -/

theorem nzcvWord_getLsbD (a : Nzcv) {k : Nat} (hk : 4 ≤ k) : (nzcvWord a).getLsbD k = false :=
  Nat.testBit_lt_two_pow ((nzcvWord_lt a).trans_le (Nat.pow_le_pow_right (by norm_num) hk))

@[simp] theorem flagIE_withNzcv (f : Word) (a : Nzcv) : flagIE (withNzcv f a) = flagIE f := by
  rw [flagIE, withNzcv, BitVec.getLsbD_or, nzcvWord_getLsbD a (by norm_num)]
  simp [flagIE]

@[simp] theorem flagUM_withNzcv (f : Word) (a : Nzcv) : flagUM (withNzcv f a) = flagUM f := by
  rw [flagUM, withNzcv, BitVec.getLsbD_or, nzcvWord_getLsbD a (by norm_num)]
  simp [flagUM]

@[simp] theorem flagIE_flagsOnEntry (f : Word) : flagIE (flagsOnEntry f) = false := by
  simp [flagIE, flagsOnEntry]

@[simp] theorem flagUM_flagsOnEntry (f : Word) : flagUM (flagsOnEntry f) = false := by
  simp [flagUM, flagsOnEntry]

/-- A trap entry keeps Z, C, V, N (60_exceptions.md R412). -/
theorem flagsOnEntry_nzcv (f : Word) : flagsOnEntry f &&& 0xF#64 = f &&& 0xF#64 := by
  rw [flagsOnEntry, BitVec.and_assoc, BitVec.and_self]

/-! ## Flags and depth -/

/-- The flags word and the depth of the trap save stack are those of `s`. -/
structure SameMode (s t : State) : Prop where
  flags : t.flags = s.flags
  nest : t.ic.nest = s.ic.nest

/-- A frame has been pushed, IE and UM cleared (60_exceptions.md R412). -/
structure FramePushed (s t : State) : Prop where
  flags : t.flags = flagsOnEntry s.flags
  nest : t.ic.nest = s.ic.nest + 1

/-- What an operation that returns from no exception and computes no flags can do to the mode. -/
def KeepsModeOrTraps (s t : State) : Prop := SameMode s t ∨ FramePushed s t

theorem SameMode.andThen {s t u : State} (h : SameMode s t) (k : KeepsModeOrTraps t u) : KeepsModeOrTraps s u := by
  obtain k | k := k
  · exact .inl ⟨k.flags.trans h.flags, k.nest.trans h.nest⟩
  · exact .inr ⟨k.flags.trans (congrArg flagsOnEntry h.flags), k.nest.trans (congrArg (· + 1) h.nest)⟩

/-- A memory access changes neither. -/
theorem SameMode.access (s : State) : AccessKeeps (SameMode s) where
  core h e := by rw [← e]; exact ⟨h.flags, h.nest⟩
  mmu _ _ _ h := ⟨h.flags, h.nest⟩
  dropTlb _ h := ⟨h.flags, h.nest⟩
  pend _ h := ⟨h.flags, h.nest⟩
  hier _ h := ⟨h.flags, h.nest⟩

theorem deliver_mode (e : Exc) (ret : Word) (s : State) : KeepsModeOrTraps s (deliver e ret s) := by
  obtain ⟨-, h⟩ | ⟨_, -, -, h⟩ | ⟨_, -, -, h⟩ := deliver_cases e ret s <;> rw [h]
  · exact .inl ⟨by simp, by simp⟩
  · exact .inr ⟨by simp, by simp⟩
  · exact .inl ⟨by simp, by simp⟩

theorem defaultService_mode (pc : Word) (s : State) : SameMode s (defaultService pc s) := by
  obtain ⟨-, h⟩ | ⟨-, -, h⟩ | ⟨-, h⟩ := defaultService_cases pc s <;> rw [h]
  · exact ⟨by simp, by simp⟩
  · exact ⟨by simp [envService], by simp [envService]⟩
  · exact ⟨by simp, by simp⟩

theorem syscallTrap_mode (pc : Word) (s : State) : KeepsModeOrTraps s (syscallTrap pc s) := by
  obtain ⟨-, h⟩ | ⟨_, -, -, h⟩ | ⟨_, -, -, h⟩ := syscallTrap_cases pc s <;> rw [h]
  · have hs : SameMode s (countVector 128 s) := ⟨rfl, rfl⟩
    exact hs.andThen (.inl (defaultService_mode pc _))
  · exact .inr ⟨by simp, by simp⟩
  · exact .inl ⟨by simp, by simp⟩

theorem loadWith_mode {commit : VWord → State → State} {ea : Word} {n : Nat} {s t : State}
    (h : loadWith commit ea n s = .next t) (hc : ∀ val u, SameMode u (commit val u)) : KeepsModeOrTraps s t := by
  have hm := (SameMode.access s).memRead ⟨rfl, rfl⟩ ea n
  unfold loadWith at h
  split at h <;> rename_i hr <;> rw [hr] at hm <;> cases h
  · exact hm.andThen (deliver_mode _ _ _)
  · have hu := hc ‹_› (countMemOp ‹_›)
    exact hm.andThen (.inl ⟨hu.flags, hu.nest⟩)

theorem storeWith_mode {retire : State → State} {ea : Word} {n : Nat} {val : VWord} {s t : State}
    (h : storeWith retire ea n val s = .next t) (hr : ∀ u, SameMode u (retire u)) : KeepsModeOrTraps s t := by
  have hm := (SameMode.access s).memWrite ⟨rfl, rfl⟩ ea n val
  unfold storeWith at h
  split at h <;> rename_i hw <;> rw [hw] at hm <;> cases h
  · exact hm.andThen (deliver_mode _ _ _)
  · have hu := hr (countMemOp ‹_›)
    exact hm.andThen (.inl ⟨hu.flags, hu.nest⟩)

/-- IRET that raises nothing runs in supervisor mode (43_system.md R277). -/
theorem userMode_of_retireExc_iret {imm : BitVec 26} {s : State} (h : retireExc (.iret imm) s = none) :
    flagUM s.flags = false := by
  cases hu : flagUM s.flags with
  | false => rfl
  | true => simp [retireExc, privileged, userMode, hu] at h

/-- What an instruction can do to the flags word and the depth: keep both, push a frame, set the arithmetic flags if it is
an ALU instruction, or anything if it is IRET in supervisor mode. -/
theorem exec_mode_cases {i : Instr} {s t : State} (h : exec i s = .next t) :
    KeepsModeOrTraps s t ∨
    (Claims.isAlu i = true ∧ (∃ a, t.flags = withNzcv s.flags a) ∧ t.ic.nest = s.ic.nest) ∨
    ((∃ imm, i = .iret imm) ∧ flagUM s.flags = false) := by
  have form := exec_form i s
  generalize exec i s = o at form h
  cases form with
  | alu hi rd o => cases h; exact .inr (.inl ⟨hi, ⟨o.nzcv, by simp [finishAlu]⟩, by simp [finishAlu]⟩)
  | compare hi f => cases h; exact .inr (.inl ⟨hi, ⟨f, rfl⟩, rfl⟩)
  | loadImmediate rd w => cases h; exact .inl (.inl ⟨by simp, by simp⟩)
  | vector vd r => cases h; exact .inl (.inl ⟨rfl, rfl⟩)
  | transfer taken next => cases h; exact .inl (.inl ⟨rfl, rfl⟩)
  | call link next => cases h; exact .inl (.inl ⟨rfl, rfl⟩)
  | load rd ea hn => exact .inl (loadWith_mode h fun _ _ => ⟨by simp, by simp⟩)
  | vectorLoad vd ea => exact .inl (loadWith_mode h fun _ _ => ⟨rfl, rfl⟩)
  | store ea hn val => exact .inl (storeWith_mode h fun _ => ⟨rfl, rfl⟩)
  | vectorStore ea val => exact .inl (storeWith_mode h fun _ => ⟨rfl, rfl⟩)
  | nop => cases h; exact .inl (.inl ⟨rfl, rfl⟩)
  | syscall =>
    cases h
    have hs : SameMode s (countRetired s) := ⟨rfl, rfl⟩
    exact .inl (hs.andThen (syscallTrap_mode _ _))
  | halt imm =>
    unfold execHalt at h
    split at h <;> cases h
    · exact .inl (deliver_mode _ _ _)
    · exact .inl (.inl ⟨by simp [haltCore], by simp [haltCore]⟩)
  | iret imm =>
    unfold execIret at h
    split at h <;> cases h
    · exact .inl (deliver_mode _ _ _)
    · exact .inr (.inr ⟨⟨imm, rfl⟩, userMode_of_retireExc_iret ‹_›⟩)

/-! ## What every instruction leaves alone -/

/-- `SP`, the vector table, the breakpoints, the device table, the parameters, `PERF[1]` and `PERF[5]` are those of
`s`. -/
structure InstrFrame (s t : State) : Prop where
  sp : t.sp = s.sp
  ivt : t.ic.ivt = s.ic.ivt
  bkpt : t.bkpt = s.bkpt
  mmioTable : t.mmioTable = s.mmioTable
  params : t.params = s.params
  cycles : t.perf.cycles = s.perf.cycles
  stalls : t.perf.stalls = s.perf.stalls

namespace InstrFrame

variable {s t u : State}

theorem refl (s : State) : InstrFrame s s := ⟨rfl, rfl, rfl, rfl, rfl, rfl, rfl⟩

theorem trans (h : InstrFrame s t) (k : InstrFrame t u) : InstrFrame s u :=
  ⟨k.sp.trans h.sp, k.ivt.trans h.ivt, k.bkpt.trans h.bkpt, k.mmioTable.trans h.mmioTable, k.params.trans h.params,
    k.cycles.trans h.cycles, k.stalls.trans h.stalls⟩

theorem sameCore (h : InstrFrame s t) (e : SameCore t u) : InstrFrame s u := by
  rw [← e]
  exact ⟨h.sp, h.ivt, h.bkpt, h.mmioTable, h.params, h.cycles, h.stalls⟩

theorem access (s : State) : AccessKeeps (InstrFrame s) where
  core := sameCore
  mmu _ _ _ h := h.trans ⟨rfl, rfl, rfl, rfl, rfl, rfl, rfl⟩
  dropTlb _ h := h.trans ⟨rfl, rfl, rfl, rfl, rfl, rfl, rfl⟩
  pend _ h := h.trans ⟨rfl, rfl, rfl, rfl, rfl, rfl, rfl⟩
  hier _ h := h.trans ⟨rfl, rfl, rfl, rfl, rfl, rfl, rfl⟩

theorem execKeeps (s : State) : ExecKeeps (InstrFrame s) where
  core := sameCore
  setX _ _ h := h.trans ⟨by simp, by simp, by simp, by simp, by simp, by simp, by simp⟩
  setNzcv _ h := h.trans ⟨rfl, rfl, rfl, rfl, rfl, rfl, rfl⟩
  train _ _ _ h := h.trans ⟨rfl, rfl, rfl, rfl, rfl, rfl, rfl⟩
  pushEvent _ h := h.trans ⟨by simp, by simp, by simp, by simp, by simp, by simp, by simp⟩
  countVector _ h := h.trans ⟨rfl, rfl, rfl, rfl, rfl, rfl, rfl⟩
  trapEnter _ _ _ _ _ _ h := h.trans ⟨rfl, rfl, rfl, rfl, rfl, rfl, rfl⟩
  trapReturn h := h.trans ⟨rfl, rfl, rfl, rfl, rfl, rfl, rfl⟩
  memRead va _ _ h := (access s).memRead h va _
  memWrite va _ val _ h := (access s).memWrite h va _ val
  applyWrites ws h := (access s).applyWrites h ws

end InstrFrame

/-! ## The machine after creation -/

theorem Params.default_valid : Params.default.valid = true := by decide

theorem MemoryOk.created {p : Params} (hp : p.valid = true) : MemoryOk (State.created p) :=
  ⟨hp, HierOk.created p, TlbOk.nil _ _⟩

end Sys2Proof.Machine

namespace Sys2Proof.Claims

open Sys2Proof.Machine

/-- Settles O39: of the four things an instruction can do to the mode, only IRET sets IE or UM or lowers the depth, and
only a pushed frame clears UM. -/
theorem modeChangesOnlyByTrapAndReturn : Obligations.ModeChangesOnlyByTrapAndReturn := by
  intro i s t h
  obtain (k | k) | ⟨-, ⟨a, hf⟩, hn⟩ | ⟨hi, hu⟩ := exec_mode_cases h
  · rw [k.flags, k.nest]
    exact ⟨by simp, by simp +contextual⟩
  · rw [k.flags, k.nest]
    exact ⟨by simp, fun _ _ => rfl⟩
  · rw [hf, hn]
    exact ⟨by simp, by simp +contextual⟩
  · exact ⟨fun _ => hi, by simp [hu]⟩

/-- Settles O40: the frame every operation of an instruction keeps, and the flags by the cases of `exec_mode_cases`. -/
theorem whatNoInstructionChanges : Obligations.WhatNoInstructionChanges := by
  intro i s t h
  have frame : InstrFrame s t := (InstrFrame.execKeeps s).exec (.refl s) h
  refine ⟨frame.sp, frame.ivt, frame.bkpt, frame.mmioTable, frame.params, frame.cycles, frame.stalls, ?_⟩
  intro notAlu notIret
  obtain (k | k) | ⟨hi, -, -⟩ | ⟨⟨imm, hi⟩, -⟩ := exec_mode_cases h
  · rw [k.flags]
  · rw [k.flags, flagsOnEntry_nzcv]
  · simp [hi] at notAlu
  · exact absurd hi (notIret imm)

/-- Settles O57: a created machine meets the invariants, and the default parameters are sound. -/
theorem resetIsSound : Obligations.ResetIsSound :=
  ⟨ControlOk.created _, .created Params.default_valid, StoresOk.created _, rfl⟩

end Sys2Proof.Claims
end

