-- ==== Sys2Proof/Proofs/LoadStoreForms.lean ====
section
/-! The ten loads and stores by the two templates of spec/41_loadstore.md (`loadWith`, `storeWith`), and what a misaligned
one does (20_memory.md R67). -/

namespace Sys2Proof.Claims

open Sys2Proof.Machine

/-! ## The meaning of each form -/

section
variable {s : State} {i : Instr} {acc : Acc} {n : Nat} {rd rs1 : Reg} {imm : BitVec 16}

theorem exec_scalarLoad (h : ScalarLoad rd rs1 imm i n) (s : State) :
    exec i s = loadWith (fun val => setX rd (loadedWord n val)) (address s rs1 imm) n s := by
  cases h <;> rfl

theorem exec_scalarStore (h : ScalarStore rd rs1 imm i n) (s : State) :
    exec i s = storeWith countRetired (address s rs1 imm) n (storedValue (getX s rd)) s := by
  cases h <;> rfl

theorem exec_vload (vd : VReg) (rs1 : Reg) (imm : BitVec 16) (s : State) :
    exec (.vload vd rs1 imm) s = loadWith (fun val t => countSimd (setV vd val t)) (address s rs1 imm) 32 s := rfl

theorem exec_vstore (vs : VReg) (rs1 : Reg) (imm : BitVec 16) (s : State) :
    exec (.vstore vs rs1 imm) s = storeWith retireSimd (address s rs1 imm) 32 (getV s vs) s := rfl

/-- A load or store is a scalar load, VLOAD, a scalar store or VSTORE. -/
theorem AccessForm.cases (h : AccessForm i acc n rs1 imm) :
    (acc = .read ∧ ∃ rd, ScalarLoad rd rs1 imm i n) ∨ (acc = .read ∧ n = 32 ∧ ∃ vd, i = .vload vd rs1 imm) ∨
    (acc = .write ∧ ∃ rd, ScalarStore rd rs1 imm i n) ∨ (acc = .write ∧ n = 32 ∧ ∃ vd, i = .vstore vd rs1 imm) := by
  cases h with
  | lb rd => exact .inl ⟨rfl, rd, .lb⟩
  | lh rd => exact .inl ⟨rfl, rd, .lh⟩
  | lw rd => exact .inl ⟨rfl, rd, .lw⟩
  | ldd rd => exact .inl ⟨rfl, rd, .ldd⟩
  | vload vd => exact .inr (.inl ⟨rfl, rfl, vd, rfl⟩)
  | sb rd => exact .inr (.inr (.inl ⟨rfl, rd, .sb⟩))
  | sh rd => exact .inr (.inr (.inl ⟨rfl, rd, .sh⟩))
  | sw rd => exact .inr (.inr (.inl ⟨rfl, rd, .sw⟩))
  | st rd => exact .inr (.inr (.inl ⟨rfl, rd, .st⟩))
  | vstore vd => exact .inr (.inr (.inr ⟨rfl, rfl, vd, rfl⟩))

/-- A load runs `loadWith` and a store `storeWith`, at the address the instruction names and with its width. -/
theorem AccessForm.exec_cases (h : AccessForm i acc n rs1 imm) (s : State) :
    (acc = .read ∧ ∃ commit, exec i s = loadWith commit (address s rs1 imm) n s) ∨
    (acc = .write ∧ ∃ retire val, exec i s = storeWith retire (address s rs1 imm) n val s) := by
  obtain ⟨ha, rd, hi⟩ | ⟨ha, rfl, vd, rfl⟩ | ⟨ha, rd, hi⟩ | ⟨ha, rfl, vd, rfl⟩ := h.cases
  · exact .inl ⟨ha, _, exec_scalarLoad hi s⟩
  · exact .inl ⟨ha, _, exec_vload vd rs1 imm s⟩
  · exact .inr ⟨ha, _, _, exec_scalarStore hi s⟩
  · exact .inr ⟨ha, _, _, exec_vstore vd rs1 imm s⟩

theorem ScalarLoad.width (h : ScalarLoad rd rs1 imm i n) : n = 1 ∨ n = 2 ∨ n = 4 ∨ n = 8 := by
  cases h <;> decide

theorem ScalarStore.width (h : ScalarStore rd rs1 imm i n) : n = 1 ∨ n = 2 ∨ n = 4 ∨ n = 8 := by
  cases h <;> decide

theorem ScalarLoad.accessForm (h : ScalarLoad rd rs1 imm i n) : AccessForm i .read n rs1 imm := by
  cases h <;> constructor

theorem ScalarStore.accessForm (h : ScalarStore rd rs1 imm i n) : AccessForm i .write n rs1 imm := by
  cases h <;> constructor

/-- The instruction determines its kind of access and its width. -/
theorem AccessForm.unique {acc' : Acc} {n' : Nat} {rs1' : Reg} {imm' : BitVec 16} (h : AccessForm i acc n rs1 imm)
    (h' : AccessForm i acc' n' rs1' imm') : acc' = acc ∧ n' = n := by
  cases h <;> cases h' <;> exact ⟨rfl, rfl⟩

theorem ScalarLoad.rd_unique {rd' : Reg} (h : ScalarLoad rd rs1 imm i n) (h' : ScalarLoad rd' rs1 imm i n) :
    rd' = rd := by
  cases h <;> cases h' <;> rfl

theorem ScalarLoad.ne_vload (h : ScalarLoad rd rs1 imm i n) (vd : VReg) : i ≠ .vload vd rs1 imm := by
  cases h <;> nofun

/-! ## Exceptions of the access -/

theorem loadWith_raised {commit : VWord → State → State} {ea : Word} {e : Exc} {t : State}
    (h : memRead s ea n = .raised e t) : loadWith commit ea n s = .next (deliver e s.pc t) := by
  rw [loadWith, h]

theorem storeWith_raised {retire : State → State} {ea : Word} {val : VWord} {e : Exc} {t : State}
    (h : memWrite s ea n val = .raised e t) : storeWith retire ea n val s = .next (deliver e s.pc t) := by
  rw [storeWith, h]

theorem memRead_misaligned {va : Word} (h : va.toNat % n ≠ 0) :
    memRead s va n = .raised (alignmentFault va .read n) s := if_pos h

theorem memWrite_misaligned {va : Word} {val : VWord} (h : va.toNat % n ≠ 0) :
    memWrite s va n val = .raised (alignmentFault va .write n) s := if_pos h

/-- The information word of AlignmentFault for a load or store (60_exceptions.md R400). -/
theorem alignmentFault_eq (va : Word) (n : Nat) (h : acc = .read ∨ acc = .write) :
    alignmentFault va acc n = { vector := 17, info0 := va,
                                info1 := BitVec.ofNat 64 ((if acc = .write then 2 else 1) + 256 * n) } := by
  obtain rfl | rfl := h <;> simp [alignmentFault, accCode, Nat.mul_comm]

end

/-- Settles O20: alignment is checked before translation, so the exception is delivered from the state itself. -/
theorem misalignedAccessFaults : Obligations.MisalignedAccessFaults := by
  intro s i acc n rs1 imm form hm
  obtain ⟨rfl, commit, h⟩ | ⟨rfl, retire, val, h⟩ := form.exec_cases s
  · rw [Gives, h, loadWith_raised (memRead_misaligned hm), alignmentFault_eq _ _ (.inl rfl)]
  · rw [Gives, h, storeWith_raised (memWrite_misaligned hm), alignmentFault_eq _ _ (.inr rfl)]

end Sys2Proof.Claims
end

