-- ==== Sys2Proof/Proofs/FetchRam.lean ====
section
/-! A fetch from RAM: its word is the flat memory's where no cache above L2 hides it (spec/20_memory.md R73, R85). -/

namespace Sys2Proof.Machine

/-- With nothing dirty in L1D a load sees what the levels below L1 hold: a clean line equals the copy below it. -/
theorem HierOk.flatLine_of_not_dirty {p : Params} {h : Hierarchy} (hk : HierOk p h) {ln : Nat}
    (hd : ∀ d, lineInfo (l1dGeom p) h.l1d ln ≠ some (true, d)) : flatLine p h ln = belowL1 p h ln := by
  rw [flatLine]
  cases hl : lineInfo (l1dGeom p) h.l1d ln with
  | none => rfl
  | some bd =>
    obtain ⟨dirty, d⟩ := bd
    cases dirty with
    | true => exact absurd hl (hd d)
    | false => exact hk.l1dClean ln d hl

/-- The value of bytes inside one line of the flat memory. -/
theorem lineValue_flatLine (p : Params) (h : Hierarchy) {pa n : Nat} (hn : pa % 64 + n ≤ 64) :
    lineValue (flatLine p h (pa / 64)) (pa % 64) n = ofBytes (fun j => flatByte p h (pa + j)) n := by
  refine ofBytes_congr _ _ _ fun j hj => ?_
  have hline : (pa + j) / 64 = pa / 64 := by omega
  have hoff : (pa + j) % 64 = pa % 64 + j := by omega
  rw [flatByte_eq, hline, hoff]

/-- Four bytes make the little-endian instruction word (20_memory.md R65). -/
theorem setWidth_ofBytes_four (f : Nat → Byte) :
    (ofBytes f 4).setWidth 32 = wordOfBytes (f 0) (f 1) (f 2) (f 3) := by
  apply BitVec.eq_of_getLsbD_eq
  intro i hi
  rw [BitVec.getLsbD_setWidth, getLsbD_ofBytes f 4 (by norm_num), wordOfBytes]
  simp only [BitVec.getLsbD_append, Nat.reduceMul, hi, decide_true, Bool.true_and]
  split_ifs
  · rw [show i / 8 = 0 by omega, show i % 8 = i by omega]
  · rw [show i / 8 = 1 by omega, show i % 8 = i - 8 by omega]
  · rw [show i / 8 = 2 by omega, show i % 8 = i - 8 - 8 by omega]
  · rw [show i / 8 = 3 by omega, show i % 8 = i - 8 - 8 - 8 by omega]

/-- A fetch that misses L1I returns the word of the flat memory, if L1D holds nothing dirty of its line. -/
theorem ramFetch_word {s : State} (hp : s.params.valid = true) (hk : HierOk s.params s.hier) {pa : Nat}
    (hline : pa % 64 + 4 ≤ 64) (hm : pa + 4 ≤ s.params.memSize)
    (hi : lineInfo (l1iGeom s.params) s.hier.l1i (pa / 64) = none)
    (hd : ∀ d, lineInfo (l1dGeom s.params) s.hier.l1d (pa / 64) ≠ some (true, d)) :
    (ramFetch s pa).1 = wordOfBytes (s.flat pa) (s.flat (pa + 1)) (s.flat (pa + 2)) (s.flat (pa + 3)) := by
  obtain ⟨-, -, -, -, hdata⟩ := l1iAccess_ok hp hk (pa / 64) (line_in_ram hp (by omega))
  calc (ramFetch s pa).1
      = (lineValue (l1iAccess s.params s.hier (pa / 64)).data (pa % 64) 4).setWidth 32 := rfl
    _ = (lineValue (flatLine s.params s.hier (pa / 64)) (pa % 64) 4).setWidth 32 := by
        rw [hdata hi, hk.flatLine_of_not_dirty hd]
    _ = (ofBytes (fun j => s.flat (pa + j)) 4).setWidth 32 := by rw [lineValue_flatLine _ _ hline]; rfl
    _ = wordOfBytes (s.flat pa) (s.flat (pa + 1)) (s.flat (pa + 2)) (s.flat (pa + 3)) := setWidth_ofBytes_four _

end Sys2Proof.Machine

namespace Sys2Proof.Claims

open Sys2Proof.Machine

theorem ToRam.fetch_eq {s t : State} {va : Word} {pa : Nat} (h : ToRam s va .fetch 4 pa t) :
    fetch s va = .done (ramFetch t pa).1 (ramFetch t pa).2 := by
  obtain ⟨ha, ht, ho, hi⟩ := h
  have hp : t.params = s.params := by rw [(translateS_done ht).2]
  simp [fetch, ha, ht, hp, ho, Nat.not_lt.mpr hi]

/-- Settles O6: translation leaves hierarchy and parameters, and the fetch fills L1I from the levels below L1, which hold
the flat memory's line. -/
theorem fetchReadsMemory : Obligations.FetchReadsMemory := by
  intro s t va pa hok hram hi hd
  obtain ⟨htok, hoff⟩ := hok.translateS_done hram.translated
  have hline : pa % 64 + 4 ≤ 64 := in_line hram.aligned hoff (by norm_num)
  have hin := hram.inside
  rw [hram.fetch_eq]
  obtain ⟨-, rfl⟩ := translateS_done hram.translated
  exact ⟨_, congrArg (Access.done · _) (ramFetch_word htok.params htok.hier hline hin hi hd),
    (ramFetch_ok htok.params htok.hier hin).2, htok.ramFetch hin⟩

end Sys2Proof.Claims
end

