-- ==== Sys2Proof/Proofs/DeviceWindow.lean ====
section
/-! Loads and stores to the device window (spec/20_memory.md R75 to R77): the exact next state of each, whatever the
device answers. -/

namespace Sys2Proof.Machine

/-! ## What the window answers -/

/-- The state after `calls` calls of the environment in which a device triggered the vectors `vs`. -/
def deviceCalled (vs : BitVec 256) (calls : Nat) (s : State) : State :=
  pend vs { s with envCalls := s.envCalls + calls }

/-- No call, and no vector triggered, is no change. -/
@[simp] theorem deviceCalled_zero (s : State) : deviceCalled 0 0 s = s := by simp [deviceCalled, pend]

theorem findRange_eq_none {table : List MmioRange} {pa : Nat} (h : ∀ r ∈ table, pa < r.base ∨ r.base + r.size ≤ pa) :
    findRange table pa = none := by
  rw [findRange, List.find?_eq_none]
  intro r hr
  have := h r hr
  simp only [Bool.and_eq_true, decide_eq_true_eq]
  omega

section
variable {s : State} {pa n : Nat} {r : MmioRange}

theorem mmioRead_unregistered (h : findRange s.mmioTable pa = none) : mmioRead s pa n = (0, deviceCalled 0 0 s) := by
  rw [mmioRead, h, deviceCalled_zero]

theorem mmioWrite_unregistered (h : findRange s.mmioTable pa = none) (val : VWord) :
    mmioWrite s pa n val = deviceCalled 0 0 s := by
  rw [mmioWrite, h, deviceCalled_zero]

theorem mmioRead_registered (h : findRange s.mmioTable pa = some r) :
    mmioRead s pa n = (lowBytes n (Config.mmioRead r.handler s.envCalls (pa - r.base) n).1,
      deviceCalled (Config.mmioRead r.handler s.envCalls (pa - r.base) n).2 1 s) := by
  rw [mmioRead, h, deviceCalled]

theorem mmioWrite_registered (h : findRange s.mmioTable pa = some r) (val : VWord) :
    mmioWrite s pa n val =
      deviceCalled (Config.mmioWrite r.handler s.envCalls (pa - r.base) n (lowBytes n val)) 1 s := by
  rw [mmioWrite, h, deviceCalled]

end

/-! ## The bytes handed over -/

theorem getLsbD_lowBytes {n : Nat} (hn : n ≤ 32) (val : VWord) (i : Nat) :
    (lowBytes n val).getLsbD i = (decide (i < 8 * n) && val.getLsbD i) := by
  have hi : i % 8 < 8 := Nat.mod_lt _ (by norm_num)
  rw [lowBytes, getLsbD_ofBytes _ n hn, getLsbD_byteOf, Nat.div_add_mod]
  simp [hi]

/-- All 32 bytes of a vector are handed over. -/
theorem lowBytes_vector (val : VWord) : lowBytes 32 val = val := ofBytes_byteOf val

/-- A scalar load uses the bytes it read, and no others. -/
theorem loadedWord_lowBytes {n : Nat} (hn : n ≤ 32) (val : VWord) : loadedWord n (lowBytes n val) = loadedWord n val := by
  have low : (lowBytes n val).setWidth (8 * n) = val.setWidth (8 * n) := by
    apply BitVec.eq_of_getLsbD_eq
    intro i hi
    simp [getLsbD_lowBytes hn, hi]
  rw [loadedWord, loadedWord, low]

@[simp] theorem loadedWord_zero (n : Nat) : loadedWord n 0 = 0 := by simp [loadedWord, BitVec.signExtend]

/-- A scalar store hands over the low bytes of the register. -/
theorem lowBytes_storedValue {n : Nat} (hn : n ≤ 8) (w : Word) :
    lowBytes n (storedValue w) = (w.setWidth (8 * n)).setWidth 256 := by
  apply BitVec.eq_of_getLsbD_eq
  intro i hi
  rw [getLsbD_lowBytes (by omega)]
  simp [storedValue, BitVec.getLsbD_setWidth, hi]

/-! ## The state after the access -/

/-- The state after a load or store to the window that retires with the vectors `vs` triggered, `calls` calls made and
`simd` vector instructions counted, and leaves these registers and this translation. -/
def deviceRetired (s : State) (vs : BitVec 256) (calls : Nat) (simd : Word) (x : Vector Word 32) (v : Vector VWord 16)
    (mmu : Mmu) : State :=
  { s with
    x := x, v := v, mmu := mmu, pc := s.pc + 4,
    ic := { s.ic with pending := s.ic.pending ||| (vs &&& deviceMask) },
    envCalls := s.envCalls + calls,
    perf := { s.perf with
      retired := s.perf.retired + 1, memOps := s.perf.memOps + 1, simdOps := s.perf.simdOps + simd } }

end Sys2Proof.Machine

namespace Sys2Proof.Claims

open Sys2Proof.Machine

section
variable {s t : State} {va : Word} {i : Instr} {n pa : Nat} {rd rs1 : Reg} {imm : BitVec 16} {vs : BitVec 256}
  {calls : Nat} {val : VWord}

/-! ## The next state of each form -/

/-- Translation leaves all but the page table and the TLB. -/
theorem ToDevice.translated_state {acc : Acc} (h : ToDevice s va acc n pa t) : ∃ mmu, t = { s with mmu := mmu } :=
  ⟨_, (translateS_done h.translated).2⟩

theorem ToDevice.memRead_eq (h : ToDevice s va .read n pa t) :
    memRead s va n = .done (mmioRead t pa n).1 (mmioRead t pa n).2 := by
  obtain ⟨ha, ht, hi⟩ := h
  have hp : t.params = s.params := by rw [(translateS_done ht).2]
  simp [memRead, ha, ht, hp, hi]

theorem ToDevice.memWrite_eq (h : ToDevice s va .write n pa t) (val : VWord) :
    memWrite s va n val = .done () (dropTlb va (mmioWrite t pa n val)) := by
  obtain ⟨ha, ht, hi⟩ := h
  have hp : t.params = s.params := by rw [(translateS_done ht).2]
  simp [memWrite, ha, ht, hp, hi]

theorem exec_scalarLoad_device (hi : ScalarLoad rd rs1 imm i n) (h : ToDevice s (address s rs1 imm) .read n pa t)
    (hr : mmioRead t pa n = (val, deviceCalled vs calls t)) :
    exec i s = .next (deviceRetired s vs calls 0 (putX s.x rd (loadedWord n val)) s.v t.mmu) := by
  rw [exec_scalarLoad hi, loadWith, h.memRead_eq, hr]
  obtain ⟨mmu, rfl⟩ := h.translated_state
  simp [deviceRetired, setX_eq, putX, deviceCalled, pend, advance, setPc, countRetired, countMemOp]

theorem exec_vload_device {vd : VReg} (h : ToDevice s (address s rs1 imm) .read 32 pa t)
    (hr : mmioRead t pa 32 = (val, deviceCalled vs calls t)) :
    exec (.vload vd rs1 imm) s = .next (deviceRetired s vs calls 1 s.x (s.v.set vd.toNat val) t.mmu) := by
  rw [exec_vload, loadWith, h.memRead_eq, hr]
  obtain ⟨mmu, rfl⟩ := h.translated_state
  rfl

theorem exec_scalarStore_device (hi : ScalarStore rd rs1 imm i n) (h : ToDevice s (address s rs1 imm) .write n pa t)
    (hw : mmioWrite t pa n (storedValue (getX s rd)) = deviceCalled vs calls t) :
    exec i s = .next (deviceRetired s vs calls 0 s.x s.v (dropTlb (address s rs1 imm) t).mmu) := by
  rw [exec_scalarStore hi, storeWith, h.memWrite_eq, hw]
  obtain ⟨mmu, rfl⟩ := h.translated_state
  simp [deviceRetired, deviceCalled, pend, advance, setPc, countRetired, countMemOp, dropTlb]

theorem exec_vstore_device {vd : VReg} (h : ToDevice s (address s rs1 imm) .write 32 pa t)
    (hw : mmioWrite t pa 32 (getV s vd) = deviceCalled vs calls t) :
    exec (.vstore vd rs1 imm) s = .next (deviceRetired s vs calls 1 s.x s.v (dropTlb (address s rs1 imm) t).mmu) := by
  rw [exec_vstore, storeWith, h.memWrite_eq, hw]
  obtain ⟨mmu, rfl⟩ := h.translated_state
  simp [deviceRetired, deviceCalled, pend, advance, setPc, retireSimd, countRetired, countSimd, countMemOp, dropTlb]

/-! ## The frame -/

theorem deviceAccessed_deviceRetired (s : State) (vs : BitVec 256) (calls : Nat) (simd : Word) (x : Vector Word 32)
    (v : Vector VWord 16) (mmu : Mmu) : DeviceAccessed s (deviceRetired s vs calls simd x v mmu) vs calls simd where
  hier := rfl
  flags := rfl
  pc := rfl
  ic := rfl
  calls := rfl
  counted := ⟨rfl, rfl, rfl, rfl, rfl, rfl⟩
  l1Misses := rfl
  l2Misses := rfl
  rest := ⟨rfl, rfl, rfl, rfl, rfl, rfl, rfl, rfl, rfl, rfl, rfl, rfl, rfl, rfl⟩

theorem deviceStored_deviceRetired (h : ToDevice s va .write n pa t) (vs : BitVec 256) (calls : Nat) (simd : Word) :
    DeviceStored s t (deviceRetired s vs calls simd s.x s.v (dropTlb va t).mmu) va vs calls simd where
  accessed := deviceAccessed_deviceRetired ..
  x := rfl
  v := rfl
  pt := rfl
  dropped := by
    rw [(translateS_done h.translated).2]
    exact tlbHolds_tlbDrop _ _ _

end

/-! ## Both clauses -/

/-- An access to the window where no range is registered. -/
theorem unregisteredWindowAccess {s t : State} {i : Instr} {acc : Acc} {n pa : Nat} {rs1 : Reg} {imm : BitVec 16}
    (form : AccessForm i acc n rs1 imm) (dev : ToDevice s (address s rs1 imm) acc n pa t)
    (free : findRange t.mmioTable pa = none) :
    ∃ u, Gives i s u ∧ DeviceAccessed s u 0 0 (if n = 32 then 1 else 0) ∧
      (∀ rd, ScalarLoad rd rs1 imm i n → u.x = putX s.x rd 0 ∧ u.v = s.v ∧ u.mmu = t.mmu) ∧
      (∀ vd, i = .vload vd rs1 imm → u.v = s.v.set vd.toNat 0 ∧ u.x = s.x ∧ u.mmu = t.mmu) ∧
      (acc = .write → DeviceStored s t u (address s rs1 imm) 0 0 (if n = 32 then 1 else 0)) := by
  obtain ⟨rfl, rd, hi⟩ | ⟨rfl, rfl, vd, rfl⟩ | ⟨rfl, rd, hi⟩ | ⟨rfl, rfl, vd, rfl⟩ := form.cases
  · have hn : n ≠ 32 := by have := hi.width; omega
    rw [if_neg hn]
    refine ⟨_, exec_scalarLoad_device hi dev (mmioRead_unregistered free), deviceAccessed_deviceRetired .., ?_,
      fun vd h => absurd h (hi.ne_vload vd), nofun⟩
    intro rd' hi'
    rw [hi.rd_unique hi', loadedWord_zero]
    exact ⟨rfl, rfl, rfl⟩
  · refine ⟨_, exec_vload_device dev (mmioRead_unregistered free), deviceAccessed_deviceRetired .., nofun, ?_, nofun⟩
    intro vd' h
    cases h
    exact ⟨rfl, rfl, rfl⟩
  · have hn : n ≠ 32 := by have := hi.width; omega
    rw [if_neg hn]
    refine ⟨_, exec_scalarStore_device hi dev (mmioWrite_unregistered free _), deviceAccessed_deviceRetired .., ?_, ?_,
      fun _ => deviceStored_deviceRetired dev 0 0 0⟩
    · exact fun rd' h => nomatch (form.unique h.accessForm).1
    · rintro vd rfl
      exact nomatch (form.unique (.vload vd rs1 imm)).1
  · exact ⟨_, exec_vstore_device dev (mmioWrite_unregistered free _), deviceAccessed_deviceRetired .., nofun, nofun,
      fun _ => deviceStored_deviceRetired dev 0 0 1⟩

/-- Settles O22: with or without a range the window answers a value and `deviceCalled`, so each form retires into
`deviceRetired`. -/
theorem deviceWindowAccess : Obligations.DeviceWindowAccess := by
  intro s t i acc n pa rs1 imm form dev
  have ht := (translateS_done dev.translated).2
  have table : t.mmioTable = s.mmioTable := by rw [ht]
  have calls : t.envCalls = s.envCalls := by rw [ht]
  refine ⟨fun free => unregisteredWindowAccess form dev (by rw [table, findRange_eq_none free]), ?_⟩
  rintro r answer written hr rfl rfl
  rw [← table] at hr
  simp only [← calls]
  refine ⟨fun rd hi => ?_, ?_, fun rd hi => ?_, ?_⟩
  · obtain ⟨rfl, -⟩ := hi.accessForm.unique form
    have hn : n ≤ 32 := by have := hi.width; omega
    refine ⟨_, exec_scalarLoad_device hi dev (mmioRead_registered hr), deviceAccessed_deviceRetired .., ?_, rfl, rfl⟩
    rw [loadedWord_lowBytes hn]
    rfl
  · rintro vd rfl
    obtain ⟨rfl, rfl⟩ := (AccessForm.vload vd rs1 imm).unique form
    refine ⟨_, exec_vload_device dev (mmioRead_registered hr), deviceAccessed_deviceRetired .., ?_, rfl, rfl⟩
    rw [lowBytes_vector]
    rfl
  · obtain ⟨rfl, -⟩ := hi.accessForm.unique form
    have hn : n ≤ 8 := by have := hi.width; omega
    rw [← lowBytes_storedValue hn]
    exact ⟨_, exec_scalarStore_device hi dev (mmioWrite_registered hr _), deviceStored_deviceRetired dev ..⟩
  · rintro vd rfl
    obtain ⟨rfl, rfl⟩ := (AccessForm.vstore vd rs1 imm).unique form
    have hw := mmioWrite_registered hr (n := 32) (getV s vd)
    rw [lowBytes_vector] at hw
    exact ⟨_, exec_vstore_device dev hw, deviceStored_deviceRetired dev ..⟩

end Sys2Proof.Claims
end

