-- ==== Sys2Proof/Proofs/Translation.lean ====
section
/-! Translation (spec/21_translation.md): what it answers is read off the walk alone (`walkAnswer`), with a sound TLB as
with none (R106); the walk entry by entry (R95); and the entries of the identity map (R93). -/

namespace Sys2Proof.Machine

/-! ## The answer of a translation, read off the walk -/

/-- What a translation answers to what the walk of its address finds (21_translation.md R96, from "TLB miss" on). -/
def walkAnswer (um : Bool) (va : Word) (acc : Acc) : WalkResult → Translated
  | .fail level => .exc (pageFault va level acc .notPresent)
  | .found pfn path =>
    if acc = .write ∧ pathW path = false then .exc (pageFault va (firstLacking pteW path) acc .writeProtect)
    else if um = true ∧ pathU path = false then .exc (pageFault va (firstLacking pteU path) acc .userProtect)
    else .pa (physAddr pfn va)

theorem translateMiss_answer (entries : Nat) (m : Mmu) (um : Bool) (va : Word) (acc : Acc) :
    (translateMiss entries m um va acc).2 = walkAnswer um va acc (walk m.pt va) := by
  unfold translateMiss
  cases walk m.pt va with
  | fail level => rfl
  | found pfn path => simp only [walkAnswer, apply_ite Prod.snd]

theorem walkAnswer_fail (um : Bool) (va : Word) (acc : Acc) (level : Nat) :
    walkAnswer um va acc (.fail level) = .exc (pageFault va level acc .notPresent) := rfl

theorem walkAnswer_permitted {um : Bool} {va : Word} {acc : Acc} {pfn : Nat} {path : List PathStep}
    (hw : acc = .write → pathW path = true) (hu : um = true → pathU path = true) :
    walkAnswer um va acc (.found pfn path) = .pa (physAddr pfn va) := by
  rw [walkAnswer, if_neg (by simpa using hw), if_neg (by simpa using hu)]

/-- An entry that answers an access grants what the access asks for. -/
theorem tlbAnswers_permits {e : TlbEntry} {um : Bool} {acc : Acc} (h : tlbAnswers e um acc = true) :
    (acc = .write → e.w = true) ∧ (um = true → e.u = true) := by
  simp only [tlbAnswers, Bool.and_eq_true, Bool.or_eq_true, decide_eq_true_eq, Bool.not_eq_true'] at h
  obtain ⟨hw, hu⟩ := h
  exact ⟨fun ha => (hw.resolve_left (not_not_intro ha)).1, fun hm => hu.resolve_left (by simp [hm])⟩

/-- With a sound TLB the walk alone decides: a hit answers the frame the walk would find, with its permissions. -/
theorem TlbOk.translate_answer {entries : Nat} {m : Mmu} (h : TlbOk entries m) (um : Bool) (va : Word) (acc : Acc) :
    (Machine.translate entries m um va acc).2 =
      if 2 ^ 48 ≤ va.toNat then .exc (pageFault va 5 acc .bounds) else walkAnswer um va acc (walk m.pt va) := by
  obtain ⟨hva, e⟩ | ⟨hva, holds, answers, e⟩ | ⟨hva, e⟩ := translate_cases entries m um va acc
  · rw [e, if_pos hva]
  · rw [e, if_neg (Nat.not_le.mpr hva)]
    obtain ⟨valid, vpn⟩ : _ ∧ _ := by simpa [tlbHolds] using holds
    obtain ⟨path, found, hw, hu, -⟩ := h _ valid va hva vpn.symm rfl
    obtain ⟨pw, pu⟩ := tlbAnswers_permits answers
    rw [found, walkAnswer_permitted (fun ha => hw ▸ pw ha) (fun hm => hu ▸ pu hm)]
  · rw [e, if_neg (Nat.not_le.mpr hva), translateMiss_answer]

/-- The page fault as its three words (21_translation.md R97). -/
theorem pageFault_eq (va : Word) (level : Nat) (acc : Acc) (reason : PfReason) :
    pageFault va level acc reason =
      { vector := 14, info0 := va,
        info1 := BitVec.ofNat 64 (level + 256 * accCode acc + 1024 * reasonCode reason) } := by
  simp only [pageFault, Nat.reducePow, Nat.mul_comm]

/-! ## The walk entry by entry -/

/-- What a walk that passed the entry `s` finds, from what the rest of it finds. -/
def WalkResult.via (s : PathStep) : WalkResult → WalkResult
  | .fail level => .fail level
  | .found pfn path => .found pfn (s :: path)

theorem walkFrom_nil (pt : Store Word) (va : Word) (t : Nat) : walkFrom pt va [] t = .found t [] := rfl

theorem WalkResult.via_fail (s : PathStep) (level : Nat) : (WalkResult.fail level).via s = .fail level := rfl

theorem WalkResult.via_found (s : PathStep) (pfn : Nat) (path : List PathStep) :
    (WalkResult.found pfn path).via s = .found pfn (s :: path) := rfl

theorem walkFrom_cons (pt : Store Word) (va : Word) (level : Nat) (levels : List Nat) (t : Nat) :
    walkFrom pt va (level :: levels) t =
      if pteP (ptGet pt t (ptIndex va level)) = false then .fail level
      else (walkFrom pt va levels (pteFrame (ptGet pt t (ptIndex va level)))).via
        ⟨level, t, ptIndex va level, ptGet pt t (ptIndex va level)⟩ := by
  cases h : pteP (ptGet pt t (ptIndex va level)) with
  | false => simp [walkFrom, h]
  | true =>
    simp only [walkFrom, h, if_true]
    cases walkFrom pt va levels (pteFrame (ptGet pt t (ptIndex va level))) <;> rfl

/-- Present bits are checked from level 4 down, before any permission (21_translation.md R95). -/
theorem walk_eq {pt : Store Word} {va e4 e3 e2 e1 : Word} (h4 : e4 = ptGet pt 0 (ptIndex va 4))
    (h3 : e3 = ptGet pt (pteFrame e4) (ptIndex va 3)) (h2 : e2 = ptGet pt (pteFrame e3) (ptIndex va 2))
    (h1 : e1 = ptGet pt (pteFrame e2) (ptIndex va 1)) :
    walk pt va =
      if pteP e4 = false then .fail 4
      else if pteP e3 = false then .fail 3
      else if pteP e2 = false then .fail 2
      else if pteP e1 = false then .fail 1
      else .found (pteFrame e1)
        [⟨4, 0, ptIndex va 4, e4⟩, ⟨3, pteFrame e4, ptIndex va 3, e3⟩, ⟨2, pteFrame e3, ptIndex va 2, e2⟩,
          ⟨1, pteFrame e2, ptIndex va 1, e1⟩] := by
  simp only [walk, walkFrom_cons, ← h4, ← h3, ← h2, ← h1, walkFrom_nil, apply_ite (WalkResult.via _),
    WalkResult.via_fail, WalkResult.via_found]

/-- The first entry of a path that lacks a permission the access asks for is looked for from the head on. -/
theorem ite_lacking_cons {α : Type} (asked : Prop) [Decidable asked] (has : Word → Bool) (s : PathStep)
    (path : List PathStep) (fault : Nat → α) (otherwise : α) :
    (if asked ∧ ((s :: path).all fun s => has s.entry) = false then fault (firstLacking has (s :: path))
      else otherwise) =
      if asked ∧ has s.entry = false then fault s.level
      else if asked ∧ (path.all fun s => has s.entry) = false then fault (firstLacking has path) else otherwise := by
  by_cases ha : asked <;> cases h : has s.entry <;> simp [firstLacking, h, ha]

/-- A permission asked for is checked at each of the four levels of a walk, from level 4 down. -/
theorem ite_lacking_path {α : Type} (asked : Prop) [Decidable asked] (has : Word → Bool) (s4 s3 s2 s1 : PathStep)
    (fault : Nat → α) (otherwise : α) :
    (if asked ∧ ([s4, s3, s2, s1].all fun s => has s.entry) = false then fault (firstLacking has [s4, s3, s2, s1])
      else otherwise) =
      if asked ∧ has s4.entry = false then fault s4.level
      else if asked ∧ has s3.entry = false then fault s3.level
      else if asked ∧ has s2.entry = false then fault s2.level
      else if asked ∧ has s1.entry = false then fault s1.level
      else otherwise := by
  simp only [ite_lacking_cons, List.all_nil, Bool.true_eq_false, and_false, if_false]

/-- What a walk with all four entries present answers (21_translation.md R96). -/
theorem walkAnswer_found (um : Bool) (va : Word) (acc : Acc) (pfn : Nat) (s4 s3 s2 s1 : PathStep) :
    walkAnswer um va acc (.found pfn [s4, s3, s2, s1]) =
      if acc = .write ∧ pteW s4.entry = false then .exc (pageFault va s4.level acc .writeProtect)
      else if acc = .write ∧ pteW s3.entry = false then .exc (pageFault va s3.level acc .writeProtect)
      else if acc = .write ∧ pteW s2.entry = false then .exc (pageFault va s2.level acc .writeProtect)
      else if acc = .write ∧ pteW s1.entry = false then .exc (pageFault va s1.level acc .writeProtect)
      else if um = true ∧ pteU s4.entry = false then .exc (pageFault va s4.level acc .userProtect)
      else if um = true ∧ pteU s3.entry = false then .exc (pageFault va s3.level acc .userProtect)
      else if um = true ∧ pteU s2.entry = false then .exc (pageFault va s2.level acc .userProtect)
      else if um = true ∧ pteU s1.entry = false then .exc (pageFault va s1.level acc .userProtect)
      else .pa (physAddr pfn va) := by
  rw [walkAnswer, pathW, pathU,
    ite_lacking_path _ pteW _ _ _ _ fun level => Translated.exc (pageFault va level acc .writeProtect),
    ite_lacking_path _ pteU _ _ _ _ fun level => Translated.exc (pageFault va level acc .userProtect)]

/-! ## The identity map (21_translation.md R93) -/

/-- The entry of the identity map that leads to table or frame `f`: present, writable, user. -/
def identityEntry (f : Nat) : Word := BitVec.ofNat 64 (f * 2 ^ 12 + 7)

theorem identityEntry_getLsbD (f : Nat) {k : Nat} (hk : k < 3) : (identityEntry f).getLsbD k = true := by
  rw [identityEntry, BitVec.getLsbD_ofNat, Nat.mul_comm, Nat.testBit_two_pow_mul_add f (by norm_num)]
  interval_cases k <;> rfl

@[simp] theorem pteP_identityEntry (f : Nat) : pteP (identityEntry f) = true := identityEntry_getLsbD f (by norm_num)
@[simp] theorem pteW_identityEntry (f : Nat) : pteW (identityEntry f) = true := identityEntry_getLsbD f (by norm_num)
@[simp] theorem pteU_identityEntry (f : Nat) : pteU (identityEntry f) = true := identityEntry_getLsbD f (by norm_num)

theorem pteFrame_identityEntry {f : Nat} (hf : f < 2 ^ 40) : pteFrame (identityEntry f) = f := by
  rw [pteFrame, identityEntry, BitVec.toNat_ofNat]
  omega

section
variable {j i : Nat} (hi : i < 512)
include hi

theorem ptGet_nil (t : Nat) : ptGet [] t i = ptInit t i := by
  rw [ptGet, Store.get_nil, ptInitAt]
  congr 1 <;> omega

theorem ptGet_nil_level4 : ptGet [] 0 i = identityEntry (1 + i) := ptGet_nil hi 0

theorem ptGet_nil_level3 (hj : j < 512) :
    ptGet [] (pteFrame (identityEntry (1 + j))) i = identityEntry (513 + (512 * j + i)) := by
  rw [pteFrame_identityEntry (by omega), ptGet_nil hi, ptInit, if_neg (by omega), if_pos (by omega),
    Nat.add_sub_cancel_left, Nat.add_assoc, identityEntry]

theorem ptGet_nil_level2 (hj : j < 512 ^ 2) :
    ptGet [] (pteFrame (identityEntry (513 + j))) i = identityEntry (262657 + (512 * j + i)) := by
  rw [pteFrame_identityEntry (by omega), ptGet_nil hi, ptInit, if_neg (by omega), if_neg (by omega),
    if_pos (by omega), Nat.add_sub_cancel_left, Nat.add_assoc, identityEntry]

theorem ptGet_nil_level1 (hj : j < 512 ^ 3) :
    ptGet [] (pteFrame (identityEntry (262657 + j))) i = identityEntry (512 * j + i) := by
  rw [pteFrame_identityEntry (by omega), ptGet_nil hi, ptInit, if_neg (by omega), if_neg (by omega),
    if_neg (by omega), if_pos (by omega), Nat.add_sub_cancel_left, identityEntry]

end

/-- The four indices of an address below 2^48 are the digits of its page number to base 512. -/
theorem ptIndex_digits {va : Word} (hva : va.toNat < 2 ^ 48) :
    512 * (512 * (512 * ptIndex va 4 + ptIndex va 3) + ptIndex va 2) + ptIndex va 1 = va.toNat / 2 ^ 12 := by
  norm_num [ptIndex]
  omega

/-- In the identity map the walk of an address finds its own page, for every access. -/
theorem walk_nil {va : Word} (hva : va.toNat < 2 ^ 48) :
    ∃ path, walk [] va = .found (va.toNat / 2 ^ 12) path ∧ pathW path = true ∧ pathU path = true := by
  have b4 := ptIndex_lt va 4
  have b3 := ptIndex_lt va 3
  have b2 := ptIndex_lt va 2
  have hw := walk_eq (ptGet_nil_level4 b4).symm (ptGet_nil_level3 b3 b4).symm
    (ptGet_nil_level2 b2 (by omega)).symm (ptGet_nil_level1 (ptIndex_lt va 1) (by omega)).symm
  rw [ptIndex_digits hva, pteFrame_identityEntry (f := va.toNat / 2 ^ 12) (by omega)] at hw
  simp only [pteP_identityEntry, Bool.true_eq_false, if_false] at hw
  exact ⟨_, hw, by simp [pathW], by simp [pathU]⟩

theorem physAddr_page (va : Word) : physAddr (va.toNat / 2 ^ 12) va = va.toNat := Nat.div_add_mod' ..

end Sys2Proof.Machine

namespace Sys2Proof.Claims

open Sys2Proof.Machine

/-- Settles O42: both TLBs are sound over the same page table, so the same walk decides. -/
theorem tlbTransparency : Obligations.TlbTransparency := by
  intro entries m um va acc h
  rw [h.translate_answer, (TlbOk.nil entries m.pt).translate_answer]

/-- Settles O43: with no TLB the walk decides, and it is read entry by entry. -/
theorem walkOutcome : Obligations.WalkOutcome := by
  intro entries pt um va acc e4 e3 e2 e1 hva h4 h3 h2 h1
  rw [(TlbOk.nil entries pt).translate_answer, if_neg (Nat.not_le.mpr hva), walk_eq h4 h3 h2 h1]
  simp only [apply_ite (walkAnswer um va acc), walkAnswer_found, walkAnswer_fail, pageFault_eq]
  rfl

/-- Settles O41: the walk of the identity map finds the address's own page with every permission, and from 2^48 on there
is no walk. -/
theorem identityMap : Obligations.IdentityMap := by
  intro entries um va acc
  rw [(TlbOk.nil entries []).translate_answer]
  constructor <;> intro hva
  · obtain ⟨path, found, hw, hu⟩ := walk_nil hva
    rw [if_neg (Nat.not_le.mpr hva), found, walkAnswer_permitted (fun _ => hw) (fun _ => hu), physAddr_page]
  · rw [if_pos hva, pageFault_eq]
    rfl

end Sys2Proof.Claims
end

