-- ==== Sys2Proof/Proofs/MemoryOk.lean ====
section
/-! Every operation keeps `MemoryOk` (spec/22_caches.md R152; 21_translation.md R106), so every step and tick does. -/

namespace Sys2Proof.Machine

/-- A property of the state an access leaves, from both of its answers. -/
theorem Access.left_of {α : Type} {P : State → Prop} {r : Access α}
    (h : (∀ a t, r = .done a t → P t) ∧ ∀ e t, r = .raised e t → P t) : P r.left := by
  obtain ⟨hd, hr⟩ := h
  cases r with
  | done a t => exact hd a t rfl
  | raised e t => exact hr e t rfl

namespace MemoryOk

variable {s t : State}

theorem sameCore (h : MemoryOk s) (e : SameCore s t) : MemoryOk t := by
  rw [← e]
  exact h.congr rfl rfl rfl

/-- Outside the memory accesses no operation touches parameters, caches, page table or TLB, except an environment's
coherent writes. -/
theorem stepKeeps : StepKeeps MemoryOk where
  core := sameCore
  setX _ _ h := h.congr (by simp) (by simp) (by simp)
  setNzcv _ h := h.congr rfl rfl rfl
  train _ _ _ h := h.congr rfl rfl rfl
  pushEvent _ h := h.congr (by simp) (by simp) (by simp)
  countVector _ h := h.congr rfl rfl rfl
  trapEnter _ _ _ _ _ _ h := h.congr rfl rfl rfl
  trapReturn h := h.congr rfl rfl rfl
  memRead va _ hn h := Access.left_of (h.memRead va hn)
  memWrite va _ val hn h := Access.left_of (h.memWrite va val hn)
  applyWrites ws h := ⟨h.params, applyWrites_ok h.params ws h.hier, h.tlb⟩
  fetch va h := Access.left_of (h.fetch va)
  unpend _ h := h.congr rfl rfl rfl
  untrain _ h := h.congr rfl rfl rfl
  startTick h := h.congr rfl rfl rfl
  countStall h := h.congr rfl rfl rfl

end MemoryOk

end Sys2Proof.Machine

namespace Sys2Proof.Claims

open Sys2Proof.Machine

/-- Settles O55: every operation the step and the tick are made of keeps `MemoryOk`. -/
theorem stepKeepsMemoryOk : Obligations.StepKeepsMemoryOk :=
  fun _ _ h => ⟨MemoryOk.stepKeeps.step h, MemoryOk.stepKeeps.tick h⟩

end Sys2Proof.Claims
end

