-- ==== Sys2Proof/Proofs/CacheMaintenance.lean ====
section
/-! Cache maintenance (spec/22_caches.md R147, R149): what `FlushAll` and the coherent host write leave in the caches, in
physical memory and in the flat memory of 20_memory.md R85. -/

namespace Sys2Proof.Machine

section
variable {p : Params} {h : Hierarchy}

/-! ## FlushAll -/

/-- A set that is not listed holds no line, so cleaning the listed sets cleans every line. -/
theorem lineInfo_clean_listed (g : Geom) (c : Store (List Way)) (l : Nat) :
    (if setOf g l ∈ listedSets c then (lineInfo g c l).map fun bd => (false, bd.2) else lineInfo g c l) =
      (lineInfo g c l).map fun bd => (false, bd.2) := by
  split
  · rfl
  · rename_i hl
    rw [lineInfo_unlisted g c l hl]
    rfl

/-- `FlushAll` keeps soundness and the flat memory, and leaves every line of L1D and L2 clean or gone. -/
theorem flushAll_ok (hp : p.valid = true) (hk : HierOk p h) :
    HierOk p (flushAll p h) ∧ (∀ l, flatLine p (flushAll p h) l = flatLine p h l) ∧
    (∀ l d, lineInfo (l1dGeom p) (flushAll p h).l1d l ≠ some (true, d)) ∧
    ∀ l d, lineInfo (l2Geom p) (flushAll p h).l2 l ≠ some (true, d) := by
  obtain ⟨ok1, flat1, -, -, clean1⟩ := foldl_flushL1 hp (listedSets h.l1d) hk
  obtain ⟨ok2, flat2, -, same1, -, clean2⟩ :=
    foldl_flushL2 hp (listedSets ((listedSets h.l1d).foldl (flushL1Set p) h).l2) ok1
  refine ⟨ok2, fun l => (flat2 l).trans (flat1 l), fun l d hl => ?_, fun l d hl => ?_⟩
  · rw [flushAll, same1, clean1, lineInfo_clean_listed] at hl
    simp at hl
  · rw [flushAll, clean2, lineInfo_clean_listed] at hl
    simp at hl

/-- A byte of physical memory, read off its line. -/
theorem lineByte_readLine (pm : List Host.Cell) (a : Nat) :
    lineByte (Memory.readLine pm (a / 64)) (a % 64) = Memory.read pm a := by
  rw [lineByte, Memory.getD_readLine _ _ _ (Nat.mod_lt a (by decide)), Nat.div_add_mod]

/-- What the levels below L1 hold of a line that L2 does not hold dirty is in physical memory. -/
theorem HierOk.belowL1_of_not_dirty (hk : HierOk p h) {ln : Nat}
    (hn : ∀ d, lineInfo (l2Geom p) h.l2 ln ≠ some (true, d)) : belowL1 p h ln = Memory.readLine h.pm ln := by
  rw [belowL1_eq]
  cases hl : lineInfo (l2Geom p) h.l2 ln with
  | none => rfl
  | some bd =>
    obtain ⟨_ | _, d⟩ := bd
    · exact hk.l2Clean ln d hl
    · exact absurd hl (hn d)

/-- With nothing dirty physical memory is the flat memory. -/
theorem HierOk.read_of_clean (hk : HierOk p h) (h1 : ∀ l d, lineInfo (l1dGeom p) h.l1d l ≠ some (true, d))
    (h2 : ∀ l d, lineInfo (l2Geom p) h.l2 l ≠ some (true, d)) (a : Nat) : Memory.read h.pm a = flatByte p h a := by
  rw [flatByte_eq, hk.flatLine_of_not_dirty (h1 _), hk.belowL1_of_not_dirty (h2 _), lineByte_readLine]

/-! ## The coherent host write -/

/-- A byte whose copy in physical memory is kept is kept in the flat memory. -/
theorem flatByte_withPm {pm : List Host.Cell} {b : Nat} (hb : Memory.read pm b = Memory.read h.pm b) :
    flatByte p { h with pm := pm } b = flatByte p h b := by
  simp only [flatByte, hb]

theorem hostWrite_eq (p : Params) (h : Hierarchy) (a : Nat) (bytes : List Byte) :
    hostWrite p h a bytes =
      { evictLines p h (a / 64) (linesIn a bytes.length) with
        pm := Memory.writeBytes (evictLines p h (a / 64) (linesIn a bytes.length)).pm a bytes } := rfl

/-- No cache holds a line with a byte of the range after the write. -/
theorem hostWrite_uncached (hp : p.valid = true) (hk : HierOk p h) {a b : Nat} {bytes : List Byte}
    (hb : a ≤ b ∧ b < a + bytes.length) :
    lineInfo (l1iGeom p) (hostWrite p h a bytes).l1i (b / 64) = none ∧
    lineInfo (l1dGeom p) (hostWrite p h a bytes).l1d (b / 64) = none ∧
    lineInfo (l2Geom p) (hostWrite p h a bytes).l2 (b / 64) = none := by
  obtain ⟨i, d, l2, -⟩ := hostWrite_lines hp hk a bytes
  have touched := linesIn_iff.mpr ⟨b, hb.1, hb.2, rfl⟩
  exact ⟨by rw [i, if_pos touched], by rw [d, if_pos touched], by rw [l2, if_pos touched]⟩

/-- Inside the range physical memory has the new byte and no cache hides it; outside, eviction and write keep the byte. -/
theorem flatByte_hostWrite (hp : p.valid = true) (hk : HierOk p h) (a : Nat) (bytes : List Byte) (b : Nat) :
    flatByte p (hostWrite p h a bytes) b =
      if a ≤ b ∧ b < a + bytes.length then bytes.getD (b - a) 0 else flatByte p h b := by
  split
  · rename_i hb
    obtain ⟨-, d, l2⟩ := hostWrite_uncached hp hk hb
    rw [flatByte_uncached d l2, hostWrite_eq, Memory.read_writeBytes, if_pos hb]
  · rename_i hb
    obtain ⟨-, flat, -⟩ := evictLines_ok hp (linesIn a bytes.length) hk (a / 64)
    rw [hostWrite_eq, flatByte_withPm (by rw [Memory.read_writeBytes, if_neg hb])]
    exact flatByte_congr flat b

end

end Sys2Proof.Machine

namespace Sys2Proof.Claims

open Sys2Proof.Machine

/-- Settles O45: flushing leaves nothing dirty, and a sound hierarchy with nothing dirty has its flat memory in `PM`. -/
theorem flushWritesEverythingBack : Obligations.FlushWritesEverythingBack := by
  intro p h hp hk
  obtain ⟨ok, flat, clean1, clean2⟩ := flushAll_ok hp hk
  have kept (a : Nat) : flatByte p (flushAll p h) a = flatByte p h a := flatByte_congr flat a
  exact ⟨fun a => (ok.read_of_clean clean1 clean2 a).trans (kept a), kept, clean1, clean2, ok⟩

/-- Settles O46: the touched lines are written back and dropped everywhere before the bytes reach `PM`. -/
theorem hostWriteIsCoherent : Obligations.HostWriteIsCoherent :=
  fun _ _ a bytes hp hk hm =>
    ⟨hostWrite_hier hp hk a bytes hm, flatByte_hostWrite hp hk a bytes,
      fun _ hab hb => hostWrite_uncached hp hk ⟨hab, hb⟩⟩

end Sys2Proof.Claims
end

