-- ==== Sys2Proof/Proofs/LruEviction.lean ====
section
/-! Strict LRU in one set (spec/22_caches.md R125, R126, R152 f): inserts of new lines fill the ways from the lowest up,
each way as old as the number of lines inserted after its own, so that a full set gives up its first way. -/

namespace Sys2Proof.Machine

section
variable (data : Nat → List Byte)

/-- A way just filled with a clean line. -/
def newWay (t : Nat) : Way := { valid := true, dirty := false, tag := t, lru := 0, data := data t }

/-- The ways that clean lines with these tags fill, inserted in this order. -/
def filledWays : List Nat → List Way
  | [] => []
  | t :: ts => { newWay data t with lru := ts.length } :: filledWays ts

/-- A line inserted into a set, as the victim rule places it (22_caches.md R126). -/
def insertClean (ws : List Way) (t : Nat) : List Way := install (victim ws) t (data t) false ws

@[simp] theorem length_filledWays (ts : List Nat) : (filledWays data ts).length = ts.length := by
  induction ts with
  | nil => rfl
  | cons t ts ih => simp [filledWays, ih]

theorem findIdx?_invalid_filledWays (ts : List Nat) : (filledWays data ts).findIdx? (fun w => !w.valid) = none := by
  induction ts with
  | nil => rfl
  | cons t ts ih => simp [filledWays, newWay, List.findIdx?_cons, ih]

/-- One more line: the others grow one touch older. -/
theorem filledWays_concat (ts : List Nat) (t : Nat) :
    filledWays data (ts ++ [t]) = (filledWays data ts).map ageWay ++ [newWay data t] := by
  induction ts with
  | nil => rfl
  | cons u ts ih => simp [filledWays, ih, ageWay, newWay]

/-! ## The victim -/

/-- While a way is empty the first empty one is filled. -/
theorem victim_filledWays_empty (ts : List Nat) (m : Nat) :
    victim (filledWays data ts ++ List.replicate (m + 1) emptyWay) = ts.length := by
  have hf := findIdx?_invalid_filledWays data ts
  have hn : (!emptyWay.valid) = true := rfl
  have he : (filledWays data ts ++ List.replicate (m + 1) emptyWay).findIdx? (fun w => !w.valid) = some ts.length := by
    rw [List.findIdx?_append, hf, List.replicate_succ, List.findIdx?_cons, if_pos hn]
    simp
  simp only [victim, he]

/-- No way is older than the first. -/
theorem maxLru_filledWays (t : Nat) (ts : List Nat) : maxLru (filledWays data (t :: ts)) = ts.length := by
  induction ts generalizing t with
  | nil => rfl
  | cons u ts ih =>
    have hr := ih u
    simp only [filledWays, maxLru, List.foldr_cons, List.length_cons] at hr ⊢
    omega

/-- In a full set the first way is the victim. -/
theorem victim_filledWays_full (t : Nat) (ts : List Nat) : victim (filledWays data (t :: ts)) = 0 := by
  have hf := findIdx?_invalid_filledWays data (t :: ts)
  have ho : (filledWays data (t :: ts)).findIdx? (fun w => w.lru == ts.length) = some 0 := by
    simp [filledWays, List.findIdx?_cons]
  simp only [victim, hf, maxLru_filledWays, ho, Option.getD_some]

/-! ## Inserts -/

/-- Inserting into a set with an empty way. -/
theorem insertClean_empty (ts : List Nat) (t m : Nat) :
    insertClean data (filledWays data ts ++ List.replicate (m + 1) emptyWay) t =
      filledWays data (ts ++ [t]) ++ List.replicate m emptyWay := by
  have he : ageWay emptyWay = emptyWay := rfl
  rw [insertClean, victim_filledWays_empty, install, filledWays_concat, List.map_append, List.map_replicate, he,
    List.set_append_right _ _ (by simp)]
  simp [List.replicate_succ, newWay]

/-- Inserting into a full set. -/
theorem insertClean_full (first : Nat) (ts : List Nat) (t : Nat) :
    insertClean data (filledWays data (first :: ts)) t = newWay data t :: (filledWays data ts).map ageWay := by
  rw [insertClean, victim_filledWays_full, install]
  rfl

/-- Inserts into an empty set, no more than it has ways. -/
theorem foldl_insertClean (g : Geom) (ts : List Nat) : ts.length ≤ g.ways →
    ts.foldl (insertClean data) (emptySet g) = filledWays data ts ++ List.replicate (g.ways - ts.length) emptyWay := by
  induction ts using List.reverseRecOn with
  | nil => intro _; rfl
  | append_singleton ts t ih =>
    intro hl
    rw [List.length_append, List.length_singleton] at hl ⊢
    obtain ⟨m, hm⟩ : ∃ m, g.ways - ts.length = m + 1 := ⟨g.ways - ts.length - 1, by omega⟩
    rw [List.foldl_append, List.foldl_cons, List.foldl_nil, ih (by omega), hm, insertClean_empty]
    congr 2
    omega

/-! ## Lookup -/

theorem findData_cons (u : Nat) (w : Way) (ws : List Way) :
    findData u (w :: ws) = if wayHolds u w then some w.data else findData u ws := by
  rw [findData, List.find?_cons]
  split <;> simp_all [findData]

theorem findData_map_ageWay (u : Nat) (ws : List Way) : findData u (ws.map ageWay) = findData u ws := by
  induction ws with
  | nil => rfl
  | cons w ws ih => simp [findData_cons, ih, wayHolds]

theorem findData_filledWays (u : Nat) (ts : List Nat) :
    findData u (filledWays data ts) = if u ∈ ts then some (data u) else none := by
  induction ts with
  | nil => rfl
  | cons t ts ih =>
    simp only [filledWays, newWay, findData_cons, ih, wayHolds, Bool.true_and, beq_iff_eq, List.mem_cons]
    by_cases e : t = u
    · simp [e]
    · simp [e, Ne.symm e]

/-- What an insert into a full set leaves: the first line is gone, the new one is found, the others stay. -/
theorem findData_insertClean_full (u first : Nat) (ts : List Nat) (t : Nat) :
    findData u (insertClean data (filledWays data (first :: ts)) t) =
      if u ∈ ts ++ [t] then some (data u) else none := by
  rw [insertClean_full, findData_cons, findData_map_ageWay, findData_filledWays]
  by_cases e : t = u
  · simp [newWay, wayHolds, e]
  · simp [newWay, wayHolds, e, Ne.symm e]

end

end Sys2Proof.Machine

namespace Sys2Proof.Claims

open Sys2Proof.Machine

/-- Settles O44: all inserts but the last fill the ways in order, so the last one takes the way of the first. -/
theorem lruEviction : Obligations.LruEviction := by
  intro g first tags data hg hlen hnodup ws hws
  have nonempty : tags ≠ [] := List.ne_nil_of_length_pos (hlen ▸ hg)
  obtain ⟨ts, t, rfl⟩ := (List.eq_nil_or_concat' tags).resolve_left nonempty
  have full : (first :: ts).length = g.ways := by simpa using hlen
  have last : ws = insertClean data (filledWays data (first :: ts)) t := by
    have before := foldl_insertClean data g (first :: ts) full.le
    rw [full, Nat.sub_self, List.replicate_zero, List.append_nil] at before
    rw [hws, ← List.cons_append, List.foldl_append, ← before]
    rfl
  simp only [last, findData_insertClean_full]
  exact ⟨if_neg (List.nodup_cons.mp hnodup).1, fun u hu => if_pos hu⟩

end Sys2Proof.Claims
end

