-- ==== Sys2Proof/Proofs/Encoding.lean ====
section
/-! Decoder and encoder are inverse to each other (spec/30_encoding.md R161 to R175): field by field, then format by
format, then row by row of the two tables of the opcode map. That a word decodes is then that it is the encoding of what
it decodes to (`decode_eq_some_iff_encode`). -/

namespace Sys2Proof

/-! ## The fields of an encoded word -/

section
variable (op : BitVec 6) (rd rs1 rs2 : Reg)

@[simp] theorem fields_encodeR (shamt : BitVec 5) (funct : BitVec 6) :
    fOpcode (encodeR op rd rs1 rs2 shamt funct) = op ∧ fRd (encodeR op rd rs1 rs2 shamt funct) = rd ∧
    fRs1 (encodeR op rd rs1 rs2 shamt funct) = rs1 ∧ fRs2 (encodeR op rd rs1 rs2 shamt funct) = rs2 ∧
    fShamt (encodeR op rd rs1 rs2 shamt funct) = shamt ∧ fFunct (encodeR op rd rs1 rs2 shamt funct) = funct := by
  refine ⟨?_, ?_, ?_, ?_, ?_, ?_⟩ <;> ext i hi <;>
    simp only [encodeR, fOpcode, fRd, fRs1, fRs2, fShamt, fFunct, BitVec.getElem_extractLsb', BitVec.getLsbD_append] <;>
    grind

@[simp] theorem fields_encodeI (imm : BitVec 16) :
    fOpcode (encodeI op rd rs1 imm) = op ∧ fRd (encodeI op rd rs1 imm) = rd ∧ fRs1 (encodeI op rd rs1 imm) = rs1 ∧
    fImm16 (encodeI op rd rs1 imm) = imm := by
  refine ⟨?_, ?_, ?_, ?_⟩ <;> ext i hi <;>
    simp only [encodeI, fOpcode, fRd, fRs1, fImm16, BitVec.getElem_extractLsb', BitVec.getLsbD_append] <;> grind

@[simp] theorem fields_encodeJ (imm : BitVec 26) : fOpcode (encodeJ op imm) = op ∧ fImm26 (encodeJ op imm) = imm := by
  refine ⟨?_, ?_⟩ <;> ext i hi <;>
    simp only [encodeJ, fOpcode, fImm26, BitVec.getElem_extractLsb', BitVec.getLsbD_append] <;> grind

@[simp] theorem fields_encodeV (vfunct : BitVec 8) (vd vs1 vs2 : VReg) :
    fOpcode (encodeV vfunct vd vs1 vs2) = 0x30#6 ∧ fRd (encodeV vfunct vd vs1 vs2) = vd.setWidth 5 ∧
    fRs1 (encodeV vfunct vd vs1 vs2) = vs1.setWidth 5 ∧ fRs2 (encodeV vfunct vd vs1 vs2) = vs2.setWidth 5 ∧
    fVmask (encodeV vfunct vd vs1 vs2) = 0#3 ∧ fVfunct (encodeV vfunct vd vs1 vs2) = vfunct := by
  refine ⟨?_, ?_, ?_, ?_, ?_, ?_⟩ <;> ext i hi <;>
    simp only [encodeV, fOpcode, fRd, fRs1, fRs2, fVmask, fVfunct, BitVec.getElem_extractLsb',
      BitVec.getLsbD_append] <;>
    grind

end

/-! ## Vector register fields (30_encoding.md R173) -/

@[simp] theorem vregOf_setWidth (v : VReg) : vregOf (v.setWidth 5) = v := by
  simp [vregOf]

@[simp] theorem vregIllegal_setWidth (v : VReg) : vregIllegal (v.setWidth 5) = false := by
  simp [vregIllegal, BitVec.msb_eq_getLsbD_last]

theorem setWidth_vregOf {f : Reg} (h : vregIllegal f = false) : (vregOf f).setWidth 5 = f := by
  rw [vregIllegal, BitVec.msb_eq_false_iff_two_mul_lt] at h
  apply BitVec.eq_of_toNat_eq
  simp only [vregOf, BitVec.toNat_setWidth]
  omega

/-! ## A word is the encoding of its fields -/

section
variable {w : IWord} {op : BitVec 6}

theorem encodeR_fields (h : fOpcode w = op) : encodeR op (fRd w) (fRs1 w) (fRs2 w) (fShamt w) (fFunct w) = w := by
  subst h
  apply BitVec.eq_of_getLsbD_eq
  intro i hi
  simp only [encodeR, fOpcode, fRd, fRs1, fRs2, fShamt, fFunct, BitVec.getLsbD_append, BitVec.getLsbD_extractLsb']
  grind

theorem encodeI_fields (h : fOpcode w = op) : encodeI op (fRd w) (fRs1 w) (fImm16 w) = w := by
  subst h
  apply BitVec.eq_of_getLsbD_eq
  intro i hi
  simp only [encodeI, fOpcode, fRd, fRs1, fImm16, BitVec.getLsbD_append, BitVec.getLsbD_extractLsb']
  grind

theorem encodeJ_fields (h : fOpcode w = op) : encodeJ op (fImm26 w) = w := by
  subst h
  apply BitVec.eq_of_getLsbD_eq
  intro i hi
  simp only [encodeJ, fOpcode, fImm26, BitVec.getLsbD_append, BitVec.getLsbD_extractLsb']
  grind

/-- The I-type words whose `rd` is a vector register: VLOAD and VSTORE. -/
theorem encodeI_vector_fields (h : fOpcode w = op) (hd : vregIllegal (fRd w) = false) :
    encodeI op ((vregOf (fRd w)).setWidth 5) (fRs1 w) (fImm16 w) = w := by
  rw [setWidth_vregOf hd, encodeI_fields h]

theorem encodeV_fields (hop : fOpcode w = 0x30#6) (hmask : fVmask w = 0#3) (hd : vregIllegal (fRd w) = false)
    (h1 : vregIllegal (fRs1 w) = false) (h2 : vregIllegal (fRs2 w) = false) :
    encodeV (fVfunct w) (vregOf (fRd w)) (vregOf (fRs1 w)) (vregOf (fRs2 w)) = w := by
  rw [encodeV, setWidth_vregOf hd, setWidth_vregOf h1, setWidth_vregOf h2, ← hop, ← hmask]
  apply BitVec.eq_of_getLsbD_eq
  intro i hi
  simp only [fOpcode, fRd, fRs1, fRs2, fVmask, fVfunct, BitVec.getLsbD_append, BitVec.getLsbD_extractLsb']
  grind

end

/-! ## What the decoder answers -/

section
variable {w : IWord} {i : Instr}

/-- With unused fields ignored every instruction is well-formed. -/
theorem decode_false (w : IWord) :
    decode false w = if fOpcode w == 0x30#6 then decodeVector w else decodePrimary w := by
  rw [decode]
  generalize (if fOpcode w == 0x30#6 then decodeVector w else decodePrimary w) = answer
  cases answer <;> rfl

theorem decode_eq_some_iff (strict : Bool) (w : IWord) (i : Instr) :
    decode strict w = some i ↔ decode false w = some i ∧ i.wellFormed strict = true := by
  rw [decode_false, decode, Option.filter_eq_some_iff]

/-- The `rd` field of VLOAD and VSTORE is 16 or more (30_encoding.md R173). -/
def vectorRdReserved (op : BitVec 6) (rd : Reg) : Bool := (op == 0x31#6 || op == 0x32#6) && vregIllegal rd

/-- A field of a V word other than `vfunct` is reserved (30_encoding.md R173). -/
def vectorFieldReserved (w : IWord) : Bool :=
  fVmask w != 0 || vregIllegal (fRd w) || vregIllegal (fRs1 w) || vregIllegal (fRs2 w)

theorem vectorFieldReserved_eq_false_iff : vectorFieldReserved w = false ↔
    fVmask w = 0#3 ∧ vregIllegal (fRd w) = false ∧ vregIllegal (fRs1 w) = false ∧ vregIllegal (fRs2 w) = false := by
  simp [vectorFieldReserved, and_assoc]

theorem decodePrimary_eq_some_iff : decodePrimary w = some i ↔
    vectorRdReserved (fOpcode w) (fRd w) = false ∧
      ∃ mk, primaryTable.lookup (fOpcode w) = some mk ∧ mk w = i := by
  rw [decodePrimary, ← vectorRdReserved]
  split <;> simp_all

theorem decodePrimary_eq_none_iff : decodePrimary w = none ↔
    vectorRdReserved (fOpcode w) (fRd w) = true ∨ primaryTable.lookup (fOpcode w) = none := by
  rw [decodePrimary, ← vectorRdReserved]
  split <;> simp_all

theorem decodeVector_eq_some_iff : decodeVector w = some i ↔
    vectorFieldReserved w = false ∧
      ∃ mk, vfunctTable.lookup (fVfunct w) = some mk ∧
        mk (vregOf (fRd w)) (vregOf (fRs1 w)) (vregOf (fRs2 w)) = i := by
  rw [decodeVector, ← vectorFieldReserved]
  split <;> simp_all

theorem decodeVector_eq_none_iff : decodeVector w = none ↔
    vectorFieldReserved w = true ∨ vfunctTable.lookup (fVfunct w) = none := by
  rw [decodeVector, ← vectorFieldReserved]
  split <;> simp_all

theorem decode_of_primary {mk : IWord → Instr} (h : primaryTable.lookup (fOpcode w) = some mk)
    (hd : vectorRdReserved (fOpcode w) (fRd w) = false) : decode false w = some (mk w) := by
  have hop : fOpcode w ≠ 0x30#6 := fun e => by rw [e] at h; exact nomatch h
  rw [decode_false, if_neg (mt beq_iff_eq.1 hop)]
  exact decodePrimary_eq_some_iff.2 ⟨hd, mk, h, rfl⟩

end

/-! ## Encode, then decode -/

section
variable {op : BitVec 6}

theorem decode_encodeR {mk : Reg → Reg → Reg → BitVec 5 → BitVec 6 → Instr}
    (h : primaryTable.lookup op = some fun w => mk (fRd w) (fRs1 w) (fRs2 w) (fShamt w) (fFunct w))
    (hd : ∀ rd, vectorRdReserved op rd = false) (rd rs1 rs2 : Reg) (shamt : BitVec 5) (funct : BitVec 6) :
    decode false (encodeR op rd rs1 rs2 shamt funct) = some (mk rd rs1 rs2 shamt funct) := by
  rw [decode_of_primary (by simpa using h) (by simp [hd])]
  simp

theorem decode_encodeI {mk : Reg → Reg → BitVec 16 → Instr}
    (h : primaryTable.lookup op = some fun w => mk (fRd w) (fRs1 w) (fImm16 w))
    (hd : ∀ rd, vectorRdReserved op rd = false) (rd rs1 : Reg) (imm : BitVec 16) :
    decode false (encodeI op rd rs1 imm) = some (mk rd rs1 imm) := by
  rw [decode_of_primary (by simpa using h) (by simp [hd])]
  simp

theorem decode_encodeJ {mk : BitVec 26 → Instr} (h : primaryTable.lookup op = some fun w => mk (fImm26 w))
    (hd : ∀ rd, vectorRdReserved op rd = false) (imm : BitVec 26) :
    decode false (encodeJ op imm) = some (mk imm) := by
  rw [decode_of_primary (by simpa using h) (by simp [hd])]
  simp

theorem decode_encodeI_vector {mk : VReg → Reg → BitVec 16 → Instr}
    (h : primaryTable.lookup op = some fun w => mk (vregOf (fRd w)) (fRs1 w) (fImm16 w))
    (vd : VReg) (rs1 : Reg) (imm : BitVec 16) :
    decode false (encodeI op (vd.setWidth 5) rs1 imm) = some (mk vd rs1 imm) := by
  rw [decode_of_primary (by simpa using h) (by simp [vectorRdReserved])]
  simp

theorem decode_encodeV {vfunct : BitVec 8} {mk : VReg → VReg → VReg → Instr} (h : vfunctTable.lookup vfunct = some mk)
    (vd vs1 vs2 : VReg) : decode false (encodeV vfunct vd vs1 vs2) = some (mk vd vs1 vs2) := by
  have hr : vectorFieldReserved (encodeV vfunct vd vs1 vs2) = false := by simp [vectorFieldReserved]
  rw [decode_false, if_pos (by simp), decodeVector_eq_some_iff]
  exact ⟨hr, mk, by simpa using h, by simp⟩

end

/-- Every instruction by its format; the row of its number in the table is found by evaluation. -/
theorem decode_encode (i : Instr) : decode false (encode i) = some i := by
  cases i with
  | add | sub | mul | mulh | div | mod | and | or | xor | not | shl | shr | sar | rol | ror | cmp | test =>
    exact decode_encodeR rfl (fun _ => rfl) ..
  | ld | lw | lh | lb | st | sw | sh | sb | beq | bne | blt | bge | bltu | bgeu | ldd =>
    exact decode_encodeI rfl (fun _ => rfl) ..
  | jmp | call | ret | syscall | halt | nop | iret => exact decode_encodeJ rfl (fun _ => rfl) ..
  | vadd | vsub | vmul | vmulh | vdiv | vmod | vand | vor | vxor | vnot | vshl | vshr | vsar | vrol | vror | vaddf64
  | vsubf64 | vmulf64 | vfmaf64 => exact decode_encodeV rfl ..
  | vload | vstore => exact decode_encodeI_vector rfl ..

/-! ## Decode, then encode -/

theorem mem_of_lookup_eq_some {α β : Type} [BEq α] [LawfulBEq α] {l : List (α × β)} {a : α} {b : β}
    (h : l.lookup a = some b) : (a, b) ∈ l := by
  obtain ⟨_, _, rfl, -⟩ := List.lookup_eq_some_iff.1 h
  exact List.mem_append_cons_self

/-- What a row of the primary table makes of a word of its opcode encodes to that word. -/
theorem encode_primaryTable : ∀ row ∈ primaryTable, ∀ w : IWord, fOpcode w = row.1 →
    vectorRdReserved row.1 (fRd w) = false → encode (row.2 w) = w := by
  -- ADD to ROR
  iterate 15 refine List.forall_mem_cons.2 ⟨fun _ h _ => encodeR_fields h, ?_⟩
  -- LD to BGEU
  iterate 14 refine List.forall_mem_cons.2 ⟨fun _ h _ => encodeI_fields h, ?_⟩
  -- JMP to NOP
  iterate 6 refine List.forall_mem_cons.2 ⟨fun _ h _ => encodeJ_fields h, ?_⟩
  -- CMP, TEST
  iterate 2 refine List.forall_mem_cons.2 ⟨fun _ h _ => encodeR_fields h, ?_⟩
  -- LDD, IRET
  refine List.forall_mem_cons.2 ⟨fun _ h _ => encodeI_fields h, ?_⟩
  refine List.forall_mem_cons.2 ⟨fun _ h _ => encodeJ_fields h, ?_⟩
  -- VLOAD, VSTORE
  iterate 2 refine List.forall_mem_cons.2 ⟨fun _ h hd => encodeI_vector_fields h hd, ?_⟩
  exact List.forall_mem_nil _

theorem encode_vfunctTable : ∀ row ∈ vfunctTable, ∀ vd vs1 vs2 : VReg,
    encode (row.2 vd vs1 vs2) = encodeV row.1 vd vs1 vs2 := by
  iterate 19 refine List.forall_mem_cons.2 ⟨fun _ _ _ => rfl, ?_⟩
  exact List.forall_mem_nil _

theorem encode_of_decode {w : IWord} {i : Instr} (h : decode false w = some i) : encode i = w := by
  rw [decode_false] at h
  split at h
  next hop =>
    obtain ⟨hr, mk, hmk, rfl⟩ := decodeVector_eq_some_iff.1 h
    obtain ⟨hmask, hd, h1, h2⟩ := vectorFieldReserved_eq_false_iff.1 hr
    rw [encode_vfunctTable _ (mem_of_lookup_eq_some hmk)]
    exact encodeV_fields (eq_of_beq hop) hmask hd h1 h2
  next =>
    obtain ⟨hd, mk, hmk, rfl⟩ := decodePrimary_eq_some_iff.1 h
    exact encode_primaryTable _ (mem_of_lookup_eq_some hmk) w rfl hd

/-- A word decodes exactly to the well-formed instruction that encodes to it (30_encoding.md R175). -/
theorem decode_eq_some_iff_encode {strict : Bool} {w : IWord} {i : Instr} :
    decode strict w = some i ↔ encode i = w ∧ i.wellFormed strict = true := by
  rw [decode_eq_some_iff]
  refine and_congr_left' ⟨encode_of_decode, ?_⟩
  rintro rfl
  exact decode_encode i

/-! ## Illegal words (30_encoding.md R172, R173), by the bits of the word -/

theorem toNat_fOpcode (w : IWord) : (fOpcode w).toNat = w.toNat / 2 ^ 26 := by
  rw [fOpcode, BitVec.extractLsb'_toNat, Nat.shiftRight_eq_div_pow]
  omega

theorem toNat_fVmask (w : IWord) : (fVmask w).toNat = w.toNat / 256 % 8 := by
  rw [fVmask, BitVec.extractLsb'_toNat, Nat.shiftRight_eq_div_pow]

theorem toNat_fVfunct (w : IWord) : (fVfunct w).toNat = w.toNat % 256 := by
  rw [fVfunct, BitVec.extractLsb'_toNat, Nat.shiftRight_zero]

theorem vregIllegal_fields (w : IWord) : vregIllegal (fRd w) = w.getLsbD 25 ∧ vregIllegal (fRs1 w) = w.getLsbD 20 ∧
    vregIllegal (fRs2 w) = w.getLsbD 15 := by
  simp [vregIllegal, fRd, fRs1, fRs2, BitVec.msb_eq_getLsbD_last]

theorem lookup_primaryTable_eq_none_iff (op : BitVec 6) : primaryTable.lookup op = none ↔
    (0x27 ≤ op.toNat ∧ op.toNat ≤ 0x30) ∨ 0x33 ≤ op.toNat := by
  revert op
  decide

theorem lookup_vfunctTable_eq_none_iff (vfunct : BitVec 8) : vfunctTable.lookup vfunct = none ↔
    vfunct.toNat = 0x0F ∨ 0x14 ≤ vfunct.toNat := by
  revert vfunct
  decide

theorem vectorRdReserved_iff (w : IWord) : vectorRdReserved (fOpcode w) (fRd w) = true ↔
    (w.toNat / 2 ^ 26 = 0x31 ∨ w.toNat / 2 ^ 26 = 0x32) ∧ w.getLsbD 25 = true := by
  simp [vectorRdReserved, vregIllegal_fields, ← BitVec.toNat_inj, toNat_fOpcode]

theorem vectorFieldReserved_iff (w : IWord) : vectorFieldReserved w = true ↔
    w.toNat / 256 % 8 ≠ 0 ∨ w.getLsbD 25 = true ∨ w.getLsbD 20 = true ∨ w.getLsbD 15 = true := by
  simp [vectorFieldReserved, vregIllegal_fields, ← BitVec.toNat_inj, toNat_fVmask, or_assoc]

theorem decode_false_eq_none_iff (w : IWord) : decode false w = none ↔
    (0x27 ≤ w.toNat / 2 ^ 26 ∧ w.toNat / 2 ^ 26 ≤ 0x2F) ∨ 0x33 ≤ w.toNat / 2 ^ 26 ∨
    (w.toNat / 2 ^ 26 = 0x30 ∧
      (w.toNat % 256 = 0x0F ∨ 0x14 ≤ w.toNat % 256 ∨ w.toNat / 256 % 8 ≠ 0 ∨
        w.getLsbD 25 = true ∨ w.getLsbD 20 = true ∨ w.getLsbD 15 = true)) ∨
    ((w.toNat / 2 ^ 26 = 0x31 ∨ w.toNat / 2 ^ 26 = 0x32) ∧ w.getLsbD 25 = true) := by
  have hop : (fOpcode w == 0x30#6) = true ↔ w.toNat / 2 ^ 26 = 0x30 := by
    rw [beq_iff_eq, ← BitVec.toNat_inj, toNat_fOpcode]
    rfl
  rw [decode_false]
  split
  next h =>
    rw [decodeVector_eq_none_iff, vectorFieldReserved_iff, lookup_vfunctTable_eq_none_iff, toNat_fVfunct, hop.1 h]
    grind
  next h =>
    rw [decodePrimary_eq_none_iff, vectorRdReserved_iff, lookup_primaryTable_eq_none_iff, toNat_fOpcode]
    grind

end Sys2Proof

namespace Sys2Proof.Claims

/-- Settles O1: encoding gives a word of the instruction's own row. -/
theorem decodeOfEncode : Obligations.DecodeOfEncode :=
  fun _ _ h => decode_eq_some_iff_encode.2 ⟨rfl, h⟩

/-- Settles O2: every row of the two tables encodes back to the word it was read from. -/
theorem encodeOfDecode : Obligations.EncodeOfDecode :=
  fun _ _ _ => decode_eq_some_iff_encode.1

/-- Settles O3: the numbers the tables do not list and the reserved fields; `STRICT_RESERVED` only filters. -/
theorem illegalWords : Obligations.IllegalWords :=
  ⟨decode_false_eq_none_iff, decode_eq_some_iff true⟩

/-- Settles O4: each word is the encoding of the instruction the spec gives it. -/
theorem specWordsDecode : Obligations.SpecWordsDecode := by
  unfold Obligations.SpecWordsDecode
  simp only [decode_eq_some_iff_encode]
  decide

end Sys2Proof.Claims
end

