-- ==== Sys2Proof/Proofs/FetchExceptions.lean ====
section
/-! A round of the interpreter with nothing in flight and nothing before the fetch (spec/70_reset_and_hazards.md R467),
and the exceptions that end it before an instruction executes (spec/20_memory.md R73, spec/30_encoding.md R172). -/

namespace Sys2Proof.Machine

variable {s t : State}

/-- With nothing in flight a step starts from the state itself, its status set to `Ok`. -/
theorem squash_startStep_of_quiet (h : s.quiet) : squash (startStep s) = { s with lastStatus := .ok } := by
  have hl : (startStep s).latches = { ifId := none, idEx := none, exMem := none, memWb := none } := h
  have hpc : archPc (startStep s) = s.pc := by rw [archPc, oldestYounger, hl]; rfl
  rw [squash, hpc, ← hl]
  rfl

theorem step_eq_interpret (running : s.halted = false) (hq : s.quiet) :
    step s = interpret { s with lastStatus := .ok } := by
  have hstart : step s = interpret (squash (startStep s)) := by rw [step, archStep, running, hq]; rfl
  rw [hstart, squash_startStep_of_quiet hq]

theorem interpret_eq_fetchAndExec (hb : breakpointAt s = false) (hd : deliverable s = none) :
    interpret s = fetchAndExec s := by
  rw [interpret, hb, hd]
  rfl

theorem fetch_misaligned {va : Word} (h : va.toNat % 4 ≠ 0) : fetch s va = .raised (alignmentFault va .fetch 4) s :=
  if_pos h

/-- A fetch moves neither `PC` nor a parameter. -/
theorem fetch_done_frame {va : Word} {w : IWord} (h : fetch s va = .done w t) : t.pc = s.pc ∧ t.params = s.params := by
  obtain ⟨-, e⟩ | ⟨-, _, _, -, e⟩ | ⟨-, pa, u, hu, ⟨-, e⟩ | ⟨-, -, e⟩⟩ := fetch_cases s va <;> rw [e] at h <;> cases h
  rw [(translateS_done hu).2]
  exact ⟨rfl, rfl⟩

theorem fetchAndExec_raised {e : Exc} (h : fetch { s with resume := false } s.pc = .raised e t) :
    fetchAndExec s = .next (deliver e s.pc t) := by
  rw [fetchAndExec, h]

theorem fetchAndExec_illegal {w : IWord} (h : fetch { s with resume := false } s.pc = .done w t)
    (hw : decode s.params.strictReserved w = none) : fetchAndExec s = .next (deliver (invalidOpcode w) s.pc t) := by
  obtain ⟨hpc, hparams⟩ := fetch_done_frame h
  have hexec : execWord w t = .next (deliver (invalidOpcode w) t.pc t) := by rw [execWord, hparams, hw]
  rw [fetchAndExec, h, ← hpc, ← hexec]

end Sys2Proof.Machine

namespace Sys2Proof.Claims

open Sys2Proof.Machine

/-- Settles O37: the step is one fetch, and each of the three cases says what the fetch or the decoder answers. -/
theorem fetchFaultsAndIllegalWords : Obligations.FetchFaultsAndIllegalWords := by
  intro s t running hq hb hd
  have hstep : step s = fetchAndExec { s with lastStatus := .ok } :=
    (step_eq_interpret running hq).trans (interpret_eq_fetchAndExec hb hd)
  rw [hstep]
  exact ⟨fun _ h => fetchAndExec_raised h, fun _ h hw => fetchAndExec_illegal h hw,
    fun h => fetchAndExec_raised (fetch_misaligned h)⟩

end Sys2Proof.Claims
end

