-- ==== Sys2Proof/Proofs/AluResults.lean ====
section
/-! The results of the scalar ALU (spec/40_alu.md R201 to R216): what each operation computes, as the machine word its
rule names. -/

namespace Sys2Proof.Machine

/-! ## Addition and subtraction (40_alu.md R201, R202) -/

theorem aluAdd_eq (a b : Word) :
    aluAdd a b =
      { r := a + b, c := decide (2 ^ 64 ≤ a.toNat + b.toNat), v := a.msb == b.msb && (a + b).msb != a.msb } :=
  rfl

theorem aluAdd_c_iff (a b : Word) : (aluAdd a b).c = true ↔ (a + b).toNat ≠ a.toNat + b.toNat := by
  have sum : (a + b).toNat = (a.toNat + b.toNat) % 2 ^ 64 := BitVec.toNat_add a b
  rw [aluAdd_eq, sum, decide_eq_true_iff]
  omega

theorem toInt_bounds (a : Word) : -2 ^ 63 ≤ a.toInt ∧ a.toInt < 2 ^ 63 := ⟨BitVec.le_toInt a, BitVec.toInt_lt⟩

/-- The signed sum wraps exactly where operands of one sign give a result of the other. -/
theorem aluAdd_v_iff (a b : Word) : (aluAdd a b).v = true ↔ (a + b).toInt ≠ a.toInt + b.toInt := by
  have sum : (a + b).toInt = (a.toInt + b.toInt).bmod (2 ^ 64) := BitVec.toInt_add a b
  have ha := toInt_bounds a
  have hb := toInt_bounds b
  simp only [aluAdd_eq, BitVec.msb_eq_toInt, sum, Int.bmod_def, Bool.and_eq_true, beq_iff_eq, bne_iff_ne, ne_eq,
    decide_eq_decide]
  omega

theorem aluSub_c_iff (a b : Word) : (aluSub a b).c = true ↔ a.toNat < b.toNat := decide_eq_true_iff

/-- The signed difference wraps exactly where operands of different signs give a result not of the first one's sign. -/
theorem aluSub_v_iff (a b : Word) : (aluSub a b).v = true ↔ (a - b).toInt ≠ a.toInt - b.toInt := by
  have difference : (a - b).toInt = (a.toInt - b.toInt).bmod (2 ^ 64) := BitVec.toInt_sub
  have ha := toInt_bounds a
  have hb := toInt_bounds b
  simp only [aluSub, BitVec.msb_eq_toInt, difference, Int.bmod_def, Bool.and_eq_true, bne_iff_ne, ne_eq,
    decide_eq_decide]
  omega

/-! ## Multiplication and division (40_alu.md R203 to R206) -/

theorem aluMul_eq (a b : Word) : aluMul a b = plain (a * b) := by
  rw [aluMul, BitVec.ofNat_mul, BitVec.ofNat_toNat, BitVec.ofNat_toNat, BitVec.setWidth_eq, BitVec.setWidth_eq]

/-- The high half of a double word is its value divided by 2^64, rounding down. -/
theorem extractLsb'_ofInt_high (z : Int) :
    (BitVec.ofInt 128 z).extractLsb' 64 64 = BitVec.ofInt 64 (z.fdiv (2 ^ 64)) := by
  apply BitVec.eq_of_toNat_eq
  rw [BitVec.extractLsb'_toNat, BitVec.toNat_ofInt, BitVec.toNat_ofInt, Nat.shiftRight_eq_div_pow,
    Int.fdiv_eq_ediv_of_nonneg _ (by norm_num)]
  omega

theorem aluMulh_eq (a b : Word) :
    aluMulh a b = plain ((a.signExtend 128 * b.signExtend 128).extractLsb' 64 64) := by
  have product : a.signExtend 128 * b.signExtend 128 = BitVec.ofInt 128 (a.toInt * b.toInt) :=
    (BitVec.ofInt_mul _ _).symm
  rw [aluMulh, product, extractLsb'_ofInt_high]

theorem ofInt_tdiv (a b : Word) : BitVec.ofInt 64 (a.toInt.tdiv b.toInt) = a.sdiv b :=
  BitVec.eq_of_toInt_eq (by rw [BitVec.toInt_ofInt, BitVec.toInt_sdiv])

theorem ofInt_tmod (a b : Word) : BitVec.ofInt 64 (a.toInt - b.toInt * a.toInt.tdiv b.toInt) = a.srem b := by
  rw [← Int.tmod_def, ← BitVec.toInt_srem, BitVec.ofInt_toInt]

/-- Wrapping division needs no case for `MIN / −1`. -/
theorem aluDiv_eq (a b : Word) : aluDiv a b = plain (if b = 0 then BitVec.allOnes 64 else a.sdiv b) := by
  rw [aluDiv, ofInt_tdiv]
  congr 2
  split
  · next h => obtain ⟨rfl, rfl⟩ := h; rfl
  · rfl

/-- Nor does the wrapping remainder. -/
theorem aluMod_eq (a b : Word) : aluMod a b = plain (if b = 0 then a else a.srem b) := by
  rw [aluMod, ofInt_tmod]
  congr 2
  split
  · next h => obtain ⟨rfl, rfl⟩ := h; rfl
  · rfl

/-! ## Shifts and rotates (40_alu.md R211 to R216) -/

theorem aluShl_eq (a b : Word) : aluShl a b = plain (BitVec.ofNat 64 (a.toNat * 2 ^ (b.toNat % 64))) := by
  rw [aluShl, shiftAmount]
  congr 1
  apply BitVec.eq_of_toNat_eq
  rw [BitVec.toNat_shiftLeft, BitVec.toNat_ofNat, Nat.shiftLeft_eq]

theorem aluShr_eq (a b : Word) : aluShr a b = plain (BitVec.ofNat 64 (a.toNat / 2 ^ (b.toNat % 64))) := by
  rw [aluShr, shiftAmount, ← Nat.shiftRight_eq_div_pow, ← BitVec.toNat_ushiftRight, BitVec.ofNat_toNat,
    BitVec.setWidth_eq]

theorem aluSar_eq (a b : Word) : aluSar a b = plain (BitVec.ofInt 64 (a.toInt / 2 ^ (b.toNat % 64))) := by
  rw [aluSar, shiftAmount, BitVec.sshiftRight_eq, Int.shiftRight_eq_div_pow]
  norm_cast

theorem aluRol_eq (a b : Word) : aluRol a b = plain (a.rotateLeft (b.toNat % 64)) := by
  rw [aluRol, shiftAmount, BitVec.rotateLeft_def, Nat.mod_mod]
  congr 1
  split
  · next h => simp [h, BitVec.ushiftRight_eq_zero]
  · rfl

theorem aluRor_eq (a b : Word) : aluRor a b = plain (a.rotateRight (b.toNat % 64)) := by
  rw [aluRor, shiftAmount, BitVec.rotateRight_def, Nat.mod_mod]
  congr 1
  split
  · next h => simp [h]
  · rfl

/-- Bit `i` of the operand stands `n` places above, around, in the word rotated left. -/
theorem getLsbD_rotateLeft_add (a : Word) (n : Nat) {i : Nat} (hi : i < 64) :
    (a.rotateLeft (n % 64)).getLsbD ((i + n) % 64) = a.getLsbD i := by
  rw [BitVec.getLsbD_rotateLeft, Nat.mod_mod]
  by_cases wraps : (i + n) % 64 < n % 64
  · have source : 64 - n % 64 + (i + n) % 64 = i := by omega
    simp [wraps, source]
  · have source : (i + n) % 64 - n % 64 = i := by omega
    have inside : (i + n) % 64 < 64 := Nat.mod_lt _ (by norm_num)
    simp [wraps, source, inside]

/-- Bit `i` of the word rotated right is the operand's bit `n` places above, around. -/
theorem getLsbD_rotateRight_eq (a : Word) (n : Nat) {i : Nat} (hi : i < 64) :
    (a.rotateRight (n % 64)).getLsbD i = a.getLsbD ((i + n) % 64) := by
  rw [BitVec.getLsbD_rotateRight, Nat.mod_mod]
  by_cases below : i < 64 - n % 64
  · have source : n % 64 + i = (i + n) % 64 := by omega
    simp [below, source]
  · have source : i - (64 - n % 64) = (i + n) % 64 := by omega
    simp [below, source, hi]

end Sys2Proof.Machine
end

