-- ==== Sys2Proof/Proofs/AluInstructions.lean ====
section
/-! The scalar ALU instructions (spec/40_alu.md R200 to R220) and LD, NOP: the template of R200 is one update of `rd`,
the four flags, the pc and `PERF[0]`, so each instruction is its result. -/

namespace Sys2Proof.Machine

/-! ## The flags word (40_alu.md R220) -/

theorem toNat_nzcvWord (a : Nzcv) :
    (nzcvWord a).toNat = a.z.toNat + 2 * a.c.toNat + 4 * a.v.toNat + 8 * a.n.toNat := by
  obtain ⟨z, c, v, n⟩ := a
  revert z c v n
  decide

/-- IE and UM, the two bits a new flags word keeps. -/
theorem toNat_and_modeBits (f : Word) : (f &&& 0x30#64).toNat = 2 ^ 4 * (f.toNat / 2 ^ 4 % 2 ^ 2) := by
  have mask : (0x30#64).toNat = 2 ^ 4 * (2 ^ 2 - 1) := rfl
  rw [BitVec.toNat_and, mask]
  apply Nat.eq_of_testBit_eq
  intro i
  rw [Nat.testBit_and, Nat.testBit_two_pow_mul, Nat.testBit_two_pow_mul, Nat.testBit_two_pow_sub_one,
    Nat.testBit_mod_two_pow, Nat.testBit_div_two_pow]
  by_cases hi : 4 ≤ i
  · simp [hi, Bool.and_comm]
  · simp [hi]

theorem withNzcv_eq_arithFlags (f : Word) (a : Nzcv) :
    withNzcv f a = Claims.arithFlags f a.z a.c a.v a.n := by
  have joined : (withNzcv f a).toNat = 2 ^ 4 * (f.toNat / 2 ^ 4 % 2 ^ 2) + (nzcvWord a).toNat := by
    rw [withNzcv, BitVec.toNat_or, toNat_and_modeBits, Nat.two_pow_add_eq_or_of_lt (nzcvWord_lt a)]
  rw [← BitVec.setWidth_eq (withNzcv f a), ← BitVec.ofNat_toNat, joined, toNat_nzcvWord, Claims.arithFlags]
  congr 1
  omega

theorem nzcvWord_flags (a : Nzcv) :
    flagZ (nzcvWord a) = a.z ∧ flagC (nzcvWord a) = a.c ∧ flagV (nzcvWord a) = a.v ∧ flagN (nzcvWord a) = a.n := by
  obtain ⟨z, c, v, n⟩ := a
  revert z c v n
  decide

/-- The four flags of a new word are those given, whatever the old word held. -/
theorem withNzcv_flags (f : Word) (a : Nzcv) :
    flagZ (withNzcv f a) = a.z ∧ flagC (withNzcv f a) = a.c ∧ flagV (withNzcv f a) = a.v ∧
      flagN (withNzcv f a) = a.n := by
  have masked : ∀ k < 4, (0x30#64).getLsbD k = false := by decide
  have low (k : Nat) (hk : k < 4) : (withNzcv f a).getLsbD k = (nzcvWord a).getLsbD k := by
    rw [withNzcv, BitVec.getLsbD_or, BitVec.getLsbD_and, masked k hk, Bool.and_false, Bool.false_or]
  obtain ⟨hz, hc, hv, hn⟩ := nzcvWord_flags a
  exact ⟨(low 0 (by norm_num)).trans hz, (low 1 (by norm_num)).trans hc, (low 2 (by norm_num)).trans hv,
    (low 3 (by norm_num)).trans hn⟩

/-- `SetFlags`: C and V as the operation computed them, Z and N read off its result. -/
theorem withNzcv_nzcv_iff (f : Word) (o : AluOut) :
    (flagC (withNzcv f o.nzcv) = true ↔ o.c = true) ∧ (flagV (withNzcv f o.nzcv) = true ↔ o.v = true) ∧
    (flagZ (withNzcv f o.nzcv) = true ↔ o.r = 0) ∧ (flagN (withNzcv f o.nzcv) = true ↔ o.r.toInt < 0) := by
  obtain ⟨hz, hc, hv, hn⟩ := withNzcv_flags f o.nzcv
  rw [hz, hc, hv, hn]
  exact ⟨Iff.rfl, Iff.rfl, beq_iff_eq, by rw [AluOut.nzcv, nzcvOf, BitVec.msb_eq_toInt, decide_eq_true_iff]⟩

/-! ## The template (40_alu.md R200) -/

theorem finishAlu_eq_aluState (rd : Reg) (o : AluOut) (s : State) :
    finishAlu rd o s = Claims.aluState s rd o.r o.c o.v := by
  have flags : withNzcv s.flags o.nzcv = Claims.arithFlags s.flags (o.r == 0) o.c o.v o.r.msb :=
    withNzcv_eq_arithFlags _ _
  rw [finishAlu, setX_eq, Claims.aluState, ← flags]
  rfl

/-- CMP and TEST finish as R200 says with no register to write. -/
theorem finishCompare_eq_aluState (o : AluOut) (s : State) :
    finishCompare o.nzcv s = Claims.aluState s 0 o.r o.c o.v :=
  finishAlu_eq_aluState 0 o s

end Sys2Proof.Machine

namespace Sys2Proof.Claims

open Sys2Proof.Machine

/-- An instruction that finishes as R200 says gives the state with its result. -/
theorem gives_aluState {i : Instr} {s : State} {rd : Reg} {o : AluOut} {r : Word} {c v : Bool}
    (run : exec i s = .next (finishAlu rd o s)) (result : o = { r := r, c := c, v := v }) :
    Gives i s (aluState s rd r c v) := by
  subst result
  rw [Gives, run, finishAlu_eq_aluState]

/-- One that computes flags only gives the state with no register written. -/
theorem gives_aluState_compare {i : Instr} {s : State} {o : AluOut} {r : Word} {c v : Bool}
    (run : exec i s = .next (finishCompare o.nzcv s)) (result : o = { r := r, c := c, v := v }) :
    Gives i s (aluState s 0 r c v) := by
  subst result
  rw [Gives, run, finishCompare_eq_aluState]

/-- Settles O7: the model adds and subtracts as the statement does. -/
theorem addSubResult : Obligations.AddSubResult := by
  intro s rd rs1 rs2 sh fn
  exact ⟨gives_aluState rfl (aluAdd_eq _ _), gives_aluState rfl rfl⟩

/-- Settles O8: C and V by the exact sum and difference, Z and N off the result. -/
theorem flagContract : Obligations.FlagContract := by
  intro s t rd rs1 rs2 sh fn
  refine ⟨fun h => ?_, fun h => ?_⟩
  · have flags : t.flags = withNzcv s.flags (aluAdd (getX s rs1) (getX s rs2)).nzcv := by
      cases h
      simp [finishAlu]
    obtain ⟨hc, hv, hz, hn⟩ := withNzcv_nzcv_iff s.flags (aluAdd (getX s rs1) (getX s rs2))
    rw [flags]
    exact ⟨hc.trans (aluAdd_c_iff _ _), hv.trans (aluAdd_v_iff _ _), hz, hn⟩
  · have flags : t.flags = withNzcv s.flags (aluSub (getX s rs1) (getX s rs2)).nzcv := by
      obtain h | h := h <;> cases h
      · simp [finishAlu]
      · rfl
    obtain ⟨hc, hv, hz, hn⟩ := withNzcv_nzcv_iff s.flags (aluSub (getX s rs1) (getX s rs2))
    rw [flags]
    exact ⟨hc.trans (aluSub_c_iff _ _), hv.trans (aluSub_v_iff _ _), hz.trans sub_eq_zero, hn⟩

/-- Settles O9: each of the four results is the machine word the statement names. -/
theorem mulDivResult : Obligations.MulDivResult := by
  intro s rd rs1 rs2 sh fn
  exact ⟨gives_aluState rfl (aluMul_eq _ _), gives_aluState rfl (aluMulh_eq _ _), gives_aluState rfl (aluDiv_eq _ _),
    gives_aluState rfl (aluMod_eq _ _)⟩

/-- Settles O10: CMP and TEST are SUB and AND without a destination. -/
theorem logicCompareResult : Obligations.LogicCompareResult := by
  intro s rd rs1 rs2 sh fn
  exact ⟨gives_aluState rfl rfl, gives_aluState rfl rfl, gives_aluState rfl rfl, gives_aluState rfl rfl,
    gives_aluState_compare (o := aluSub _ _) rfl rfl, gives_aluState_compare (o := aluAnd _ _) rfl rfl⟩

/-- Settles O11: the shifts are arithmetic by a power of 2, the rotates are read bit by bit. -/
theorem shiftRotateResult : Obligations.ShiftRotateResult := by
  intro s rd rs1 rs2 sh fn
  exact ⟨gives_aluState rfl (aluShl_eq _ _), gives_aluState rfl (aluShr_eq _ _), gives_aluState rfl (aluSar_eq _ _),
    ⟨_, gives_aluState rfl (aluRol_eq _ _), fun _ => getLsbD_rotateLeft_add _ _⟩,
    ⟨_, gives_aluState rfl (aluRor_eq _ _), fun _ => getLsbD_rotateRight_eq _ _⟩⟩

/-- LD writes its immediate and goes on (40_alu.md R219). -/
theorem gives_ld (s : State) (rd rs1 : Reg) (imm : BitVec 16) :
    Gives (.ld rd rs1 imm) s
      { s with x := putX s.x rd (imm.signExtend 64), pc := s.pc + 4, perf := onceRetired s.perf } := by
  have run : exec (.ld rd rs1 imm) s = .next (advance (countRetired (setX rd (simm16 imm) s))) := rfl
  rw [Gives, run, setX_eq]
  rfl

/-- Settles O12: NOP and the hazard facts hold by the model's tables. -/
theorem ldNopResult : Obligations.LdNopResult := by
  intro s rd rs1 imm j
  exact ⟨gives_ld s rd rs1 imm, rfl, rfl, rfl, rfl, rfl⟩

end Sys2Proof.Claims
end

