-- ==== Sys2Proof/Proofs/AccessFaults.lean ====
section
/-! The page faults of a load or store (spec/41_loadstore.md R231): the translation's own, and that of the physical bound,
which is delivered from the state before the access (log entry 21). -/

namespace Sys2Proof.Claims

open Sys2Proof.Machine

section
variable {s t : State} {i : Instr} {acc : Acc} {n pa : Nat} {rs1 : Reg} {imm : BitVec 16} {va : Word} {e : Exc}

theorem memRead_translation_raised (ha : va.toNat % n = 0) (h : translateS s va .read = .raised e t) :
    memRead s va n = .raised e t := by
  simp [memRead, ha, h]

theorem memWrite_translation_raised {val : VWord} (ha : va.toNat % n = 0)
    (h : translateS s va .write = .raised e t) : memWrite s va n val = .raised e t := by
  simp [memWrite, ha, h]

theorem memRead_out_of_bounds (ha : va.toNat % n = 0) (h : translateS s va .read = .done pa t)
    (hw : inWindow s.params pa = false) (hb : s.params.memSize < pa + n) :
    memRead s va n = .raised (pageFault va 0 .read .bounds) s := by
  have hp : t.params = s.params := by rw [(translateS_done h).2]
  simp [memRead, ha, h, hp, hw, hb]

theorem memWrite_out_of_bounds {val : VWord} (ha : va.toNat % n = 0) (h : translateS s va .write = .done pa t)
    (hw : inWindow s.params pa = false) (hb : s.params.memSize < pa + n) :
    memWrite s va n val = .raised (pageFault va 0 .write .bounds) s := by
  have hp : t.params = s.params := by rw [(translateS_done h).2]
  simp [memWrite, ha, h, hp, hw, hb]

/-- The exception an access raises is delivered with the instruction's own address as return address. -/
theorem AccessForm.gives_deliver (form : AccessForm i acc n rs1 imm)
    (hr : acc = .read → memRead s (address s rs1 imm) n = .raised e t)
    (hw : acc = .write → ∀ val, memWrite s (address s rs1 imm) n val = .raised e t) :
    Gives i s (deliver e s.pc t) := by
  obtain ⟨ha, commit, h⟩ | ⟨ha, retire, val, h⟩ := form.exec_cases s
  · exact h.trans (loadWith_raised (hr ha))
  · exact h.trans (storeWith_raised (hw ha val))

/-- The information word of the fault at the physical bound, for a load or store (60_exceptions.md R400). -/
theorem pageFault_bounds_eq (va : Word) (h : acc = .read ∨ acc = .write) :
    pageFault va 0 acc .bounds = { vector := 14, info0 := va,
                                   info1 := BitVec.ofNat 64 ((if acc = .write then 512 else 256) + 3072) } := by
  obtain rfl | rfl := h <;> simp [pageFault_eq, accCode, reasonCode]

end

/-- Settles O21: a raising translation is the answer of the access; behind a successful one the bound is checked, and the
state is still the one before the access. -/
theorem accessFaultsAreTaken : Obligations.AccessFaultsAreTaken := by
  intro s t i acc n rs1 imm form aligned
  refine ⟨fun e raised => ?_, fun pa done outside beyond => ?_⟩
  · refine form.gives_deliver (fun h => ?_) (fun h val => ?_) <;> subst h
    · exact memRead_translation_raised aligned raised
    · exact memWrite_translation_raised aligned raised
  · refine form.gives_deliver (fun h => ?_) (fun h val => ?_) <;> subst h
    · rw [memRead_out_of_bounds aligned done outside beyond, pageFault_bounds_eq _ (.inl rfl)]
    · rw [memWrite_out_of_bounds aligned done outside beyond, pageFault_bounds_eq _ (.inr rfl)]

end Sys2Proof.Claims
end

