-- ==== Sys2Proof/Proofs/RamAccess.lean ====
section
/-! Loads and stores to RAM (spec/41_loadstore.md R232 to R242; 20_memory.md R71, R72, R85): what the access answers, in
bytes of the flat memory, and the exact next state of each form. -/

namespace Sys2Proof.Machine

/-! ## Bytes -/

theorem byteOf_eq_extractLsb' (val : VWord) (j : Nat) : byteOf val j = val.extractLsb' (8 * j) 8 := by
  apply BitVec.eq_of_getLsbD_eq
  intro i _
  rw [getLsbD_byteOf, BitVec.getLsbD_extractLsb']

theorem AccessSize.bounds {n : Nat} (h : AccessSize n) : 0 < n ∧ n ≤ 32 := by
  unfold AccessSize at h
  omega

/-! ## The state after the access -/

/-- The state after a load or store to RAM that retires: the caches and miss counts are those of the access `a`, `simd`
vector instructions are counted, and these registers and this translation are left. -/
def ramRetired (s : State) (a : Accessed) (simd : Word) (x : Vector Word 32) (v : Vector VWord 16) (mmu : Mmu) : State :=
  { s with
    x := x, v := v, mmu := mmu, hier := a.hier, pc := s.pc + 4,
    perf := { missCounts a.l1Miss a.l2Miss s.perf with
      retired := s.perf.retired + 1, memOps := s.perf.memOps + 1, simdOps := s.perf.simdOps + simd } }

end Sys2Proof.Machine

namespace Sys2Proof.Claims

open Sys2Proof.Machine

theorem holdsBytes_ofBytes (s : State) (pa : Nat) {n : Nat} (hn : n ≤ 32) :
    HoldsBytes s pa n (ofBytes (fun j => s.flat (pa + j)) n) := by
  refine ⟨fun j hj => ?_, fun i hi => ?_⟩
  · rw [← byteOf_eq_extractLsb', byteOf_ofBytes _ n j hn hj]
  · rw [getLsbD_ofBytes _ n hn, decide_eq_false (Nat.not_lt.mpr hi), Bool.false_and]

section
variable {s t : State} {va : Word} {i : Instr} {acc : Acc} {n pa : Nat} {rd rs1 : Reg} {imm : BitVec 16}
  {val : VWord} {a : Accessed}

/-! ## What the access answers -/

/-- Translation leaves all but the page table and the TLB. -/
theorem ToRam.translated_state (h : ToRam s va acc n pa t) : ∃ mmu, t = { s with mmu := mmu } :=
  ⟨_, (translateS_done h.translated).2⟩

theorem ToRam.memRead_eq (h : ToRam s va .read n pa t) :
    memRead s va n = .done (ramRead t pa n).1 (ramRead t pa n).2 := by
  obtain ⟨ha, ht, ho, hi⟩ := h
  have hp : t.params = s.params := by rw [(translateS_done ht).2]
  simp [memRead, ha, ht, hp, ho, Nat.not_lt.mpr hi]

theorem ToRam.memWrite_eq (h : ToRam s va .write n pa t) (val : VWord) :
    memWrite s va n val = .done () (dropTlb va (ramWrite t pa n val)) := by
  obtain ⟨ha, ht, ho, hi⟩ := h
  have hp : t.params = s.params := by rw [(translateS_done ht).2]
  simp [memWrite, ha, ht, hp, ho, Nat.not_lt.mpr hi]

/-- A read from RAM answers the bytes of the flat memory and leaves it as it was. -/
theorem ToRam.reads (h : ToRam s va .read n pa t) (hok : MemoryOk s) (hn : AccessSize n) :
    ∃ val a, memRead s va n = .done val (afterAccess a t) ∧ HoldsBytes s pa n val ∧
      ∀ b, flatByte s.params a.hier b = s.flat b := by
  obtain ⟨tok, offset⟩ := hok.translateS_done h.translated
  obtain ⟨hpos, hle⟩ := hn.bounds
  have run := h.memRead_eq
  have line := in_line h.aligned offset hn
  have inside := h.inside
  obtain ⟨mmu, rfl⟩ := h.translated_state
  obtain ⟨value, -, memory⟩ := ramRead_ok tok.params tok.hier line hpos inside
  rw [value] at run
  exact ⟨_, _, run, holdsBytes_ofBytes s pa hle, memory⟩

/-- A write to RAM replaces its bytes of the flat memory, and no other. -/
theorem ToRam.writes (h : ToRam s va .write n pa t) (hok : MemoryOk s) (hn : AccessSize n) (val : VWord) :
    ∃ a, memWrite s va n val = .done () (dropTlb va (afterAccess a t)) ∧
      ∀ b, flatByte s.params a.hier b = if pa ≤ b ∧ b < pa + n then byteOf val (b - pa) else s.flat b := by
  obtain ⟨tok, offset⟩ := hok.translateS_done h.translated
  obtain ⟨hpos, -⟩ := hn.bounds
  have run := h.memWrite_eq val
  have line := in_line h.aligned offset hn
  have inside := h.inside
  obtain ⟨mmu, rfl⟩ := h.translated_state
  exact ⟨_, run, (ramWrite_ok tok.params tok.hier val line hpos inside).2⟩

/-! ## The next state of each form -/

theorem exec_scalarLoad_ram (hi : ScalarLoad rd rs1 imm i n) (h : ToRam s (address s rs1 imm) .read n pa t)
    (hr : memRead s (address s rs1 imm) n = .done val (afterAccess a t)) :
    exec i s = .next (ramRetired s a 0 (putX s.x rd (loadedWord n val)) s.v t.mmu) := by
  rw [exec_scalarLoad hi, loadWith, hr]
  obtain ⟨mmu, rfl⟩ := h.translated_state
  simp [ramRetired, setX_eq, putX, afterAccess, missCounts, advance, setPc, countRetired, countMemOp]

theorem exec_scalarStore_ram (hi : ScalarStore rd rs1 imm i n) (h : ToRam s (address s rs1 imm) .write n pa t)
    (hw : memWrite s (address s rs1 imm) n (storedValue (getX s rd)) =
      .done () (dropTlb (address s rs1 imm) (afterAccess a t))) :
    exec i s = .next (ramRetired s a 0 s.x s.v (dropTlb (address s rs1 imm) t).mmu) := by
  rw [exec_scalarStore hi, storeWith, hw]
  obtain ⟨mmu, rfl⟩ := h.translated_state
  simp [ramRetired, dropTlb, afterAccess, missCounts, advance, setPc, countRetired, countMemOp]

/-! ## The frame -/

theorem memCounted_ramRetired (s : State) (a : Accessed) (simd : Word) (x : Vector Word 32) (v : Vector VWord 16)
    (mmu : Mmu) : MemCounted s (ramRetired s a simd x v mmu) simd :=
  ⟨rfl, rfl, rfl, rfl, rfl, rfl⟩

theorem undisturbed_ramRetired (s : State) (a : Accessed) (simd : Word) (x : Vector Word 32) (v : Vector VWord 16)
    (mmu : Mmu) : Undisturbed s (ramRetired s a simd x v mmu) :=
  ⟨rfl, rfl, rfl, rfl, rfl, rfl, rfl, rfl, rfl, rfl, rfl, rfl, rfl, rfl⟩

theorem loadedFromRam_ramRetired (memory : ∀ b, flatByte s.params a.hier b = s.flat b) (t : State) (simd : Word)
    (x : Vector Word 32) (v : Vector VWord 16) : LoadedFromRam s t (ramRetired s a simd x v t.mmu) simd where
  flags := rfl
  pc := rfl
  memory := memory
  mmu := rfl
  counted := memCounted_ramRetired ..
  rest := undisturbed_ramRetired ..

theorem storedToRam_ramRetired (h : ToRam s va .write n pa t)
    (memory : ∀ b, flatByte s.params a.hier b = if pa ≤ b ∧ b < pa + n then byteOf val (b - pa) else s.flat b)
    (simd : Word) :
    StoredToRam s t (ramRetired s a simd s.x s.v (dropTlb va t).mmu) va pa n val simd where
  flags := rfl
  pc := rfl
  x := rfl
  v := rfl
  stored j hj := by
    have written := memory (pa + j)
    rwa [if_pos (by omega), Nat.add_sub_cancel_left, byteOf_eq_extractLsb'] at written
  others b hb := (memory b).trans (if_neg (by omega))
  pt := rfl
  dropped := by
    rw [(translateS_done h.translated).2]
    exact tlbHolds_tlbDrop _ _ _
  counted := memCounted_ramRetired ..
  rest := undisturbed_ramRetired ..

theorem ScalarLoad.accessSize (h : ScalarLoad rd rs1 imm i n) : AccessSize n := by
  cases h <;> simp [AccessSize]

theorem ScalarStore.accessSize (h : ScalarStore rd rs1 imm i n) : AccessSize n := by
  cases h <;> simp [AccessSize]

end

/-- Settles O17: the read answers the bytes of the flat memory, and the instruction retires with them in `rd`. -/
theorem scalarLoadFromRam : Obligations.ScalarLoadFromRam := by
  intro s t rd rs1 imm i n pa hok load ram
  obtain ⟨val, a, read, bytes, memory⟩ := ram.reads hok load.accessSize
  exact ⟨_, val, exec_scalarLoad_ram load ram read, bytes, rfl, rfl, loadedFromRam_ramRetired memory t ..⟩

/-- Settles O18: the write replaces its bytes of the flat memory, and the instruction retires with the page dropped from
the TLB. -/
theorem scalarStoreToRam : Obligations.ScalarStoreToRam := by
  intro s t rd rs1 imm i n pa hok store ram
  obtain ⟨a, write, memory⟩ := ram.writes hok store.accessSize (storedValue (getX s rd))
  exact ⟨_, exec_scalarStore_ram store ram write, storedToRam_ramRetired ram memory 0⟩

end Sys2Proof.Claims
end

