-- ==== Sys2Proof/Proofs/ControlTransfer.lean ====
section
/-! The control transfers (spec/42_control.md R249 to R261): the template of R261 is one update of the pc, the
predictor, `PERF[0]` and `PERF[4]`, so each transfer is its condition and the address it goes to. -/

namespace Sys2Proof.Machine

/-! ## The conditions (42_control.md R252 to R257) -/

/-- BGE holds where BLT does not. -/
theorem condGe_eq (a b : Word) : condGe a b = !a.slt b := by
  rw [condGe, BitVec.slt, ← decide_not, decide_eq_decide, not_lt]

/-- BGEU holds where BLTU does not. -/
theorem condGeu_eq (a b : Word) : condGeu a b = !a.ult b := by
  rw [condGeu, BitVec.ult, ← decide_not, decide_eq_decide, not_lt]

/-! ## The template (42_control.md R261) -/

/-- A transfer is mispredicted where it goes elsewhere than predicted. -/
theorem finishControl_eq_controlState (taken : Bool) (next : Word) (s : State) :
    finishControl taken next s = Claims.controlState s taken next := by
  have mispredicted : (if next != predict s.params s.predictor s.pc then 1 else 0 : Word) =
      if next = predict s.params s.predictor s.pc then 0 else 1 := by
    simp only [bne_iff_ne, ne_eq, ite_not]
  rw [Claims.controlState, ← mispredicted]
  rfl

end Sys2Proof.Machine

namespace Sys2Proof.Claims

open Sys2Proof.Machine

theorem gives_controlState {i : Instr} {s : State} {taken : Bool} {next : Word}
    (run : exec i s = .next (finishControl taken next s)) : Gives i s (controlState s taken next) := by
  rw [Gives, run, finishControl_eq_controlState]

/-- An instruction that finishes as a branch on `cond` goes where `go` sends a branch on `holds`. -/
theorem gives_branch {i : Instr} {s : State} {imm : BitVec 16} {go : Bool → Word} {cond holds : Bool}
    (hgo : ∀ c, go c = if c then s.pc + imm.signExtend 64 else s.pc + 4)
    (run : exec i s = .next (finishBranch cond imm s)) (compares : cond = holds) :
    Gives i s (controlState s holds (go holds)) := by
  subst compares
  have next : branchNext s.pc imm cond = go cond := (hgo cond).symm
  rw [← next]
  exact gives_controlState run

/-- Settles O23: each branch finishes as the template says, on the comparison the statement names. -/
theorem branchResult : Obligations.BranchResult := by
  intro s ra rb imm go hgo
  exact ⟨gives_branch hgo rfl rfl, gives_branch hgo rfl rfl, gives_branch hgo rfl rfl,
    gives_branch hgo rfl (condGe_eq _ _), gives_branch hgo rfl rfl, gives_branch hgo rfl (condGeu_eq _ _)⟩

/-- CALL also links (42_control.md R258). -/
theorem gives_call (s : State) (imm : BitVec 26) :
    Gives (.call imm) s
      { controlState s true (s.pc + imm.signExtend 64) with x := s.x.set 31 (s.pc + 4) } := by
  have run : exec (.call imm) s = .next (setX 31 (s.pc + 4) (finishControl true (jumpTarget s.pc imm) s)) := rfl
  rw [Gives, run, finishControl_eq_controlState]
  rfl

/-- Settles O24: the three go to the address the statement names, and only CALL writes a register. -/
theorem jumpCallRetResult : Obligations.JumpCallRetResult := by
  intro s imm
  exact ⟨gives_controlState rfl, gives_call s imm, gives_controlState rfl⟩

end Sys2Proof.Claims
end

