-- ==== Sys2Proof/Proofs/PredictionTransparency.lean ====
section
/-! Predictor and counters decide nothing but themselves (spec/42_control.md R260): every operation an instruction is
made of leads from states that differ only there to states that differ only there. -/

namespace Sys2Proof.Machine

/-- `u` differs from `s` at most in the predictor and the performance counters. -/
def SameButPrediction (s u : State) : Prop := ∃ (b : Predictor) (f : Perf), u = { s with predictor := b, perf := f }

/-- Two accesses answer the same, and the states they leave differ at most in predictor and counters. -/
inductive SameAnswer {α : Type} : Access α → Access α → Prop where
  | done {s u : State} (a : α) (h : SameButPrediction s u) : SameAnswer (.done a s) (.done a u)
  | raised {s u : State} (e : Exc) (h : SameButPrediction s u) : SameAnswer (.raised e s) (.raised e u)

/-- Two outcomes are next states that differ at most in predictor and counters. -/
inductive SameNext : Host.Outcome State Fault Refusal → Host.Outcome State Fault Refusal → Prop where
  | next {s u : State} (h : SameButPrediction s u) : SameNext (.next s) (.next u)

theorem SameNext.exists_next {s : State} {o : Host.Outcome State Fault Refusal} (h : SameNext (.next s) o) :
    ∃ u, o = .next u ∧ SameButPrediction s u := by
  cases h with
  | next h => exact ⟨_, rfl, h⟩

namespace SameButPrediction

variable {s u : State}

/-! ## Registers, events and exceptions -/

theorem setX (h : SameButPrediction s u) (r : Reg) (w : Word) : SameButPrediction (setX r w s) (setX r w u) := by
  obtain ⟨b, f, rfl⟩ := h
  rw [setX_eq, setX_eq]
  exact ⟨b, f, rfl⟩

theorem setV (h : SameButPrediction s u) (r : VReg) (w : VWord) : SameButPrediction (setV r w s) (setV r w u) := by
  obtain ⟨b, f, rfl⟩ := h
  exact ⟨b, f, rfl⟩

theorem stopCore (h : SameButPrediction s u) (st : Status) (v : Nat) (a next i0 : Word) :
    SameButPrediction (stopCore st v a next i0 s) (stopCore st v a next i0 u) := by
  obtain ⟨b, f, rfl⟩ := h
  rw [stopCore_eq, stopCore_eq]
  exact ⟨b, f, rfl⟩

theorem pushEvent (h : SameButPrediction s u) (e : Event) : SameButPrediction (pushEvent e s) (pushEvent e u) := by
  obtain ⟨b, f, rfl⟩ := h
  rw [pushEvent_eq, pushEvent_eq]
  exact ⟨b, f, rfl⟩

theorem countVector (h : SameButPrediction s u) (v : Nat) : SameButPrediction (countVector v s) (countVector v u) := by
  obtain ⟨b, f, rfl⟩ := h
  exact ⟨b, f, rfl⟩

theorem trapEnter (h : SameButPrediction s u) (addr ret : Word) (v : Nat) (i j : Word) :
    SameButPrediction (trapEnter addr ret v i j s) (trapEnter addr ret v i j u) := by
  obtain ⟨b, f, rfl⟩ := h
  exact ⟨b, f, rfl⟩

theorem trapReturn (h : SameButPrediction s u) : SameButPrediction (trapReturn s) (trapReturn u) := by
  obtain ⟨b, f, rfl⟩ := h
  exact ⟨b, f, rfl⟩

theorem countRetired (h : SameButPrediction s u) : SameButPrediction (countRetired s) (countRetired u) := by
  obtain ⟨b, f, rfl⟩ := h
  exact ⟨b, _, rfl⟩

theorem countMemOp (h : SameButPrediction s u) : SameButPrediction (countMemOp s) (countMemOp u) := by
  obtain ⟨b, f, rfl⟩ := h
  exact ⟨b, _, rfl⟩

theorem countSimd (h : SameButPrediction s u) : SameButPrediction (countSimd s) (countSimd u) := by
  obtain ⟨b, f, rfl⟩ := h
  exact ⟨b, _, rfl⟩

theorem advance (h : SameButPrediction s u) : SameButPrediction (advance s) (advance u) := by
  obtain ⟨b, f, rfl⟩ := h
  exact ⟨b, f, rfl⟩

theorem setPc (h : SameButPrediction s u) (a : Word) : SameButPrediction (setPc a s) (setPc a u) := by
  obtain ⟨b, f, rfl⟩ := h
  exact ⟨b, f, rfl⟩

theorem params_eq (h : SameButPrediction s u) : u.params = s.params := by
  obtain ⟨b, f, rfl⟩ := h
  rfl

theorem pc_eq (h : SameButPrediction s u) : u.pc = s.pc := by
  obtain ⟨b, f, rfl⟩ := h
  rfl

theorem nest_eq (h : SameButPrediction s u) : u.ic.nest = s.ic.nest := by
  obtain ⟨b, f, rfl⟩ := h
  rfl

theorem ivtGet_eq (h : SameButPrediction s u) (v : Nat) : ivtGet u v = ivtGet s v := by
  obtain ⟨b, f, rfl⟩ := h
  rfl

theorem getX_eq (h : SameButPrediction s u) (r : Reg) : getX u r = getX s r := by
  obtain ⟨b, f, rfl⟩ := h
  rfl

theorem retireExc_eq (h : SameButPrediction s u) (i : Instr) : retireExc i u = retireExc i s := by
  obtain ⟨b, f, rfl⟩ := h
  rfl

theorem deliver (h : SameButPrediction s u) (e : Exc) (ret : Word) :
    SameButPrediction (deliver e ret s) (deliver e ret u) := by
  have hs := (h.countVector e.vector).pushEvent
    { kind := .exception, vector := e.vector, pc := ret, info0 := e.info0, info1 := e.info1 }
  unfold Machine.deliver
  rw [h.ivtGet_eq, h.nest_eq, h.params_eq]
  cases ivtGet s e.vector with
  | default => exact hs.stopCore ..
  | guest addr =>
    dsimp only
    split
    · exact hs.trapEnter ..
    · exact hs.stopCore ..

/-! ## System calls -/

theorem envService (h : SameButPrediction s u) (n : Nat) (pc : Word) :
    SameButPrediction (envService n pc s) (envService n pc u) := by
  obtain ⟨b, f, rfl⟩ := h
  unfold Machine.envService
  exact (setX ⟨b, f, rfl⟩ 1 _).setPc _

theorem defaultService (h : SameButPrediction s u) (pc : Word) :
    SameButPrediction (defaultService pc s) (defaultService pc u) := by
  unfold Machine.defaultService
  rw [h.getX_eq, h.getX_eq]
  dsimp only
  split
  · obtain ⟨b, f, rfl⟩ := h
    exact stopCore ⟨b, f, rfl⟩ ..
  · split
    · exact h.envService ..
    · exact (h.setX ..).setPc _

theorem syscallTrap (h : SameButPrediction s u) (pc : Word) :
    SameButPrediction (syscallTrap pc s) (syscallTrap pc u) := by
  have hs := h.countVector 128
  unfold Machine.syscallTrap
  rw [h.ivtGet_eq, h.nest_eq, h.params_eq, h.getX_eq]
  cases ivtGet s 128 with
  | default => exact hs.defaultService pc
  | guest addr =>
    dsimp only
    split
    · exact hs.trapEnter ..
    · exact hs.stopCore ..

/-! ## Memory accesses -/

theorem translateS (h : SameButPrediction s u) (va : Word) (acc : Acc) :
    SameAnswer (translateS s va acc) (translateS u va acc) := by
  obtain ⟨b, f, rfl⟩ := h
  unfold Machine.translateS userMode
  dsimp only
  split
  · exact .done _ ⟨b, f, rfl⟩
  · exact .raised _ ⟨b, f, rfl⟩

/-- The device's answer is the same too. -/
theorem mmioRead (h : SameButPrediction s u) (pa n : Nat) :
    (mmioRead u pa n).1 = (mmioRead s pa n).1 ∧ SameButPrediction (mmioRead s pa n).2 (mmioRead u pa n).2 := by
  obtain ⟨b, f, rfl⟩ := h
  unfold Machine.mmioRead
  dsimp only
  split
  · exact ⟨rfl, b, f, rfl⟩
  · exact ⟨rfl, b, f, rfl⟩

theorem mmioWrite (h : SameButPrediction s u) (pa n : Nat) (val : VWord) :
    SameButPrediction (mmioWrite s pa n val) (mmioWrite u pa n val) := by
  obtain ⟨b, f, rfl⟩ := h
  unfold Machine.mmioWrite
  dsimp only
  split
  · exact ⟨b, f, rfl⟩
  · exact ⟨b, f, rfl⟩

/-- The caches answer the same; a miss counts in both. -/
theorem ramRead (h : SameButPrediction s u) (pa n : Nat) :
    (ramRead u pa n).1 = (ramRead s pa n).1 ∧ SameButPrediction (ramRead s pa n).2 (ramRead u pa n).2 := by
  obtain ⟨b, f, rfl⟩ := h
  exact ⟨rfl, _, _, rfl⟩

theorem ramWrite (h : SameButPrediction s u) (pa n : Nat) (val : VWord) :
    SameButPrediction (ramWrite s pa n val) (ramWrite u pa n val) := by
  obtain ⟨b, f, rfl⟩ := h
  exact ⟨_, _, rfl⟩

theorem dropTlb (h : SameButPrediction s u) (va : Word) : SameButPrediction (dropTlb va s) (dropTlb va u) := by
  obtain ⟨b, f, rfl⟩ := h
  exact ⟨b, f, rfl⟩

theorem memRead (h : SameButPrediction s u) (va : Word) (n : Nat) : SameAnswer (memRead s va n) (memRead u va n) := by
  have translated := h.translateS va .read
  unfold Machine.memRead
  split
  · exact .raised _ h
  · generalize Machine.translateS s va .read = x, Machine.translateS u va .read = y at translated
    cases translated with
    | raised e ht => exact .raised e ht
    | done pa ht =>
      dsimp only
      rw [ht.params_eq, (ht.mmioRead pa n).1, (ht.ramRead pa n).1]
      split
      · exact .done _ (ht.mmioRead pa n).2
      · split
        · exact .raised _ h
        · exact .done _ (ht.ramRead pa n).2

theorem memWrite (h : SameButPrediction s u) (va : Word) (n : Nat) (val : VWord) :
    SameAnswer (memWrite s va n val) (memWrite u va n val) := by
  have translated := h.translateS va .write
  unfold Machine.memWrite
  split
  · exact .raised _ h
  · generalize Machine.translateS s va .write = x, Machine.translateS u va .write = y at translated
    cases translated with
    | raised e ht => exact .raised e ht
    | done pa ht =>
      dsimp only
      rw [ht.params_eq]
      split
      · exact .done _ ((ht.mmioWrite pa n val).dropTlb va)
      · split
        · exact .raised _ h
        · exact .done _ ((ht.ramWrite pa n val).dropTlb va)

/-! ## The templates of the execution chapters -/

theorem finishAlu (h : SameButPrediction s u) (rd : Reg) (o : AluOut) :
    SameButPrediction (finishAlu rd o s) (finishAlu rd o u) := by
  obtain ⟨b, f, hu⟩ := h.setX rd o.r
  unfold Machine.finishAlu
  rw [hu]
  exact ⟨b, _, rfl⟩

theorem finishVector (h : SameButPrediction s u) (vd : VReg) (r : VWord) :
    SameButPrediction (finishVector vd r s) (finishVector vd r u) :=
  (h.setV vd r).countRetired.countSimd.advance

/-- The predictors and the misprediction counts go apart here, and nothing else does. -/
theorem finishControl (h : SameButPrediction s u) (taken : Bool) (next : Word) :
    SameButPrediction (finishControl taken next s) (finishControl taken next u) := by
  obtain ⟨b, f, rfl⟩ := h
  exact ⟨_, _, rfl⟩

theorem loadWith (h : SameButPrediction s u) {commit : VWord → State → State}
    (hc : ∀ val {s u : State}, SameButPrediction s u → SameButPrediction (commit val s) (commit val u)) (ea : Word)
    (n : Nat) : SameNext (loadWith commit ea n s) (loadWith commit ea n u) := by
  have read := h.memRead ea n
  unfold Machine.loadWith
  generalize Machine.memRead s ea n = x, Machine.memRead u ea n = y at read
  cases read with
  | raised e ht =>
    dsimp only
    rw [h.pc_eq]
    exact .next (ht.deliver e _)
  | done val ht => exact .next (hc val ht.countMemOp).countRetired.advance

theorem storeWith (h : SameButPrediction s u) {retire : State → State}
    (hr : ∀ {s u : State}, SameButPrediction s u → SameButPrediction (retire s) (retire u)) (ea : Word) (n : Nat)
    (val : VWord) : SameNext (storeWith retire ea n val s) (storeWith retire ea n val u) := by
  have write := h.memWrite ea n val
  unfold Machine.storeWith
  generalize Machine.memWrite s ea n val = x, Machine.memWrite u ea n val = y at write
  cases write with
  | raised e ht =>
    dsimp only
    rw [h.pc_eq]
    exact .next (ht.deliver e _)
  | done _ ht => exact .next (hr ht.countMemOp).advance

theorem execHalt (h : SameButPrediction s u) (imm : BitVec 26) : SameNext (execHalt imm s) (execHalt imm u) := by
  unfold Machine.execHalt
  rw [h.retireExc_eq, h.pc_eq]
  cases retireExc (.halt imm) s with
  | some e => exact .next (h.deliver e _)
  | none => exact .next (h.countRetired.stopCore ..)

theorem execIret (h : SameButPrediction s u) (imm : BitVec 26) : SameNext (execIret imm s) (execIret imm u) := by
  unfold Machine.execIret
  rw [h.retireExc_eq, h.pc_eq]
  cases retireExc (.iret imm) s with
  | some e => exact .next (h.deliver e _)
  | none => exact .next h.countRetired.trapReturn

/-! ## The sixty instructions -/

/-- From states that differ at most in predictor and counters every instruction runs its template on the same
operands. -/
theorem exec (h : SameButPrediction s u) (i : Instr) : SameNext (exec i s) (exec i u) := by
  have same := h
  obtain ⟨b, f, rfl⟩ := h
  cases i
  case add | sub | mul | mulh | div | mod | and | or | xor | not | shl | shr | sar | rol | ror =>
    exact .next (same.finishAlu _ _)
  case cmp | test => exact .next ⟨b, _, rfl⟩
  case ld => exact .next (same.setX _ _).countRetired.advance
  case vadd | vsub | vmul | vmulh | vdiv | vmod | vand | vor | vxor | vnot | vshl | vshr | vsar | vrol | vror =>
    exact .next (same.finishVector _ _)
  case vaddf64 | vsubf64 | vmulf64 | vfmaf64 => exact .next (same.finishVector _ _)
  case beq | bne | blt | bge | bltu | bgeu | jmp | ret => exact .next (same.finishControl _ _)
  case call => exact .next ((same.finishControl _ _).setX _ _)
  case lb | lh | lw | ldd =>
    refine same.loadWith ?_ _ _
    exact fun _ _ _ h => h.setX _ _
  case vload =>
    rw [Claims.exec_vload, Claims.exec_vload]
    refine same.loadWith ?_ _ _
    exact fun _ _ _ h => (h.setV _ _).countSimd
  case sb | sh | sw | st => exact same.storeWith countRetired _ _ _
  case vstore => exact same.storeWith (fun h => h.countRetired.countSimd) _ _ _
  case nop => exact .next same.countRetired.advance
  case syscall => exact .next (same.countRetired.syscallTrap _)
  case halt imm => exact same.execHalt imm
  case iret imm => exact same.execIret imm

end SameButPrediction

end Sys2Proof.Machine

namespace Sys2Proof.Claims

open Sys2Proof.Machine

/-- Settles O26: both runs end in next states that differ at most in predictor and counters. -/
theorem predictionTransparency : Obligations.PredictionTransparency := by
  intro i s t b f run
  have both : SameNext (.next t) (exec i { s with predictor := b, perf := f }) :=
    run ▸ SameButPrediction.exec ⟨b, f, rfl⟩ i
  obtain ⟨_, next, b', f', rfl⟩ := both.exists_next
  exact ⟨b', f', next⟩

end Sys2Proof.Claims
end

