-- ==== Sys2Proof/Proofs/PrivilegedInstructions.lean ====
section
/-! HALT and IRET (spec/43_system.md R274, R276, R277): the check at retirement decides between the ProtectionFault and
the instruction's effect, and each effect is one update of the state; and the halted core (50_pipeline.md R325). -/

namespace Sys2Proof.Machine

variable {s : State}

/-! ## The check at retirement (43_system.md R276, R277) -/

theorem privileged_of_user (um : flagUM s.flags = true) (i : Instr) :
    privileged i s = some (protectionFault (encode i) 1) := if_pos um

theorem privileged_of_supervisor (sv : flagUM s.flags = false) (i : Instr) : privileged i s = none := by
  rw [privileged, userMode, sv]
  rfl

theorem retireExc_iret_of_supervisor (sv : flagUM s.flags = false) (imm : BitVec 26) :
    retireExc (.iret imm) s = if s.ic.nest = 0 then some (protectionFault (encode (.iret imm)) 2) else none := by
  rw [retireExc, privileged_of_supervisor sv]

/-- The mode is checked before the save stack. -/
theorem retireExc_iret_of_user (um : flagUM s.flags = true) (imm : BitVec 26) :
    retireExc (.iret imm) s = some (protectionFault (encode (.iret imm)) 1) := by
  rw [retireExc, privileged_of_user um]

/-! ## The effects -/

/-- Keeping the six flag bits is the remainder modulo 64 (10_state.md R30). -/
theorem flagBits_eq_ofNat_mod (f : Word) : flagBits f = BitVec.ofNat 64 (f.toNat % 64) := by
  apply BitVec.eq_of_toNat_eq
  have low : f.toNat &&& 0x3F = f.toNat % 64 := Nat.and_two_pow_sub_one_eq_mod f.toNat 6
  rw [flagBits, BitVec.toNat_and, BitVec.toNat_ofNat]
  exact low.trans (Nat.mod_eq_of_lt (by omega)).symm

/-! ## The halted core (43_system.md R274, 50_pipeline.md R325, 51_host_interface.md R374) -/

theorem step_of_halted (stopped : s.halted = true) : step s = .next s := if_pos stopped

theorem tick_of_halted (stopped : s.halted = true) : tick s = s := if_pos stopped

theorem stepPort_of_halted (stopped : s.halted = true) : stepPort s = (.halted, s) := if_pos stopped

end Sys2Proof.Machine

namespace Sys2Proof.Claims

open Sys2Proof.Machine

/-- An instruction that raises at retirement, which only HALT and IRET can, takes that exception with its own address
(50_pipeline.md R340). -/
theorem gives_deliver_of_retireExc {s : State} {i : Instr} {e : Exc} (raises : retireExc i s = some e) :
    Gives i s (deliver e s.pc s) := by
  cases i
  case halt imm => rw [Gives, exec, execHalt, raises]
  case iret imm => rw [Gives, exec, execIret, raises]
  all_goals cases raises

/-- Settles O27: the check passes and the core stops; and each level looks at `HALTED` first. -/
theorem haltStopsCore : Obligations.HaltStopsCore := by
  intro s imm
  refine ⟨fun sv => ?_,
    fun stopped => ⟨step_of_halted stopped, tick_of_halted stopped, stepPort_of_halted stopped⟩⟩
  have passes : retireExc (.halt imm) s = none := privileged_of_supervisor sv _
  rw [Gives, exec, execHalt, passes, haltCore, stopCore_eq]
  rfl

/-- Settles O28: the three cases in which HALT or IRET raises at retirement. -/
theorem privilegeFaults : Obligations.PrivilegeFaults := by
  intro s imm
  refine ⟨fun um => ⟨?_, ?_⟩, fun sv empty => ?_⟩
  · exact gives_deliver_of_retireExc (privileged_of_user um (.halt imm))
  · exact gives_deliver_of_retireExc (retireExc_iret_of_user um imm)
  · exact gives_deliver_of_retireExc ((retireExc_iret_of_supervisor sv imm).trans (if_pos empty))

/-- Settles O29: the check passes, and the frame's flags come back modulo 64. -/
theorem iretReturns : Obligations.IretReturns := by
  intro s imm f sv hasFrame top
  have passes : retireExc (.iret imm) s = none :=
    (retireExc_iret_of_supervisor sv imm).trans (if_neg hasFrame.ne')
  subst top
  rw [Gives, exec, execIret, passes, ← flagBits_eq_ofNat_mod]
  rfl

end Sys2Proof.Claims
end

