-- ==== Sys2Proof/Proofs/SystemCalls.lean ====
section
/-! SYSCALL (spec/43_system.md R271 to R273, 60_exceptions.md R413): which of its outcomes is taken is read off the law
`syscallTrap_cases` and, for the default service, `defaultService_cases`; each outcome is one update of the state. -/

namespace Sys2Proof.Machine

/-- The flat memory after the environment's writes, each made coherently and only inside RAM (43_system.md R272). -/
theorem flatByte_applyWrites {p : Params} (hp : p.valid = true) (ws : List (Nat × List Byte)) (a : Nat) :
    ∀ {h : Hierarchy}, HierOk p h →
      flatByte p (applyWrites p ws h) a = Claims.afterWrites p.memSize ws (flatByte p h) a := by
  induction ws with
  | nil => intro h _; rfl
  | cons w ws ih =>
    intro h hk
    obtain ⟨base, bytes⟩ := w
    rw [applyWrites, Claims.afterWrites]
    by_cases inside : base + bytes.length ≤ p.memSize
    · have written : flatByte p (hostWrite p h base bytes) = fun b =>
          if base ≤ b ∧ b < base + bytes.length then bytes.getD (b - base) 0 else flatByte p h b :=
        funext (flatByte_hostWrite hp hk base bytes)
      simp only [inside, if_true, true_and]
      rw [ih (hostWrite_hier hp hk base bytes inside), written]
    · simp only [inside, if_false, false_and]
      exact ih hk

/-! ## The default service by the number in R1 (43_system.md R272, R273) -/

section
variable {s : State} (pc : Word)

theorem defaultService_exit (zero : (getX s 1).toNat = 0) :
    defaultService pc s = stopCore .halted 0 pc (pc + 4) (getX s 2) { s with exitCode := getX s 2 } := by
  obtain ⟨-, service⟩ | ⟨low, -⟩ | ⟨large, -⟩ := defaultService_cases pc s
  · exact service
  all_goals omega

theorem defaultService_environment (low : 1 ≤ (getX s 1).toNat) (high : (getX s 1).toNat ≤ 4) :
    defaultService pc s = envService (getX s 1).toNat pc s := by
  obtain ⟨zero, -⟩ | ⟨-, -, service⟩ | ⟨large, -⟩ := defaultService_cases pc s
  · omega
  · exact service
  · omega

theorem defaultService_unknown (large : 5 ≤ (getX s 1).toNat) :
    defaultService pc s = setPc (pc + 4) (setX 1 (BitVec.allOnes 64) s) := by
  obtain ⟨zero, -⟩ | ⟨-, high, -⟩ | ⟨-, service⟩ := defaultService_cases pc s
  · omega
  · omega
  · exact service

end

/-- The services read, write, open and close as one update (43_system.md R272). -/
theorem envService_eq (n : Nat) (pc : Word) (s : State) :
    envService n pc s =
      { s with
        x := s.x.set 1 (Config.envSyscall s.envCalls n (getX s 2) (getX s 3) (getX s 4) s.flat).1,
        pc := pc + 4, envCalls := s.envCalls + 1,
        hier := if n = 1
          then applyWrites s.params (Config.envSyscall s.envCalls n (getX s 2) (getX s 3) (getX s 4) s.flat).2 s.hier
          else s.hier } := by
  rw [envService, setX_eq]
  rfl

end Sys2Proof.Machine

namespace Sys2Proof.Claims

open Sys2Proof.Machine

/-! ## What SYSCALL gives in each case -/

section
variable {s : State}

theorem gives_syscall_default {t : State} (hd : ivtGet s 128 = .default)
    (service : defaultService s.pc (countVector 128 (countRetired s)) = t) (imm : BitVec 26) :
    Gives (.syscall imm) s t := by
  subst service
  obtain ⟨-, trap⟩ | ⟨_, hg, -⟩ | ⟨_, hg, -⟩ := syscallTrap_cases s.pc (countRetired s)
  · exact congrArg Host.Outcome.next trap
  · cases hd.symm.trans hg
  · cases hd.symm.trans hg

theorem gives_syscall_enter {addr : Word} (hg : ivtGet s 128 = .guest addr) (room : s.ic.nest < s.params.maxNest)
    (imm : BitVec 26) :
    Gives (.syscall imm) s (trapEnter addr (s.pc + 4) 128 (getX s 1) 0 (countVector 128 (countRetired s))) := by
  obtain ⟨hd, -⟩ | ⟨_, hg', -, trap⟩ | ⟨_, -, full, -⟩ := syscallTrap_cases s.pc (countRetired s)
  · cases hg.symm.trans hd
  · cases hg.symm.trans hg'
    exact congrArg Host.Outcome.next trap
  · exact absurd room full.not_gt

theorem gives_syscall_full {addr : Word} (hg : ivtGet s 128 = .guest addr) (full : s.params.maxNest ≤ s.ic.nest)
    (imm : BitVec 26) :
    Gives (.syscall imm) s (stopCore .error 128 s.pc (s.pc + 4) 0 (countVector 128 (countRetired s))) := by
  obtain ⟨hd, -⟩ | ⟨_, -, room, -⟩ | ⟨_, -, -, trap⟩ := syscallTrap_cases s.pc (countRetired s)
  · cases hg.symm.trans hd
  · exact absurd room full.not_gt
  · exact congrArg Host.Outcome.next trap

end

/-! ## The statements -/

/-- Settles O30: with room the trap is entered, without the core stops. -/
theorem syscallToGuest : Obligations.SyscallToGuest := by
  intro s imm addr hg
  refine ⟨fun room => gives_syscall_enter hg room imm, fun full => ?_⟩
  have run := gives_syscall_full hg full imm
  rw [stopCore_eq] at run
  exact run

/-- Settles O31: the number in R1 picks exit or the unknown service. -/
theorem syscallExitAndUnknown : Obligations.SyscallExitAndUnknown := by
  intro s imm hd
  refine ⟨fun zero => ?_, fun large => ?_⟩
  · have number : (getX s 1).toNat = 0 := congrArg BitVec.toNat zero
    have run := gives_syscall_default hd (defaultService_exit s.pc number) imm
    rw [stopCore_eq] at run
    exact run
  · have run := gives_syscall_default hd (defaultService_unknown s.pc large) imm
    rw [setX_eq] at run
    exact run

/-- Settles O32: the environment's answer goes to R1, and the writes of a read reach the flat memory one by one. -/
theorem syscallEnvironment : Obligations.SyscallEnvironment := by
  intro s imm n answer hok hd number low high answered
  subst answered number
  have run := gives_syscall_default hd (defaultService_environment s.pc low high) imm
  rw [envService_eq] at run
  refine ⟨if (getX s 1).toNat = 1 then applyWrites s.params _ s.hier else s.hier, run, fun other => if_neg other,
    fun read a => ?_⟩
  rw [if_pos read]
  exact flatByte_applyWrites hok.params _ a hok.hier

end Sys2Proof.Claims
end

