-- ==== Sys2Proof/Proofs/VectorLanes.lean ====
section
/-! The vector instructions that stay in the registers (spec/44_simd.md R285 to R308): the template of R285 is one update
of `vd`, the pc, `PERF[0]` and `PERF[7]`, and each lane of its result is the lane function of the lanes of the sources. -/

namespace Sys2Proof.Claims

open Sys2Proof.Machine

/-! ## Lanes (10_state.md R26) -/

/-- Lane `k` of the value joined from four lanes is the `k`-th of them. -/
theorem laneBits_ofLanes (f : Nat → Word) {k : Nat} (hk : k < 4) :
    laneBits (ofLanes (f 0) (f 1) (f 2) (f 3)) k = f k := by
  apply BitVec.eq_of_getLsbD_eq
  intro i hi
  simp only [laneBits, ofLanes, BitVec.getLsbD_extractLsb', BitVec.getLsbD_append, hi, decide_true, Bool.true_and]
  interval_cases k <;> grind

/-! ## The template (44_simd.md R285) -/

section
variable {i : Instr} {s : State} {vd : VReg} {value : Nat → Word}

/-- A vector instruction that finishes with four lanes of these values gives them, and changes nothing else. -/
theorem givesLanes_of_ofLanes (f : Nat → Word)
    (run : exec i s = .next (finishVector vd (ofLanes (f 0) (f 1) (f 2) (f 3)) s)) (lanes : ∀ k, f k = value k) :
    GivesLanes i s vd value :=
  ⟨_, run, fun k hk => (laneBits_ofLanes f hk).trans (lanes k)⟩

variable {a b c : VWord}

theorem givesLanes_lanes1 {op : Word → Word} (run : exec i s = .next (finishVector vd (lanes1 op a) s))
    (lanes : ∀ k, op (laneBits a k) = value k) : GivesLanes i s vd value :=
  givesLanes_of_ofLanes (fun k => op (laneBits a k)) run lanes

theorem givesLanes_lanes2 {op : Word → Word → Word} (run : exec i s = .next (finishVector vd (lanes2 op a b) s))
    (lanes : ∀ k, op (laneBits a k) (laneBits b k) = value k) : GivesLanes i s vd value :=
  givesLanes_of_ofLanes (fun k => op (laneBits a k) (laneBits b k)) run lanes

theorem givesLanes_lanes3 {op : Word → Word → Word → Word}
    (run : exec i s = .next (finishVector vd (lanes3 op a b c) s))
    (lanes : ∀ k, op (laneBits a k) (laneBits b k) (laneBits c k) = value k) : GivesLanes i s vd value :=
  givesLanes_of_ofLanes (fun k => op (laneBits a k) (laneBits b k) (laneBits c k)) run lanes

/-- The integer instructions take the result of the scalar operation for each lane. -/
theorem givesLanes_resultOf {op : Word → Word → AluOut}
    (run : exec i s = .next (finishVector vd (lanes2 (resultOf op) a b) s))
    (result : ∀ k, op (laneBits a k) (laneBits b k) = plain (value k)) : GivesLanes i s vd value :=
  givesLanes_lanes2 run fun k => congrArg AluOut.r (result k)

end

/-- Settles O13: each lane is the result of the scalar operation, as its own statement gives it. -/
theorem vectorIntegerLanes : Obligations.VectorIntegerLanes := by
  intro s vd vs1 vs2 a b ha hb
  subst ha hb
  exact ⟨givesLanes_lanes2 rfl fun _ => congrArg AluOut.r (aluAdd_eq _ _), givesLanes_lanes2 rfl fun _ => rfl,
    givesLanes_resultOf rfl fun _ => aluMul_eq _ _, givesLanes_resultOf rfl fun _ => aluMulh_eq _ _,
    givesLanes_resultOf rfl fun _ => aluDiv_eq _ _, givesLanes_resultOf rfl fun _ => aluMod_eq _ _,
    givesLanes_resultOf rfl fun _ => rfl, givesLanes_resultOf rfl fun _ => rfl, givesLanes_resultOf rfl fun _ => rfl,
    givesLanes_lanes1 rfl fun _ => rfl,
    givesLanes_resultOf rfl fun _ => aluShl_eq _ _, givesLanes_resultOf rfl fun _ => aluShr_eq _ _,
    givesLanes_resultOf rfl fun _ => aluSar_eq _ _, givesLanes_resultOf rfl fun _ => aluRol_eq _ _,
    givesLanes_resultOf rfl fun _ => aluRor_eq _ _⟩

/-- Settles O14: the fused operation reads `vd` as the instruction found it. -/
theorem vectorDoubleLanes : Obligations.VectorDoubleLanes := by
  intro s vd vs1 vs2 a b c ha hb hc
  subst ha hb hc
  exact ⟨givesLanes_lanes2 rfl fun _ => rfl, givesLanes_lanes2 rfl fun _ => rfl, givesLanes_lanes2 rfl fun _ => rfl,
    givesLanes_lanes3 rfl fun _ => rfl⟩

end Sys2Proof.Claims
end

