-- ==== Sys2Proof/Proofs/VectorRamAccess.lean ====
section
/-! VLOAD and VSTORE on RAM (spec/44_simd.md R310, R311): the access is that of the scalar forms with 32 bytes, and the
instruction retires as a vector one. -/

namespace Sys2Proof.Claims

open Sys2Proof.Machine

section
variable {s t : State} {pa : Nat} {vd : VReg} {rs1 : Reg} {imm : BitVec 16} {val : VWord} {a : Accessed}

theorem accessSize_vector : AccessSize 32 := by simp [AccessSize]

theorem exec_vload_ram (h : ToRam s (address s rs1 imm) .read 32 pa t)
    (hr : memRead s (address s rs1 imm) 32 = .done val (afterAccess a t)) :
    exec (.vload vd rs1 imm) s = .next (ramRetired s a 1 s.x (s.v.set vd.toNat val) t.mmu) := by
  rw [exec_vload, loadWith, hr]
  obtain ⟨mmu, rfl⟩ := h.translated_state
  rfl

theorem exec_vstore_ram (h : ToRam s (address s rs1 imm) .write 32 pa t)
    (hw : memWrite s (address s rs1 imm) 32 (getV s vd) = .done () (dropTlb (address s rs1 imm) (afterAccess a t))) :
    exec (.vstore vd rs1 imm) s = .next (ramRetired s a 1 s.x s.v (dropTlb (address s rs1 imm) t).mmu) := by
  rw [exec_vstore, storeWith, hw]
  obtain ⟨mmu, rfl⟩ := h.translated_state
  rfl

end

/-- Settles O19: the read answers the 32 bytes of the flat memory, and the write replaces them. -/
theorem vectorLoadStoreRam : Obligations.VectorLoadStoreRam := by
  intro s t vd rs1 imm pa hok
  refine ⟨fun ram => ?_, fun ram => ?_⟩
  · obtain ⟨val, a, read, bytes, memory⟩ := ram.reads hok accessSize_vector
    exact ⟨_, val, exec_vload_ram ram read, bytes, rfl, rfl, loadedFromRam_ramRetired memory t ..⟩
  · obtain ⟨a, write, memory⟩ := ram.writes hok accessSize_vector (getV s vd)
    exact ⟨_, exec_vstore_ram ram write, storedToRam_ramRetired ram memory 1⟩

end Sys2Proof.Claims
end

