-- ==== Sys2Proof/Proofs/DoubleFormat.lean ====
section
/-! What a double-precision pattern stands for (spec/44_simd.md R312): its class, its magnitude in units of 2^−1074, and
the pattern of a given sign and magnitude. -/

namespace Sys2Proof.Machine

/-- The magnitude of a finite double, in units of 2^−1074. -/
def f64Mag (w : Word) : Nat := if f64Exp w = 0 then f64Frac w else (2 ^ 52 + f64Frac w) * 2 ^ (f64Exp w - 1)

/-! ## Reading a pattern -/

section
variable {w : Word}

theorem isNan_iff : Claims.F64IsNan w ↔ f64Exp w = 2047 ∧ f64Frac w ≠ 0 := Iff.rfl

theorem isInf_iff : Claims.F64IsInf w ↔ f64Exp w = 2047 ∧ f64Frac w = 0 := Iff.rfl

theorem finite_iff : Claims.F64Finite w ↔ f64Exp w ≠ 2047 := Iff.rfl

theorem f64Decode_nan (h : Claims.F64IsNan w) : f64Decode w = .nan := by
  obtain ⟨hexp, hfrac⟩ := isNan_iff.mp h
  rw [f64Decode, if_pos hexp, if_neg hfrac]

theorem f64Decode_inf (h : Claims.F64IsInf w) : f64Decode w = .inf w.msb := by
  obtain ⟨hexp, hfrac⟩ := isInf_iff.mp h
  rw [f64Decode, if_pos hexp, if_pos hfrac]

theorem f64Decode_finite (h : Claims.F64Finite w) : f64Decode w = .fin w.msb (f64Mag w) := by
  rw [f64Decode, if_neg (finite_iff.mp h), f64Mag]
  split <;> rfl

/-- Sign and magnitude are those of the value the statements give a finite double. -/
theorem signedMag_f64Mag (w : Word) : signedMag w.msb (f64Mag w) = Claims.f64Units w := by
  have value : Claims.f64Units w = (if w.msb then -1 else 1) * (f64Mag w : Int) := by
    rw [Claims.f64Units, f64Mag, f64Exp, f64Frac]
    push_cast
    rfl
  rw [value, signedMag]
  split
  · rw [neg_one_mul]
  · rw [one_mul]

theorem f64Units_eq_zero_iff : Claims.f64Units w = 0 ↔ f64Mag w = 0 := by
  rw [← signedMag_f64Mag, signedMag]
  split <;> omega

theorem signedMag_xor_mul (s t : Bool) (m n : Nat) :
    signedMag (s ^^ t) (m * n) = signedMag s m * signedMag t n := by
  cases s <;> cases t <;> simp [signedMag]

end

/-! ## Writing a pattern -/

section
variable {neg : Bool} {bits : Nat}

theorem toNat_f64Signed (h : bits < 2 ^ 63) :
    (f64Signed neg bits).toNat = (if neg then 2 ^ 63 else 0) + bits := by
  rw [f64Signed, BitVec.toNat_ofNat]
  split <;> omega

theorem f64Signed_msb (h : bits < 2 ^ 63) : (f64Signed neg bits).msb = neg := by
  rw [BitVec.msb_eq_decide, toNat_f64Signed h]
  cases neg
  · simpa using h
  · simp

theorem f64Exp_f64Signed (h : bits < 2 ^ 63) : f64Exp (f64Signed neg bits) = bits / 2 ^ 52 := by
  rw [f64Exp, toNat_f64Signed h]
  split <;> omega

theorem f64Frac_f64Signed (h : bits < 2 ^ 63) : f64Frac (f64Signed neg bits) = bits % 2 ^ 52 := by
  rw [f64Frac, toNat_f64Signed h]
  split <;> omega

/-- A pattern is its sign over its exponent and fraction. -/
theorem f64Signed_msb_exp_frac (w : Word) : f64Signed w.msb (f64Exp w * 2 ^ 52 + f64Frac w) = w := by
  have hw := w.isLt
  apply BitVec.eq_of_toNat_eq
  rw [toNat_f64Signed (by rw [f64Exp, f64Frac]; omega), BitVec.msb_eq_decide, f64Exp, f64Frac]
  simp only [decide_eq_true_eq]
  split <;> omega

/-- The last bit of the pattern is that of the magnitude pattern. -/
theorem f64Signed_getLsbD_zero (h : bits < 2 ^ 63) (even : bits % 2 = 0) :
    (f64Signed neg bits).getLsbD 0 = false := by
  rw [BitVec.getLsbD, toNat_f64Signed h, Nat.testBit_zero]
  split <;> simp <;> omega

/-- With `q` of at most 53 bits over the exponent field `k`, and all 53 unless `k` is 0, a pattern has magnitude `q · 2^k`;
a carry out of the fraction runs into the exponent. -/
theorem f64Mag_f64Signed {k q : Nat} (h : k * 2 ^ 52 + q < 2 ^ 63) (le : q ≤ 2 ^ 53) (normal : k ≠ 0 → 2 ^ 52 ≤ q) :
    f64Mag (f64Signed neg (k * 2 ^ 52 + q)) = q * 2 ^ k := by
  rw [f64Mag, f64Exp_f64Signed h, f64Frac_f64Signed h]
  obtain small | ⟨low, high⟩ | full : q < 2 ^ 52 ∨ (2 ^ 52 ≤ q ∧ q < 2 ^ 53) ∨ q = 2 ^ 53 := by omega
  · have subnormal : k = 0 := by omega
    have field : (k * 2 ^ 52 + q) / 2 ^ 52 = 0 := by omega
    rw [if_pos field, subnormal]
    omega
  · have field : (k * 2 ^ 52 + q) / 2 ^ 52 = k + 1 := by omega
    have fraction : 2 ^ 52 + (k * 2 ^ 52 + q) % 2 ^ 52 = q := by omega
    rw [if_neg (by omega), field, fraction, Nat.add_sub_cancel]
  · have field : (k * 2 ^ 52 + q) / 2 ^ 52 = k + 2 := by omega
    have fraction : 2 ^ 52 + (k * 2 ^ 52 + q) % 2 ^ 52 = 2 ^ 52 := by omega
    rw [if_neg (by omega), field, fraction, full, show k + 2 - 1 = k + 1 by omega]
    ring

/-- Conversely each magnitude is a number of at most 53 bits at some exponent. -/
theorem f64Mag_eq_mul_two_pow (w : Word) : ∃ q k, f64Mag w = q * 2 ^ k ∧ q < 2 ^ 53 := by
  rw [f64Mag]
  have fraction : f64Frac w < 2 ^ 52 := Nat.mod_lt _ (by norm_num)
  split
  · exact ⟨f64Frac w, 0, by rw [pow_zero, mul_one], by omega⟩
  · exact ⟨_, _, rfl, by omega⟩

end

/-! ## Infinities and the inverted sign -/

theorem isInf_f64Inf (neg : Bool) : Claims.F64IsInf (f64Inf neg) := by
  cases neg <;> exact ⟨rfl, rfl⟩

theorem f64Inf_msb (neg : Bool) : (f64Inf neg).msb = neg := f64Signed_msb (by norm_num)

/-- An infinity is the infinity of its sign. -/
theorem eq_f64Inf {w : Word} (h : Claims.F64IsInf w) : w = f64Inf w.msb := by
  obtain ⟨hexp, hfrac⟩ := isInf_iff.mp h
  have pattern := f64Signed_msb_exp_frac w
  rw [hexp, hfrac] at pattern
  exact pattern.symm

theorem f64Neg_msb (w : Word) : (f64Neg w).msb = !w.msb := by
  rw [f64Neg, BitVec.msb_xor]
  exact Bool.xor_true _

theorem f64Exp_f64Neg (w : Word) : f64Exp (f64Neg w) = f64Exp w := by
  rw [f64Exp, f64Neg, BitVec.toNat_xor, Nat.xor_div_two_pow, Nat.xor_mod_two_pow]
  exact Nat.xor_zero _

theorem f64Frac_f64Neg (w : Word) : f64Frac (f64Neg w) = f64Frac w := by
  rw [f64Frac, f64Neg, BitVec.toNat_xor, Nat.xor_mod_two_pow]
  exact Nat.xor_zero _

section
variable {w : Word}

theorem isNan_f64Neg (h : Claims.F64IsNan w) : Claims.F64IsNan (f64Neg w) := by
  rwa [isNan_iff, f64Exp_f64Neg, f64Frac_f64Neg]

theorem isInf_f64Neg (h : Claims.F64IsInf w) : Claims.F64IsInf (f64Neg w) := by
  rwa [isInf_iff, f64Exp_f64Neg, f64Frac_f64Neg]

theorem finite_f64Neg (h : Claims.F64Finite w) : Claims.F64Finite (f64Neg w) := by
  rwa [finite_iff, f64Exp_f64Neg]

theorem f64Units_f64Neg (w : Word) : Claims.f64Units (f64Neg w) = -Claims.f64Units w := by
  have magnitude : f64Mag (f64Neg w) = f64Mag w := by rw [f64Mag, f64Exp_f64Neg, f64Frac_f64Neg, ← f64Mag]
  rw [← signedMag_f64Mag, ← signedMag_f64Mag, magnitude, f64Neg_msb]
  cases w.msb <;> simp [signedMag]

end

end Sys2Proof.Machine
end

