-- ==== Sys2Proof/Proofs/DoubleRounding.lean ====
section
/-! Rounding once to nearest even (spec/44_simd.md R312 a to c). A double below the last kept bit's binade lies below the
value and below a multiple of that bit; every other double is a multiple of it, and among the multiples `roundShift`
picks the nearest. -/

namespace Sys2Proof.Machine

/-! ## The rounded shift -/

/-- The rounded quotient is off by at most half, and by half only where it is even. -/
theorem roundShift_spec (n u : Nat) :
    2 * n ≤ 2 * (roundShift n u * 2 ^ u) + 2 ^ u ∧ 2 * (roundShift n u * 2 ^ u) ≤ 2 * n + 2 ^ u ∧
    (2 * n = 2 * (roundShift n u * 2 ^ u) + 2 ^ u ∨ 2 * (roundShift n u * 2 ^ u) = 2 * n + 2 ^ u →
      roundShift n u % 2 = 0) := by
  have division : n / 2 ^ u * 2 ^ u + n % 2 ^ u = n := Nat.div_add_mod' n (2 ^ u)
  have remainder : n % 2 ^ u < 2 ^ u := Nat.mod_lt _ (Nat.two_pow_pos u)
  have up : (n / 2 ^ u + 1) * 2 ^ u = n / 2 ^ u * 2 ^ u + 2 ^ u := Nat.succ_mul _ _
  simp only [roundShift]
  split
  · omega
  · split
    · omega
    · obtain even | odd := Nat.mod_two_eq_zero_or_one (n / 2 ^ u)
      · rw [even, Nat.add_zero]
        omega
      · rw [odd]
        omega

/-- No multiple is nearer to `n` than the rounded one, and none is as near unless that is even. -/
theorem roundShift_nearest (n u : Nat) (z : Int) :
    ((roundShift n u * 2 ^ u : Int) - n).natAbs ≤ (z * 2 ^ u - n).natAbs ∧
    (((roundShift n u * 2 ^ u : Int) - n).natAbs = (z * 2 ^ u - n).natAbs → z ≠ roundShift n u →
      roundShift n u % 2 = 0) := by
  obtain ⟨low, high, tie⟩ := roundShift_spec n u
  generalize roundShift n u = r at *
  have unit := Nat.two_pow_pos u
  zify at low high tie unit
  generalize (2 : Int) ^ u = d at *
  obtain below | rfl | above := lt_trichotomy z r
  · have apart : (z + 1) * d ≤ r * d := Int.mul_le_mul_of_nonneg_right below unit.le
    rw [Int.add_mul, Int.one_mul] at apart
    omega
  · exact ⟨le_rfl, fun _ h => absurd rfl h⟩
  · have apart : (r + 1) * d ≤ z * d := Int.mul_le_mul_of_nonneg_right above unit.le
    rw [Int.add_mul, Int.one_mul] at apart
    omega

/-- The rounded quotient reaches an even bound as soon as the value reaches half below it. -/
theorem le_roundShift {n u m : Nat} (even : m % 2 = 0) (h : 2 * (m * 2 ^ u) ≤ 2 * n + 2 ^ u) :
    m ≤ roundShift n u := by
  obtain ⟨low, -, tie⟩ := roundShift_spec n u
  by_contra less
  have apart : (roundShift n u + 1) * 2 ^ u ≤ m * 2 ^ u := Nat.mul_le_mul_right _ (by omega)
  rw [Nat.succ_mul] at apart
  have half : 2 * n = 2 * (roundShift n u * 2 ^ u) + 2 ^ u := by omega
  have next : m = roundShift n u + 1 :=
    Nat.eq_of_mul_eq_mul_right (Nat.two_pow_pos u) (by rw [Nat.succ_mul]; omega)
  have := tie (.inl half)
  omega

/-- And stays at a bound while the value is less than half above it. -/
theorem roundShift_le {n u m : Nat} (h : 2 * n < 2 * (m * 2 ^ u) + 2 ^ u) : roundShift n u ≤ m := by
  obtain ⟨-, high, -⟩ := roundShift_spec n u
  by_contra more
  have apart : (m + 1) * 2 ^ u ≤ roundShift n u * 2 ^ u := Nat.mul_le_mul_right _ (by omega)
  rw [Nat.succ_mul] at apart
  omega

/-! ## The last kept bit -/

theorem le_f64Ulp (n : Nat) : 1074 ≤ f64Ulp n := le_max_right _ _

theorem lt_two_pow_f64Ulp (n : Nat) : n < 2 ^ 53 * 2 ^ f64Ulp n := by
  have position : n.log2 + 1 ≤ 53 + f64Ulp n := by
    have := le_max_left (n.log2 - 52) 1074
    rw [f64Ulp]
    omega
  rw [← pow_add]
  exact Nat.lt_log2_self.trans_le (Nat.pow_le_pow_right (by norm_num) position)

/-- Above the subnormals the value has all 53 bits. -/
theorem two_pow_f64Ulp_le {n : Nat} (normal : f64Ulp n ≠ 1074) : 2 ^ 52 * 2 ^ f64Ulp n ≤ n := by
  have position : 1074 < n.log2 - 52 ∧ f64Ulp n = n.log2 - 52 := by
    rw [f64Ulp] at normal ⊢
    omega
  have leading : 52 + f64Ulp n = n.log2 := by omega
  have nonzero : n ≠ 0 := by
    rintro rfl
    simp at position
  rw [← pow_add, leading]
  exact Nat.log2_self_le nonzero

/-! ## Overflow -/

/-- The magnitude pattern before the cut at infinity. -/
def f64Unbounded (n : Nat) : Nat := (f64Ulp n - 1074) * 2 ^ 52 + roundShift n (f64Ulp n)

theorem f64RoundMag_eq (n : Nat) : f64RoundMag n = min (f64Unbounded n) 0x7FF0000000000000 := rfl

/-- The rounded significand has at most 53 bits, or is 2^53, and it has 53 above the subnormals. -/
theorem roundShift_f64Ulp_bounds (n : Nat) :
    roundShift n (f64Ulp n) ≤ 2 ^ 53 ∧ (f64Ulp n - 1074 ≠ 0 → 2 ^ 52 ≤ roundShift n (f64Ulp n)) := by
  have value := lt_two_pow_f64Ulp n
  refine ⟨roundShift_le (by omega), fun normal => le_roundShift rfl ?_⟩
  have := two_pow_f64Ulp_le (n := n) (by omega)
  omega

/-- From half an ulp beyond the greatest double on, and only there, the pattern reaches infinity's. The half ulp is 2^3118
in units of 2^−2148; its exponent is a variable here so that the power stays a power. -/
theorem le_f64Unbounded_iff (n : Nat) {t : Nat} (ht : t = 3118) :
    0x7FF0000000000000 ≤ f64Unbounded n ↔ (2 ^ 54 - 1) * 2 ^ t ≤ n := by
  obtain ⟨small, full⟩ := roundShift_f64Ulp_bounds n
  have lower := le_f64Ulp n
  have value := lt_two_pow_f64Ulp n
  have double : 2 ^ (t + 1) = 2 * 2 ^ t := pow_succ' 2 t
  rw [f64Unbounded]
  obtain below | greatest | beyond := lt_trichotomy (f64Ulp n) (t + 1)
  · have power : 2 ^ f64Ulp n ≤ 2 ^ t := Nat.pow_le_pow_right (by norm_num) (by omega)
    omega
  · rw [greatest] at small full lower value ⊢
    have round_up : 2 ^ 53 ≤ roundShift n (t + 1) ↔ (2 ^ 54 - 1) * 2 ^ t ≤ n := by
      refine ⟨fun reached => ?_, fun large => le_roundShift rfl (by omega)⟩
      by_contra less
      have : roundShift n (t + 1) ≤ 2 ^ 53 - 1 := roundShift_le (by omega)
      omega
    omega
  · have power : 2 * 2 ^ (t + 1) ≤ 2 ^ f64Ulp n := by
      rw [← pow_succ']
      exact Nat.pow_le_pow_right (by norm_num) (by omega)
    have large := two_pow_f64Ulp_le (n := n) (by omega)
    have significand := full (by omega)
    omega

theorem f64RoundMag_overflow {n : Nat} (h : (2 ^ 54 - 1) * 2 ^ 3118 ≤ n) : f64RoundMag n = 0x7FF0000000000000 :=
  (f64RoundMag_eq n).trans (min_eq_right ((le_f64Unbounded_iff n rfl).mpr h))

theorem f64RoundMag_finite {n : Nat} (h : n < (2 ^ 54 - 1) * 2 ^ 3118) :
    f64RoundMag n = f64Unbounded n ∧ f64Unbounded n < 0x7FF0000000000000 := by
  have bounded := lt_of_not_ge fun reached => h.not_ge ((le_f64Unbounded_iff n rfl).mp reached)
  exact ⟨(f64RoundMag_eq n).trans (min_eq_left bounded.le), bounded⟩

theorem f64RoundMag_lt (n : Nat) : f64RoundMag n < 2 ^ 63 := (min_le_right _ _).trans_lt (by norm_num)

/-! ## The nearest double -/

/-- The values of the finite doubles, in units of 2^−2148: integers of at most 53 bits at an exponent from 1074 on. -/
def F64Grid (m : Int) : Prop := ∃ (q : Int) (k : Nat), m = q * 2 ^ k ∧ q.natAbs < 2 ^ 53 ∧ 1074 ≤ k

theorem F64Grid.neg {m : Int} (h : F64Grid m) : F64Grid (-m) := by
  obtain ⟨q, k, rfl, small, fine⟩ := h
  exact ⟨-q, k, (Int.neg_mul _ _).symm, by rwa [Int.natAbs_neg], fine⟩

theorem signedMag_mul_two_pow (neg : Bool) (q k : Nat) : signedMag neg (q * 2 ^ k) = signedMag neg q * 2 ^ k := by
  cases neg <;> simp [signedMag]

theorem f64Grid_f64Units (w : Word) : F64Grid (2 ^ 1074 * Claims.f64Units w) := by
  obtain ⟨q, k, magnitude, small⟩ := f64Mag_eq_mul_two_pow w
  refine ⟨signedMag w.msb q, 1074 + k, ?_, ?_, Nat.le_add_right _ _⟩
  · rw [← signedMag_f64Mag, magnitude, signedMag_mul_two_pow, mul_left_comm, ← pow_add]
  · rw [signedMag]
    split <;> omega

/-- What `n` is rounded to. -/
def f64Rounded (n : Nat) : Nat := roundShift n (f64Ulp n) * 2 ^ f64Ulp n

/-- A value on the grid is a multiple of the last kept bit of `n`, or lies below the binade of `n`. -/
theorem F64Grid.multiple_or_below {m : Int} (h : F64Grid m) (n : Nat) :
    (∃ z, m = z * 2 ^ f64Ulp n) ∨ (f64Ulp n ≠ 1074 ∧ m < 2 ^ 52 * 2 ^ f64Ulp n) := by
  obtain ⟨q, k, rfl, small, lower⟩ := h
  obtain fine | coarse := Nat.lt_or_ge k (f64Ulp n)
  · have power : (2 * 2 ^ k : Int) ≤ 2 ^ f64Ulp n := by
      rw [← pow_succ']
      exact pow_le_pow_right₀ (by norm_num) fine
    have significand : q * 2 ^ k < 2 ^ 53 * 2 ^ k := Int.mul_lt_mul_of_pos_right (by omega) (by positivity)
    exact .inr ⟨by omega, by omega⟩
  · exact .inl ⟨q * 2 ^ (k - f64Ulp n), by rw [mul_assoc, ← pow_add, Nat.sub_add_cancel coarse]⟩

/-- No value on the grid is nearer to `n` than the rounded one, and none is as near unless its significand is even. -/
theorem f64Rounded_nearest (n : Nat) {m : Int} (grid : F64Grid m) :
    ((f64Rounded n : Int) - n).natAbs ≤ (m - n).natAbs ∧
    (((f64Rounded n : Int) - n).natAbs = (m - n).natAbs → m ≠ f64Rounded n → roundShift n (f64Ulp n) % 2 = 0) := by
  have value : (f64Rounded n : Int) = roundShift n (f64Ulp n) * 2 ^ f64Ulp n := by
    rw [f64Rounded]
    push_cast
    rfl
  rw [value]
  obtain ⟨z, rfl⟩ | ⟨normal, below⟩ := grid.multiple_or_below n
  · obtain ⟨near, tie⟩ := roundShift_nearest n (f64Ulp n) z
    exact ⟨near, fun same other => tie same fun h => other (by rw [h])⟩
  · have leading := two_pow_f64Ulp_le normal
    obtain ⟨near, -⟩ := roundShift_nearest n (f64Ulp n) (2 ^ 52)
    zify at leading
    omega

/-- The same for a value of either sign: negating value and double keeps their distance. -/
theorem f64Rounded_nearest_signed (e : Int) {m : Int} (grid : F64Grid m) :
    (signedMag (decide (e < 0)) (f64Rounded e.natAbs) - e).natAbs ≤ (m - e).natAbs ∧
    ((signedMag (decide (e < 0)) (f64Rounded e.natAbs) - e).natAbs = (m - e).natAbs →
      m ≠ signedMag (decide (e < 0)) (f64Rounded e.natAbs) → roundShift e.natAbs (f64Ulp e.natAbs) % 2 = 0) := by
  by_cases negative : e < 0
  · obtain ⟨near, tie⟩ := f64Rounded_nearest e.natAbs grid.neg
    rw [signedMag, decide_eq_true negative, if_pos rfl]
    exact ⟨by omega, fun same other => tie (by omega) (by omega)⟩
  · obtain ⟨near, tie⟩ := f64Rounded_nearest e.natAbs grid
    rw [signedMag, decide_eq_false negative, if_neg Bool.false_ne_true]
    exact ⟨by omega, fun same other => tie (by omega) (by omega)⟩

/-! ## The pattern -/

/-- Where the value does not overflow, the pattern stands for the rounded value and its last bit for the significand's. -/
theorem f64Signed_f64RoundMag {n : Nat} (neg : Bool) (h : n < (2 ^ 54 - 1) * 2 ^ 3118) :
    Claims.F64Finite (f64Signed neg (f64RoundMag n)) ∧
    2 ^ 1074 * Claims.f64Units (f64Signed neg (f64RoundMag n)) = signedMag neg (f64Rounded n) ∧
    (roundShift n (f64Ulp n) % 2 = 0 → (f64Signed neg (f64RoundMag n)).getLsbD 0 = false) := by
  obtain ⟨pattern, bounded⟩ := f64RoundMag_finite h
  obtain ⟨small, full⟩ := roundShift_f64Ulp_bounds n
  have fits : f64Unbounded n < 2 ^ 63 := by omega
  have magnitude : f64Mag (f64Signed neg (f64Unbounded n)) =
      roundShift n (f64Ulp n) * 2 ^ (f64Ulp n - 1074) := f64Mag_f64Signed fits small full
  rw [pattern]
  refine ⟨?_, ?_, fun even => f64Signed_getLsbD_zero fits ?_⟩
  · rw [finite_iff, f64Exp_f64Signed fits]
    omega
  · rw [← signedMag_f64Mag, f64Signed_msb fits, magnitude, signedMag_mul_two_pow, mul_left_comm, ← pow_add,
      Nat.add_sub_cancel' (le_f64Ulp n), f64Rounded, signedMag_mul_two_pow]
  · rw [f64Unbounded]
    omega

end Sys2Proof.Machine

namespace Sys2Proof.Claims

open Sys2Proof.Machine

/-- An exact zero is the zero of the sign given. -/
theorem roundedOnce_zero (zeroNeg : Bool) : RoundedOnce 0 zeroNeg (f64Round 0 zeroNeg) where
  overflow large := absurd large (Nat.not_le.mpr (by positivity))
  nearest _ := by
    have zero : F64Finite (f64Round 0 zeroNeg) ∧ f64Units (f64Round 0 zeroNeg) = 0 := by
      unfold F64Finite
      cases zeroNeg <;> decide
    obtain ⟨finite, units⟩ := zero
    refine ⟨finite, fun x _ => ?_⟩
    rw [units, Int.mul_zero, Int.sub_zero, Int.sub_zero]
    refine ⟨Nat.zero_le _, fun same other => absurd ?_ other⟩
    exact (mul_eq_zero.mp (Int.natAbs_eq_zero.mp same.symm)).resolve_left (by positivity)
  sign nonzero := absurd rfl nonzero
  zero _ := by cases zeroNeg <;> rfl

/-- A non-zero value keeps its sign, and its magnitude is rounded. -/
theorem roundedOnce_nonzero {e : Int} (nonzero : e ≠ 0) (zeroNeg : Bool) :
    RoundedOnce e zeroNeg (f64Round e zeroNeg) := by
  have pattern : f64Round e zeroNeg = f64Signed (decide (e < 0)) (f64RoundMag e.natAbs) := if_neg nonzero
  rw [pattern]
  refine ⟨fun large => ?_, fun inside => ?_, fun _ => f64Signed_msb (f64RoundMag_lt _), fun zero => absurd zero nonzero⟩
  · rw [f64RoundMag_overflow large]
    exact isInf_f64Inf _
  · obtain ⟨finite, units, even⟩ := f64Signed_f64RoundMag (decide (e < 0)) inside
    refine ⟨finite, fun x _ => ?_⟩
    obtain ⟨near, tie⟩ := f64Rounded_nearest_signed e (f64Grid_f64Units x)
    rw [← units] at near tie
    exact ⟨near, fun same other => even (tie same fun h => other (mul_left_cancel₀ (by positivity) h))⟩

theorem roundedOnce_f64Round (e : Int) (zeroNeg : Bool) : RoundedOnce e zeroNeg (f64Round e zeroNeg) := by
  obtain rfl | nonzero := eq_or_ne e 0
  · exact roundedOnce_zero zeroNeg
  · exact roundedOnce_nonzero nonzero zeroNeg

/-! ## The four operations on finite operands (44_simd.md R305 to R308) -/

section
variable {a b c : Word}

theorem f64Add_finite (ha : F64Finite a) (hb : F64Finite b) :
    f64Add a b = f64Round ((f64Units a + f64Units b) * 2 ^ 1074) (a.msb && b.msb) := by
  rw [f64Add, f64Decode_finite ha, f64Decode_finite hb, ← signedMag_f64Mag, ← signedMag_f64Mag]

theorem f64Sub_finite (ha : F64Finite a) (hb : F64Finite b) :
    f64Sub a b = f64Round ((f64Units a - f64Units b) * 2 ^ 1074) (a.msb && !b.msb) := by
  rw [f64Sub, f64Add_finite ha (finite_f64Neg hb), f64Units_f64Neg, f64Neg_msb, ← Int.sub_eq_add_neg]

theorem f64Mul_finite (ha : F64Finite a) (hb : F64Finite b) :
    f64Mul a b = f64Round (f64Units a * f64Units b) (a.msb ^^ b.msb) := by
  rw [f64Mul, f64Decode_finite ha, f64Decode_finite hb, ← signedMag_f64Mag, ← signedMag_f64Mag, ← signedMag_xor_mul]

theorem f64Fma_finite (ha : F64Finite a) (hb : F64Finite b) (hc : F64Finite c) :
    f64Fma a b c = f64Round (f64Units a * f64Units b + f64Units c * 2 ^ 1074) ((a.msb ^^ b.msb) && c.msb) := by
  rw [f64Fma, f64Decode_finite ha, f64Decode_finite hb, f64Decode_finite hc, ← signedMag_f64Mag, ← signedMag_f64Mag,
    ← signedMag_f64Mag, ← signedMag_xor_mul]

end

/-- Settles O15: each operation is one rounding of its exact value. -/
theorem doublesRoundOnce : Obligations.DoublesRoundOnce := by
  intro a b c ha hb hc
  rw [f64Add_finite ha hb, f64Sub_finite ha hb, f64Mul_finite ha hb, f64Fma_finite ha hb hc]
  exact ⟨roundedOnce_f64Round .., roundedOnce_f64Round .., roundedOnce_f64Round .., roundedOnce_f64Round ..⟩

end Sys2Proof.Claims
end

