-- ==== Sys2Proof/Proofs/DoubleSpecials.lean ====
section
/-! NaN and infinite operands (spec/44_simd.md R312 c, d): what each operation answers for each class of operand. -/

namespace Sys2Proof.Claims

open Sys2Proof.Machine

section
variable {a b c : Word}

/-! ## NaN operands -/

theorem f64Add_nan (h : F64IsNan a ∨ F64IsNan b) : f64Add a b = f64Nan := by
  obtain h | h := h
  · rw [f64Add, f64Decode_nan h]
  · rw [f64Add, f64Decode_nan h]
    cases f64Decode a <;> rfl

theorem f64Sub_nan (h : F64IsNan a ∨ F64IsNan b) : f64Sub a b = f64Nan := f64Add_nan (h.imp_right isNan_f64Neg)

theorem f64Mul_nan (h : F64IsNan a ∨ F64IsNan b) : f64Mul a b = f64Nan := by
  obtain h | h := h
  · rw [f64Mul, f64Decode_nan h]
  · rw [f64Mul, f64Decode_nan h]
    cases f64Decode a <;> rfl

theorem f64Fma_nan_factor (h : F64IsNan a ∨ F64IsNan b) : f64Fma a b c = f64Nan := by
  obtain h | h := h
  · rw [f64Fma, f64Decode_nan h]
  · rw [f64Fma, f64Decode_nan h]
    cases f64Decode a <;> rfl

/-! ## Sums and differences of infinities -/

theorem f64Add_inf_inf (ha : F64IsInf a) (hb : F64IsInf b) : f64Add a b = if a.msb = b.msb then a else f64Nan := by
  rw [f64Add, f64Decode_inf ha, f64Decode_inf hb]
  conv_rhs => rw [eq_f64Inf ha, f64Inf_msb]

theorem f64Sub_inf_inf (ha : F64IsInf a) (hb : F64IsInf b) : f64Sub a b = if a.msb = b.msb then f64Nan else a := by
  rw [f64Sub, f64Add_inf_inf ha (isInf_f64Neg hb), f64Neg_msb]
  cases a.msb <;> cases b.msb <;> rfl

theorem f64Add_inf_finite (ha : F64IsInf a) (hb : F64Finite b) : f64Add a b = a := by
  rw [f64Add, f64Decode_inf ha, f64Decode_finite hb]
  exact (eq_f64Inf ha).symm

theorem f64Add_finite_inf (hb : F64Finite b) (ha : F64IsInf a) : f64Add b a = a := by
  rw [f64Add, f64Decode_inf ha, f64Decode_finite hb]
  exact (eq_f64Inf ha).symm

theorem f64Sub_inf_finite (ha : F64IsInf a) (hb : F64Finite b) : f64Sub a b = a :=
  f64Add_inf_finite ha (finite_f64Neg hb)

theorem f64Sub_finite_inf (hb : F64Finite b) (ha : F64IsInf a) : f64Sub b a = f64Neg a :=
  f64Add_finite_inf hb (isInf_f64Neg ha)

/-! ## Products -/

/-- A zero times an infinity is invalid, alone and inside the fused operation, whatever the addend. -/
theorem f64_inf_mul_zero (ha : F64IsInf a) (hb : F64Finite b) (zero : f64Units b = 0) :
    f64Mul a b = f64Nan ∧ f64Mul b a = f64Nan ∧ f64Fma a b c = f64Nan ∧ f64Fma b a c = f64Nan := by
  have magnitude := f64Units_eq_zero_iff.mp zero
  simp [f64Mul, f64Fma, f64Decode_inf ha, f64Decode_finite hb, magnitude]

/-- An infinity times an infinity or a non-zero finite value is infinite; the fused operation adds to that infinity. -/
theorem f64_inf_mul (ha : F64IsInf a) (hb : F64IsInf b ∨ (F64Finite b ∧ f64Units b ≠ 0)) :
    f64Mul a b = f64Inf (a.msb ^^ b.msb) ∧ f64Mul b a = f64Inf (a.msb ^^ b.msb) ∧
    f64Fma a b c = f64Fma.infPlus (a.msb ^^ b.msb) (f64Decode c) ∧
    f64Fma b a c = f64Fma.infPlus (a.msb ^^ b.msb) (f64Decode c) := by
  obtain hb | ⟨hb, nonzero⟩ := hb
  · cases hc : f64Decode c <;>
      simp [f64Mul, f64Fma, f64Fma.infPlus, f64Decode_inf ha, f64Decode_inf hb, hc, Bool.xor_comm b.msb]
  · have magnitude := mt f64Units_eq_zero_iff.mpr nonzero
    simp [f64Mul, f64Fma, f64Decode_inf ha, f64Decode_finite hb, magnitude, Bool.xor_comm b.msb]

/-! ## The addend of the fused operation -/

theorem infPlus_finite (neg : Bool) (hc : F64Finite c) : f64Fma.infPlus neg (f64Decode c) = f64Inf neg := by
  rw [f64Decode_finite hc]
  rfl

/-- An infinite addend must be the infinity it is added to. -/
theorem infPlus_inf (neg : Bool) (hc : F64IsInf c) :
    f64Fma.infPlus neg (f64Decode c) = if c = f64Inf neg then c else f64Nan := by
  have same : c = f64Inf neg ↔ neg = c.msb :=
    ⟨fun h => by rw [h, f64Inf_msb], fun h => by rw [h, ← eq_f64Inf hc]⟩
  rw [f64Decode_inf hc, f64Fma.infPlus, ← eq_f64Inf hc]
  simp only [same]

/-- With finite factors an infinite addend is the result. -/
theorem f64Fma_finite_inf (ha : F64Finite a) (hb : F64Finite b) (hc : F64IsInf c) : f64Fma a b c = c := by
  rw [f64Fma, f64Decode_finite ha, f64Decode_finite hb, f64Decode_inf hc]
  exact (eq_f64Inf hc).symm

/-- A NaN addend gives NaN for every product. -/
theorem f64Fma_nan_addend (hc : F64IsNan c) : f64Fma a b c = f64Nan := by
  rw [f64Fma, f64Decode_nan hc]
  cases f64Decode a <;> cases f64Decode b <;> simp [f64Fma.infPlus]

end

/-- Settles O16: each clause is the answer of the operations for that class of operands. -/
theorem doublesSpecialOperands : Obligations.DoublesSpecialOperands := by
  intro a b c
  refine ⟨fun nan => ⟨f64Add_nan nan, f64Sub_nan nan, f64Mul_nan nan, f64Fma_nan_factor nan⟩, f64Fma_nan_addend,
    fun ha hb => ⟨f64Add_inf_inf ha hb, f64Sub_inf_inf ha hb⟩, fun invalid => ?_, fun ha hb => ?_, fun ha hb => ?_,
    f64Fma_finite_inf⟩
  · obtain ⟨ha, hb, zero⟩ | ⟨ha, zero, hb⟩ := invalid
    · obtain ⟨mul, -, fma, -⟩ := f64_inf_mul_zero (c := c) ha hb zero
      exact ⟨mul, fma⟩
    · obtain ⟨-, mul, -, fma⟩ := f64_inf_mul_zero (c := c) hb ha zero
      exact ⟨mul, fma⟩
  · rw [f64Sub_finite_inf hb ha]
    exact ⟨f64Add_inf_finite ha hb, f64Add_finite_inf hb ha, f64Sub_inf_finite ha hb, isInf_f64Neg ha, f64Neg_msb a⟩
  · obtain ⟨mul, mul_comm, fma, fma_comm⟩ := f64_inf_mul (c := c) ha hb
    rw [mul, mul_comm, fma, fma_comm]
    exact ⟨isInf_f64Inf _, f64Inf_msb _, rfl, rfl, infPlus_finite _, infPlus_inf _⟩

end Sys2Proof.Claims
end

