-- ==== Sys2Proof/Proofs/LoopPrediction.lean ====
section
/-! The branch predictor read after an update (spec/50_pipeline.md R350 to R354), and what it says about a branch that is
taken again and again (R355). -/

namespace Sys2Proof.Machine

section
variable (p : Params) (b : Predictor) (pc target : Word)

/-! ## Read after write -/

theorem btbGet_btbSet (e : BtbEntry) : btbGet p (btbSet p b pc e) pc = e :=
  (Store.get_set _ _ _ _ _).trans (if_pos rfl)

theorem bpGet_train_taken : bpGet p (train p b pc true target) pc = bpUp (bpGet p b pc) :=
  (Store.get_set _ _ _ _ _).trans (if_pos rfl)

theorem btbGet_train_taken :
    btbGet p (train p b pc true target) pc = { valid := true, tag := pc, target := target } :=
  btbGet_btbSet p _ pc _

theorem btbGet_untrain_valid : (btbGet p (untrain p b pc) pc).valid = false := by
  rw [untrain, btbGet_btbSet]

end

/-! ## A branch taken again and again -/

/-- What the predictor holds for a branch at `pc` that has gone to `target` `k` times since the predictor was cleared: the
saturated count, and after the first time the target (50_pipeline.md R353). -/
structure TakenTimes (p : Params) (b : Predictor) (pc target : Word) (k : Nat) : Prop where
  counter : bpGet p b pc = BitVec.ofNat 2 (min k 3)
  entry : 0 < k → btbGet p b pc = { valid := true, tag := pc, target := target }

/-- Counting up saturates at 3. -/
theorem bpUp_ofNat_min (k : Nat) : bpUp (BitVec.ofNat 2 (min k 3)) = BitVec.ofNat 2 (min (k + 1) 3) := by
  obtain below | saturated := Nat.lt_or_ge k 3
  · interval_cases k <;> rfl
  · rw [Nat.min_eq_right saturated, Nat.min_eq_right (Nat.le_succ_of_le saturated)]
    rfl

namespace TakenTimes

variable {p : Params} {b : Predictor} {pc target : Word} {k : Nat}

theorem cleared (p : Params) (pc target : Word) : TakenTimes p { bp := [], btb := [] } pc target 0 :=
  ⟨rfl, fun h => absurd h (lt_irrefl 0)⟩

theorem succ (h : TakenTimes p b pc target k) : TakenTimes p (train p b pc true target) pc target (k + 1) where
  counter := by rw [bpGet_train_taken, h.counter, bpUp_ofNat_min]
  entry _ := btbGet_train_taken p b pc target

/-- The branch is predicted taken from the third time on (50_pipeline.md R351). -/
theorem predict_eq (h : TakenTimes p b pc target k) : predict p b pc = if 2 ≤ k then target else pc + 4 := by
  have count : (bpGet p b pc).toNat = min k 3 := by
    rw [h.counter, BitVec.toNat_ofNat]
    omega
  have strong : 2 ≤ (bpGet p b pc).toNat ↔ 2 ≤ k := by omega
  by_cases twice : 2 ≤ k
  · simp [predict, strong, twice, h.entry (by omega)]
  · simp [predict, strong, twice]

end TakenTimes

end Sys2Proof.Machine

namespace Sys2Proof.Claims

open Sys2Proof.Machine

variable {ra rb : Reg} {imm : BitVec 16} {i : Instr} {holds : Word → Word → Bool} {w u : State}

/-- A conditional branch leaves the state of the template, on its own comparison (42_control.md R252 to R257). -/
theorem CondBranch.eq_controlState (branch : CondBranch ra rb imm i holds) (run : Gives i w u) :
    u = controlState w (holds (getX w ra) (getX w rb))
      (if holds (getX w ra) (getX w rb) then w.pc + imm.signExtend 64 else w.pc + 4) := by
  obtain ⟨beq, bne, blt, bge, bltu, bgeu⟩ :=
    branchResult w ra rb imm (fun c => if c then w.pc + imm.signExtend 64 else w.pc + 4) fun _ => rfl
  have next {t : State} (h : Gives i w t) : u = t := Host.Outcome.next.inj (run.symm.trans h)
  cases branch with
  | beq => exact next beq
  | bne => exact next bne
  | blt => exact next blt
  | bge => exact next bge
  | bltu => exact next bltu
  | bgeu => exact next bgeu

/-- What a taken branch trains and whether it counts a misprediction. -/
theorem CondBranch.taken (branch : CondBranch ra rb imm i holds) (run : Gives i w u)
    (cond : holds (getX w ra) (getX w rb) = true) :
    u.predictor = train w.params w.predictor w.pc true (w.pc + imm.signExtend 64) ∧
    u.perf.mispredicts = w.perf.mispredicts +
      if w.pc + imm.signExtend 64 = predict w.params w.predictor w.pc then 0 else 1 := by
  rw [branch.eq_controlState run, cond]
  exact ⟨rfl, rfl⟩

/-- Whether a branch that is not taken counts a misprediction. -/
theorem CondBranch.not_taken (branch : CondBranch ra rb imm i holds) (run : Gives i w u)
    (cond : holds (getX w ra) (getX w rb) = false) :
    u.perf.mispredicts = w.perf.mispredicts + if w.pc + 4 = predict w.params w.predictor w.pc then 0 else 1 := by
  rw [branch.eq_controlState run, cond]
  rfl

/-- Taken `k` times from a cleared predictor, a branch whose target is not the next instruction is mispredicted the first
two times. -/
theorem loop_taken {s : State} {n : Nat} {run : Nat → State} (branch : CondBranch ra rb imm i holds)
    (cleared : s.predictor = { bp := [], btb := [] }) (offset : imm.signExtend 64 ≠ (4 : Word)) (start : run 0 = s)
    (round : ∀ k < n, ∃ w : State, holds (getX w ra) (getX w rb) = true ∧ w.pc = s.pc ∧ w.params = s.params ∧
      w.predictor = (run k).predictor ∧ w.perf = (run k).perf ∧ Gives i w (run (k + 1))) :
    ∀ k ≤ n, TakenTimes s.params (run k).predictor s.pc (s.pc + imm.signExtend 64) k ∧
      (run k).perf.mispredicts = s.perf.mispredicts + BitVec.ofNat 64 (min k 2) := by
  intro k
  induction k with
  | zero =>
    intro _
    rw [start, cleared]
    exact ⟨.cleared .., (BitVec.add_zero _).symm⟩
  | succ k ih =>
    intro hk
    obtain ⟨trained, counted⟩ := ih (by omega)
    obtain ⟨w, cond, hpc, hparams, hpredictor, hperf, gives⟩ := round k hk
    obtain ⟨trains, counts⟩ := branch.taken gives cond
    rw [hpc, hparams, hpredictor] at trains counts
    refine ⟨trains ▸ trained.succ, ?_⟩
    rw [counts, hperf, counted, trained.predict_eq, BitVec.add_assoc]
    congr 1
    by_cases twice : 2 ≤ k
    · rw [if_pos twice, if_pos rfl, Nat.min_eq_right twice, Nat.min_eq_right (Nat.le_succ_of_le twice)]
      rfl
    · have target : s.pc + imm.signExtend 64 ≠ s.pc + 4 := fun h => offset (BitVec.add_right_inj _ |>.mp h)
      rw [if_neg twice, if_neg target, Nat.min_eq_left (by omega), Nat.min_eq_left (by omega), BitVec.ofNat_add]
      rfl

/-- Settles O25: at the last branch the predictor has seen `n` taken ones, so it predicts taken where `n` is at least 2. -/
theorem loopMispredictions : Obligations.LoopMispredictions := by
  intro s ra rb imm i holds n branch cleared offset run start round w u cond hpc hparams hpredictor hperf gives
  obtain ⟨trained, counted⟩ := loop_taken branch cleared offset start round n le_rfl
  have counts := branch.not_taken gives cond
  rw [hpc, hparams, hpredictor, hperf, counted, trained.predict_eq] at counts
  have target : s.pc + 4 ≠ s.pc + imm.signExtend 64 := fun h => offset (BitVec.add_right_inj _ |>.mp h).symm
  rw [counts, BitVec.add_assoc, BitVec.ofNat_add]
  by_cases twice : 2 ≤ n
  · rw [if_pos twice, if_neg target, if_pos twice]
    rfl
  · rw [if_neg twice, if_pos rfl, if_neg twice]
    rfl

end Sys2Proof.Claims
end

