-- ==== Sys2Proof/Proofs/PipelineHazards.lean ====
section
/-! The data hazards of the pipeline: forwarding from MEM/WB (spec/50_pipeline.md R335, 70_reset_and_hazards.md R466) and
the load-use stall (50_pipeline.md R333, R363). -/

namespace Sys2Proof.Machine

/-! ## Forwarding -/

/-- Of the registers a commit writes the destination and no other (50_pipeline.md R340 c). -/
theorem getX_commitWb (m : MemWb) (s : State) (r : Reg) :
    getX (commitWb m s) r = getX (commitDest m.dest m.result s) r := by
  unfold commitWb commitFlags
  dsimp only
  split <;> split <;> simp

theorem getV_commitWb (m : MemWb) (s : State) (r : VReg) :
    getV (commitWb m s) r = getV (commitDest m.dest m.result s) r := by
  unfold commitWb commitFlags
  dsimp only
  split <;> split <;> simp

/-- A destination is never `G 0` (50_pipeline.md R323), so a committed result is read back. -/
theorem getX_commitDest {d : Dest} (hd : d ≠ .g 0) (result : VWord) (s : State) (r : Reg) :
    getX (commitDest d result s) r = if d = .g r then result.setWidth 64 else getX s r := by
  cases d with
  | none => rfl
  | v q => rfl
  | g q =>
    have nonzero : q ≠ 0 := fun h => hd (congrArg Dest.g h)
    simp only [commitDest, getX_setX, if_neg nonzero, Dest.g.injEq, eq_comm]

theorem getV_commitDest (d : Dest) (result : VWord) (s : State) (r : VReg) :
    getV (commitDest d result s) r = if d = .v r then result else getV s r := by
  cases d with
  | none => rfl
  | g q => exact getV_setX q r _ s
  | v q => simp only [commitDest, getV_setV, Dest.v.injEq, eq_comm]

/-! ## The Memory stage and the latches -/

theorem mmioRead_latches (s : State) (pa n : Nat) : (mmioRead s pa n).2.latches = s.latches :=
  (SameHidden.mmioRead s pa n).latches

theorem mmioWrite_latches (s : State) (pa n : Nat) (val : VWord) : (mmioWrite s pa n val).latches = s.latches :=
  (SameHidden.mmioWrite s pa n val).latches

theorem ramRead_latches (s : State) (pa n : Nat) : (ramRead s pa n).2.latches = s.latches :=
  afterAccess_latches _ s

theorem ramWrite_latches (s : State) (pa n : Nat) (val : VWord) : (ramWrite s pa n val).latches = s.latches :=
  afterAccess_latches _ s

theorem translateS_done_latches {s t : State} {va : Word} {acc : Acc} {pa : Nat} (h : translateS s va acc = .done pa t) :
    t.latches = s.latches := by
  rw [(translateS_done h).2]

theorem translateS_raised_latches {s t : State} {va : Word} {acc : Acc} {e : Exc}
    (h : translateS s va acc = .raised e t) : t.latches = s.latches := by
  rw [(translateS_raised h).2]

/-- A memory access touches no latch. -/
theorem memRead_left_latches (s : State) (va : Word) (n : Nat) : (memRead s va n).left.latches = s.latches := by
  obtain ⟨-, e⟩ | ⟨-, _, t, ht, e⟩ | ⟨-, pa, t, ht, ⟨-, e⟩ | ⟨-, -, e⟩ | ⟨-, -, e⟩⟩ := memRead_cases s va n <;> rw [e]
  · rfl
  · exact translateS_raised_latches ht
  · exact (mmioRead_latches t pa n).trans (translateS_done_latches ht)
  · rfl
  · exact (ramRead_latches t pa n).trans (translateS_done_latches ht)

theorem memWrite_left_latches (s : State) (va : Word) (n : Nat) (val : VWord) :
    (memWrite s va n val).left.latches = s.latches := by
  obtain ⟨-, e⟩ | ⟨-, _, t, ht, e⟩ | ⟨-, pa, t, ht, ⟨-, e⟩ | ⟨-, -, e⟩ | ⟨-, -, e⟩⟩ := memWrite_cases s va n val <;>
    rw [e]
  · rfl
  · exact translateS_raised_latches ht
  · rw [Access.left, dropTlb_latches, mmioWrite_latches, translateS_done_latches ht]
  · rfl
  · rw [Access.left, dropTlb_latches, ramWrite_latches, translateS_done_latches ht]

/-- Memory always moves the instruction in EX/MEM on (50_pipeline.md R338). -/
theorem memoryStage_exMem (s : State) : (memoryStage s).latches.exMem = none := by
  unfold memoryStage
  cases he : s.latches.exMem with
  | none => exact he
  | some e =>
    dsimp only
    split
    · rfl
    next n _ _ =>
      have kept := memRead_left_latches (setExMem none s) e.ea n
      split <;> rename_i hr <;> rw [hr] at kept <;> exact congrArg Latches.exMem kept
    next n _ =>
      have kept := memWrite_left_latches (setExMem none s) e.ea n e.sdata
      split <;> rename_i hw <;> rw [hw] at kept <;> exact congrArg Latches.exMem kept

/-! ## The Decode stage -/

section
variable {s : State} {f : IfId} {i : Instr}

theorem decoded_eq {strict : Bool} (clean : f.exc = .none) (hi : decode strict f.word = some i) :
    decoded strict f = (some i, .none) := by
  rw [decoded, clean, hi]

/-- The hazard spelled out (50_pipeline.md R333). -/
theorem loadUse_iff (e : ExMem) (i : Instr) :
    loadUse (some e) (some i) = true ↔
      e.exc = .none ∧ (∃ j, e.instr = some j ∧ isLoad j = true) ∧ e.dest ≠ .none ∧ e.dest ∈ srcsOf i := by
  simp [loadUse, Option.any_eq_true, and_assoc]

theorem decodeStage_stalls (hf : s.latches.ifId = some f)
    (hazard : loadUse s.latches.exMem (decoded s.params.strictReserved f).1 = true) : decodeStage s = countStall s := by
  simp only [decodeStage, hf, hazard, if_true]

theorem decodeStage_proceeds (hf : s.latches.ifId = some f)
    (free : loadUse s.latches.exMem (decoded s.params.strictReserved f).1 = false) :
    decodeStage s =
      setIfId none (setIdEx (some { pc := f.pc, instr := (decoded s.params.strictReserved f).1,
                                    exc := (decoded s.params.strictReserved f).2, predNext := f.predNext }) s) := by
  simp only [decodeStage, hf, free]
  rfl

/-- With EX/MEM empty nothing holds Decode back. -/
theorem decodeStage_ifId_of_exMem_none (he : s.latches.exMem = none) : (decodeStage s).latches.ifId = none := by
  cases hf : s.latches.ifId with
  | none => simp only [decodeStage, hf]
  | some f => rw [decodeStage_proceeds hf (by rw [he]; rfl)]; rfl

end

end Sys2Proof.Machine

namespace Sys2Proof.Claims

open Sys2Proof.Machine

/-- Settles O50: an operand is forwarded from MEM/WB for exactly the register its commit writes. -/
theorem forwardingIsCurrent : Obligations.ForwardingIsCurrent := by
  intro s m hm hd
  refine ⟨fun r => ?_, fun r => ?_⟩
  · rw [getX_commitWb, getX_commitDest hd, getX_setMemWb, operandG, hm]
  · rw [getV_commitWb, getV_commitDest, getV_setMemWb, operandV, hm]

/-- Settles O51: the stall is `loadUse`, and Memory empties EX/MEM, which ends it. -/
theorem loadUseStall : Obligations.LoadUseStall := by
  intro s f i hf clean hi
  have hdec := decoded_eq clean hi
  refine ⟨fun e j he hexc hj load hdest hsrc => ⟨?_, ?_⟩, fun free => ?_⟩
  · have isLoad_j : isLoad j = true := by
      obtain ⟨_, _, _, rfl | rfl | rfl | rfl⟩ | ⟨_, _, _, rfl⟩ := load <;> rfl
    refine decodeStage_stalls hf ?_
    rw [he, hdec]
    exact (loadUse_iff e i).mpr ⟨hexc, ⟨j, hj, isLoad_j⟩, hdest, hsrc⟩
  · exact decodeStage_ifId_of_exMem_none (memoryStage_exMem s)
  · have no_hazard : loadUse s.latches.exMem (some i) = false := by
      cases he : s.latches.exMem with
      | none => rfl
      | some e =>
        rw [← Bool.not_eq_true, loadUse_iff]
        rintro ⟨-, ⟨j, hj, load⟩, -, hsrc⟩
        obtain no_load | no_src := free e j he hj
        · exact absurd load (Bool.eq_false_iff.mp no_load)
        · exact no_src hsrc
    rw [decodeStage_proceeds hf (by rw [hdec]; exact no_hazard), hdec]
    rfl

end Sys2Proof.Claims
end

