-- ==== Sys2Proof/Proofs/ControlResolution.lean ====
section
/-! Control resolution in Execute (spec/50_pipeline.md R337, R353, R354): the next address of each instruction, and what a
right and a wrong prediction do to `PC`, IF/ID, the predictor and `PERF[4]`. -/

namespace Sys2Proof.Machine

/-! ## The next address (50_pipeline.md R336) -/

/-- Any instruction but a control transfer goes on behind itself. -/
theorem compute_next_of_not_control (g : Reg → Word) (v : VReg → VWord) (pc : Word) {i : Instr}
    (h : isControl i = false) : (compute g v pc i).next = pc + 4 := by
  cases i
  case beq | bne | blt | bge | bltu | bgeu | jmp | call | ret => exact Bool.noConfusion h
  all_goals rfl

theorem compute_next_beq (g : Reg → Word) (v : VReg → VWord) (pc : Word) (ra rb : Reg) (imm : BitVec 16) :
    (compute g v pc (.beq ra rb imm)).next = if g ra = g rb then pc + imm.signExtend 64 else pc + 4 := by
  by_cases h : g ra = g rb
  · simp [compute, computesBranch, branchNext, branchTarget, simm16, condEq, h]
  · simp [compute, computesBranch, branchNext, condEq, h]

/-! ## Counting, training and the redirect -/

section
variable {s : State} {i : Instr} {pc predNext : Word} {c : Computed}

theorem countMispredict_false (s : State) : countMispredict false s = s := by
  simp [countMispredict]

/-- A right prediction only trains (50_pipeline.md R337, R353). -/
theorem resolve_of_right (right : c.next = predNext) :
    resolve i pc predNext c s =
      if isControl i then { s with predictor := train s.params s.predictor pc c.taken c.next } else s := by
  have no_redirect (u : State) : redirect predNext c.next u = u := if_neg (not_not_intro right)
  have no_miss : (c.next != predNext) = false := by rw [right, bne_self_eq_false]
  rw [resolve, no_redirect, resolveControl, no_miss, countMispredict_false, resolveOther, if_neg (not_not_intro right)]

/-- A wrong prediction redirects, empties IF/ID and counts; a control transfer trains, another instruction's BTB entry
becomes invalid (50_pipeline.md R337, R353, R354). -/
theorem resolve_of_wrong (wrong : c.next ≠ predNext) :
    resolve i pc predNext c s =
      setPc c.next (setIfId none (countMispredict true
        { s with predictor := if isControl i then train s.params s.predictor pc c.taken c.next
                              else untrain s.params s.predictor pc })) := by
  have miss : (c.next != predNext) = true := bne_iff_ne.mpr wrong
  rw [resolve, redirect, if_pos wrong, resolveControl, miss, resolveOther, if_pos wrong]
  cases isControl i with
  | true => rfl
  | false => rfl

theorem resolve_right_frame (right : c.next = predNext) :
    (resolve i pc predNext c s).pc = s.pc ∧ (resolve i pc predNext c s).latches = s.latches ∧
      (resolve i pc predNext c s).perf = s.perf := by
  rw [resolve_of_right right]
  split <;> exact ⟨rfl, rfl, rfl⟩

theorem resolve_predictor : (resolve i pc predNext c s).predictor =
    if isControl i then train s.params s.predictor pc c.taken c.next
    else if c.next = predNext then s.predictor else untrain s.params s.predictor pc := by
  by_cases right : c.next = predNext
  · rw [resolve_of_right right, if_pos right]
    split <;> rfl
  · rw [resolve_of_wrong right, if_neg right]
    rfl

/-- Resolution changes no register, flag or byte of memory (50_pipeline.md R337). -/
theorem resolve_frame : (resolve i pc predNext c s).x = s.x ∧ (resolve i pc predNext c s).v = s.v ∧
    (resolve i pc predNext c s).flags = s.flags ∧ (resolve i pc predNext c s).hier = s.hier := by
  by_cases right : c.next = predNext
  · rw [resolve_of_right right]
    split <;> exact ⟨rfl, rfl, rfl, rfl⟩
  · simp [resolve_of_wrong right]

end

/-! ## The Execute stage -/

theorem executeStage_resolves {s : State} {d : IdEx} {i : Instr} {c : Computed} (hd : s.latches.idEx = some d)
    (hi : d.instr = some i) (clean : d.exc = .none) (hc : compute (operandG s) (operandV s) d.pc i = c) :
    executeStage s = setExMem
      (some { pc := d.pc, instr := some i, exc := .none, dest := destOf i, result := c.result, flags := c.flags,
              ea := c.ea, sdata := c.sdata })
      (resolve i d.pc d.predNext c (setIdEx none s)) := by
  simp only [executeStage, hd, hi, clean, hc]

end Sys2Proof.Machine

namespace Sys2Proof.Claims

open Sys2Proof.Machine

/-- Settles O52: Execute is one resolution, which acts by whether the prediction was right and whether the instruction is
a control transfer. -/
theorem controlResolution : Obligations.ControlResolution := by
  intro s u d i next hd hi clean hnext hu
  have not_control := compute_next_of_not_control (operandG s) (operandV s) d.pc (i := i)
  have jump : ∀ imm, (i = .jmp imm ∨ i = .call imm) → next = d.pc + imm.signExtend 64 := by
    rintro imm (rfl | rfl) <;> exact hnext
  have ret : ∀ imm, i = .ret imm → next = operandG s 31 := by
    rintro imm rfl
    exact hnext
  have beq : ∀ ra rb imm, i = .beq ra rb imm →
      next = if operandG s ra = operandG s rb then d.pc + imm.signExtend 64 else d.pc + 4 := by
    rintro ra rb imm rfl
    rw [hnext, compute_next_beq]
  generalize hc : compute (operandG s) (operandV s) d.pc i = c at hnext not_control ⊢
  rw [executeStage_resolves hd hi clean hc] at hu
  have predictor := (congrArg State.predictor hu).trans resolve_predictor
  subst hnext hu
  refine ⟨fun right => ?_, fun wrong => ?_, fun control => ?_, fun other => ⟨not_control other, fun right => ?_,
    fun wrong => ?_⟩, jump, ret, beq, resolve_frame⟩
  · obtain ⟨hpc, hlatches, hperf⟩ := resolve_right_frame (s := setIdEx none s) (i := i) (pc := d.pc) right
    exact ⟨hpc, (congrArg Latches.ifId hlatches :), hperf⟩
  · rw [resolve_of_wrong wrong]
    exact ⟨rfl, rfl, rfl⟩
  · rw [predictor, if_pos control]
    rfl
  · rw [predictor, other, if_neg Bool.false_ne_true, if_pos right]
    rfl
  · rw [predictor, other, if_neg Bool.false_ne_true, if_neg wrong]
    exact btbGet_untrain_valid s.params s.predictor d.pc

end Sys2Proof.Claims
end

