-- ==== Sys2Proof/Proofs/PreciseWriteback.lean ====
section
/-! An instruction that carries an exception or a breakpoint mark into Writeback (spec/50_pipeline.md R340 a and b, R342):
it commits nothing, and with it go the younger latches. -/

namespace Sys2Proof.Machine

/-- Registers, memory, translation and counters are those of `s`, and no latch holds an instruction. -/
structure NothingCommitted (s t : State) : Prop where
  quiet : t.quiet
  x : t.x = s.x
  v : t.v = s.v
  hier : t.hier = s.hier
  perf : t.perf = s.perf
  mmu : t.mmu = s.mmu

theorem NothingCommitted.deliver (e : Exc) (ret : Word) (s : State) :
    NothingCommitted s (deliver e ret (flushYounger (setMemWb none s))) := by
  obtain ⟨-, h⟩ | ⟨_, -, -, h⟩ | ⟨_, -, -, h⟩ := deliver_cases e ret (flushYounger (setMemWb none s)) <;> rw [h]
  · constructor <;> simp [State.quiet]
  · constructor <;> simp [State.quiet]
  · constructor <;> simp [State.quiet]

theorem NothingCommitted.breakpointStop (a : Word) (s : State) :
    NothingCommitted s (breakpointStop a (flushYounger (setMemWb none s))) := by
  constructor <;> simp [State.quiet]

section
variable {s : State} {m : MemWb}

theorem writeback_fault (hm : s.latches.memWb = some m) {e : Exc} (hexc : m.exc = .fault e) :
    writeback s = (deliver e m.pc (flushYounger (setMemWb none s)), true) := by
  simp only [writeback, hm, hexc]

theorem writeback_breakpoint (hm : s.latches.memWb = some m) (hexc : m.exc = .breakpointStop) :
    writeback s = (breakpointStop m.pc (flushYounger (setMemWb none s)), true) := by
  simp only [writeback, hm, hexc]

end

end Sys2Proof.Machine

namespace Sys2Proof.Claims

open Sys2Proof.Machine

/-- Settles O53: a fault is delivered and a mark stops the core, both from the state with its latches emptied. -/
theorem preciseWriteback : Obligations.PreciseWriteback := by
  rintro s u m hm carries rfl
  cases hexc : m.exc with
  | none => exact absurd hexc carries
  | fault e =>
    rw [writeback_fault hm hexc]
    obtain ⟨quiet, hx, hv, hhier, hperf, hmmu⟩ := NothingCommitted.deliver e m.pc s
    exact ⟨rfl, quiet, hx, hv, hhier, hperf, hmmu, fun _ same => by cases same; rfl, nofun⟩
  | breakpointStop =>
    rw [writeback_breakpoint hm hexc]
    obtain ⟨quiet, hx, hv, hhier, hperf, hmmu⟩ := NothingCommitted.breakpointStop m.pc s
    exact ⟨rfl, quiet, hx, hv, hhier, hperf, hmmu, nofun, fun _ => by simp⟩

end Sys2Proof.Claims
end

