-- ==== Sys2Proof/Proofs/FaultDelivery.lean ====
section
/-! Taking an exception and returning from one (spec/60_exceptions.md R404, R410 to R414). -/

namespace Sys2Proof.Machine

variable {s : State}

/-- The frame a trap entry pushes is the top one, and those below stay (60_exceptions.md R412). -/
theorem frameAt_trapEnter (addr ret : Word) (v : Nat) (i0 i1 : Word) (s : State) (k : Nat) :
    frameAt (trapEnter addr ret v i0 i1 s) k =
      if k = s.ic.nest then
        { retPc := ret, flags := s.flags, vector := BitVec.ofNat 64 v, info0 := i0, info1 := i1 }
      else frameAt s k :=
  Store.get_set _ _ _ _ _

theorem deliver_of_default {e : Exc} (h : ivtGet s e.vector = .default) (ret : Word) :
    deliver e ret s = stopCore (haltStatus e.vector) e.vector ret ret 0
      (pushEvent { kind := .exception, vector := e.vector, pc := ret, info0 := e.info0, info1 := e.info1 }
        (countVector e.vector s)) := by
  rw [deliver, h]

theorem deliver_of_room {e : Exc} {addr : Word} (h : ivtGet s e.vector = .guest addr)
    (room : s.ic.nest < s.params.maxNest) (ret : Word) :
    deliver e ret s = trapEnter addr ret e.vector e.info0 e.info1
      (pushEvent { kind := .exception, vector := e.vector, pc := ret, info0 := e.info0, info1 := e.info1 }
        (countVector e.vector s)) := by
  rw [deliver, h]
  exact if_pos room

theorem deliver_of_full {e : Exc} {addr : Word} (h : ivtGet s e.vector = .guest addr)
    (full : s.params.maxNest ≤ s.ic.nest) (ret : Word) :
    deliver e ret s = stopCore .error e.vector ret ret 0
      (pushEvent { kind := .exception, vector := e.vector, pc := ret, info0 := e.info0, info1 := e.info1 }
        (countVector e.vector s)) := by
  rw [deliver, h]
  exact if_neg (Nat.not_lt.mpr full)

end Sys2Proof.Machine

namespace Sys2Proof.Claims

open Sys2Proof.Machine

/-- Settles O33: the default handler stops the core behind the statistic and the event. -/
theorem faultWithDefaultHandler : Obligations.FaultWithDefaultHandler := by
  intro s e ret h
  rw [deliver_of_default h, stopCore_eq, pushEvent_eq]
  rfl

/-- Settles O34: with room for a frame the handler is entered, without it the core stops. -/
theorem faultWithGuestHandler : Obligations.FaultWithGuestHandler := by
  rintro s e ret addr q h rfl
  refine ⟨fun room => ?_, fun full => ?_⟩
  · rw [deliver_of_room h room, pushEvent_eq]
    rfl
  · rw [deliver_of_full h full, stopCore_eq, pushEvent_eq]
    rfl

/-- Settles O35: the handler's IRET pops the frame the entry pushed. -/
theorem returnUndoesEntry : Obligations.ReturnUndoesEntry := by
  intro s t addr ret i0 i1 v imm hflags returns
  have pushed := frameAt_trapEnter addr ret v i0 i1 s
  have popped := iretReturns (trapEnter addr ret v i0 i1 s) imm _ (flagUM_flagsOnEntry s.flags) (Nat.succ_pos _)
    (pushed s.ic.nest)
  rw [if_pos rfl] at popped
  cases Host.Outcome.next.inj (returns.symm.trans popped)
  have all_flags : BitVec.ofNat 64 (s.flags.toNat % 64) = s.flags := by
    rw [Nat.mod_eq_of_lt hflags, BitVec.ofNat_toNat, BitVec.setWidth_eq]
  exact ⟨rfl, all_flags, rfl, rfl, rfl, rfl, rfl, rfl, fun k hk => (pushed k).trans (if_neg hk.ne)⟩

end Sys2Proof.Claims
end

