-- ==== Sys2Proof/Proofs/InterpreterRounds.lean ====
section
/-! One round of the interpreter (spec/70_reset_and_hazards.md R467): the breakpoint that stops it (51_host_interface.md
R385), the interrupt the environment asks for (60_exceptions.md R420), and the instruction the fetch answers. -/

namespace Sys2Proof.Machine

variable {s t : State}

/-- A fetch that answers changes only translation, caches and miss counters (20_memory.md R73). -/
theorem fetch_done_eq {va : Word} {w : IWord} (h : fetch s va = .done w t) :
    t = { s with mmu := t.mmu, hier := t.hier, perf := t.perf } := by
  obtain ⟨-, e⟩ | ⟨-, _, _, -, e⟩ | ⟨-, pa, u, hu, ⟨-, e⟩ | ⟨-, -, e⟩⟩ := fetch_cases s va <;> rw [e] at h <;> cases h
  rw [(translateS_done hu).2]
  rfl

theorem fetchAndExec_decoded {w : IWord} {i : Instr} (h : fetch { s with resume := false } s.pc = .done w t)
    (hi : decode s.params.strictReserved w = some i) : fetchAndExec s = exec i t := by
  rw [fetchAndExec, h]
  rw [← (fetch_done_frame h).2] at hi
  simp only [execWord, hi]

theorem deliverable_of_disabled (h : flagIE s.flags = false) : deliverable s = none := by
  rw [deliverable, h]
  rfl

/-- A full save stack holds a vector with a guest handler back (60_exceptions.md R420). -/
theorem deliverable_of_full {v : Nat} {addr : Word} (hv : lowestPending s.ic.pending = some v)
    (hg : ivtGet s v = .guest addr) (full : s.params.maxNest ≤ s.ic.nest) : deliverable s = none := by
  rw [Option.eq_none_iff_forall_not_mem]
  intro u hu
  obtain ⟨-, lowest, hd | ⟨a, hg', room⟩⟩ := deliverable_eq_some.mp hu <;> cases hv.symm.trans lowest
  · cases hg.symm.trans hd
  · omega

theorem interpret_of_deliverable {v : Nat} (hb : breakpointAt s = false) (hd : deliverable s = some v) :
    interpret s = if Config.takesInterrupt s.intAsked then .next (deliverInterrupt v s.pc (askEnvironment s))
      else fetchAndExec (askEnvironment s) := by
  rw [interpret, hb, hd]
  rfl

theorem deliverInterrupt_of_default {v : Nat} (h : ivtGet s v = .default) (ret : Word) :
    deliverInterrupt v ret s = pushEvent { kind := .deviceInterrupt, vector := v, pc := s.pc, info0 := 0, info1 := 0 }
      (countVector v (unpend v s)) := by
  rw [deliverInterrupt, h]

theorem deliverInterrupt_of_guest {v : Nat} {addr : Word} (h : ivtGet s v = .guest addr) (ret : Word) :
    deliverInterrupt v ret s = trapEnter addr ret v 0 0
      (pushEvent { kind := .deviceInterrupt, vector := v, pc := ret, info0 := 0, info1 := 0 }
        (countVector v (unpend v s))) := by
  rw [deliverInterrupt, h]

theorem breakpointAt_iff : breakpointAt s = true ↔ s.pc ∈ s.bkpt ∧ s.resume = false := by
  simp [breakpointAt]

/-- With RESUME set no breakpoint stops the round (51_host_interface.md R386). -/
theorem step_of_resumed (running : s.halted = false) (hq : s.quiet) (resumed : s.resume = true)
    (hd : deliverable s = none) : step s = fetchAndExec { s with lastStatus := .ok } := by
  have hb : breakpointAt { s with lastStatus := .ok } = false := by simp [breakpointAt, resumed]
  rw [step_eq_interpret running hq]
  exact interpret_eq_fetchAndExec hb hd

theorem interpret_of_breakpoint (h : breakpointAt s = true) : interpret s = .next (breakpointStop s.pc s) := by
  rw [interpret, if_pos h]

end Sys2Proof.Machine

namespace Sys2Proof.Claims

open Sys2Proof.Machine

/-- Settles O5: with nothing before the fetch the round is `exec` of the decoded word, in the state the fetch left. -/
theorem stepRunsDecoded : Obligations.StepRunsDecoded := by
  intro s t w i running empty hb hd hf hi
  have hstep : step s = exec i t := by
    have start : step s = interpret (squash (startStep s)) := by rw [step, archStep, running, empty]; rfl
    rw [start, interpret_eq_fetchAndExec hb hd]
    exact fetchAndExec_decoded hf hi
  refine ⟨hstep, ?_⟩
  rw [fetch_done_eq hf]
  exact ⟨rfl, rfl, rfl, rfl, rfl, rfl, rfl, rfl, rfl, running, rfl, rfl, rfl, rfl, rfl, rfl⟩

/-- Settles O36: what is deliverable is the lowest pending vector, unless IE or a full save stack holds it back. -/
theorem interruptDelivery : Obligations.InterruptDelivery := by
  intro s v running hq hb
  have at_ok : breakpointAt { s with lastStatus := .ok } = false := hb
  rw [step_eq_interpret running hq]
  refine ⟨fun off => interpret_eq_fetchAndExec hb (deliverable_of_disabled off), fun on hv pending lowest => ?_⟩
  have hlow : lowestPending s.ic.pending = some v := lowestPending_eq_some.mpr ⟨hv, pending, lowest⟩
  refine ⟨fun addr hg room => ?_, fun addr hg full => ?_, fun hdef => ?_⟩
  · have hd : deliverable { s with lastStatus := .ok } = some v :=
      deliverable_eq_some.mpr ⟨on, hlow, .inr ⟨addr, hg, room⟩⟩
    have asked : ivtGet (askEnvironment { s with lastStatus := .ok }) v = .guest addr := hg
    rw [interpret_of_deliverable at_ok hd, deliverInterrupt_of_guest asked, pushEvent_eq]
    rfl
  · exact interpret_eq_fetchAndExec hb (deliverable_of_full hlow hg full)
  · have hd : deliverable { s with lastStatus := .ok } = some v := deliverable_eq_some.mpr ⟨on, hlow, .inl hdef⟩
    have asked : ivtGet (askEnvironment { s with lastStatus := .ok }) v = .default := hdef
    rw [interpret_of_deliverable at_ok hd, deliverInterrupt_of_default asked, pushEvent_eq]
    rfl

/-- Settles O38: the round stops at the breakpoint and sets RESUME, which lets the next one through. -/
theorem breakpointStops : Obligations.BreakpointStops := by
  intro s running hq here fresh
  have hb : breakpointAt { s with lastStatus := .ok } = true := breakpointAt_iff.mpr ⟨here, fresh⟩
  refine ⟨_, ?_, rfl, fun hd => ?_⟩
  · rw [step_eq_interpret running hq, interpret_of_breakpoint hb, breakpointStop_eq]
    rfl
  · exact step_of_resumed running hq rfl hd

end Sys2Proof.Claims
end

