-- ==== Sys2Proof/Proofs/HostPorts.lean ====
section
/-! The host ports (spec/51_host_interface.md R372, R380, R389; 70_reset_and_hazards.md R450). -/

namespace Sys2Proof.Machine

variable {s : State}

/-- `InvalidateAll` writes back what `FlushAll` does (22_caches.md R147). -/
theorem invalidateAll_pm (p : Params) (h : Hierarchy) : (invalidateAll p h).pm = (flushAll p h).pm := rfl

/-- Register numbers below 32 name different registers. -/
theorem ofNat_reg_inj {j k : Nat} (hj : j < 32) (hk : k < 32) : BitVec.ofNat 5 j = BitVec.ofNat 5 k ↔ j = k := by
  rw [← BitVec.toNat_inj, BitVec.toNat_ofNat, BitVec.toNat_ofNat, Nat.mod_eq_of_lt hj, Nat.mod_eq_of_lt hk]

/-! ## The register index space (51_host_interface.md R380) -/

theorem getRegister_general {k : Nat} (h : k < 32) (s : State) : getRegister k s = .ok (getX s (BitVec.ofNat 5 k)) :=
  if_pos h

theorem setRegister_general {k : Nat} (h : k < 32) (w : Word) (s : State) :
    setRegister k w s = .ok (setX (BitVec.ofNat 5 k) w s) :=
  if_pos h

/-- A register read depends on the register of its index alone. -/
theorem getRegister_congr {j : Nat} {u : State}
    (general : j < 32 → getX u (BitVec.ofNat 5 j) = getX s (BitVec.ofNat 5 j)) (pc : j = 32 → u.pc = s.pc)
    (sp : j = 33 → u.sp = s.sp) (flags : j = 34 → u.flags = s.flags) : getRegister j u = getRegister j s := by
  unfold getRegister
  split_ifs with hx hpc hsp hflags
  · rw [general hx]
  · rw [pc hpc]
  · rw [sp hsp]
  · rw [flags hflags]
  · rfl

theorem ports_refuse_index {k : Nat} (h : 34 < k) (w : Word) (s : State) :
    getRegister k s = .invalidParameter ∧ setRegister k w s = .invalidParameter := by
  have general : ¬ k < 32 := by omega
  have named : k ≠ 32 ∧ k ≠ 33 ∧ k ≠ 34 := by omega
  simp [getRegister, setRegister, general, named]

/-- A register written is read back, R0 as 0 and of `FLAGS` six bits, and every other register keeps its value. -/
theorem setRegister_reads_back {k : Nat} (h : k ≤ 34) (w : Word) (s : State) :
    ∃ u, setRegister k w s = .ok u ∧
      getRegister k u = .ok (if k = 0 then 0 else if k = 34 then w &&& 0x3F#64 else w) ∧
      ∀ j ≤ 34, j ≠ k → getRegister j u = getRegister j s := by
  obtain hk | rfl | rfl | rfl : k < 32 ∨ k = 32 ∨ k = 33 ∨ k = 34 := by omega
  · refine ⟨_, setRegister_general hk w s, ?_, fun j _ hj => getRegister_congr (fun hx => ?_) ?_ ?_ ?_⟩
    · have zero : BitVec.ofNat 5 k = 0 ↔ k = 0 := ofNat_reg_inj hk (by decide)
      have not_flags : k ≠ 34 := by omega
      simp only [getRegister_general hk, getX_setX, zero, if_true, if_neg not_flags]
    · rw [getX_setX, if_neg fun same => hj ((ofNat_reg_inj hx hk).mp same)]
    · exact fun _ => setX_pc _ _ s
    · exact fun _ => setX_sp _ _ s
    · exact fun _ => setX_flags _ _ s
  · exact ⟨_, rfl, rfl, fun j _ hj => getRegister_congr (fun _ => rfl) (fun h => absurd h hj) (fun _ => rfl) fun _ => rfl⟩
  · exact ⟨_, rfl, rfl, fun j _ hj => getRegister_congr (fun _ => rfl) (fun _ => rfl) (fun h => absurd h hj) fun _ => rfl⟩
  · exact ⟨_, rfl, rfl, fun j _ hj => getRegister_congr (fun _ => rfl) (fun _ => rfl) (fun _ => rfl) fun h => absurd h hj⟩

/-! ## Trigger (51_host_interface.md R389) -/

theorem deviceVector_iff (v : Nat) : deviceVector v = true ↔ 32 ≤ v ∧ v < 256 ∧ v ≠ 128 := by
  simp [deviceVector, and_assoc]

theorem getLsbD_pendingWith (p : BitVec 256) (v j : Nat) (hj : j < 256) :
    (p ||| 1#256 <<< v).getLsbD j = (p.getLsbD j || decide (j = v)) := by
  rw [← BitVec.twoPow_eq, BitVec.getLsbD_or, BitVec.getLsbD_twoPow]
  by_cases same : j = v
  · simp [hj, ← same]
  · simp [same, Ne.symm same]

end Sys2Proof.Machine

namespace Sys2Proof.Claims

open Sys2Proof.Machine

/-- Settles O58: what `InvalidateAll` leaves in physical memory is the flat memory, and over empty caches physical memory
is the flat memory again. -/
theorem resetPortPreservesImage : Obligations.ResetPortPreservesImage := by
  rintro s u hok rfl
  have image (a : Nat) : Memory.read s.resetPort.hier.pm a = s.flat a :=
    (flushWritesEverythingBack s.params s.hier hok.params hok.hier).1 a
  exact ⟨image, fun a => (flatByte_bare _ rfl rfl a).trans (image a), rfl⟩

/-- Settles O59: the image is placed by the coherent host write. -/
theorem loadProgramPlacesImage : Obligations.LoadProgramPlacesImage := by
  intro s bytes a hok
  refine ⟨fun large => if_pos large, fun fits => ⟨_, if_neg (Nat.not_lt.mpr fits), ?_⟩⟩
  obtain ⟨hier, flat, -⟩ := hostWriteIsCoherent s.params s.hier a bytes hok.params hok.hier fits
  exact ⟨rfl, rfl, rfl, rfl, rfl, flat, rfl, rfl, rfl, rfl, rfl, rfl, rfl, rfl, rfl, rfl, rfl, hok.params, hier, hok.tlb⟩

/-- Settles O60: each index names one register, and `trigger` sets one bit. -/
theorem registerAndTriggerPorts : Obligations.RegisterAndTriggerPorts := by
  intro s k w
  refine ⟨fun large => ports_refuse_index large w s, fun small => setRegister_reads_back small w s,
    fun refused => if_neg ?_, fun low high free => ⟨_, if_pos ((deviceVector_iff k).mpr ⟨low, high, free⟩), ?_, ?_, rfl⟩⟩
  · rw [deviceVector_iff]
    omega
  · rw [getLsbD_pendingWith _ _ _ high, decide_eq_true rfl, Bool.or_true]
  · intro j hj other
    rw [getLsbD_pendingWith _ _ _ hj, decide_eq_false other, Bool.or_false]

end Sys2Proof.Claims
end
-- ==== Sys2Proof/Proofs/InstructionAlone.lean ====
section
/-! An instruction alone in the pipeline (spec/50_pipeline.md R335 to R340, 70_reset_and_hazards.md R466): Execute, Memory
and Writeback in turn give what `exec` gives. -/

namespace Sys2Proof.Machine

/-! ## What the stages hand on -/

/-- EX/MEM after Execute has computed `c` for `i` at `pc` (50_pipeline.md R336). -/
def exMemOf (i : Instr) (pc : Word) (c : Computed) : ExMem :=
  { pc := pc, instr := some i, exc := .none, dest := destOf i, result := c.result, flags := c.flags, ea := c.ea,
    sdata := c.sdata }

/-- What Execute computes for `i` in a state with nothing to forward. -/
def computeAt (i : Instr) (s : State) : Computed := compute (getX s) (getV s) s.pc i

/-- The state after a control transfer has been compared with the prediction the interpreter assumes (log entry 9); any
other instruction leaves it alone. -/
def trained (i : Instr) (s : State) : State :=
  if isControl i then
    resolveControl s.pc (predict s.params s.predictor s.pc) (computeAt i s).taken (computeAt i s).next s
  else s

/-- The machine with `i` in EX/MEM and nothing else in flight. -/
def executed (i : Instr) (s : State) : State :=
  setExMem (some (exMemOf i s.pc (computeAt i s))) (setPc (computeAt i s).next (trained i s))

/-- An access answered with the state it leaves put through `f`. -/
def Access.map {α : Type} (f : State → State) : Access α → Access α
  | .done a t => .done a (f t)
  | .raised e t => .raised e (f t)

section
variable {s : State} {i : Instr}

/-! ## `PC` takes no part in memory, commit and the exceptions -/

theorem mmioRead_setPc (a : Word) (s : State) (pa n : Nat) :
    mmioRead (setPc a s) pa n = ((mmioRead s pa n).1, setPc a (mmioRead s pa n).2) := by
  unfold mmioRead
  rw [setPc_mmioTable]
  cases findRange s.mmioTable pa <;> rfl

theorem mmioWrite_setPc (a : Word) (s : State) (pa n : Nat) (val : VWord) :
    mmioWrite (setPc a s) pa n val = setPc a (mmioWrite s pa n val) := by
  unfold mmioWrite
  rw [setPc_mmioTable]
  cases findRange s.mmioTable pa <;> rfl

theorem translateS_setPc (a : Word) (s : State) (va : Word) (acc : Acc) :
    translateS (setPc a s) va acc = (translateS s va acc).map (setPc a) := by
  have same : translate (setPc a s).params.tlbEntries (setPc a s).mmu (userMode (setPc a s)) va acc =
      translate s.params.tlbEntries s.mmu (userMode s) va acc := rfl
  simp only [translateS, same]
  cases (translate s.params.tlbEntries s.mmu (userMode s) va acc).2 <;> rfl

theorem memRead_setPc (a : Word) (s : State) (va : Word) (n : Nat) :
    memRead (setPc a s) va n = (memRead s va n).map (setPc a) := by
  unfold memRead
  rw [translateS_setPc]
  split_ifs
  · rfl
  · cases translateS s va .read with
    | raised e t => rfl
    | done pa t =>
      simp only [Access.map, setPc_params, mmioRead_setPc]
      by_cases window : inWindow t.params pa = true
      · simp only [window, if_true]
      · by_cases beyond : t.params.memSize < pa + n
        · simp only [window, beyond, if_true]
          rfl
        · simp only [window, beyond, if_false]
          rfl

theorem memWrite_setPc (a : Word) (s : State) (va : Word) (n : Nat) (val : VWord) :
    memWrite (setPc a s) va n val = (memWrite s va n val).map (setPc a) := by
  unfold memWrite
  rw [translateS_setPc]
  split_ifs
  · rfl
  · cases translateS s va .write with
    | raised e t => rfl
    | done pa t =>
      simp only [Access.map, setPc_params, mmioWrite_setPc]
      by_cases window : inWindow t.params pa = true
      · simp only [window, if_true]
        rfl
      · by_cases beyond : t.params.memSize < pa + n
        · simp only [window, beyond, if_true]
          rfl
        · simp only [window, beyond, if_false]
          rfl

theorem commitDest_setPc (a : Word) (d : Dest) (result : VWord) (s : State) :
    commitDest d result (setPc a s) = setPc a (commitDest d result s) := by
  cases d with
  | none => rfl
  | g q => rw [commitDest, commitDest, setX_eq, setX_eq]; rfl
  | v q => rfl

theorem commitWb_setPc (a : Word) (m : MemWb) (s : State) : commitWb m (setPc a s) = setPc a (commitWb m s) := by
  unfold commitWb commitFlags
  rw [commitDest_setPc]
  cases m.flags <;> cases m.instr.any isVector <;> rfl

/-- Taking an exception sets `PC` (60_exceptions.md R404, R412). -/
theorem deliver_setPc (a : Word) (e : Exc) (ret : Word) (s : State) : deliver e ret (setPc a s) = deliver e ret s := by
  have same : ivtGet (setPc a s) e.vector = ivtGet s e.vector := rfl
  cases h : ivtGet s e.vector with
  | default => simp only [deliver, same, h, stopCore_eq, pushEvent_eq]; rfl
  | guest addr => simp only [deliver, same, h, stopCore_eq, pushEvent_eq]; rfl

theorem retireExc_congr {u : State} (flags : u.flags = s.flags) (nest : u.ic.nest = s.ic.nest) (i : Instr) :
    retireExc i u = retireExc i s := by
  unfold retireExc privileged userMode
  rw [flags, nest]

theorem defaultService_setPc (a pc : Word) (s : State) : defaultService pc (setPc a s) = defaultService pc s := by
  have called (u : State) : defaultService pc u =
      if (getX u 1).toNat = 0 then stopCore .halted 0 pc (pc + 4) (getX u 2) { u with exitCode := getX u 2 }
      else if (getX u 1).toNat ≤ 4 then envService (getX u 1).toNat pc u
      else setPc (pc + 4) (setX 1 (BitVec.allOnes 64) u) := rfl
  have service (n : Nat) : envService n pc (setPc a s) = envService n pc s := by
    simp only [envService_eq]; rfl
  have unknown : setPc (pc + 4) (setX 1 (BitVec.allOnes 64) (setPc a s)) =
      setPc (pc + 4) (setX 1 (BitVec.allOnes 64) s) := by
    simp only [setX_eq]; rfl
  simp only [called, getX_setPc, service, unknown, stopCore_eq]
  rfl

theorem syscallTrap_setPc (a pc : Word) (s : State) : syscallTrap pc (setPc a s) = syscallTrap pc s := by
  have same : ivtGet (setPc a s) 128 = ivtGet s 128 := rfl
  have counted : countVector 128 (setPc a s) = setPc a (countVector 128 s) := rfl
  cases h : ivtGet s 128 with
  | default => simp only [syscallTrap, same, h, counted, defaultService_setPc]
  | guest addr => simp only [syscallTrap, same, h, getX_setPc, stopCore_eq]; rfl

/-- A system event sets `PC` (50_pipeline.md R342). -/
theorem systemEvent_setPc (hi : isSystem i = true) (a pc : Word) (s : State) :
    systemEvent i pc (setPc a s) = systemEvent i pc s := by
  cases i <;> cases hi
  case syscall => exact syscallTrap_setPc a pc s
  case halt => simp only [systemEvent, haltCore, stopCore_eq]; rfl
  case iret => rfl

theorem memRead_left_pc (s : State) (va : Word) (n : Nat) : (memRead s va n).left.pc = s.pc := by
  have moved := memRead_setPc s.pc s va n
  rw [show setPc s.pc s = s from rfl] at moved
  rw [moved]
  cases memRead s va n <;> rfl

theorem memWrite_left_pc (s : State) (va : Word) (n : Nat) (val : VWord) : (memWrite s va n val).left.pc = s.pc := by
  have moved := memWrite_setPc s.pc s va n val
  rw [show setPc s.pc s = s from rfl] at moved
  rw [moved]
  cases memWrite s va n val <;> rfl

/-! ## Memory and Writeback of an instruction alone -/

theorem setExMem_none_of_quiet (hq : s.quiet) (l : Option ExMem) : setExMem none (setExMem l s) = s := by
  have same : s = { s with latches := { ifId := none, idEx := none, exMem := none, memWb := none } } := by rw [← hq]
  rw [same]; rfl

theorem setIdEx_none_of_quiet (hq : s.quiet) (l : Option IdEx) {p : Word} :
    setIdEx none (setIdEx l (setPc p s)) = setPc p s := by
  have same : s = { s with latches := { ifId := none, idEx := none, exMem := none, memWb := none } } := by rw [← hq]
  rw [same]; rfl

theorem setMemWb_none_of_quiet (hq : s.quiet) (l : Option MemWb) : setMemWb none (setMemWb l s) = s := by
  have same : s = { s with latches := { ifId := none, idEx := none, exMem := none, memWb := none } } := by rw [← hq]
  rw [same]; rfl

theorem flushYounger_of_quiet (hq : s.quiet) : flushYounger s = s := by
  have same : s = { s with latches := { ifId := none, idEx := none, exMem := none, memWb := none } } := by rw [← hq]
  rw [same]; rfl

/-- Only HALT and IRET raise at retirement (50_pipeline.md R340 b). -/
theorem retireExc_of_not_system (other : isSystem i = false) (s : State) : retireExc i s = none := by
  cases i
  case halt | iret => cases other
  all_goals rfl

theorem writeback_raises {m : MemWb} {x : Exc} (hm : s.latches.memWb = some m) (clean : m.exc = .none)
    (hi : m.instr = some i) (raises : retireExc i (setMemWb none s) = some x) :
    writeback s = (deliver x m.pc (flushYounger (setMemWb none s)), true) := by
  simp only [writeback, hm, clean, hi, Option.bind_some, raises]

theorem writeback_system {m : MemWb} (hm : s.latches.memWb = some m) (clean : m.exc = .none) (hi : m.instr = some i)
    (passes : retireExc i (setMemWb none s) = none) (system : isSystem i = true) :
    writeback s = (systemEvent i m.pc (flushYounger (commitWb m (setMemWb none s))), true) := by
  simp only [writeback, hm, clean, hi, Option.bind_some, passes, Option.filter_some, system, if_true]

theorem writeback_commits {m : MemWb} (hm : s.latches.memWb = some m) (clean : m.exc = .none) (hi : m.instr = some i)
    (other : isSystem i = false) : writeback s = (commitWb m (setMemWb none s), false) := by
  simp only [writeback, hm, clean, hi, Option.bind_some, retireExc_of_not_system other, Option.filter_some, other,
    Bool.false_eq_true, if_false]

theorem memoryStage_pass {e : ExMem} (he : s.latches.exMem = some e) (pass : memActIn e = .pass) :
    memoryStage s = setMemWb (some (passOn e)) (setExMem none s) := by
  simp only [memoryStage, he, pass]

theorem memoryStage_load {e : ExMem} {n : Nat} {extend : VWord → VWord} (he : s.latches.exMem = some e)
    (load : memActIn e = .load n extend) :
    memoryStage s = match memRead (setExMem none s) e.ea n with
      | .done val t => setMemWb (some { passOn e with result := extend val }) (countMemOp t)
      | .raised x t => setMemWb (some { passOn e with exc := .fault x, dest := .none, result := 0 }) t := by
  cases hr : memRead (setExMem none s) e.ea n with
  | done val t => simp only [memoryStage, he, load, hr]
  | raised x t => simp only [memoryStage, he, load, hr]

theorem memoryStage_store {e : ExMem} {n : Nat} (he : s.latches.exMem = some e) (store : memActIn e = .store n) :
    memoryStage s = match memWrite (setExMem none s) e.ea n e.sdata with
      | .done _ t => setMemWb (some (passOn e)) (countMemOp t)
      | .raised x t => setMemWb (some { passOn e with exc := .fault x }) t := by
  cases hr : memWrite (setExMem none s) e.ea n e.sdata with
  | done val t => simp only [memoryStage, he, store, hr]
  | raised x t => simp only [memoryStage, he, store, hr]

theorem executed_exMem (i : Instr) (s : State) :
    (executed i s).latches.exMem = some (exMemOf i s.pc (computeAt i s)) := rfl

theorem trained_of_other (other : isControl i = false) : trained i s = s := by
  rw [trained, other]
  rfl

theorem trained_quiet (hq : s.quiet) (i : Instr) : (trained i s).quiet := by
  unfold trained
  split
  · exact hq
  · exact hq

/-- An instruction that makes no access and is no system event commits what Execute computed. -/
theorem stages_of_commit (hq : s.quiet) (pass : memActOf i = .pass) (other : isSystem i = false) :
    (writeback (memoryStage (executed i s))).1 =
      setPc (computeAt i s).next (commitWb (passOn (exMemOf i s.pc (computeAt i s))) (trained i s)) := by
  have hu : (setPc (computeAt i s).next (trained i s)).quiet := trained_quiet hq i
  rw [memoryStage_pass (executed_exMem i s) pass, executed, setExMem_none_of_quiet hu, writeback_commits rfl rfl rfl other,
    setMemWb_none_of_quiet hu, commitWb_setPc]

theorem stages_of_load {n : Nat} {extend : VWord → VWord} (hq : s.quiet) (load : memActOf i = .load n extend) :
    (writeback (memoryStage (executed i s))).1 =
      match memRead s (computeAt i s).ea n with
      | .raised x t => deliver x s.pc t
      | .done val t => setPc (computeAt i s).next
          (commitWb { passOn (exMemOf i s.pc (computeAt i s)) with result := extend val } (countMemOp t)) := by
  have hu : (setPc (computeAt i s).next s).quiet := hq
  have other : isControl i = false := by cases i <;> cases load <;> rfl
  have passes : isSystem i = false := by cases i <;> cases load <;> rfl
  have kept := memRead_left_latches s (computeAt i s).ea n
  rw [memoryStage_load (executed_exMem i s) load, executed, trained_of_other other, setExMem_none_of_quiet hu,
    memRead_setPc]
  change (writeback (match (memRead s (computeAt i s).ea n).map (setPc (computeAt i s).next) with
    | .done val t => _ | .raised x t => _)).1 = _
  cases hr : memRead s (computeAt i s).ea n with
  | raised x t =>
    rw [hr] at kept
    have ht : (setPc (computeAt i s).next t).quiet := kept.trans hq
    simp only [Access.map]
    rw [writeback_fault rfl rfl, setMemWb_none_of_quiet ht, flushYounger_of_quiet ht, deliver_setPc]
    rfl
  | done val t =>
    rw [hr] at kept
    have ht : (countMemOp (setPc (computeAt i s).next t)).quiet := kept.trans hq
    simp only [Access.map]
    rw [writeback_commits rfl rfl rfl passes, setMemWb_none_of_quiet ht, ← commitWb_setPc]
    rfl

theorem stages_of_store {n : Nat} (hq : s.quiet) (store : memActOf i = .store n) :
    (writeback (memoryStage (executed i s))).1 =
      match memWrite s (computeAt i s).ea n (computeAt i s).sdata with
      | .raised x t => deliver x s.pc t
      | .done _ t => setPc (computeAt i s).next
          (commitWb (passOn (exMemOf i s.pc (computeAt i s))) (countMemOp t)) := by
  have hu : (setPc (computeAt i s).next s).quiet := hq
  have other : isControl i = false := by cases i <;> cases store <;> rfl
  have passes : isSystem i = false := by cases i <;> cases store <;> rfl
  have kept := memWrite_left_latches s (computeAt i s).ea n (computeAt i s).sdata
  rw [memoryStage_store (executed_exMem i s) store, executed, trained_of_other other, setExMem_none_of_quiet hu,
    memWrite_setPc]
  change (writeback (match (memWrite s (computeAt i s).ea n (computeAt i s).sdata).map (setPc (computeAt i s).next) with
    | .done _ t => _ | .raised x t => _)).1 = _
  cases hr : memWrite s (computeAt i s).ea n (computeAt i s).sdata with
  | raised x t =>
    rw [hr] at kept
    have ht : (setPc (computeAt i s).next t).quiet := kept.trans hq
    simp only [Access.map]
    rw [writeback_fault rfl rfl, setMemWb_none_of_quiet ht, flushYounger_of_quiet ht, deliver_setPc]
    rfl
  | done _ t =>
    rw [hr] at kept
    have ht : (countMemOp (setPc (computeAt i s).next t)).quiet := kept.trans hq
    simp only [Access.map]
    rw [writeback_commits rfl rfl rfl passes, setMemWb_none_of_quiet ht, ← commitWb_setPc]
    rfl

theorem stages_of_system (hq : s.quiet) (system : isSystem i = true) :
    (writeback (memoryStage (executed i s))).1 =
      match retireExc i s with
      | some x => deliver x s.pc s
      | none => systemEvent i s.pc (countRetired s) := by
  have pass : memActOf i = .pass := by cases i <;> cases system <;> rfl
  have other : isControl i = false := by cases i <;> cases system <;> rfl
  have commit (u : State) : commitWb (passOn (exMemOf i s.pc (computeAt i s))) u = countRetired u := by
    cases i <;> cases system <;> rfl
  have hu : (setPc (computeAt i s).next s).quiet := hq
  have same (u : State) (l : Option MemWb) : retireExc i (setMemWb none (setMemWb l (setPc (computeAt i s).next u))) =
      retireExc i u := retireExc_congr rfl rfl i
  rw [memoryStage_pass (executed_exMem i s) pass, executed, trained_of_other other, setExMem_none_of_quiet hu]
  cases raises : retireExc i s with
  | some x =>
    rw [writeback_raises rfl rfl rfl ((same s _).trans raises), setMemWb_none_of_quiet hu, flushYounger_of_quiet hu,
      deliver_setPc]
    rfl
  | none =>
    have hc : (countRetired (setPc (computeAt i s).next s)).quiet := hq
    rw [writeback_system rfl rfl rfl ((same s _).trans raises) system, setMemWb_none_of_quiet hu, commit,
      flushYounger_of_quiet hc]
    exact systemEvent_setPc system _ _ (countRetired s)

/-! ## The templates of the execution chapters, stage by stage -/

theorem commitDest_gDest (rd : Reg) (result : VWord) (s : State) :
    commitDest (gDest rd) result s = setX rd (result.setWidth 64) s := by
  unfold gDest
  split
  · rename_i zero
    rw [zero]
    rfl
  · rfl

theorem setWidth_setWidth_word (w : Word) : (w.setWidth 256).setWidth 64 = w := by
  simp

/-- `i` stays in the registers: no access, no transfer, no system event. -/
structure InRegisters (i : Instr) (vector : Bool) : Prop where
  pass : memActOf i = .pass
  notControl : isControl i = false
  notSystem : isSystem i = false
  vector : isVector i = vector

theorem InRegisters.stages {vector : Bool} (hi : InRegisters i vector) (hq : s.quiet) {c : Computed}
    (hc : computeAt i s = c) :
    (writeback (memoryStage (executed i s))).1 =
      setPc c.next (if vector then countSimd (countRetired (commitFlags c.flags (commitDest (destOf i) c.result s)))
        else countRetired (commitFlags c.flags (commitDest (destOf i) c.result s))) := by
  rw [stages_of_commit hq hi.pass hi.notSystem, trained_of_other hi.notControl, hc, commitWb]
  simp [passOn, exMemOf, hi.vector]

theorem InRegisters.stages_alu (hi : InRegisters i false) (hq : s.quiet) {rd : Reg} {o : AluOut}
    (hd : destOf i = gDest rd) (hc : computeAt i s = computesAlu s.pc o) :
    (writeback (memoryStage (executed i s))).1 = finishAlu rd o s := by
  rw [hi.stages hq hc, hd, commitDest_gDest, finishAlu, advance]
  simp [computesAlu, computesNothing, commitFlags]

theorem InRegisters.stages_compare (hi : InRegisters i false) (hq : s.quiet) {o : AluOut}
    (hd : destOf i = .none) (hc : computeAt i s = computesAlu s.pc o) :
    (writeback (memoryStage (executed i s))).1 = finishCompare o.nzcv s := by
  rw [hi.stages hq hc, hd]
  rfl

theorem InRegisters.stages_vector (hi : InRegisters i true) (hq : s.quiet) {vd : VReg} {r : VWord}
    (hd : destOf i = .v vd) (hc : computeAt i s = computesVector s.pc r) :
    (writeback (memoryStage (executed i s))).1 = finishVector vd r s := by
  rw [hi.stages hq hc, hd]
  rfl

/-- A control transfer but CALL (42_control.md R261). -/
theorem stages_of_transfer (hq : s.quiet) (pass : memActOf i = .pass) (control : isControl i = true)
    (hd : destOf i = .none) {taken : Bool} {next : Word}
    (hc : computeAt i s = { computesNothing s.pc with taken := taken, next := next }) :
    (writeback (memoryStage (executed i s))).1 = finishControl taken next s := by
  have other : isSystem i = false := by cases i <;> cases control <;> rfl
  have scalar : isVector i = false := by cases i <;> cases control <;> rfl
  rw [stages_of_commit hq pass other, trained, control, if_pos rfl, hc]
  simp only [commitWb, passOn, exMemOf, hd, scalar, Option.any_some]
  rfl

theorem stages_of_call (hq : s.quiet) (imm : BitVec 26) :
    (writeback (memoryStage (executed (.call imm) s))).1 =
      setX 31 (s.pc + 4) (finishControl true (jumpTarget s.pc imm) s) := by
  have link : ((s.pc + 4).setWidth 256).setWidth 64 = s.pc + 4 := setWidth_setWidth_word _
  have hc : computeAt (.call imm) s =
      { computesJump s.pc (jumpTarget s.pc imm) with result := (s.pc + 4).setWidth 256 } := rfl
  rw [stages_of_commit hq rfl rfl, trained, hc]
  simp only [setX_eq, commitWb, passOn, exMemOf, destOf, commitDest, link]
  rfl

/-! ## All sixty instructions -/

theorem exec_inRegisters (hq : s.quiet) (i : Instr) (pass : memActOf i = .pass) (other : isSystem i = false) :
    exec i s = .next (writeback (memoryStage (executed i s))).1 := by
  cases i
  case add | sub | mul | mulh | div | mod | and | or | xor | not | shl | shr | sar | rol | ror =>
    rw [InRegisters.stages_alu ⟨rfl, rfl, rfl, rfl⟩ hq rfl rfl]
    rfl
  case cmp | test =>
    rw [InRegisters.stages_compare ⟨rfl, rfl, rfl, rfl⟩ hq rfl rfl]
    rfl
  case ld rd rs1 imm =>
    have hc : computeAt (.ld rd rs1 imm) s = { computesNothing s.pc with result := (simm16 imm).setWidth 256 } := rfl
    rw [InRegisters.stages (vector := false) ⟨rfl, rfl, rfl, rfl⟩ hq hc]
    simp only [destOf, commitDest_gDest, setWidth_setWidth_word, exec, execLd, advance, setX_eq]
    rfl
  case nop =>
    rw [InRegisters.stages (vector := false) ⟨rfl, rfl, rfl, rfl⟩ hq rfl]
    rfl
  case vadd | vsub | vmul | vmulh | vdiv | vmod | vand | vor | vxor | vnot | vshl | vshr | vsar | vrol | vror |
      vaddf64 | vsubf64 | vmulf64 | vfmaf64 =>
    rw [InRegisters.stages_vector ⟨rfl, rfl, rfl, rfl⟩ hq rfl rfl]
    rfl
  case beq | bne | blt | bge | bltu | bgeu | jmp | ret =>
    rw [stages_of_transfer hq rfl rfl rfl rfl]
    rfl
  case call imm =>
    rw [stages_of_call hq]
    rfl
  case lb | lh | lw | ldd | vload | sb | sh | sw | st | vstore => cases pass
  case syscall | halt | iret => cases other

theorem exec_of_load (hq : s.quiet) {n : Nat} {extend : VWord → VWord} {commit : VWord → State → State}
    (load : memActOf i = .load n extend) (run : exec i s = loadWith commit (computeAt i s).ea n s)
    (commits : ∀ val t, commitWb { passOn (exMemOf i s.pc (computeAt i s)) with result := extend val } t =
      countRetired (commit val t))
    (pc : ∀ val t, (commit val t).pc = t.pc) : exec i s = .next (writeback (memoryStage (executed i s))).1 := by
  have next : (computeAt i s).next = s.pc + 4 := by cases i <;> cases load <;> rfl
  have kept := memRead_left_pc s (computeAt i s).ea n
  rw [stages_of_load hq load, run, loadWith]
  cases hr : memRead s (computeAt i s).ea n with
  | raised x t => rfl
  | done val t =>
    rw [hr] at kept
    have at_pc : (commit val (countMemOp t)).pc = s.pc := (pc val _).trans kept
    simp only [commits, next, advance, countRetired_pc, at_pc]

theorem exec_of_store (hq : s.quiet) {n : Nat} {retire : State → State}
    (store : memActOf i = .store n)
    (run : exec i s = storeWith retire (computeAt i s).ea n (computeAt i s).sdata s)
    (commits : ∀ t, commitWb (passOn (exMemOf i s.pc (computeAt i s))) t = retire t)
    (pc : ∀ t, (retire t).pc = t.pc) : exec i s = .next (writeback (memoryStage (executed i s))).1 := by
  have next : (computeAt i s).next = s.pc + 4 := by cases i <;> cases store <;> rfl
  have kept := memWrite_left_pc s (computeAt i s).ea n (computeAt i s).sdata
  rw [stages_of_store hq store, run, storeWith]
  cases hr : memWrite s (computeAt i s).ea n (computeAt i s).sdata with
  | raised x t => rfl
  | done _ t =>
    rw [hr] at kept
    have at_pc : (retire (countMemOp t)).pc = s.pc := (pc _).trans kept
    simp only [commits, next, advance, at_pc]

theorem exec_scalarLoad_stages (hq : s.quiet) {rd rs1 : Reg} {imm : BitVec 16} {n : Nat}
    (hi : Claims.ScalarLoad rd rs1 imm i n) : exec i s = .next (writeback (memoryStage (executed i s))).1 := by
  have ea : (computeAt i s).ea = Claims.address s rs1 imm := by cases hi <;> rfl
  have load : memActOf i = scalarLoad n := by cases hi <;> rfl
  refine exec_of_load hq load ((Claims.exec_scalarLoad hi s).trans (by rw [ea])) (fun val t => ?_) fun val t => setX_pc _ _ t
  have gdest : commitWb { passOn (exMemOf i s.pc (computeAt i s)) with result := (loadedWord n val).setWidth 256 } t =
      countRetired (commitDest (gDest rd) ((loadedWord n val).setWidth 256) t) := by cases hi <;> rfl
  rw [gdest, commitDest_gDest, setWidth_setWidth_word]

theorem exec_scalarStore_stages (hq : s.quiet) {rd rs1 : Reg} {imm : BitVec 16} {n : Nat}
    (hi : Claims.ScalarStore rd rs1 imm i n) : exec i s = .next (writeback (memoryStage (executed i s))).1 := by
  have store : memActOf i = .store n := by cases hi <;> rfl
  have run : exec i s = storeWith countRetired (computeAt i s).ea n (computeAt i s).sdata s := by cases hi <;> rfl
  have commits (t : State) : commitWb (passOn (exMemOf i s.pc (computeAt i s))) t = countRetired t := by
    cases hi <;> rfl
  exact exec_of_store hq store run commits fun t => rfl

theorem exec_system_stages (hq : s.quiet) (system : isSystem i = true) :
    exec i s = .next (writeback (memoryStage (executed i s))).1 := by
  rw [stages_of_system hq system]
  cases i <;> cases system
  case syscall => rfl
  case halt imm =>
    simp only [exec, execHalt]
    cases retireExc (.halt imm) s <;> rfl
  case iret imm =>
    simp only [exec, execIret]
    cases retireExc (.iret imm) s <;> rfl

/-- On a quiet machine an instruction means what Memory and Writeback make of what Execute computed for it. -/
theorem exec_eq_stages (hq : s.quiet) (i : Instr) : exec i s = .next (writeback (memoryStage (executed i s))).1 := by
  cases i
  case lb => exact exec_scalarLoad_stages hq .lb
  case lh => exact exec_scalarLoad_stages hq .lh
  case lw => exact exec_scalarLoad_stages hq .lw
  case ldd => exact exec_scalarLoad_stages hq .ldd
  case vload vd rs1 imm => exact exec_of_load hq rfl (Claims.exec_vload vd rs1 imm s) (fun _ _ => rfl) fun _ _ => rfl
  case sb => exact exec_scalarStore_stages hq .sb
  case sh => exact exec_scalarStore_stages hq .sh
  case sw => exact exec_scalarStore_stages hq .sw
  case st => exact exec_scalarStore_stages hq .st
  case vstore vd rs1 imm => exact exec_of_store hq rfl (Claims.exec_vstore vd rs1 imm s) (fun _ => rfl) fun _ => rfl
  case syscall | halt | iret => exact exec_system_stages hq rfl
  all_goals exact exec_inRegisters hq _ rfl rfl

/-! ## Execute of an instruction alone -/

/-- With nothing behind the instruction a redirect only moves `PC` (50_pipeline.md R337). -/
theorem redirect_of_empty {p : Word} (next : Word) (at_p : s.pc = p) (empty : s.latches.ifId = none) :
    redirect p next s = setPc next s := by
  have kept : setIfId none s = s := by rw [← empty]; rfl
  unfold redirect
  split
  · rw [kept]
  · rename_i right
    rw [not_not.mp right, ← at_p]
    rfl

/-- With nothing in MEM/WB the operands are the registers (50_pipeline.md R335). -/
theorem compute_operands_of_empty (empty : s.latches.memWb = none) (pc : Word) (i : Instr) :
    compute (operandG s) (operandV s) pc i = compute (getX s) (getV s) pc i := by
  have general : operandG s = getX s := funext fun r => by rw [operandG, empty]
  have vector : operandV s = getV s := funext fun r => by rw [operandV, empty]
  rw [general, vector]

/-- Execute of an instruction whose fetch was predicted as the interpreter assumes (log entry 9). -/
theorem executeStage_alone (hq : s.quiet) {p : Word} (hp : p = predict s.params s.predictor s.pc)
    (other : isControl i = false → p = s.pc + 4) :
    executeStage (setIdEx (some { pc := s.pc, instr := some i, exc := .none, predNext := p }) (setPc p s)) =
      executed i s := by
  have empty : s.latches.memWb = none := by rw [hq]
  have flushed : s.latches.ifId = none := by rw [hq]
  have cleared (d : Option IdEx) : setIdEx none (setIdEx d (setPc p s)) = setPc p s := setIdEx_none_of_quiet hq d
  have to_next (u : State) (at_p : u.pc = p) (same : u.latches = s.latches) :
      redirect p (computeAt i s).next u = setPc (computeAt i s).next u :=
    redirect_of_empty _ at_p (by rw [same]; exact flushed)
  have hc := compute_operands_of_empty (s := setIdEx (some { pc := s.pc, instr := some i, exc := .none, predNext := p })
    (setPc p s)) empty s.pc i
  rw [executeStage_resolves rfl rfl rfl hc, cleared, resolve]
  change setExMem (some (exMemOf i s.pc (computeAt i s))) (redirect p (computeAt i s).next
    (if isControl i then resolveControl s.pc p (computeAt i s).taken (computeAt i s).next (setPc p s)
      else resolveOther s.pc p (computeAt i s).next (setPc p s))) = _
  cases hi : isControl i with
  | true =>
    rw [if_pos rfl, to_next (resolveControl s.pc p (computeAt i s).taken (computeAt i s).next (setPc p s)) rfl rfl,
      executed, trained, hi, if_pos rfl, hp]
    rfl
  | false =>
    have right : (computeAt i s).next = p := (compute_next_of_not_control _ _ _ hi).trans (other hi).symm
    rw [if_neg Bool.false_ne_true, resolveOther, if_neg (not_not.mpr right), to_next (setPc p s) rfl rfl,
      executed, trained_of_other hi]
    rfl

end

end Sys2Proof.Machine

namespace Sys2Proof.Claims

open Sys2Proof.Machine

/-- Settles O47: Execute hands on what it computed, and the other two stages make of it what `exec` gives. -/
theorem stagesRefineMeaning : Obligations.StagesRefineMeaning := by
  intro i s t hq other gives
  have stages := Host.Outcome.next.inj ((exec_eq_stages hq i).symm.trans gives)
  rw [← executeStage_alone hq rfl other] at stages
  exact stages

end Sys2Proof.Claims
end
-- ==== Sys2Proof/Proofs/Agreement.lean ====
section
/-! Two states that agree in all but latches, caches, TLB, predictor and counters (spec/70_reset_and_hazards.md R466, R467),
and the operations that keep the agreement. -/

namespace Sys2Proof.Machine

/-! ## Page tables but for accessed and dirty bits (21_translation.md R92, R96) -/

/-- The two page tables differ at most in `A` and `D` bits. -/
def SamePages (pt pt' : Store Word) : Prop := ∀ t i, ptGet pt t i &&& ~~~0x18#64 = ptGet pt' t i &&& ~~~0x18#64

theorem SamePages.symm {pt pt' : Store Word} (h : SamePages pt pt') : SamePages pt' pt := fun t i => (h t i).symm

theorem SamePages.trans {a b c : Store Word} (h : SamePages a b) (k : SamePages b c) : SamePages a c :=
  fun t i => (h t i).trans (k t i)

/-- Bits 3 and 4 of an entry take no part in a walk. -/
theorem pte_congr {e f : Word} (h : e &&& ~~~0x18#64 = f &&& ~~~0x18#64) :
    pteP e = pteP f ∧ pteW e = pteW f ∧ pteU e = pteU f ∧ pteFrame e = pteFrame f := by
  have bit (k : Nat) (hk : (~~~0x18#64).getLsbD k = true) : e.getLsbD k = f.getLsbD k := by
    have hb := congrArg (·.getLsbD k) h
    simpa only [BitVec.getLsbD_and, hk, Bool.and_true] using hb
  refine ⟨bit 0 (by decide), bit 1 (by decide), bit 2 (by decide), pteFrame_congr fun k hk => ?_⟩
  by_cases hw : k < 64
  · refine bit k ?_
    interval_cases k <;> decide
  · rw [BitVec.getLsbD_of_ge _ _ (not_lt.mp hw), BitVec.getLsbD_of_ge _ _ (not_lt.mp hw)]

theorem samePages_ptOr (pt : Store Word) (t i : Nat) {bits : Word} (hb : bits &&& ~~~0x18#64 = 0) :
    SamePages (ptOr pt t i bits) pt := by
  intro u j
  unfold ptOr ptSet ptGet
  rw [Store.get_set]
  split
  · rename_i same
    have split : (ptGet pt t i ||| bits) &&& ~~~0x18#64 = ptGet pt t i &&& ~~~0x18#64 ||| bits &&& ~~~0x18#64 := by
      ext k hk
      simp only [BitVec.getElem_and, BitVec.getElem_or, Bool.and_or_distrib_right]
    rw [same]
    exact split.trans (by rw [hb]; exact BitVec.or_zero)
  · rfl

theorem samePages_setAccessed (path : List PathStep) (pt : Store Word) : SamePages (setAccessed pt path) pt := by
  induction path generalizing pt with
  | nil => exact fun _ _ => rfl
  | cons s path ih => exact (ih _).trans (samePages_ptOr pt s.table s.index (by decide))

theorem samePages_setDirty (path : List PathStep) (pt : Store Word) : SamePages (setDirty pt path) pt := by
  unfold setDirty
  cases path.getLast? with
  | none => exact fun _ _ => rfl
  | some s => exact samePages_ptOr pt s.table s.index (by decide)

/-- A translation changes a page table only in accessed and dirty bits (21_translation.md R96). -/
theorem samePages_translate (entries : Nat) (m : Mmu) (um : Bool) (va : Word) (acc : Acc) :
    SamePages (translate entries m um va acc).1.pt m.pt := by
  obtain ⟨-, h⟩ | ⟨-, -, -, h⟩ | ⟨-, h⟩ := translate_cases entries m um va acc
  · rw [h]; exact fun _ _ => rfl
  · rw [h]; exact fun _ _ => rfl
  · rw [h]
    obtain ⟨e, h⟩ | ⟨pfn, path, -, -, -, h⟩ := translateMiss_cases entries m um va acc
    · rw [h]; exact fun _ _ => rfl
    · rw [h]
      dsimp only
      split
      · exact (samePages_setDirty _ _).trans (samePages_setAccessed _ _)
      · exact samePages_setAccessed _ _

/-- What a translation answers does not depend on accessed and dirty bits. -/
theorem walkAnswer_congr {pt pt' : Store Word} (h : SamePages pt pt') (um : Bool) (va : Word) (acc : Acc) :
    walkAnswer um va acc (walk pt va) = walkAnswer um va acc (walk pt' va) := by
  have present t i := (pte_congr (h t i)).1
  have writable t i := (pte_congr (h t i)).2.1
  have user t i := (pte_congr (h t i)).2.2.1
  have frame t i := (pte_congr (h t i)).2.2.2
  rw [walk_eq rfl rfl rfl rfl, walk_eq (pt := pt') rfl rfl rfl rfl]
  simp only [apply_ite (walkAnswer um va acc), walkAnswer_found, walkAnswer_fail, present, writable, user, frame]

/-! ## Agreement -/

/-- An event as the comparison shows it: whole, or, as in `eventView`, an interrupt without its `pc`. -/
def shownEvent (full : Bool) (e : Event) : Event :=
  if full = false ∧ e.kind = .deviceInterrupt then { e with pc := 0 } else e

/-- The two states agree in everything architectural but `PC`. `full`: also in status, `RESUME` and the `pc` of every
event, as a step does; a tick fetches ahead and agrees in less (70_reset_and_hazards.md R466). -/
structure Agree (full : Bool) (s r : State) : Prop where
  params : s.params = r.params
  x : s.x = r.x
  v : s.v = r.v
  flags : s.flags = r.flags
  sp : s.sp = r.sp
  memory : ∀ a, s.flat a = Memory.read r.hier.pm a
  pages : SamePages s.mmu.pt r.mmu.pt
  mmioTable : s.mmioTable = r.mmioTable
  ic : s.ic = r.ic
  halted : s.halted = r.halted
  exitCode : s.exitCode = r.exitCode
  bkpt : s.bkpt = r.bkpt
  events : s.eventQ.map (shownEvent full) = r.eventQ.map (shownEvent full)
  envCalls : s.envCalls = r.envCalls
  status : full = true → s.lastStatus = r.lastStatus
  resume : full = true → s.resume = r.resume

/-- The two states agree and stand at the same `PC`. -/
structure AgreeAt (full : Bool) (s r : State) : Prop extends Agree full s r where
  pc : s.pc = r.pc

section
variable {full : Bool} {s r : State}

namespace Agree

theorem getX_eq (h : Agree full s r) : getX s = getX r := by
  funext q
  rw [getX, getX, h.x]

theorem getV_eq (h : Agree full s r) : getV s = getV r := by
  funext q
  rw [getV, getV, h.v]

theorem ivtGet_eq (h : Agree full s r) : ivtGet s = ivtGet r := by
  funext v
  rw [ivtGet, ivtGet, h.ic]

theorem deliverable_eq (h : Agree full s r) : deliverable s = deliverable r := by
  unfold deliverable
  rw [h.flags, h.ic, h.params, h.ivtGet_eq]

theorem retireExc_eq (h : Agree full s r) (i : Instr) : retireExc i s = retireExc i r :=
  retireExc_congr h.flags (by rw [h.ic]) i

/-! ### Registers, flags, counters, events -/

theorem setX (h : Agree full s r) (q : Reg) (w : Word) : Agree full (setX q w s) (setX q w r) := by
  rw [setX_eq, setX_eq, h.x]
  exact { h with x := rfl }

theorem setV (h : Agree full s r) (q : VReg) (w : VWord) : Agree full (setV q w s) (setV q w r) :=
  { h with v := congrArg (·.set q.toNat w) h.v }

theorem setNzcv (h : Agree full s r) (a : Nzcv) : Agree full (setNzcv a s) (setNzcv a r) :=
  { h with flags := congrArg (withNzcv · a) h.flags }

theorem commitDest (h : Agree full s r) (d : Dest) (result : VWord) :
    Agree full (commitDest d result s) (commitDest d result r) := by
  cases d with
  | none => exact h
  | g q => exact h.setX q _
  | v q => exact h.setV q _

theorem commitFlags (h : Agree full s r) (f : Option Nzcv) : Agree full (commitFlags f s) (commitFlags f r) := by
  cases f with
  | none => exact h
  | some a => exact h.setNzcv a

theorem pushEvent (h : Agree full s r) {e f : Event} (same : shownEvent full e = shownEvent full f) :
    Agree full (pushEvent e s) (pushEvent f r) := by
  have len : s.eventQ.length = r.eventQ.length := by simpa using congrArg List.length h.events
  rw [pushEvent_eq, pushEvent_eq]
  refine { h with events := ?_ }
  rw [h.params, len]
  split
  · rw [List.map_append, List.map_append, h.events, List.map_singleton, List.map_singleton, same]
  · exact h.events

theorem stopCore (h : Agree full s r) (status : Status) (vector : Nat) (at' next i0 : Word) :
    AgreeAt full (stopCore status vector at' next i0 s) (stopCore status vector at' next i0 r) := by
  have stopped : Agree full { s with halted := true, pc := next, lastStatus := status }
      { r with halted := true, pc := next, lastStatus := status } := { h with halted := rfl, status := fun _ => rfl }
  refine { stopped.pushEvent rfl with pc := ?_ }
  rw [stopCore_eq, stopCore_eq]

theorem countVector (h : Agree full s r) (v : Nat) : Agree full (countVector v s) (countVector v r) := by
  refine { h with ic := ?_ }
  rw [Machine.countVector, Machine.countVector, statGet, statGet, h.ic]

theorem pend (h : Agree full s r) (vs : BitVec 256) : Agree full (pend vs s) (pend vs r) := by
  refine { h with ic := ?_ }
  rw [Machine.pend, Machine.pend, h.ic]

theorem unpend (h : Agree full s r) (v : Nat) : Agree full (unpend v s) (unpend v r) := by
  refine { h with ic := ?_ }
  rw [Machine.unpend, Machine.unpend, h.ic]

/-! ### Taking an exception and returning from one -/

theorem trapEnter (h : Agree full s r) (addr ret : Word) (v : Nat) (i0 i1 : Word) :
    AgreeAt full (trapEnter addr ret v i0 i1 s) (trapEnter addr ret v i0 i1 r) := by
  refine { h with ic := ?_, flags := congrArg flagsOnEntry h.flags, pc := rfl }
  rw [Machine.trapEnter, Machine.trapEnter, h.ic, h.flags]

theorem trapReturn (h : Agree full s r) : AgreeAt full (trapReturn s) (trapReturn r) := by
  have frame : frameAt s (s.ic.nest - 1) = frameAt r (r.ic.nest - 1) := by rw [frameAt, frameAt, h.ic]
  rw [Machine.trapReturn, Machine.trapReturn, frame, h.ic]
  exact { h with ic := rfl, flags := rfl, pc := rfl }

theorem deliver (h : Agree full s r) (e : Exc) (ret : Word) : AgreeAt full (deliver e ret s) (deliver e ret r) := by
  have shown := (h.countVector e.vector).pushEvent
    (e := { kind := .exception, vector := e.vector, pc := ret, info0 := e.info0, info1 := e.info1 }) rfl
  simp only [Machine.deliver, h.ivtGet_eq, h.ic, h.params]
  cases ivtGet r e.vector with
  | default => exact shown.stopCore ..
  | guest addr =>
    dsimp only
    split
    · exact shown.trapEnter ..
    · exact shown.stopCore ..

/-- The event of an interrupt to the default handler carries `PC`. -/
theorem deliverInterrupt_default (h : Agree full s r) {v : Nat} (hv : ivtGet r v = .default)
    (at_pc : full = true → s.pc = r.pc) (a b : Word) :
    Agree full (deliverInterrupt v a s) (deliverInterrupt v b r) := by
  rw [deliverInterrupt_of_default (by rw [h.ivtGet_eq, hv]), deliverInterrupt_of_default hv]
  refine ((h.unpend v).countVector v).pushEvent ?_
  cases full with
  | false => rfl
  | true => rw [at_pc rfl]

theorem deliverInterrupt_guest (h : Agree full s r) {v : Nat} {addr : Word} (hv : ivtGet r v = .guest addr) (ret : Word) :
    AgreeAt full (deliverInterrupt v ret s) (deliverInterrupt v ret r) := by
  rw [deliverInterrupt_of_guest (by rw [h.ivtGet_eq, hv]), deliverInterrupt_of_guest hv]
  exact (((h.unpend v).countVector v).pushEvent rfl).trapEnter ..

theorem breakpointStop (h : Agree full s r) (at' : Word) :
    AgreeAt full (breakpointStop at' s) (breakpointStop at' r) := by
  have stopped : Agree full { s with pc := at', resume := true, lastStatus := .breakpoint }
      { r with pc := at', resume := true, lastStatus := .breakpoint } :=
    { h with status := fun _ => rfl, resume := fun _ => rfl }
  refine { stopped.pushEvent rfl with pc := ?_ }
  rw [breakpointStop_eq, breakpointStop_eq]

end Agree
end

end Sys2Proof.Machine
end
-- ==== Sys2Proof/Proofs/SystemEventAgreement.lean ====
section
/-! The operations that read or write memory keep the agreement: the system events, and the accesses against those of the
reference interpreter (spec/20_memory.md R71 to R73, 43_system.md R271 to R276). -/

namespace Sys2Proof.Machine

/-! ## What the environment writes -/

/-- Over empty caches an answer's writes go to `PM` (22_caches.md R149). -/
theorem read_applyWrites_bare (p : Params) (ws : List (Nat × List Byte)) (a : Nat) : ∀ {h : Hierarchy}, h.l1i = [] →
    h.l1d = [] → h.l2 = [] →
    Memory.read (applyWrites p ws h).pm a = Claims.afterWrites p.memSize ws (Memory.read h.pm) a := by
  induction ws with
  | nil => exact fun _ _ _ => rfl
  | cons w ws ih =>
    intro h hi hd h2
    obtain ⟨base, bytes⟩ := w
    rw [applyWrites, Claims.afterWrites, hostWrite_bare p hi hd h2]
    by_cases inside : base + bytes.length ≤ p.memSize
    · have written : Memory.read (Memory.writeBytes h.pm base bytes) = fun b =>
          if base ≤ b ∧ b < base + bytes.length then bytes.getD (b - base) 0 else Memory.read h.pm b :=
        funext (Memory.read_writeBytes h.pm base bytes)
      simp only [inside, if_true, true_and]
      rw [← written]
      exact ih (h := { h with pm := Memory.writeBytes h.pm base bytes }) hi hd h2
    · simp only [inside, if_false, false_and]
      exact ih hi hd h2

section
variable {full : Bool} {s r : State}

namespace Agree

theorem flat_eq (h : Agree full s r) (bare : CachesEmpty r) : s.flat = r.flat := by
  funext a
  rw [h.memory, State.flat, flatByte_bare _ bare.2.1 bare.2.2]

theorem envService (h : Agree full s r) (ok : MemoryOk s) (bare : CachesEmpty r) (n : Nat) (pc : Word) :
    AgreeAt full (envService n pc s) (envService n pc r) := by
  obtain ⟨hi, hd, h2⟩ := bare
  rw [envService_eq, envService_eq, h.getX_eq, h.envCalls, h.flat_eq ⟨hi, hd, h2⟩, h.x]
  refine { h with x := rfl, memory := fun a => ?_, envCalls := rfl, pc := rfl }
  split
  · have read : s.flat = Memory.read r.hier.pm := funext h.memory
    refine (flatByte_applyWrites ok.params _ a ok.hier).trans ?_
    rw [read_applyWrites_bare _ _ _ hi hd h2, ← read, ← h.params]
    rfl
  · exact h.memory a

theorem defaultService (h : Agree full s r) (ok : MemoryOk s) (bare : CachesEmpty r) (pc : Word) :
    AgreeAt full (defaultService pc s) (defaultService pc r) := by
  simp only [Machine.defaultService, h.getX_eq]
  split
  · have stored : Agree full { s with exitCode := getX r 2 } { r with exitCode := getX r 2 } :=
      { h with exitCode := rfl }
    exact stored.stopCore ..
  · split
    · exact h.envService ok bare _ pc
    · exact { h.setX 1 _ with pc := rfl }

theorem syscallTrap (h : Agree full s r) (ok : MemoryOk s) (bare : CachesEmpty r) (pc : Word) :
    AgreeAt full (syscallTrap pc s) (syscallTrap pc r) := by
  have counted := h.countVector 128
  simp only [Machine.syscallTrap, h.ivtGet_eq, h.getX_eq, h.ic, h.params]
  cases ivtGet r 128 with
  | default => exact counted.defaultService (ok.congr rfl rfl rfl) bare pc
  | guest addr =>
    dsimp only
    split
    · exact counted.trapEnter ..
    · exact counted.stopCore ..

theorem systemEvent (h : Agree full s r) (ok : MemoryOk s) (bare : CachesEmpty r) {i : Instr} (system : isSystem i = true)
    (pc : Word) : AgreeAt full (systemEvent i pc s) (systemEvent i pc r) := by
  cases i <;> cases system
  case syscall => exact h.syscallTrap ok bare pc
  case halt => exact h.stopCore ..
  case iret => exact h.trapReturn

end Agree

/-! ## Translation -/

/-- What `Translate` answers with no TLB: the walk's answer, or the fault of an address beyond 48 bits (21_translation.md
R96). -/
def placeOf (s : State) (va : Word) (acc : Acc) : Translated :=
  if 2 ^ 48 ≤ va.toNat then .exc (pageFault va 5 acc .bounds) else walkAnswer (userMode s) va acc (walk s.mmu.pt va)

theorem Agree.placeOf_eq (h : Agree full s r) (va : Word) (acc : Acc) : placeOf s va acc = placeOf r va acc := by
  rw [placeOf, placeOf, walkAnswer_congr h.pages, userMode, userMode, h.flags]

/-- A translation's answer as an access that leaves `u` where there is an address and `s` where there is none. -/
def Translated.access (s u : State) : Translated → Access Nat
  | .pa a => .done a u
  | .exc e => .raised e s

/-- With a sound TLB a translation answers what the walk answers, and changes accessed and dirty bits and the TLB only. -/
theorem translateS_placeOf (ok : MemoryOk s) (va : Word) (acc : Acc) :
    ∃ m, SamePages m.pt s.mmu.pt ∧
      translateS s va acc = (placeOf s va acc).access { s with mmu := m } { s with mmu := m } := by
  refine ⟨_, samePages_translate s.params.tlbEntries s.mmu (userMode s) va acc, ?_⟩
  rw [translateS, ok.tlb.translate_answer, ← placeOf]
  cases placeOf s va acc <;> rfl

theorem refTranslate_placeOf (r : State) (va : Word) (acc : Acc) :
    ∃ pt, SamePages pt r.mmu.pt ∧
      refTranslate r va acc = (placeOf r va acc).access r { r with mmu := { r.mmu with pt := pt } } := by
  refine ⟨_, samePages_translate r.params.tlbEntries { r.mmu with tlb := [] } (userMode r) va acc, ?_⟩
  rw [refTranslate, (TlbOk.nil r.params.tlbEntries r.mmu.pt).translate_answer, ← placeOf]
  cases placeOf r va acc <;> rfl

end

end Sys2Proof.Machine
end
-- ==== Sys2Proof/Proofs/AccessAgreement.lean ====
section
/-! The memory accesses agree with those of the reference interpreter, which has no TLB and no caches (spec/20_memory.md
R71 to R73, 21_translation.md R106, 22_caches.md R152). -/

namespace Sys2Proof.Machine

/-- The two accesses answer the same and leave states in relation. -/
inductive Access.Same {α : Type} (R : State → State → Prop) : Access α → Access α → Prop where
  | done {a : α} {s r : State} : R s r → Access.Same R (.done a s) (.done a r)
  | raised {e : Exc} {s r : State} : R s r → Access.Same R (.raised e s) (.raised e r)

section
variable {full : Bool} {s r : State} {n : Nat}

namespace Agree

/-- Where the machine's translation succeeds, the interpreter's does. -/
theorem translated (h : Agree full s r) (ok : MemoryOk s) {t : State} {va : Word} {acc : Acc} {pa : Nat}
    (done : translateS s va acc = .done pa t) : ∃ u, refTranslate r va acc = .done pa u ∧ Agree full t u := by
  obtain ⟨m, pages, answer⟩ := translateS_placeOf ok va acc
  obtain ⟨pt, refPages, refAnswer⟩ := refTranslate_placeOf r va acc
  rw [h.placeOf_eq] at answer
  rw [refAnswer]
  rw [answer] at done
  cases place : placeOf r va acc with
  | exc e => rw [place] at done; cases done
  | pa pa' =>
    rw [place] at done
    cases done
    exact ⟨_, rfl, { h with pages := (pages.trans h.pages).trans refPages.symm }⟩

/-- Where the machine's translation faults, the interpreter's does. -/
theorem untranslated (h : Agree full s r) (ok : MemoryOk s) {t : State} {va : Word} {acc : Acc} {e : Exc}
    (fault : translateS s va acc = .raised e t) : refTranslate r va acc = .raised e r ∧ Agree full t r := by
  obtain ⟨m, pages, answer⟩ := translateS_placeOf ok va acc
  obtain ⟨pt, -, refAnswer⟩ := refTranslate_placeOf r va acc
  rw [h.placeOf_eq] at answer
  rw [refAnswer]
  rw [answer] at fault
  cases place : placeOf r va acc with
  | pa pa => rw [place] at fault; cases fault
  | exc e' =>
    rw [place] at fault
    cases fault
    exact ⟨rfl, { h with pages := pages.trans h.pages }⟩

theorem mmioRead (h : Agree full s r) (pa n : Nat) :
    (mmioRead s pa n).1 = (mmioRead r pa n).1 ∧ Agree full (mmioRead s pa n).2 (mmioRead r pa n).2 := by
  have same : findRange s.mmioTable pa = findRange r.mmioTable pa := by rw [h.mmioTable]
  unfold Machine.mmioRead
  rw [same, h.envCalls]
  cases findRange r.mmioTable pa with
  | none => exact ⟨rfl, h⟩
  | some range =>
    have called : Agree full { s with envCalls := r.envCalls + 1 } { r with envCalls := r.envCalls + 1 } :=
      { h with envCalls := rfl }
    exact ⟨rfl, called.pend _⟩

theorem mmioWrite (h : Agree full s r) (pa n : Nat) (val : VWord) :
    Agree full (mmioWrite s pa n val) (mmioWrite r pa n val) := by
  have same : findRange s.mmioTable pa = findRange r.mmioTable pa := by rw [h.mmioTable]
  unfold Machine.mmioWrite
  rw [same, h.envCalls]
  cases findRange r.mmioTable pa with
  | none => exact h
  | some range =>
    have called : Agree full { s with envCalls := r.envCalls + 1 } { r with envCalls := r.envCalls + 1 } :=
      { h with envCalls := rfl }
    exact called.pend _

/-- A RAM read through the caches gives what stands in the interpreter's memory. -/
theorem ramRead (h : Agree full s r) (ok : MemoryOk s) {pa : Nat} (line : pa % 64 + n ≤ 64) (pos : 0 < n)
    (inside : pa + n ≤ s.params.memSize) : (ramRead s pa n).1 = pmValue r pa n ∧ Agree full (ramRead s pa n).2 r := by
  obtain ⟨value, -, flat⟩ := ramRead_ok ok.params ok.hier line pos inside
  refine ⟨?_, { h with memory := fun a => (flat a).trans (h.memory a) }⟩
  rw [value, pmValue]
  exact ofBytes_congr _ _ _ fun j _ => h.memory _

/-- A RAM write through the caches changes the bytes the interpreter's memory changes. -/
theorem ramWrite (h : Agree full s r) (ok : MemoryOk s) {pa : Nat} (val : VWord) (line : pa % 64 + n ≤ 64)
    (pos : 0 < n) (inside : pa + n ≤ s.params.memSize) : Agree full (ramWrite s pa n val) (pmStore pa n val r) := by
  obtain ⟨-, flat⟩ := ramWrite_ok ok.params ok.hier val line pos inside
  refine { h with memory := fun a => ?_ }
  rw [flat, pmStore, Memory.read_writeBytes, List.length_map, List.length_range]
  split
  · rename_i within
    rw [List.getD_eq_getElem?_getD, List.getElem?_map, List.getElem?_range (by omega)]
    rfl
  · exact h.memory a

theorem dropTlb (h : Agree full s r) {va : Word} : Agree full (dropTlb va s) r := { h with }

theorem memRead (h : Agree full s r) (ok : MemoryOk s) (va : Word) (hn : AccessSize n) :
    Access.Same (Agree full) (memRead s va n) (refRead r va n) := by
  obtain ⟨misaligned, k⟩ | ⟨aligned, e, t, fault, k⟩ | ⟨aligned, pa, t, done, k⟩ := memRead_cases s va n
  · rw [k, refRead, if_pos misaligned]
    exact .raised h
  · obtain ⟨refFault, left⟩ := h.untranslated ok fault
    rw [k, refRead, if_neg (not_not.mpr aligned), refFault]
    exact .raised left
  · obtain ⟨u, refDone, left⟩ := h.translated ok done
    obtain ⟨okt, offset⟩ := ok.translateS_done done
    have params : t.params = s.params := by rw [(translateS_done done).2]
    rw [refRead, if_neg (not_not.mpr aligned), refDone]
    dsimp only
    rw [← left.params, params]
    obtain ⟨window, k⟩ | ⟨outside, beyond, k⟩ | ⟨outside, inside, k⟩ := k
    · rw [k, if_pos window]
      obtain ⟨value, after⟩ := left.mmioRead pa n
      rw [value]
      exact .done after
    · rw [k, if_neg (by simp [outside]), if_pos beyond]
      exact .raised h
    · rw [k, if_neg (by simp [outside]), if_neg (not_lt.mpr inside)]
      obtain ⟨value, after⟩ := left.ramRead okt (in_line aligned offset hn) hn.bounds.1 (params ▸ inside)
      rw [value]
      exact .done after

theorem memWrite (h : Agree full s r) (ok : MemoryOk s) (va : Word) (hn : AccessSize n) (val : VWord) :
    Access.Same (Agree full) (memWrite s va n val) (refWrite r va n val) := by
  obtain ⟨misaligned, k⟩ | ⟨aligned, e, t, fault, k⟩ | ⟨aligned, pa, t, done, k⟩ := memWrite_cases s va n val
  · rw [k, refWrite, if_pos misaligned]
    exact .raised h
  · obtain ⟨refFault, left⟩ := h.untranslated ok fault
    rw [k, refWrite, if_neg (not_not.mpr aligned), refFault]
    exact .raised left
  · obtain ⟨u, refDone, left⟩ := h.translated ok done
    obtain ⟨okt, offset⟩ := ok.translateS_done done
    have params : t.params = s.params := by rw [(translateS_done done).2]
    rw [refWrite, if_neg (not_not.mpr aligned), refDone]
    dsimp only
    rw [← left.params, params]
    obtain ⟨window, k⟩ | ⟨outside, beyond, k⟩ | ⟨outside, inside, k⟩ := k
    · rw [k, if_pos window]
      exact .done (left.mmioWrite pa n val).dropTlb
    · rw [k, if_neg (by simp [outside]), if_pos beyond]
      exact .raised h
    · rw [k, if_neg (by simp [outside]), if_neg (not_lt.mpr inside)]
      exact .done (left.ramWrite okt val (in_line aligned offset hn) hn.bounds.1 (params ▸ inside)).dropTlb

end Agree

/-! ## Fetches -/

/-- Where an instruction fetched at `va` stands, or the fault its fetch raises (20_memory.md R73). -/
def fetchPlace (s : State) (va : Word) : Translated :=
  if va.toNat % 4 ≠ 0 then .exc (alignmentFault va .fetch 4)
  else
    match placeOf s va .fetch with
    | .exc e => .exc e
    | .pa pa =>
      if inWindow s.params pa || decide (s.params.memSize < pa + 4) then .exc (pageFault va 0 .fetch .bounds) else .pa pa

theorem Agree.fetchPlace_eq (h : Agree full s r) (va : Word) : fetchPlace s va = fetchPlace r va := by
  rw [fetchPlace, fetchPlace, h.placeOf_eq, h.params]

/-- What a fetch answers and leaves, by its place. -/
theorem fetch_fetchPlace (ok : MemoryOk s) (va : Word) :
    ∃ m, SamePages m.pt s.mmu.pt ∧ fetch s va = match fetchPlace s va with
      | .exc e => .raised e { s with mmu := m }
      | .pa pa => .done (ramFetch { s with mmu := m } pa).1 (ramFetch { s with mmu := m } pa).2 := by
  have same : SamePages s.mmu.pt s.mmu.pt := fun _ _ => rfl
  obtain ⟨m, pages, done⟩ := translateS_placeOf ok va .fetch
  unfold fetch fetchPlace
  rw [done]
  by_cases misaligned : va.toNat % 4 ≠ 0
  · rw [if_pos misaligned, if_pos misaligned]
    exact ⟨s.mmu, same, rfl⟩
  · rw [if_neg misaligned, if_neg misaligned]
    cases placeOf s va .fetch with
    | exc e => exact ⟨m, pages, rfl⟩
    | pa pa =>
      dsimp only [Translated.access]
      by_cases out : (inWindow s.params pa || decide (s.params.memSize < pa + 4)) = true
      · rw [if_pos out, if_pos out]
        exact ⟨s.mmu, same, rfl⟩
      · rw [if_neg out, if_neg out]
        exact ⟨m, pages, rfl⟩

theorem refFetch_fetchPlace (r : State) (va : Word) :
    ∃ m, SamePages m.pt r.mmu.pt ∧ refFetch r va = match fetchPlace r va with
      | .exc e => .raised e r
      | .pa pa => .done ((pmValue r pa 4).setWidth 32) { r with mmu := m } := by
  obtain ⟨pt, pages, done⟩ := refTranslate_placeOf r va .fetch
  refine ⟨{ r.mmu with pt := pt }, pages, ?_⟩
  unfold refFetch fetchPlace
  rw [done]
  by_cases misaligned : va.toNat % 4 ≠ 0
  · rw [if_pos misaligned, if_pos misaligned]
  · rw [if_neg misaligned, if_neg misaligned]
    cases placeOf r va .fetch with
    | exc e => rfl
    | pa pa =>
      dsimp only [Translated.access]
      by_cases out : (inWindow r.params pa || decide (r.params.memSize < pa + 4)) = true
      · rw [if_pos out, if_pos out]
      · rw [if_neg out, if_neg out]
        rfl

theorem fetchPlace_pa {va : Word} {pa : Nat} (h : fetchPlace s va = .pa pa) :
    va.toNat % 4 = 0 ∧ placeOf s va .fetch = .pa pa ∧ inWindow s.params pa = false ∧ pa + 4 ≤ s.params.memSize := by
  unfold fetchPlace at h
  split at h
  · cases h
  · rename_i aligned
    split at h
    · cases h
    · rename_i place
      split at h
      · cases h
      · rename_i inside
        cases h
        simp only [Bool.or_eq_true, decide_eq_true_eq, not_or, Bool.not_eq_true, not_lt] at inside
        exact ⟨not_not.mp aligned, place, inside.1, inside.2⟩

end

end Sys2Proof.Machine
end
-- ==== Sys2Proof/Proofs/StageAgreement.lean ====
section
/-! Memory and Writeback against the reference interpreter (spec/50_pipeline.md R338, R340, 70_reset_and_hazards.md R466):
an instruction's rule in the interpreter is a memory action and a retirement, which the two stages perform. -/

namespace Sys2Proof.Machine

/-! ## An instruction's rule cut in two -/

/-- The memory action of what EX/MEM holds on the interpreter's memory: what would stand in MEM/WB, and the state left. -/
def refMemory (e : ExMem) (r : State) : MemWb × State :=
  match memActIn e with
  | .pass => (passOn e, r)
  | .load n extend =>
    match refRead r e.ea n with
    | .done val t => ({ passOn e with result := extend val }, t)
    | .raised x t => ({ passOn e with exc := .fault x, dest := .none, result := 0 }, t)
  | .store n =>
    match refWrite r e.ea n e.sdata with
    | .done _ t => (passOn e, t)
    | .raised x t => ({ passOn e with exc := .fault x }, t)

/-- What MEM/WB holds retired on the interpreter's state; where it takes no system event, `PC` goes to `next`. -/
def refRetireWb (m : MemWb) (next : Word) (r : State) : State :=
  match m.exc with
  | .breakpointStop => breakpointStop m.pc r
  | .fault x => deliver x m.pc r
  | .none =>
    match m.instr.bind (retireExc · r) with
    | some x => deliver x m.pc r
    | none =>
      match m.instr.filter isSystem with
      | some i => systemEvent i m.pc (commitFlags m.flags (commitDest m.dest m.result r))
      | none => setPc next (commitFlags m.flags (commitDest m.dest m.result r))

/-- Retiring what MEM/WB holds takes a system event, which flushes the younger instructions (50_pipeline.md R342). -/
def flushes (m : MemWb) : Bool := decide (m.exc ≠ .none) || m.instr.any isSystem

section
variable {full : Bool} {s r : State} {m : MemWb} {e : ExMem} {i : Instr}

/-! ### A commit writes registers and flags -/

theorem commit_frame (f : Option Nzcv) (d : Dest) (w : VWord) (s : State) :
    commitFlags f (commitDest d w s) =
      { s with
        x := (commitFlags f (commitDest d w s)).x, v := (commitFlags f (commitDest d w s)).v,
        flags := (commitFlags f (commitDest d w s)).flags } := by
  cases d with
  | none => cases f <;> rfl
  | v q => cases f <;> rfl
  | g q => rw [commitDest, setX_eq]; cases f <;> rfl

theorem commitWb_frame (m : MemWb) (s : State) :
    commitWb m s =
      { s with
        x := (commitWb m s).x, v := (commitWb m s).v, flags := (commitWb m s).flags, perf := (commitWb m s).perf } := by
  unfold commitWb
  rw [commit_frame]
  cases m.instr.any isVector <;> rfl

/-! ### The cases of a retirement -/

theorem refRetireWb_fault {x : Exc} (h : m.exc = .fault x) (next : Word) : refRetireWb m next r = deliver x m.pc r := by
  simp only [refRetireWb, h]

theorem refRetireWb_raises {x : Exc} (clean : m.exc = .none) (hi : m.instr = some i) (raises : retireExc i r = some x)
    (next : Word) : refRetireWb m next r = deliver x m.pc r := by
  simp only [refRetireWb, clean, hi, Option.bind_some, raises]

theorem refRetireWb_system (clean : m.exc = .none) (hi : m.instr = some i) (passes : retireExc i r = none)
    (system : isSystem i = true) (next : Word) :
    refRetireWb m next r = systemEvent i m.pc (commitFlags m.flags (commitDest m.dest m.result r)) := by
  simp only [refRetireWb, clean, hi, Option.bind_some, passes, Option.filter_some, system, if_true]

theorem bind_retireExc_of_quiet {o : Option Instr} (other : o.any isSystem = false) (r : State) :
    o.bind (retireExc · r) = none ∧ o.filter isSystem = none := by
  cases o with
  | none => exact ⟨rfl, rfl⟩
  | some i =>
    have plain : isSystem i = false := other
    exact ⟨retireExc_of_not_system plain r, by simp [plain]⟩

theorem flushes_eq_false : flushes m = false ↔ m.exc = .none ∧ m.instr.any isSystem = false := by
  simp [flushes]

theorem refRetireWb_commits (plain : flushes m = false) (next : Word) :
    refRetireWb m next r = setPc next (commitFlags m.flags (commitDest m.dest m.result r)) := by
  obtain ⟨clean, other⟩ := flushes_eq_false.mp plain
  obtain ⟨passes, none⟩ := bind_retireExc_of_quiet other r
  simp only [refRetireWb, clean, passes, none]

theorem writeback_of_not_flushes (hm : s.latches.memWb = some m) (plain : flushes m = false) :
    writeback s = (commitWb m (setMemWb none s), false) := by
  obtain ⟨clean, other⟩ := flushes_eq_false.mp plain
  obtain ⟨passes, none⟩ := bind_retireExc_of_quiet other (setMemWb none s)
  simp only [writeback, hm, clean, passes, none]

/-! ### Latches and counters take no part in the agreement -/

theorem Agree.setExMem (h : Agree full s r) (l : Option ExMem) : Agree full (setExMem l s) r := { h with }

theorem Agree.setMemWb (h : Agree full s r) (l : Option MemWb) : Agree full (setMemWb l s) r := { h with }

theorem Agree.flushYounger (h : Agree full s r) : Agree full (flushYounger s) r := { h with }

theorem Agree.countMemOp (h : Agree full s r) : Agree full (countMemOp s) r := { h with }

/-! ### Memory -/

theorem setMemWb_latches_of {t : State} (h : t.latches = (setExMem none s).latches) (l : Option MemWb) :
    (setMemWb l t).latches = { s.latches with exMem := none, memWb := l } := by
  rw [setMemWb_latches, h, setExMem_latches]

theorem accessSize_of_memActIn_load {n : Nat} {extend : VWord → VWord} (act : memActIn e = .load n extend) :
    AccessSize n := by
  obtain none | ⟨i, hi⟩ := memActIn_eq e
  · rw [none] at act; cases act
  · exact accessSize_of_load (hi.symm.trans act)

theorem accessSize_of_memActIn_store {n : Nat} (act : memActIn e = .store n) : AccessSize n := by
  obtain none | ⟨i, hi⟩ := memActIn_eq e
  · rw [none] at act; cases act
  · exact accessSize_of_store (hi.symm.trans act)

/-- What MEM/WB holds after Memory is what the interpreter's memory action gives, and the states agree as before. -/
theorem agree_memoryStage (h : Agree full s r) (ok : MemoryOk s) (he : s.latches.exMem = some e) :
    (memoryStage s).latches = { s.latches with exMem := none, memWb := some (refMemory e r).1 } ∧
      (memoryStage s).pc = s.pc ∧ Agree full (memoryStage s) (refMemory e r).2 := by
  have hs := h.setExMem none
  have oks : MemoryOk (setExMem none s) := ok.congr rfl rfl rfl
  cases act : memActIn e with
  | pass =>
    rw [memoryStage_pass he act, refMemory, act]
    exact ⟨rfl, rfl, hs.setMemWb _⟩
  | load n extend =>
    have size := accessSize_of_memActIn_load act
    have same := hs.memRead oks e.ea size
    have latches := memRead_left_latches (setExMem none s) e.ea n
    have pc := memRead_left_pc (setExMem none s) e.ea n
    rw [memoryStage_load he act, refMemory, act]
    dsimp only
    generalize memRead (setExMem none s) e.ea n = mine at same latches pc ⊢
    generalize refRead r e.ea n = theirs at same ⊢
    cases same with
    | done hr => exact ⟨setMemWb_latches_of latches _, pc, hr.countMemOp.setMemWb _⟩
    | raised hr => exact ⟨setMemWb_latches_of latches _, pc, hr.setMemWb _⟩
  | store n =>
    have size := accessSize_of_memActIn_store act
    have same := hs.memWrite oks e.ea size e.sdata
    have latches := memWrite_left_latches (setExMem none s) e.ea n e.sdata
    have pc := memWrite_left_pc (setExMem none s) e.ea n e.sdata
    rw [memoryStage_store he act, refMemory, act]
    dsimp only
    generalize memWrite (setExMem none s) e.ea n e.sdata = mine at same latches pc ⊢
    generalize refWrite r e.ea n e.sdata = theirs at same ⊢
    cases same with
    | done hr => exact ⟨setMemWb_latches_of latches _, pc, hr.countMemOp.setMemWb _⟩
    | raised hr => exact ⟨setMemWb_latches_of latches _, pc, hr.setMemWb _⟩

/-! ### Writeback -/

theorem agree_commitWb (h : Agree full s r) (m : MemWb) :
    Agree full (commitWb m s) (commitFlags m.flags (commitDest m.dest m.result r)) := by
  have committed := (h.commitDest m.dest m.result).commitFlags m.flags
  unfold commitWb
  dsimp only
  split
  · exact { committed with }
  · exact { committed with }

theorem systemEvent_latches (system : isSystem i = true) (pc : Word) (s : State) :
    (systemEvent i pc s).latches = s.latches := by
  cases i <;> cases system
  case halt | iret => simp [systemEvent, haltCore]
  case syscall =>
    show (syscallTrap pc s).latches = s.latches
    obtain ⟨-, k⟩ | ⟨_, -, -, k⟩ | ⟨_, -, -, k⟩ := syscallTrap_cases pc s
    · obtain ⟨-, d⟩ | ⟨-, -, d⟩ | ⟨-, d⟩ := defaultService_cases pc (countVector 128 s) <;> simp [k, d, envService_eq]
    · simp [k]
    · simp [k]

/-- An instruction that flushes leaves the two states at the same `PC`. -/
theorem agree_writeback_flush (h : Agree full s r) (ok : MemoryOk s) (bare : CachesEmpty r)
    (hm : s.latches.memWb = some m) (flush : flushes m = true) (next : Word) :
    (writeback s).2 = true ∧ (writeback s).1.quiet ∧ AgreeAt full (writeback s).1 (refRetireWb m next r) := by
  have quiet (t : State) : (flushYounger (setMemWb none t)).quiet := rfl
  have left := (h.setMemWb none).flushYounger
  cases exc : m.exc with
  | fault x =>
    rw [writeback_fault hm exc, refRetireWb_fault exc]
    exact ⟨rfl, (SameHidden.deliver x m.pc _).latches, left.deliver x m.pc⟩
  | breakpointStop =>
    rw [writeback_breakpoint hm exc]
    have stop : refRetireWb m next r = breakpointStop m.pc r := by simp only [refRetireWb, exc]
    rw [stop]
    refine ⟨rfl, ?_, left.breakpointStop m.pc⟩
    rw [breakpointStop_eq]
    rfl
  | none =>
    have system : m.instr.any isSystem = true := by simpa [flushes, exc] using flush
    obtain ⟨i, hi, system⟩ := (Option.any_eq_true ..).mp system
    have retires : retireExc i (setMemWb none s) = retireExc i r := (h.setMemWb none).retireExc_eq i
    cases raises : retireExc i r with
    | some x =>
      rw [writeback_raises hm exc hi (retires.trans raises), refRetireWb_raises exc hi raises]
      exact ⟨rfl, (SameHidden.deliver x m.pc _).latches, left.deliver x m.pc⟩
    | none =>
      have flushed := (agree_commitWb (h.setMemWb none) m).flushYounger
      have okm : MemoryOk (setMemWb none s) := ok.congr rfl rfl rfl
      have oks := MemoryOk.stepKeeps.flushYounger (MemoryOk.stepKeeps.commitWb okm m)
      rw [writeback_system hm exc hi (retires.trans raises) system, refRetireWb_system exc hi raises system]
      refine ⟨rfl, ?_, flushed.systemEvent oks (bare.of_same ?_) system m.pc⟩
      · rw [State.quiet, systemEvent_latches system, flushYounger_latches, commitWb_frame]
        rfl
      · rw [commit_frame]
        exact .of_eq rfl rfl rfl rfl rfl

end

end Sys2Proof.Machine
end
-- ==== Sys2Proof/Proofs/InterpreterRule.lean ====
section
/-! One architectural step against one turn of the reference interpreter (spec/70_reset_and_hazards.md R466, R467). -/

namespace Sys2Proof.Machine

section
variable {full : Bool} {s r : State} {i : Instr}

/-! ## The interpreter's rule as memory action and retirement -/

theorem refRetire_system (system : isSystem i = true) (c : Computed) (result : VWord) (r : State) :
    refRetire i c result r = systemEvent i r.pc (commitFlags c.flags (commitDest (destOf i) result r)) := by
  have pc : (commitFlags c.flags (commitDest (destOf i) result r)).pc = r.pc := by rw [commit_frame]
  simp only [refRetire, system, if_true, pc]

theorem refRetire_other (other : isSystem i = false) (c : Computed) (result : VWord) (r : State) :
    refRetire i c result r = setPc c.next (commitFlags c.flags (commitDest (destOf i) result r)) := by
  simp only [refRetire, other, Bool.false_eq_true, if_false]

/-- What EX/MEM holds for `i`, its memory action done with `result`, retires as `refRetire` says. -/
theorem refRetireWb_exMemOf (passes : retireExc i r = none) (c : Computed) (result : VWord) {at' : Word}
    (pc : r.pc = at') :
    refRetireWb { passOn (exMemOf i at' c) with result := result } c.next r = refRetire i c result r := by
  cases kind : isSystem i with
  | true =>
    rw [refRetireWb_system rfl rfl passes kind, refRetire_system kind, pc]
    rfl
  | false =>
    rw [refRetireWb_commits (by simp [flushes, passOn, exMemOf, kind]), refRetire_other kind]
    rfl

section
variable {e : ExMem} {n : Nat} {extend : VWord → VWord} {t : State}

theorem refMemory_pass (act : memActIn e = .pass) : refMemory e r = (passOn e, r) := by
  simp only [refMemory, act]

theorem refMemory_load_done {val : VWord} (act : memActIn e = .load n extend) (h : refRead r e.ea n = .done val t) :
    refMemory e r = ({ passOn e with result := extend val }, t) := by
  simp only [refMemory, act, h]

theorem refMemory_load_raised {x : Exc} (act : memActIn e = .load n extend) (h : refRead r e.ea n = .raised x t) :
    refMemory e r = ({ passOn e with exc := .fault x, dest := .none, result := 0 }, t) := by
  simp only [refMemory, act, h]

theorem refMemory_store_done (act : memActIn e = .store n) (h : refWrite r e.ea n e.sdata = .done () t) :
    refMemory e r = (passOn e, t) := by
  simp only [refMemory, act, h]

theorem refMemory_store_raised {x : Exc} (act : memActIn e = .store n) (h : refWrite r e.ea n e.sdata = .raised x t) :
    refMemory e r = ({ passOn e with exc := .fault x }, t) := by
  simp only [refMemory, act, h]

end

theorem refRead_left_pc (r : State) (va : Word) (n : Nat) : (refRead r va n).left.pc = r.pc := by
  obtain ⟨-, k⟩ | ⟨-, e, -, k⟩ | ⟨-, pa, t, ht, ⟨-, k⟩ | ⟨-, -, k⟩ | ⟨-, -, k⟩⟩ := refRead_cases r va n <;> rw [k]
  · rfl
  · rfl
  · obtain ⟨-, rfl⟩ := refTranslate_done ht
    show (mmioRead _ pa n).2.pc = r.pc
    unfold mmioRead
    split <;> rfl
  · rfl
  · obtain ⟨-, rfl⟩ := refTranslate_done ht
    rfl

theorem refWrite_left_pc (r : State) (va : Word) (n : Nat) (val : VWord) : (refWrite r va n val).left.pc = r.pc := by
  obtain ⟨-, k⟩ | ⟨-, e, -, k⟩ | ⟨-, pa, t, ht, ⟨-, k⟩ | ⟨-, -, k⟩ | ⟨-, -, k⟩⟩ := refWrite_cases r va n val <;> rw [k]
  · rfl
  · rfl
  · obtain ⟨-, rfl⟩ := refTranslate_done ht
    show (mmioWrite _ pa n val).pc = r.pc
    unfold mmioWrite
    split <;> rfl
  · rfl
  · obtain ⟨-, rfl⟩ := refTranslate_done ht
    rfl

theorem memActOf_of_retireExc {x : Exc} (raises : retireExc i r = some x) : memActOf i = .pass := by
  cases i
  case halt | iret => rfl
  all_goals cases raises

theorem retireExc_of_access (other : memActOf i ≠ .pass) (r : State) : retireExc i r = none := by
  cases raises : retireExc i r with
  | none => rfl
  | some x => exact absurd (memActOf_of_retireExc raises) other

/-- A rule of the interpreter is the memory action of what Execute computes, retired. -/
theorem refExec_eq (i : Instr) (r : State) :
    refExec i r =
      refRetireWb (refMemory (exMemOf i r.pc (compute (getX r) (getV r) r.pc i)) r).1
        (compute (getX r) (getV r) r.pc i).next
        (refMemory (exMemOf i r.pc (compute (getX r) (getV r) r.pc i)) r).2 := by
  generalize hc : compute (getX r) (getV r) r.pc i = c
  have act : memActIn (exMemOf i r.pc c) = memActOf i := rfl
  cases raises : retireExc i r with
  | some x =>
    rw [refMemory_pass (act.trans (memActOf_of_retireExc raises)), refRetireWb_raises rfl rfl raises]
    simp only [refExec, raises]
    rfl
  | none =>
    simp only [refExec, raises, hc]
    cases kind : memActOf i with
    | pass =>
      rw [refMemory_pass (act.trans kind)]
      exact (refRetireWb_exMemOf raises c c.result rfl).symm
    | load n extend =>
      have passes := retireExc_of_access (i := i) (by rw [kind]; nofun)
      have pc := refRead_left_pc r c.ea n
      cases hr : refRead r c.ea n with
      | raised x t =>
        rw [refMemory_load_raised (act.trans kind) hr, refRetireWb_fault rfl]
        dsimp only
        rw [hr]
        rfl
      | done val t =>
        rw [hr] at pc
        rw [refMemory_load_done (act.trans kind) hr]
        dsimp only
        rw [hr]
        exact (refRetireWb_exMemOf (passes t) c (extend val) pc).symm
    | store n =>
      have passes := retireExc_of_access (i := i) (by rw [kind]; nofun)
      have pc := refWrite_left_pc r c.ea n c.sdata
      cases hw : refWrite r c.ea n c.sdata with
      | raised x t =>
        rw [refMemory_store_raised (act.trans kind) hw, refRetireWb_fault rfl]
        dsimp only
        rw [hw]
        rfl
      | done _ t =>
        rw [hw] at pc
        rw [refMemory_store_done (act.trans kind) hw]
        dsimp only
        rw [hw]
        exact (refRetireWb_exMemOf (passes t) c c.result pc).symm

end

end Sys2Proof.Machine
end
-- ==== Sys2Proof/Proofs/StepRefinement.lean ====
section
/-! One architectural step against one turn of the reference interpreter (spec/70_reset_and_hazards.md R461, R466, R467). -/

namespace Sys2Proof.Machine

section
variable {full : Bool} {s r : State} {i : Instr} {m : MemWb}

/-! ## Retirement -/

theorem sameHidden_refMemory (e : ExMem) (r : State) : SameHidden r (refMemory e r).2 := by
  cases act : memActIn e with
  | pass => rw [refMemory_pass act]; exact .refl r
  | load n extend =>
    cases hr : refRead r e.ea n with
    | done val t => rw [refMemory_load_done act hr]; exact .refRead (.inl ⟨val, hr⟩)
    | raised x t => rw [refMemory_load_raised act hr]; exact .refRead (.inr ⟨x, hr⟩)
  | store n =>
    cases hw : refWrite r e.ea n e.sdata with
    | done _ t => rw [refMemory_store_done act hw]; exact .refWrite (.inl hw)
    | raised x t => rw [refMemory_store_raised act hw]; exact .refWrite (.inr ⟨x, hw⟩)

/-- Writeback leaves what retiring on the interpreter's state leaves. -/
theorem agree_writeback (h : Agree full s r) (ok : MemoryOk s) (bare : CachesEmpty r) (hm : s.latches.memWb = some m)
    (next : Word) : Agree full (writeback s).1 (refRetireWb m next r) := by
  cases kind : flushes m with
  | true => exact (agree_writeback_flush h ok bare hm kind next).2.2.toAgree
  | false =>
    rw [writeback_of_not_flushes hm kind, refRetireWb_commits kind]
    exact { agree_commitWb (h.setMemWb none) m with }

/-- On a quiet machine `exec` agrees with the interpreter's rule. -/
theorem exec_agrees (h : AgreeAt full s r) (hq : s.quiet) (ok : MemoryOk s) (bare : CachesEmpty r) (i : Instr) :
    ∃ t, exec i s = .next t ∧ t.quiet ∧ AgreeAt full t (refExec i r) := by
  have computes : computeAt i s = compute (getX r) (getV r) r.pc i := by
    rw [computeAt, h.getX_eq, h.getV_eq, h.pc]
  have issued : Agree full (executed i s) r := by
    unfold executed trained
    split
    · exact { h.toAgree with }
    · exact { h.toAgree with }
  have okx : MemoryOk (executed i s) := by
    unfold executed trained
    split
    · exact ok.congr rfl rfl rfl
    · exact ok.congr rfl rfl rfl
  obtain ⟨latches, pc, left⟩ := agree_memoryStage issued okx (executed_exMem i s)
  have hm : (memoryStage (executed i s)).latches.memWb = some (refMemory (exMemOf i s.pc (computeAt i s)) r).1 := by
    rw [latches]
  have okm := MemoryOk.stepKeeps.memoryStage okx
  have empty := bare.of_same (sameHidden_refMemory (exMemOf i s.pc (computeAt i s)) r)
  refine ⟨_, exec_eq_stages hq i, ?_⟩
  rw [refExec_eq, ← computes, ← h.pc]
  cases kind : flushes (refMemory (exMemOf i s.pc (computeAt i s)) r).1 with
  | true => exact (agree_writeback_flush left okm empty hm kind _).2
  | false =>
    have agreed := agree_writeback left okm empty hm (computeAt i s).next
    rw [writeback_of_not_flushes hm kind] at agreed ⊢
    refine ⟨?_, { agreed with pc := ?_ }⟩
    · have inert : (trained i s).latches = _ := trained_quiet hq i
      rw [State.quiet, commitWb_frame, setMemWb_latches, latches, executed, setExMem_latches, setPc_latches, inert]
    · rw [commitWb_frame, refRetireWb_commits kind]
      exact pc

/-! ## Fetch -/

/-- A fetch at `va` reads the bytes of the flat memory. -/
def FetchesFresh (s : State) (va : Word) : Prop :=
  ∀ pa, fetchPlace s va = .pa pa →
    (ramFetch s pa).1 = wordOfBytes (s.flat pa) (s.flat (pa + 1)) (s.flat (pa + 2)) (s.flat (pa + 3))

theorem fetchesFresh_of_flat (ok : MemoryOk s) {va : Word} (h : Claims.FetchesFlat s va) : FetchesFresh s va := by
  intro pa place
  obtain ⟨aligned, found, outside, inside⟩ := fetchPlace_pa place
  obtain ⟨m, -, done⟩ := translateS_placeOf ok va .fetch
  rw [found] at done
  exact h pa { s with mmu := m } ⟨aligned, done, outside, inside⟩

theorem fetch_left_frame (ok : MemoryOk s) (va : Word) :
    (fetch s va).left.pc = s.pc ∧ (fetch s va).left.latches = s.latches := by
  obtain ⟨m, -, answer⟩ := fetch_fetchPlace ok va
  rw [answer]
  cases fetchPlace s va with
  | exc e => exact ⟨rfl, rfl⟩
  | pa pa => exact ⟨rfl, rfl⟩

theorem refFetch_left_pc (r : State) (va : Word) : (refFetch r va).left.pc = r.pc := by
  obtain ⟨m, -, answer⟩ := refFetch_fetchPlace r va
  rw [answer]
  cases fetchPlace r va with
  | exc e => rfl
  | pa pa => rfl

/-- A fetch that reads no stale line answers as the interpreter's (70_reset_and_hazards.md R461). -/
theorem fetch_agrees (h : Agree full s r) (ok : MemoryOk s) {va : Word} (fresh : FetchesFresh s va) :
    Access.Same (Agree full) (fetch s va) (refFetch r va) := by
  obtain ⟨m, pages, answer⟩ := fetch_fetchPlace ok va
  obtain ⟨m', refPages, refAnswer⟩ := refFetch_fetchPlace r va
  rw [answer, refAnswer, ← h.fetchPlace_eq]
  cases place : fetchPlace s va with
  | exc e => exact .raised { h with pages := pages.trans h.pages }
  | pa pa =>
    have word : (ramFetch s pa).1 = (pmValue r pa 4).setWidth 32 := by
      rw [fresh pa place, pmValue, setWidth_ofBytes_four, h.memory, h.memory, h.memory, h.memory]
      rfl
    obtain ⟨-, -, -, inside⟩ := fetchPlace_pa place
    obtain ⟨-, flat⟩ := ramFetch_ok (s := { s with mmu := m }) ok.params ok.hier inside
    dsimp only
    rw [← word]
    exact .done { h with memory := fun a => (flat a).trans (h.memory a), pages := (pages.trans h.pages).trans refPages.symm }

/-- The instruction at the same `PC`, fetched, decoded and executed on both sides. -/
theorem fetchAndExec_agrees (h : AgreeAt full s r) (hq : s.quiet) (ok : MemoryOk s) (bare : CachesEmpty r)
    (fresh : FetchesFresh s s.pc) :
    ∃ t, fetchAndExec s = .next t ∧ t.quiet ∧ AgreeAt full t (refFetchAndExec r) := by
  have resumed : Agree full { s with resume := false } { r with resume := false } :=
    { h.toAgree with resume := fun _ => rfl }
  have okr : MemoryOk { s with resume := false } := ok.congr rfl rfl rfl
  have same := fetch_agrees resumed okr (va := s.pc) fresh
  obtain ⟨pc, latches⟩ := fetch_left_frame okr s.pc
  have refPc := refFetch_left_pc { r with resume := false } r.pc
  have hidden (t : State) := SameHidden.refFetch (s := { r with resume := false }) (va := r.pc) (t := t)
  have okf := MemoryOk.stepKeeps.fetch (s := { s with resume := false }) s.pc okr
  have at_pc : refFetch { r with resume := false } r.pc = refFetch { r with resume := false } s.pc :=
    congrArg (refFetch _) h.pc.symm
  rw [fetchAndExec, refFetchAndExec]
  rw [at_pc] at refPc hidden ⊢
  generalize fetch { s with resume := false } s.pc = mine at same pc latches okf ⊢
  generalize refFetch { r with resume := false } s.pc = theirs at same refPc hidden ⊢
  cases same with
  | raised left =>
    dsimp only
    rw [h.pc]
    exact ⟨_, rfl, (SameHidden.deliver ..).latches.trans (latches.trans hq), left.deliver ..⟩
  | @done w t u left =>
    have at_pc : t.pc = u.pc := pc.trans (h.pc.trans refPc.symm)
    dsimp only
    rw [execWord, left.params]
    cases decode u.params.strictReserved w with
    | none =>
      rw [at_pc]
      exact ⟨_, rfl, (SameHidden.deliver ..).latches.trans (latches.trans hq), left.deliver ..⟩
    | some i =>
      exact exec_agrees { left with pc := at_pc } (latches.trans hq) okf
        (CachesEmpty.of_same (s := { r with resume := false }) bare (hidden u (.inl ⟨w, rfl⟩))) i

/-! ## A turn of the interpreter -/

theorem Agree.askEnvironment (h : Agree full s r) : Agree full (askEnvironment s) r := { h with }

/-- A delivered interrupt leaves agreement; `PC` as well where it was equal. -/
theorem deliverInterrupt_agrees (h : AgreeAt full s r) (v : Nat) :
    AgreeAt full (deliverInterrupt v s.pc s) (deliverInterrupt v r.pc r) := by
  cases handler : ivtGet r v with
  | default =>
    refine { h.deliverInterrupt_default handler (fun _ => h.pc) s.pc r.pc with pc := ?_ }
    rw [deliverInterrupt_of_default (by rw [h.ivtGet_eq, handler]), deliverInterrupt_of_default handler,
      pushEvent_pc, pushEvent_pc]
    exact h.pc
  | guest addr =>
    rw [h.pc]
    exact h.deliverInterrupt_guest handler r.pc

theorem refRound_running (running : r.halted = false) (take : Bool) :
    refRound take r =
      if breakpointAt (startStep r) then breakpointStop r.pc (startStep r)
      else
        match if take then deliverable (startStep r) else none with
        | some v => deliverInterrupt v r.pc (startStep r)
        | none => refFetchAndExec (startStep r) := by
  rw [refRound, running]
  rfl

/-- One round of the step's interpreter agrees with a turn of the reference interpreter under the same answer of the
environment. -/
theorem interpret_agrees (h : AgreeAt true s (startStep r)) (running : r.halted = false) (hq : s.quiet) (ok : MemoryOk s)
    (bare : CachesEmpty r) (fresh : FetchesFresh s s.pc) :
    ∃ t, interpret s = .next t ∧ t.quiet ∧ AgreeAt true t (refRound (Config.takesInterrupt s.intAsked) r) := by
  have stops : breakpointAt (startStep r) = breakpointAt s := by
    rw [breakpointAt, breakpointAt, h.pc, h.bkpt, h.resume rfl]
  have pending := h.deliverable_eq
  have okAsk : MemoryOk (askEnvironment s) := ok.congr rfl rfl rfl
  have asked : AgreeAt true (askEnvironment s) (startStep r) := { h.askEnvironment with pc := h.pc }
  rw [refRound_running running, stops, ← pending]
  cases bp : breakpointAt s with
  | true =>
    rw [interpret_of_breakpoint bp]
    refine ⟨_, rfl, (breakpointStop_latches ..).trans hq, ?_⟩
    rw [h.pc]
    exact h.breakpointStop _
  | false =>
    rw [if_neg Bool.false_ne_true]
    cases due : deliverable s with
    | none =>
      have run : interpret s = fetchAndExec s := by simp only [interpret, bp, due, Bool.false_eq_true, if_false]
      rw [run, ite_self]
      exact fetchAndExec_agrees h hq ok bare fresh
    | some v =>
      rw [interpret_of_deliverable bp due]
      cases Config.takesInterrupt s.intAsked with
      | true => exact ⟨_, rfl, (SameHidden.deliverInterrupt ..).latches.trans hq, deliverInterrupt_agrees asked v⟩
      | false => exact fetchAndExec_agrees asked hq okAsk bare fresh

/-- The interpreter starts from a state that agrees (22_caches.md R147). -/
theorem agreeAt_architectural (ok : MemoryOk s) : AgreeAt full (squash s) (architectural s) where
  params := rfl
  x := rfl
  v := rfl
  flags := rfl
  sp := rfl
  memory a := ((Claims.flushWritesEverythingBack s.params s.hier ok.params ok.hier).1 a).symm
  pages _ _ := rfl
  mmioTable := rfl
  ic := rfl
  halted := rfl
  exitCode := rfl
  bkpt := rfl
  events := rfl
  envCalls := rfl
  status _ := rfl
  resume _ := rfl
  pc := rfl

/-- Agreement is what the statements compare: the architectural `PC` and the events as shown. -/
theorem Agree.sameArch (h : Agree full s r) (pc : archPc s = r.pc) : Claims.SameArch s r := by
  have shown (q : List Event) : Claims.eventView q = Claims.eventView (q.map (shownEvent full)) := by
    rw [Claims.eventView, Claims.eventView, List.map_map]
    refine List.map_congr_left fun e _ => ?_
    by_cases interrupt : e.kind = .deviceInterrupt
    · cases full <;> simp [shownEvent, interrupt]
    · simp [shownEvent, interrupt]
  exact { h with pc := pc, events := by rw [shown, h.events, ← shown] }

end

end Sys2Proof.Machine

namespace Sys2Proof.Claims

open Sys2Proof.Machine

/-- Settles O48: both make the same choices (breakpoint, interrupt, fetch), and then Memory and Writeback of the instruction
do what the interpreter's rule does. -/
theorem stepRefinesReference : Obligations.StepRefinesReference := by
  intro s r ok empty fresh hr
  have start : AgreeAt true (squash s) (architectural s) := agreeAt_architectural ok
  suffices ∃ t, step s = .next t ∧ archPc t = r.pc ∧ Agree true t r by
    obtain ⟨t, run, pc, agreed⟩ := this
    have events : t.eventQ = r.eventQ := by
      have shown : shownEvent true = id := funext fun e => if_neg (by simp)
      simpa only [shown, List.map_id] using agreed.events
    exact ⟨t, run, agreed.sameArch pc, events, agreed.status rfl, agreed.resume rfl⟩
  cases running : s.halted with
  | true =>
    have idle : r = architectural s := by rw [hr, refRound]; exact if_pos running
    rw [idle]
    exact ⟨s, by rw [step, archStep, if_pos running], rfl, { start.toAgree with }⟩
  | false =>
    have started : AgreeAt true (squash (startStep s)) (startStep (architectural s)) :=
      { start with status := fun _ => rfl }
    have run : step s = interpret (squash (startStep s)) := by
      simp only [step, archStep, running, empty, Bool.false_eq_true, if_false]
    obtain ⟨t, next, quiet, agreed⟩ := interpret_agrees started running rfl (ok.congr rfl rfl rfl)
      (cachesEmpty_architectural s) (fetchesFresh_of_flat ok fresh)
    rw [hr, run]
    have pc : archPc t = t.pc := by
      have none : t.latches = _ := quiet
      rw [archPc, oldestYounger, none]
    exact ⟨t, next, pc.trans agreed.pc, agreed.toAgree⟩

end Sys2Proof.Claims
end
-- ==== Sys2Proof/Proofs/CacheContents.lean ====
section
/-! Where the bytes of the caches come from: a level below L1 or a line of L1I never holds a byte that did not stand in the
flat memory (spec/22_caches.md R127 to R132, 70_reset_and_hazards.md R461). -/

namespace Sys2Proof.Machine

/-- Every byte of a line's payload satisfies `P` at its address. -/
def LineIn (P : Nat → Byte → Prop) (ln : Nat) (d : List Byte) : Prop := ∀ j < 64, P (64 * ln + j) (lineByte d j)

/-- Every byte that L1I holds, and every byte an L1 miss would read, satisfies `P` at its address. -/
structure BytesIn (P : Nat → Byte → Prop) (p : Params) (h : Hierarchy) : Prop where
  l1i : ∀ ln b d, lineInfo (l1iGeom p) h.l1i ln = some (b, d) → LineIn P ln d
  below : ∀ ln, LineIn P ln (belowL1 p h ln)

section
variable {P Q : Nat → Byte → Prop} {p : Params} {h k : Hierarchy} {ln : Nat}

theorem BytesIn.mono (hb : BytesIn P p h) (le : ∀ a b, P a b → Q a b) : BytesIn Q p h :=
  ⟨fun ln b d hl j hj => le _ _ (hb.l1i ln b d hl j hj), fun ln j hj => le _ _ (hb.below ln j hj)⟩

theorem lineIn_flatLine (flat : ∀ a, P a (flatByte p h a)) (ln : Nat) : LineIn P ln (flatLine p h ln) := by
  intro j hj
  have byte := flat (64 * ln + j)
  rwa [flatByte_eq, Nat.mul_add_div (by norm_num), Nat.div_eq_of_lt hj, Nat.mul_add_mod, Nat.mod_eq_of_lt hj,
    Nat.add_zero] at byte

/-- What stands below L1 after an operation stood below L1 or in the flat memory before it. -/
theorem BytesIn.of_below (hb : BytesIn P p h) (flat : ∀ a, P a (flatByte p h a)) (l1i : k.l1i = h.l1i)
    (below : ∀ l, belowL1 p k l = belowL1 p h l ∨ belowL1 p k l = flatLine p h l) : BytesIn P p k := by
  refine ⟨fun ln b d hl => hb.l1i ln b d (l1i ▸ hl), fun ln => ?_⟩
  obtain same | flushed := below ln
  · rw [same]; exact hb.below ln
  · rw [flushed]; exact lineIn_flatLine flat ln

/-! ## L1D -/

/-- A dirty victim of L1D is what the flat memory holds. -/
theorem belowL1_l1dInsert (hp : p.valid = true) (hk : HierOk p h) (ln : Nat) (d : List Byte) (l : Nat) :
    belowL1 p (l1dInsert p h ln d) l = belowL1 p h l ∨ belowL1 p (l1dInsert p h ln d) l = flatLine p h l := by
  have victim := lineInfo_victimLine hk.l1d (Params.sets_pos hp).2.1 (ways_pos p).2.1 ln
  change belowL1 p (if (victimWay (l1dGeom p) h.l1d ln).valid && (victimWay (l1dGeom p) h.l1d ln).dirty then
    l2Put p h (victimLine (l1dGeom p) h.l1d ln) (victimWay (l1dGeom p) h.l1d ln).data else h) l = _ ∨
    belowL1 p (if (victimWay (l1dGeom p) h.l1d ln).valid && (victimWay (l1dGeom p) h.l1d ln).dirty then
      l2Put p h (victimLine (l1dGeom p) h.l1d ln) (victimWay (l1dGeom p) h.l1d ln).data else h) l = _
  split
  · rename_i back
    have held := victim (Bool.and_eq_true_iff.mp back).1
    rw [(l2Put_step hp hk.toL2 _ _ (hk.l1d.length held) (hk.l1d.inRam _ _ _ held)).below]
    split
    · rename_i same
      right
      rw [same, flatLine, held]
      rfl
    · exact .inl rfl
  · exact .inl rfl

theorem l1dAccess_below (hp : p.valid = true) (hk : HierOk p h) (hm : 64 * ln + 64 ≤ p.memSize) (l : Nat) :
    belowL1 p (l1dAccess p h ln).hier l = belowL1 p h l ∨ belowL1 p (l1dAccess p h ln).hier l = flatLine p h l := by
  unfold l1dAccess
  dsimp only
  split
  · exact .inl rfl
  · obtain ⟨-, filled⟩ := fillLine_step hp hk.toL2 ln hm
    obtain ⟨ok, below, flat⟩ := hk.l2Step filled
    have inserted := belowL1_l1dInsert hp ok ln (fillLine p h ln).data l
    rwa [below, flat] at inserted

theorem l1dStore_below (p : Params) (h : Hierarchy) (ln : Nat) (d : List Byte) (l : Nat) :
    belowL1 p (l1dStore p h ln d) l = belowL1 p h l := by
  unfold l1dStore
  dsimp only
  split <;> rfl

theorem runPrefetcher_below (hp : p.valid = true) (hk : HierOk p h) (pa : Word) (l : Nat) :
    belowL1 p (runPrefetcher p h pa) l = belowL1 p h l := by
  have ok : HierOk p { h with pf := pfNext h.pf pa } :=
    ⟨hk.l1i, hk.l1d, hk.l2, hk.l1iClean, hk.l1dClean, hk.l2Clean, hk.ram⟩
  unfold runPrefetcher
  dsimp only
  split
  · obtain ⟨ln, prefetched⟩ := prefetchLine_step hp ok.toL2 (pa + (pfNext h.pf pa).stride)
    exact (ok.l2Step prefetched).2.1 l
  · rfl

/-! ## L1I -/

/-- A fetch reads a line L1I held or one from below; what it keeps comes from there too. -/
theorem BytesIn.l1iAccess (hb : BytesIn P p h) (hp : p.valid = true) (hk : HierOk p h)
    (hm : 64 * ln + 64 ≤ p.memSize) :
    LineIn P ln (l1iAccess p h ln).data ∧ BytesIn P p (l1iAccess p h ln).hier := by
  unfold Machine.l1iAccess
  dsimp only
  split
  · rename_i i hit
    refine ⟨hb.l1i ln _ _ (lineInfo_of_findWay hk.l1i hit), fun l b d hl => hb.l1i l b d ?_, hb.below⟩
    rwa [lineInfo_touch] at hl
  · rename_i miss
    obtain ⟨data, filled⟩ := fillLine_step hp hk.toL2 ln hm
    obtain ⟨ok, below, -⟩ := hk.l2Step filled
    have read : LineIn P ln (fillLine p h ln).data := by rw [data]; exact hb.below ln
    have absent : lineInfo (l1iGeom p) (fillLine p h ln).hier.l1i ln = none := by
      rw [filled.l1i]
      exact (findWay_none_iff ..).mp miss
    have length : (fillLine p h ln).data.length = 64 := by rw [data]; exact hk.toL2.length_below ln
    refine ⟨read, fun l b d hl => ?_, fun l => (congrArg (LineIn P l) (below l)).mpr (hb.below l)⟩
    have held := (lineInfo_installed ok.l1i (Params.sets_pos hp).1 (ways_pos p).1 ln _ false length absent l).symm.trans hl
    split at held
    · rename_i same
      cases held
      rwa [same]
    · split at held
      · cases held
      · rw [filled.l1i] at held
        exact hb.l1i l b d held

/-! ## Coherent host writes -/

/-- After an operation the levels below L1 hold, line by line, the flat memory, or what they held, the flat memory
unchanged. -/
structure WrittenThrough (p : Params) (h k : Hierarchy) : Prop where
  l1i : ∀ l b d, lineInfo (l1iGeom p) k.l1i l = some (b, d) → lineInfo (l1iGeom p) h.l1i l = some (b, d)
  lines : ∀ l, belowL1 p k l = flatLine p k l ∨ (belowL1 p k l = belowL1 p h l ∧ flatLine p k l = flatLine p h l)

theorem WrittenThrough.refl (p : Params) (h : Hierarchy) : WrittenThrough p h h :=
  ⟨fun _ _ _ hl => hl, fun _ => .inr ⟨rfl, rfl⟩⟩

theorem WrittenThrough.trans {m : Hierarchy} (a : WrittenThrough p h k) (b : WrittenThrough p k m) :
    WrittenThrough p h m := by
  refine ⟨fun l x d hl => a.l1i l x d (b.l1i l x d hl), fun l => ?_⟩
  obtain through | ⟨below, flat⟩ := b.lines l
  · exact .inl through
  · rw [below, flat]
    exact a.lines l

theorem readLine_evictLines (hp : p.valid = true) (count : Nat) : ∀ {h : Hierarchy} (ln : Nat), HierOk p h → ∀ l,
    ¬ (ln ≤ l ∧ l < ln + count) → Memory.readLine (evictLines p h ln count).pm l = Memory.readLine h.pm l := by
  induction count with
  | zero => exact fun _ _ _ _ => rfl
  | succ count ih =>
    intro h ln hk l outside
    rw [evictLines, ih (ln + 1) (evictLine_ok hp hk ln).1 l (by omega), (readLine_evict hk ln).1, if_neg (by omega)]

theorem writtenThrough_hostWrite (hp : p.valid = true) (hk : HierOk p h) (a : Nat) (bytes : List Byte) :
    WrittenThrough p h (hostWrite p h a bytes) := by
  obtain ⟨l1i, l1d, l2, -⟩ := hostWrite_lines hp hk a bytes
  refine ⟨fun l b d hl => ?_, fun l => ?_⟩
  · rw [l1i] at hl
    split at hl
    · cases hl
    · exact hl
  · by_cases touched : a / 64 ≤ l ∧ l < a / 64 + linesIn a bytes.length
    · left
      rw [flatLine, l1d, if_pos touched]
      rfl
    · have below : belowL1 p (hostWrite p h a bytes) l = belowL1 p h l := by
        rw [belowL1_eq, belowL1_eq, l2, if_neg touched, hostWrite_eq, readLine_writeBytes_other touched,
          readLine_evictLines hp _ _ hk l touched]
      exact .inr ⟨below, by rw [flatLine, flatLine, l1d, if_neg touched, below]⟩

theorem writtenThrough_applyWrites (hp : p.valid = true) (ws : List (Nat × List Byte)) :
    ∀ {h : Hierarchy}, HierOk p h → WrittenThrough p h (applyWrites p ws h) := by
  induction ws with
  | nil => exact fun _ => .refl p _
  | cons w ws ih =>
    intro h hk
    rw [applyWrites]
    split
    · rename_i inside
      exact (writtenThrough_hostWrite hp hk ..).trans (ih (hostWrite_hier hp hk _ _ inside))
    · exact ih hk

theorem BytesIn.writtenThrough (hb : BytesIn P p h) (w : WrittenThrough p h k) (flat : ∀ a, P a (flatByte p k a)) :
    BytesIn P p k := by
  refine ⟨fun l b d hl => hb.l1i l b d (w.l1i l b d hl), fun l => ?_⟩
  obtain through | ⟨below, -⟩ := w.lines l
  · rw [through]; exact lineIn_flatLine flat l
  · rw [below]; exact hb.below l

end

end Sys2Proof.Machine
end
-- ==== Sys2Proof/Proofs/CacheOrigins.lean ====
section
/-! Where the bytes in the caches come from, through the stages that touch the hierarchy (spec/50_pipeline.md R330, R338,
R340). -/

namespace Sys2Proof.Machine

/-- The caches of the state hold bytes that satisfy `P` at their address. -/
def CachesIn (P : Nat → Byte → Prop) (s : State) : Prop := BytesIn P s.params s.hier

/-- A word made of bytes that satisfy `P` at the addresses from `pa` on. -/
def WordIn (P : Nat → Byte → Prop) (pa : Nat) (w : IWord) : Prop :=
  ∃ f : Nat → Byte, w = (ofBytes f 4).setWidth 32 ∧ ∀ j < 4, P (pa + j) (f j)

section
variable {P Q : Nat → Byte → Prop} {s : State} {m : MemWb} {i : Instr}

theorem WordIn.mono {pa : Nat} {w : IWord} (h : WordIn P pa w) (le : ∀ a b, P a b → Q a b) : WordIn Q pa w := by
  obtain ⟨f, word, bytes⟩ := h
  exact ⟨f, word, fun j hj => le _ _ (bytes j hj)⟩

/-! ## Memory -/

theorem cachesIn_mmioRead (h : CachesIn P s) (pa n : Nat) : CachesIn P (mmioRead s pa n).2 := by
  unfold mmioRead
  split <;> exact h

theorem cachesIn_mmioWrite (h : CachesIn P s) (pa n : Nat) (val : VWord) : CachesIn P (mmioWrite s pa n val) := by
  unfold mmioWrite
  split <;> exact h

theorem cachesIn_ramRead (h : CachesIn P s) (ok : MemoryOk s) (flat : ∀ a, P a (s.flat a)) {pa n : Nat} (pos : 0 < n)
    (inside : pa + n ≤ s.params.memSize) : CachesIn P (ramRead s pa n).2 := by
  have line := line_in_ram ok.params (a := pa) (by omega)
  obtain ⟨-, okl, -, -, l1i, -⟩ := l1dAccess_ok ok.params ok.hier (pa / 64) line
  obtain ⟨-, -, l1i', -, -⟩ := runPrefetcher_ok ok.params okl (BitVec.ofNat 64 pa)
  refine BytesIn.of_below h flat (l1i'.trans l1i) fun l => ?_
  have below := l1dAccess_below ok.params ok.hier line l
  rwa [← runPrefetcher_below ok.params okl (BitVec.ofNat 64 pa) l] at below

theorem cachesIn_ramWrite (h : CachesIn P s) (ok : MemoryOk s) (flat : ∀ a, P a (s.flat a)) {pa n : Nat} (pos : 0 < n)
    (within : pa % 64 + n ≤ 64) (inside : pa + n ≤ s.params.memSize) (val : VWord) : CachesIn P (ramWrite s pa n val) := by
  have line := line_in_ram ok.params (a := pa) (by omega)
  obtain ⟨okw, -, l1i, -⟩ := l1dWrite_ok ok.params ok.hier pa n val within inside pos
  obtain ⟨-, -, l1i', -, -⟩ := runPrefetcher_ok ok.params okw (BitVec.ofNat 64 pa)
  refine BytesIn.of_below h flat (l1i'.trans l1i) fun l => ?_
  have below := l1dAccess_below ok.params ok.hier line l
  have stored := (runPrefetcher_below ok.params okw (BitVec.ofNat 64 pa) l).trans (l1dStore_below ..)
  rwa [← stored] at below

theorem cachesIn_translated (h : CachesIn P s) (flat : ∀ a, P a (s.flat a)) {t : State} {va : Word} {acc : Acc} {pa : Nat}
    (done : translateS s va acc = .done pa t) :
    CachesIn P t ∧ (∀ a, P a (t.flat a)) ∧ t.params = s.params := by
  rw [(translateS_done done).2]
  exact ⟨h, flat, rfl⟩

theorem cachesIn_memRead (h : CachesIn P s) (ok : MemoryOk s) (flat : ∀ a, P a (s.flat a)) (va : Word) {n : Nat}
    (hn : AccessSize n) : CachesIn P (memRead s va n).left := by
  obtain ⟨-, k⟩ | ⟨-, e, t, ht, k⟩ | ⟨-, pa, t, ht, ⟨-, k⟩ | ⟨-, -, k⟩ | ⟨-, inside, k⟩⟩ := memRead_cases s va n <;> rw [k]
  · exact h
  · obtain ⟨-, rfl⟩ := translateS_raised ht
    exact h
  · exact cachesIn_mmioRead (cachesIn_translated h flat ht).1 pa n
  · exact h
  · obtain ⟨okt, -⟩ := ok.translateS_done ht
    obtain ⟨held, flatT, params⟩ := cachesIn_translated h flat ht
    exact cachesIn_ramRead held okt flatT hn.bounds.1 (params ▸ inside)

theorem cachesIn_memWrite (h : CachesIn P s) (ok : MemoryOk s) (flat : ∀ a, P a (s.flat a)) (va : Word) {n : Nat}
    (hn : AccessSize n) (val : VWord) : CachesIn P (memWrite s va n val).left := by
  obtain ⟨-, k⟩ | ⟨-, e, t, ht, k⟩ | ⟨aligned, pa, t, ht, ⟨-, k⟩ | ⟨-, -, k⟩ | ⟨-, inside, k⟩⟩ := memWrite_cases s va n val <;>
    rw [k]
  · exact h
  · obtain ⟨-, rfl⟩ := translateS_raised ht
    exact h
  · exact cachesIn_mmioWrite (cachesIn_translated h flat ht).1 pa n val
  · exact h
  · obtain ⟨okt, offset⟩ := ok.translateS_done ht
    obtain ⟨held, flatT, params⟩ := cachesIn_translated h flat ht
    exact cachesIn_ramWrite held okt flatT hn.bounds.1 (in_line aligned offset hn) (params ▸ inside) val

theorem cachesIn_memoryStage (h : CachesIn P s) (ok : MemoryOk s) (flat : ∀ a, P a (s.flat a)) :
    CachesIn P (memoryStage s) := by
  have okx : MemoryOk (setExMem none s) := ok.congr rfl rfl rfl
  cases he : s.latches.exMem with
  | none => rwa [memoryStage, he]
  | some e =>
    cases act : memActIn e with
    | pass => rw [memoryStage_pass he act]; exact h
    | load n extend =>
      have left := cachesIn_memRead (s := setExMem none s) h okx flat e.ea (accessSize_of_memActIn_load act)
      rw [memoryStage_load he act]
      cases hr : memRead (setExMem none s) e.ea n <;> rw [hr] at left <;> exact left
    | store n =>
      have left := cachesIn_memWrite (s := setExMem none s) h okx flat e.ea (accessSize_of_memActIn_store act) e.sdata
      rw [memoryStage_store he act]
      cases hw : memWrite (setExMem none s) e.ea n e.sdata <;> rw [hw] at left <;> exact left

/-! ## Fetch -/

theorem fetchPlace_aligned (ok : MemoryOk s) {va : Word} {pa : Nat} (place : fetchPlace s va = .pa pa) : pa % 4 = 0 := by
  obtain ⟨aligned, found, -, -⟩ := fetchPlace_pa place
  obtain ⟨m, -, done⟩ := translateS_placeOf ok va .fetch
  rw [found] at done
  have offset := (ok.translateS_done done).2
  omega

theorem cachesIn_ramFetch (h : CachesIn P s) (hp : s.params.valid = true) (hk : HierOk s.params s.hier) {pa : Nat}
    (aligned : pa % 4 = 0) (inside : pa + 4 ≤ s.params.memSize) :
    WordIn P pa (ramFetch s pa).1 ∧ CachesIn P (ramFetch s pa).2 := by
  obtain ⟨bytes, kept⟩ := BytesIn.l1iAccess h hp hk (line_in_ram hp (a := pa) (by omega))
  refine ⟨⟨_, rfl, fun j hj => ?_⟩, kept⟩
  have byte := bytes (pa % 64 + j) (by omega)
  rwa [← Nat.add_assoc, Nat.div_add_mod] at byte

/-! ## Writeback -/

theorem deliver_core (e : Exc) (ret : Word) (s : State) :
    (deliver e ret s).params = s.params ∧ (deliver e ret s).hier = s.hier := by
  obtain ⟨-, k⟩ | ⟨_, -, -, k⟩ | ⟨_, -, -, k⟩ := deliver_cases e ret s <;> rw [k] <;> simp

theorem writtenThrough_systemEvent (ok : MemoryOk s) (system : isSystem i = true) (pc : Word) :
    (systemEvent i pc s).params = s.params ∧ WrittenThrough s.params s.hier (systemEvent i pc s).hier := by
  have same {k : Hierarchy} (h : k = s.hier) : WrittenThrough s.params s.hier k := by rw [h]; exact .refl ..
  cases i <;> cases system
  case halt => exact ⟨by simp [systemEvent, haltCore], same (by simp [systemEvent, haltCore])⟩
  case iret => exact ⟨rfl, same rfl⟩
  case syscall =>
    change (syscallTrap pc s).params = s.params ∧ WrittenThrough s.params s.hier (syscallTrap pc s).hier
    obtain ⟨-, k⟩ | ⟨_, -, -, k⟩ | ⟨_, -, -, k⟩ := syscallTrap_cases pc s
    · obtain ⟨-, d⟩ | ⟨-, -, d⟩ | ⟨-, d⟩ := defaultService_cases pc (countVector 128 s)
      · exact ⟨by simp [k, d], same (by simp [k, d])⟩
      · rw [k, d, envService_eq]
        refine ⟨rfl, ?_⟩
        dsimp only
        split
        · exact writtenThrough_applyWrites ok.params _ ok.hier
        · exact same rfl
      · exact ⟨by simp [k, d], same (by simp [k, d])⟩
    · exact ⟨by simp [k], same (by simp [k])⟩
    · exact ⟨by simp [k], same (by simp [k])⟩

end

end Sys2Proof.Machine
end
-- ==== Sys2Proof/Proofs/InstructionsInFlight.lean ====
section
/-! What the latches hold of the instructions in flight, seen from the reference interpreter (spec/50_pipeline.md R321, R330
to R337): each was fetched where it stands, and the interpreter will come to it. -/

namespace Sys2Proof.Machine

/-! ## The address space -/

/-- The two states translate alike: same parameters and mode, page tables the same but for accessed and dirty bits. -/
structure SameSpace (s t : State) : Prop where
  params : t.params = s.params
  mode : userMode t = userMode s
  pages : SamePages t.mmu.pt s.mmu.pt

section
variable {P Q : Nat → Byte → Prop} {full : Bool} {s t r r' : State} {e : ExMem}

theorem SameSpace.refl (s : State) : SameSpace s s := ⟨rfl, rfl, fun _ _ => rfl⟩

theorem SameSpace.trans {u : State} (h : SameSpace s t) (k : SameSpace t u) : SameSpace s u :=
  ⟨k.params.trans h.params, k.mode.trans h.mode, k.pages.trans h.pages⟩

theorem SameSpace.fetchPlace_eq (h : SameSpace s t) (va : Word) : fetchPlace t va = fetchPlace s va := by
  rw [fetchPlace, fetchPlace, placeOf, placeOf, walkAnswer_congr h.pages, h.mode, h.params]

theorem Agree.sameSpace (h : Agree full s r) : SameSpace s r :=
  ⟨h.params.symm, by rw [userMode, userMode, h.flags], h.pages.symm⟩

theorem sameSpace_refTranslate_done {va : Word} {acc : Acc} {pa : Nat} (h : refTranslate r va acc = .done pa t) :
    SameSpace r t := by
  rw [(refTranslate_done h).2]
  exact ⟨rfl, rfl, samePages_translate r.params.tlbEntries { r.mmu with tlb := [] } (userMode r) va acc⟩

theorem sameSpace_refRead (r : State) (va : Word) (n : Nat) : SameSpace r (refRead r va n).left := by
  obtain ⟨-, k⟩ | ⟨-, e, -, k⟩ | ⟨-, pa, t, ht, ⟨-, k⟩ | ⟨-, -, k⟩ | ⟨-, -, k⟩⟩ := refRead_cases r va n <;> rw [k]
  · exact .refl r
  · exact .refl r
  · refine (sameSpace_refTranslate_done ht).trans ?_
    change SameSpace t (mmioRead t pa n).2
    unfold mmioRead
    split <;> exact ⟨rfl, rfl, fun _ _ => rfl⟩
  · exact .refl r
  · exact sameSpace_refTranslate_done ht

theorem sameSpace_refWrite (r : State) (va : Word) (n : Nat) (val : VWord) : SameSpace r (refWrite r va n val).left := by
  obtain ⟨-, k⟩ | ⟨-, e, -, k⟩ | ⟨-, pa, t, ht, ⟨-, k⟩ | ⟨-, -, k⟩ | ⟨-, -, k⟩⟩ := refWrite_cases r va n val <;> rw [k]
  · exact .refl r
  · exact .refl r
  · refine (sameSpace_refTranslate_done ht).trans ?_
    change SameSpace t (mmioWrite t pa n val)
    unfold mmioWrite
    split <;> exact ⟨rfl, rfl, fun _ _ => rfl⟩
  · exact .refl r
  · exact (sameSpace_refTranslate_done ht).trans ⟨rfl, rfl, fun _ _ => rfl⟩

theorem sameSpace_refMemory (e : ExMem) (r : State) : SameSpace r (refMemory e r).2 := by
  cases act : memActIn e with
  | pass => rw [refMemory_pass act]; exact .refl r
  | load n extend =>
    have left := sameSpace_refRead r e.ea n
    cases hr : refRead r e.ea n with
    | done val t => rw [refMemory_load_done act hr]; rwa [hr] at left
    | raised x t => rw [refMemory_load_raised act hr]; rwa [hr] at left
  | store n =>
    have left := sameSpace_refWrite r e.ea n e.sdata
    cases hw : refWrite r e.ea n e.sdata with
    | done _ t => rw [refMemory_store_done act hw]; rwa [hw] at left
    | raised x t => rw [refMemory_store_raised act hw]; rwa [hw] at left

/-- An instruction that takes no system event stays in the mode. -/
theorem sameSpace_refRetireWb {m : MemWb} (plain : flushes m = false) (next : Word) (r : State) :
    SameSpace r (refRetireWb m next r) := by
  rw [refRetireWb_commits plain]
  have mode : userMode (commitFlags m.flags (commitDest m.dest m.result r)) = userMode r := by
    have flags : (commitDest m.dest m.result r).flags = r.flags := by
      cases m.dest with
      | none => rfl
      | v q => rfl
      | g q => rw [commitDest, setX_eq]
    cases m.flags with
    | none => rw [commitFlags, userMode, userMode, flags]
    | some a =>
      change flagUM (withNzcv (commitDest m.dest m.result r).flags a) = userMode r
      rw [flagUM_withNzcv, flags, userMode]
  refine ⟨?_, mode, fun _ _ => ?_⟩
  · rw [commit_frame]; rfl
  · rw [commit_frame]; rfl

/-! ## Instructions in flight -/

/-- IF/ID holds what a fetch at its address answers in the address space of `r`: its fault, or a word made of bytes that
satisfy `P`. -/
def Fetched (P : Nat → Byte → Prop) (r : State) (f : IfId) : Prop :=
  (∃ x, fetchPlace r f.pc = .exc x ∧ f.exc = .fault x) ∨
    ∃ pa, fetchPlace r f.pc = .pa pa ∧ f.exc = .none ∧ WordIn P pa f.word

/-- What Decode makes of a word fetched at `pc`. -/
def Decoded (P : Nat → Byte → Prop) (r : State) (pc : Word) (o : Option Instr) (x : LatchExc) : Prop :=
  ∃ f : IfId, f.pc = pc ∧ Fetched P r f ∧ decoded r.params.strictReserved f = (o, x)

/-- EX/MEM holds a fault, or what Execute computes on the registers of `r` for an instruction that goes on at `next`. -/
inductive Executed (P : Nat → Byte → Prop) (r : State) (e : ExMem) (next : Word) : Prop where
  | faulted (x : Exc) : Decoded P r e.pc none (.fault x) → e.exc = .fault x → e.dest = .none → Executed P r e next
  | computed (i : Instr) : Decoded P r e.pc (some i) .none → e = exMemOf i e.pc (compute (getX r) (getV r) e.pc i) →
      (compute (getX r) (getV r) e.pc i).next = next → Executed P r e next

/-- The address behind the instruction in ID/EX: that of IF/ID, else `PC`. -/
def behindIdEx (s : State) : Word :=
  match s.latches.ifId with
  | some l => l.pc
  | none => s.pc

/-- The address behind the instruction in EX/MEM. -/
def behindExMem (s : State) : Word :=
  match s.latches.idEx with
  | some l => l.pc
  | none => behindIdEx s

/-- The instructions younger than the one in MEM/WB are those the interpreter comes to from `r` on, as predicted. -/
structure InFlight (P : Nat → Byte → Prop) (r s : State) : Prop where
  oldest : oldestYounger s = r.pc
  exMem : ∀ e, s.latches.exMem = some e → Executed P r e (behindExMem s)
  idEx : ∀ d, s.latches.idEx = some d → Decoded P r d.pc d.instr d.exc ∧ d.predNext = behindIdEx s
  ifId : ∀ f, s.latches.ifId = some f → Fetched P r f ∧ f.predNext = s.pc

/-! ### In another state of the interpreter -/

theorem Fetched.move {f : IfId} (h : Fetched P r f) (le : ∀ a b, P a b → Q a b) (space : SameSpace r r') :
    Fetched Q r' f := by
  unfold Fetched
  rw [space.fetchPlace_eq]
  obtain fault | ⟨pa, place, clean, word⟩ := h
  · exact .inl fault
  · exact .inr ⟨pa, place, clean, word.mono le⟩

theorem Decoded.move {pc : Word} {o : Option Instr} {x : LatchExc} (h : Decoded P r pc o x)
    (le : ∀ a b, P a b → Q a b) (space : SameSpace r r') : Decoded Q r' pc o x := by
  obtain ⟨f, at', fetched, kind⟩ := h
  exact ⟨f, at', fetched.move le space, by rwa [space.params]⟩

/-- The interpreter in another state of the same address space, registers and `PC`. -/
theorem InFlight.move (h : InFlight P r s) (le : ∀ a b, P a b → Q a b) (space : SameSpace r r') (x : getX r' = getX r)
    (v : getV r' = getV r) (pc : r'.pc = r.pc) {m : Option MemWb} (latches : t.latches = { s.latches with memWb := m })
    (at' : t.pc = s.pc) : InFlight Q r' t := by
  have behind : behindIdEx t = behindIdEx s := by rw [behindIdEx, behindIdEx, latches, at']
  have behind' : behindExMem t = behindExMem s := by rw [behindExMem, behindExMem, latches, behind]
  refine ⟨?_, fun e he => ?_, fun d hd => ?_, fun f hf => ?_⟩
  · rw [pc, ← h.oldest, oldestYounger, oldestYounger, latches, at']
  · rw [behind']
    rw [latches] at he
    obtain ⟨x, fetched, fault, dest⟩ | ⟨i, fetched, computes, next⟩ := h.exMem e he
    · exact .faulted x (fetched.move le space) fault dest
    · exact .computed i (fetched.move le space) (by rwa [x, v]) (by rwa [x, v])
  · rw [behind]
    rw [latches] at hd
    obtain ⟨fetched, next⟩ := h.idEx d hd
    exact ⟨fetched.move le space, next⟩
  · rw [at']
    rw [latches] at hf
    obtain ⟨fetched, next⟩ := h.ifId f hf
    exact ⟨fetched.move le space, next⟩

theorem InFlight.of_flushed (ifId : s.latches.ifId = none) (idEx : s.latches.idEx = none) (exMem : s.latches.exMem = none)
    (pc : s.pc = r.pc) : InFlight P r s := by
  refine ⟨?_, fun e he => ?_, fun d hd => ?_, fun f hf => ?_⟩
  · rw [oldestYounger, exMem, idEx, ifId, pc]
  · rw [exMem] at he; cases he
  · rw [idEx] at hd; cases hd
  · rw [ifId] at hf; cases hf

theorem oldestYounger_of_exMem (he : s.latches.exMem = some e) : oldestYounger s = e.pc := by
  rw [oldestYounger, he]

theorem oldestYounger_of_no_exMem (he : s.latches.exMem = none) : oldestYounger s = behindExMem s := by
  rw [oldestYounger, he]
  rfl

/-- The instruction in EX/MEM has gone on to MEM/WB, and the interpreter has performed it. -/
theorem InFlight.advance (h : InFlight P r s) (le : ∀ a b, P a b → Q a b) (space : SameSpace r r')
    (next : r'.pc = behindExMem s) {m : Option MemWb} (latches : t.latches = { s.latches with exMem := none, memWb := m })
    (at' : t.pc = s.pc) : InFlight Q r' t := by
  have behind : behindIdEx t = behindIdEx s := by rw [behindIdEx, behindIdEx, latches, at']
  have behind' : behindExMem t = behindExMem s := by rw [behindExMem, behindExMem, latches, behind]
  refine ⟨?_, fun e he => ?_, fun d hd => ?_, fun f hf => ?_⟩
  · rw [oldestYounger_of_no_exMem (by rw [latches]), behind', next]
  · rw [latches] at he; cases he
  · rw [latches] at hd
    rw [behind]
    obtain ⟨fetched, next⟩ := h.idEx d hd
    exact ⟨fetched.move le space, next⟩
  · rw [latches] at hf
    rw [at']
    obtain ⟨fetched, next⟩ := h.ifId f hf
    exact ⟨fetched.move le space, next⟩

end

end Sys2Proof.Machine
end
-- ==== Sys2Proof/Proofs/FrontEnd.lean ====
section
/-! The stages younger than Writeback keep the instructions in flight on the interpreter's path (spec/50_pipeline.md R330 to
R338). -/

namespace Sys2Proof.Machine

section
variable {P : Nat → Byte → Prop} {full : Bool} {s t r : State}

/-! ## Execute -/

theorem decoded_some {strict : Bool} {f : IfId} {i : Instr} {x : LatchExc} (h : decoded strict f = (some i, x)) :
    x = .none := by
  unfold decoded at h
  split at h
  · split at h <;> cases h
    rfl
  · cases h

theorem Decoded.fault_of_none {pc : Word} {x : LatchExc} (h : Decoded P r pc none x) : ∃ y, x = .fault y := by
  obtain ⟨f, -, fetched, kind⟩ := h
  unfold decoded at kind
  obtain ⟨y, -, fault⟩ | ⟨pa, -, clean, -⟩ := fetched
  · rw [fault] at kind
    cases kind
    exact ⟨y, rfl⟩
  · rw [clean] at kind
    dsimp only at kind
    split at kind
    · cases kind
    · cases kind
      exact ⟨_, rfl⟩

/-- The instruction of ID/EX has gone on to EX/MEM, `PC` and IF/ID as they were. -/
theorem InFlight.issue {e : ExMem} (h : InFlight P r s) (latches : t.latches = { s.latches with idEx := none })
    (at' : t.pc = s.pc) (oldest : e.pc = r.pc) (executed : Executed P r e (behindIdEx s)) :
    InFlight P r (setExMem (some e) t) := by
  have behind : behindExMem (setExMem (some e) t) = behindIdEx s := by
    rw [behindExMem, setExMem_latches, latches]
    rw [behindIdEx, behindIdEx, setExMem_latches, latches, setExMem_pc, at']
  refine ⟨oldest, fun e he => ?_, fun d hd => ?_, fun f hf => ?_⟩
  · cases he
    rwa [behind]
  · rw [setExMem_latches, latches] at hd
    cases hd
  · rw [setExMem_latches, latches] at hf
    rw [setExMem_pc, at']
    exact h.ifId f hf

/-- Execute computes on current operands, and sends the younger instructions away where the prediction was wrong. -/
theorem InFlight.executeStage (h : InFlight P r s) (empty : s.latches.exMem = none) (general : operandG s = getX r)
    (vector : operandV s = getV r) : InFlight P r (executeStage s) := by
  cases hd : s.latches.idEx with
  | none =>
    have same : Machine.executeStage s = s := by rw [Machine.executeStage, hd]
    rwa [same]
  | some d =>
    obtain ⟨origin, predicted⟩ := h.idEx d hd
    have oldest : d.pc = r.pc := by
      rw [← h.oldest, oldestYounger_of_no_exMem empty, behindExMem, hd]
    obtain ⟨pc, instr, exc, predNext⟩ := d
    cases instr with
    | none =>
      obtain ⟨y, rfl⟩ := origin.fault_of_none
      have run : Machine.executeStage s = setExMem
          (some { pc := pc, instr := none, exc := .fault y, dest := .none, result := 0, flags := none, ea := 0, sdata := 0 })
          (setIdEx none s) := by rw [Machine.executeStage, hd]
      rw [run]
      exact h.issue rfl rfl oldest (.faulted y origin rfl rfl)
    | some i =>
      obtain rfl : exc = .none := by
        obtain ⟨f, -, -, kind⟩ := origin
        exact decoded_some kind
      have run := executeStage_resolves hd rfl rfl (c := compute (getX r) (getV r) pc i) (by rw [general, vector])
      rw [run]
      have computed (next : Word) (hn : (compute (getX r) (getV r) pc i).next = next) :=
        Executed.computed (P := P) (r := r) (next := next) (e := exMemOf i pc (compute (getX r) (getV r) pc i)) i origin rfl hn
      by_cases right : (compute (getX r) (getV r) pc i).next = predNext
      · obtain ⟨at', latches, -⟩ := resolve_right_frame (i := i) (pc := pc) (s := setIdEx none s) right
        exact h.issue latches at' oldest (computed _ (right.trans predicted))
      · rw [resolve_of_wrong right]
        refine ⟨oldest, fun e he => ?_, nofun, nofun⟩
        cases he
        exact computed _ rfl

/-! ## Decode -/

theorem oldestYounger_congr (exMem : t.latches.exMem = s.latches.exMem) (behind : behindExMem t = behindExMem s) :
    oldestYounger t = oldestYounger s := by
  cases he : s.latches.exMem with
  | some e => rw [oldestYounger_of_exMem he, oldestYounger_of_exMem (exMem.trans he)]
  | none => rw [oldestYounger_of_no_exMem he, oldestYounger_of_no_exMem (exMem.trans he), behind]

theorem InFlight.decodeStage (h : InFlight P r s) (empty : s.latches.idEx = none) (params : s.params = r.params) :
    InFlight P r (decodeStage s) := by
  cases hf : s.latches.ifId with
  | none =>
    have same : Machine.decodeStage s = s := by rw [Machine.decodeStage, hf]
    rwa [same]
  | some f =>
    obtain ⟨fetched, predicted⟩ := h.ifId f hf
    cases hazard : loadUse s.latches.exMem (decoded s.params.strictReserved f).1 with
    | true =>
      rw [decodeStage_stalls hf hazard]
      exact h.move (fun _ _ => id) (.refl r) rfl rfl rfl rfl rfl
    | false =>
      have behind : behindExMem s = f.pc := by rw [behindExMem, empty, behindIdEx, hf]
      rw [decodeStage_proceeds hf hazard]
      refine ⟨?_, fun e he => ?_, fun d hd => ?_, nofun⟩
      · exact Eq.trans (oldestYounger_congr (s := s) rfl behind.symm) h.oldest
      · have executed := h.exMem e he
        rwa [behind] at executed
      · cases hd
        exact ⟨⟨f, rfl, fetched, by rw [params]⟩, predicted⟩

/-! ## Fetch -/

/-- What a fetch into IF/ID leaves: its slot, with `PC` at the address predicted behind it. -/
structure FetchedInto (P : Nat → Byte → Prop) (s t : State) (f : IfId) : Prop where
  slot : f.pc = s.pc
  fetched : Fetched P s f
  latches : t.latches = { s.latches with ifId := some f }
  pc : t.pc = f.predNext
  caches : CachesIn P t
  agree : ∀ r, Agree false s r → Agree false t r

theorem fetchStage_fetches (ok : MemoryOk s) (held : CachesIn P s) (empty : s.latches.ifId = none) (bkpt : s.bkpt = []) :
    ∃ f, FetchedInto P s (fetchStage s) f := by
  have free : breakpointAt s = false := by rw [breakpointAt, bkpt]; rfl
  have okr : MemoryOk { s with resume := false } := ok.congr rfl rfl rfl
  obtain ⟨m, pages, answer⟩ := fetch_fetchPlace okr s.pc
  rw [show fetchPlace { s with resume := false } s.pc = fetchPlace s s.pc from rfl] at answer
  cases place : fetchPlace s s.pc with
  | exc x =>
    rw [place] at answer
    have run : fetchStage s = fetched s.pc 0 (.fault x) (s.pc + 4) { s with resume := false, mmu := m } := by
      simp only [fetchStage, empty, free, answer, Bool.false_eq_true, if_false]
    rw [run]
    exact ⟨_, rfl, .inl ⟨x, place, rfl⟩, rfl, rfl, held, fun _ h =>
      { h with pages := pages.trans h.pages, resume := nofun }⟩
  | pa pa =>
    rw [place] at answer
    obtain ⟨-, -, -, inside⟩ := fetchPlace_pa place
    have moved : CachesIn P { s with resume := false, mmu := m } := held
    obtain ⟨word, kept⟩ := cachesIn_ramFetch moved ok.params ok.hier (fetchPlace_aligned ok place) inside
    obtain ⟨-, flat⟩ := ramFetch_ok (s := { s with resume := false, mmu := m }) ok.params ok.hier inside
    have run : fetchStage s = fetched s.pc (ramFetch { s with resume := false, mmu := m } pa).1 .none
        (predict s.params s.predictor s.pc) (ramFetch { s with resume := false, mmu := m } pa).2 := by
      simp only [fetchStage, empty, free, answer, Bool.false_eq_true, if_false]
      rfl
    rw [run]
    exact ⟨_, rfl, .inr ⟨pa, place, rfl, word⟩, rfl, rfl, kept, fun _ h =>
      { h with pages := pages.trans h.pages, memory := fun a => (flat a).trans (h.memory a), resume := nofun,
               status := nofun }⟩

theorem InFlight.fetchStage {f : IfId} (h : InFlight P r s) (empty : s.latches.ifId = none) (space : SameSpace s r)
    (into : FetchedInto P s t f) : InFlight P r t := by
  have behind : behindIdEx t = behindIdEx s := by
    rw [behindIdEx, behindIdEx, into.latches, empty]
    exact into.slot
  have behind' : behindExMem t = behindExMem s := by rw [behindExMem, behindExMem, into.latches, behind]
  refine ⟨?_, fun e he => ?_, fun d hd => ?_, fun g hg => ?_⟩
  · rw [← h.oldest]
    exact oldestYounger_congr (by rw [into.latches]) behind'
  · rw [into.latches] at he
    rw [behind']
    exact h.exMem e he
  · rw [into.latches] at hd
    rw [behind]
    exact h.idEx d hd
  · rw [into.latches] at hg
    cases hg
    exact ⟨into.fetched.move (fun _ _ => id) space, into.pc.symm⟩

end

end Sys2Proof.Machine
end
-- ==== Sys2Proof/Proofs/TriggersCommute.lean ====
section
/-! The machine and the interpreter in step, tick by tick (spec/50_pipeline.md R325, 70_reset_and_hazards.md R466). -/

namespace Sys2Proof.Machine

section
variable {P Q : Nat → Byte → Prop} {s t r r' : State} {m : MemWb} {e : ExMem}

/-! ## A trigger commutes with a retirement (51_host_interface.md R389) -/

theorem deliver_pend (vs : BitVec 256) (x : Exc) (ret : Word) (s : State) :
    deliver x ret (pend vs s) = pend vs (deliver x ret s) := by
  have same : ivtGet (pend vs s) x.vector = ivtGet s x.vector := rfl
  have room : (pend vs s).ic.nest < (pend vs s).params.maxNest ↔ s.ic.nest < s.params.maxNest := Iff.rfl
  cases h : ivtGet s x.vector with
  | default => simp only [deliver, same, h, stopCore_eq, pushEvent_eq]; rfl
  | guest addr =>
    simp only [deliver, same, h, room, apply_ite (pend vs), stopCore_eq, pushEvent_eq]
    rfl

theorem breakpointStop_pend (vs : BitVec 256) (a : Word) (s : State) :
    breakpointStop a (pend vs s) = pend vs (breakpointStop a s) := by
  rw [breakpointStop_eq, breakpointStop_eq]
  rfl

theorem commit_pend (vs : BitVec 256) (f : Option Nzcv) (d : Dest) (w : VWord) (s : State) :
    commitFlags f (commitDest d w (pend vs s)) = pend vs (commitFlags f (commitDest d w s)) := by
  cases d with
  | none => cases f <;> rfl
  | v q => cases f <;> rfl
  | g q => rw [commitDest, commitDest, setX_eq, setX_eq]; cases f <;> rfl

theorem defaultService_pend (vs : BitVec 256) (pc : Word) (s : State) :
    defaultService pc (pend vs s) = pend vs (defaultService pc s) := by
  have service (n : Nat) : envService n pc (pend vs s) = pend vs (envService n pc s) := by
    simp only [envService_eq]; rfl
  have unknown : setPc (pc + 4) (setX 1 (BitVec.allOnes 64) (pend vs s)) =
      pend vs (setPc (pc + 4) (setX 1 (BitVec.allOnes 64) s)) := by
    simp only [setX_eq]; rfl
  have exit : stopCore .halted 0 pc (pc + 4) (getX s 2) { pend vs s with exitCode := getX s 2 } =
      pend vs (stopCore .halted 0 pc (pc + 4) (getX s 2) { s with exitCode := getX s 2 }) := by
    simp only [stopCore_eq]; rfl
  have number : getX (pend vs s) = getX s := rfl
  simp only [defaultService, number, service, unknown, exit, apply_ite (pend vs)]

theorem syscallTrap_pend (vs : BitVec 256) (pc : Word) (s : State) :
    syscallTrap pc (pend vs s) = pend vs (syscallTrap pc s) := by
  have same : ivtGet (pend vs s) 128 = ivtGet s 128 := rfl
  have counted : countVector 128 (pend vs s) = pend vs (countVector 128 s) := rfl
  have room : (pend vs s).ic.nest < (pend vs s).params.maxNest ↔ s.ic.nest < s.params.maxNest := Iff.rfl
  cases h : ivtGet s 128 with
  | default => simp only [syscallTrap, same, h, counted, defaultService_pend]
  | guest addr =>
    simp only [syscallTrap, same, h, counted, room, apply_ite (pend vs), stopCore_eq]
    rfl

theorem systemEvent_pend (vs : BitVec 256) (i : Instr) (pc : Word) (s : State) :
    systemEvent i pc (pend vs s) = pend vs (systemEvent i pc s) := by
  cases i
  case syscall => exact syscallTrap_pend vs pc s
  case halt => simp only [systemEvent, haltCore, stopCore_eq]; rfl
  case iret => rfl
  all_goals rfl

theorem refRetireWb_pend (vs : BitVec 256) (m : MemWb) (next : Word) (r : State) :
    refRetireWb m next (pend vs r) = pend vs (refRetireWb m next r) := by
  have retires : (retireExc · (pend vs r)) = (retireExc · r) := funext fun i => retireExc_congr rfl rfl i
  unfold refRetireWb
  rw [retires]
  cases m.exc with
  | breakpointStop => exact breakpointStop_pend vs m.pc r
  | fault x => exact deliver_pend vs x m.pc r
  | none =>
    dsimp only
    cases m.instr.bind (retireExc · r) with
    | some x => exact deliver_pend vs x m.pc r
    | none =>
      dsimp only
      rw [commit_pend]
      cases m.instr.filter isSystem with
      | some i => exact systemEvent_pend vs i m.pc _
      | none => rfl

end

end Sys2Proof.Machine
end
-- ==== Sys2Proof/Proofs/InStepRelation.lean ====
section
/-! The machine and the interpreter in step, tick by tick (spec/50_pipeline.md R325, 70_reset_and_hazards.md R466). -/

namespace Sys2Proof.Machine

/-! ## Breakpoints stay as they are -/

/-- The machine has no breakpoint. -/
def Unbroken (s : State) : Prop := s.bkpt = []

namespace Unbroken

theorem sameCore {s t : State} (h : Unbroken s) (e : SameCore s t) : Unbroken t := by
  rw [← e]
  exact h

theorem access : AccessKeeps Unbroken where
  core := sameCore
  mmu _ _ _ h := h
  dropTlb _ h := h
  pend _ h := h
  hier _ h := h

theorem stepKeeps : StepKeeps Unbroken where
  core := sameCore
  setX _ _ h := by simpa [Unbroken] using h
  setNzcv _ h := h
  train _ _ _ h := h
  pushEvent _ h := by simpa [Unbroken] using h
  countVector _ h := h
  trapEnter _ _ _ _ _ _ h := h
  trapReturn h := h
  memRead va _ _ h := access.memRead h va _
  memWrite va _ val _ h := access.memWrite h va _ val
  applyWrites ws h := access.applyWrites h ws
  fetch va h := access.fetch h va
  unpend _ h := h
  untrain _ h := h
  startTick h := h
  countStall h := h

end Unbroken

/-! ## The relation -/

/-- The state agrees with the interpreter's once the instruction in MEM/WB has retired, as the interpreter's `PC` says. -/
inductive Retiring (s r : State) : Prop where
  | nothing : s.latches.memWb = none → Agree false s r → CachesEmpty r → Retiring s r
  | instruction (m : MemWb) (next : Word) (r' : State) : s.latches.memWb = some m → m.dest ≠ .g 0 → Agree false s r' →
      CachesEmpty r' → r = refRetireWb m next r' → Retiring s r

/-- The machine between two stages is in step with the interpreter: it agrees up to the instruction in MEM/WB, which the
interpreter has performed; unless that one flushes them, the younger ones are those the interpreter comes to; and the
caches hold bytes with `P`. -/
structure Tracks (P : Nat → Byte → Prop) (s r : State) : Prop where
  ok : MemoryOk s
  bkpt : s.bkpt = []
  caches : CachesIn P s
  retiring : Retiring s r
  inFlight : (∀ m, s.latches.memWb = some m → flushes m = false) → InFlight P r s

section
variable {P Q : Nat → Byte → Prop} {s t r r' : State} {m : MemWb} {e : ExMem}

theorem CachesIn.mono (h : CachesIn P s) (le : ∀ a b, P a b → Q a b) : CachesIn Q s := BytesIn.mono h le

/-! ### Triggers and the start of a tick -/

theorem Tracks.pend (h : Tracks P s r) (le : ∀ a b, P a b → Q a b) (vs : BitVec 256) :
    Tracks Q (pend vs s) (pend vs r) where
  ok := h.ok.congr rfl rfl rfl
  bkpt := h.bkpt
  caches := h.caches.mono le
  retiring := by
    obtain ⟨none, agree, bare⟩ | ⟨m, next, r', hm, dest, agree, bare, rfl⟩ := h.retiring
    · exact .nothing none (agree.pend vs) bare
    · exact .instruction m next _ hm dest (agree.pend vs) bare (refRetireWb_pend vs m next r').symm
  inFlight plain := (h.inFlight plain).move le ⟨rfl, rfl, fun _ _ => rfl⟩ rfl rfl rfl rfl rfl

theorem Tracks.startTick (h : Tracks P s r) : Tracks P (startTick s) r where
  ok := h.ok.congr rfl rfl rfl
  bkpt := h.bkpt
  caches := h.caches
  retiring := by
    obtain ⟨none, agree, bare⟩ | ⟨m, next, r', hm, dest, agree, bare, rfl⟩ := h.retiring
    · exact .nothing none { agree with status := nofun } bare
    · exact .instruction m next r' hm dest { agree with status := nofun } bare rfl
  inFlight plain := (h.inFlight plain).move (fun _ _ => id) (.refl r) rfl rfl rfl rfl rfl

/-! ### Writeback -/

/-- After Writeback the machine agrees with the interpreter. -/
structure Settled (P : Nat → Byte → Prop) (s r : State) : Prop where
  ok : MemoryOk s
  bkpt : s.bkpt = []
  caches : CachesIn P s
  empty : s.latches.memWb = none
  agree : Agree false s r
  bare : CachesEmpty r
  inFlight : InFlight P r s

theorem Settled.tracks (h : Settled P s r) : Tracks P s r :=
  ⟨h.ok, h.bkpt, h.caches, .nothing h.empty h.agree h.bare, fun _ => h.inFlight⟩

/-- Writeback touches the hierarchy only as far as the environment writes (43_system.md R272). -/
theorem writtenThrough_writeback (ok : MemoryOk s) :
    (writeback s).1.params = s.params ∧ WrittenThrough s.params s.hier (writeback s).1.hier := by
  have same {t : State} (h : t.params = s.params ∧ t.hier = s.hier) :
      t.params = s.params ∧ WrittenThrough s.params s.hier t.hier := ⟨h.1, by rw [h.2]; exact .refl ..⟩
  cases hm : s.latches.memWb with
  | none =>
    have idle : writeback s = (s, false) := by rw [writeback, hm]
    rw [idle]
    exact same ⟨rfl, rfl⟩
  | some m =>
    cases kind : flushes m with
    | false =>
      rw [writeback_of_not_flushes hm kind, commitWb_frame]
      exact same ⟨rfl, rfl⟩
    | true =>
      cases exc : m.exc with
      | fault x =>
        rw [writeback_fault hm exc]
        exact same (deliver_core x m.pc _)
      | breakpointStop =>
        rw [writeback_breakpoint hm exc, breakpointStop_eq]
        exact same ⟨rfl, rfl⟩
      | none =>
        have system : m.instr.any isSystem = true := by simpa [flushes, exc] using kind
        obtain ⟨i, hi, system⟩ := (Option.any_eq_true ..).mp system
        cases raises : retireExc i (setMemWb none s) with
        | some x =>
          rw [writeback_raises hm exc hi raises]
          exact same (deliver_core x m.pc _)
        | none =>
          have okm : MemoryOk (setMemWb none s) := ok.congr rfl rfl rfl
          have okc := MemoryOk.stepKeeps.flushYounger (MemoryOk.stepKeeps.commitWb okm m)
          rw [writeback_system hm exc hi raises system]
          have event := writtenThrough_systemEvent okc system m.pc
          have frame : (flushYounger (commitWb m (setMemWb none s))).params = s.params ∧
              (flushYounger (commitWb m (setMemWb none s))).hier = s.hier := by
            rw [commitWb_frame]
            exact ⟨rfl, rfl⟩
          rwa [frame.1, frame.2] at event

theorem cachesIn_writeback (h : CachesIn P s) (ok : MemoryOk s) (flat : ∀ a, P a ((writeback s).1.flat a)) :
    CachesIn P (writeback s).1 := by
  obtain ⟨params, through⟩ := writtenThrough_writeback ok
  unfold State.flat at flat
  unfold CachesIn
  rw [params] at flat ⊢
  exact BytesIn.writtenThrough h through flat

theorem cachesEmpty_refRetireWb (bare : CachesEmpty r) (m : MemWb) (next : Word) :
    CachesEmpty (refRetireWb m next r) := by
  have committed : SameHidden r (commitFlags m.flags (commitDest m.dest m.result r)) := by
    rw [commit_frame]
    exact .of_eq rfl rfl rfl rfl rfl
  refine bare.of_same ?_
  unfold refRetireWb
  cases m.exc with
  | breakpointStop =>
    dsimp only
    rw [breakpointStop_eq]
    exact .of_eq rfl rfl rfl rfl rfl
  | fault x => exact .deliver x m.pc r
  | none =>
    dsimp only
    cases m.instr.bind (retireExc · r) with
    | some x => exact .deliver x m.pc r
    | none =>
      cases m.instr.filter isSystem with
      | some i => exact committed.trans (.systemEvent (bare.of_same committed) i m.pc)
      | none => exact committed.trans (.of_eq rfl rfl rfl rfl rfl)

theorem Tracks.writeback (h : Tracks P s r) (memory : ∀ a, P a (Memory.read r.hier.pm a)) :
    Settled P (writeback s).1 r ∧ ((writeback s).2 = true → (writeback s).1.quiet) ∧
      ((writeback s).2 = false → (writeback s).1.halted = s.halted ∧ (writeback s).1.lastStatus = s.lastStatus) := by
  have ok := MemoryOk.stepKeeps.writeback h.ok
  have bkpt := Unbroken.stepKeeps.writeback h.bkpt
  obtain ⟨none, agree, bare⟩ | ⟨m, next, r', hm, dest, agree, bare, rfl⟩ := h.retiring
  · have same : Machine.writeback s = (s, false) := by rw [Machine.writeback, none]
    rw [same]
    have inFlight := h.inFlight fun m hm => by rw [none] at hm; cases hm
    exact ⟨⟨h.ok, h.bkpt, h.caches, none, agree, bare, inFlight⟩, fun flushed => (by cases flushed), fun _ => ⟨rfl, rfl⟩⟩
  · have agreed := agree_writeback agree h.ok bare hm next
    have caches := cachesIn_writeback h.caches h.ok fun a => by rw [agreed.memory]; exact memory a
    have empty := cachesEmpty_refRetireWb bare m next
    cases kind : flushes m with
    | true =>
      obtain ⟨taken, quiet, at'⟩ := agree_writeback_flush agree h.ok bare hm kind next
      have none : (Machine.writeback s).1.latches = _ := quiet
      rw [taken]
      exact ⟨⟨ok, bkpt, caches, by rw [none], agreed, empty,
        .of_flushed (by rw [none]) (by rw [none]) (by rw [none]) at'.pc⟩, fun _ => quiet, nofun⟩
    | false =>
      have inFlight := h.inFlight fun m' hm' => by rw [hm] at hm'; cases hm'; exact kind
      rw [writeback_of_not_flushes hm kind] at ok bkpt caches agreed ⊢
      refine ⟨⟨ok, bkpt, caches, by rw [commitWb_frame]; rfl, agreed, empty, ?_⟩, nofun, fun _ => ?_⟩
      · refine inFlight.move (m := none) (fun _ _ => id) (.refl _) rfl rfl rfl ?_ ?_
        · rw [commitWb_frame]; rfl
        · rw [commitWb_frame]; rfl
      · rw [commitWb_frame]
        exact ⟨rfl, rfl⟩

end

end Sys2Proof.Machine
end
-- ==== Sys2Proof/Proofs/InterruptTurn.lean ====
section
/-! The stages of a tick keep the machine in step with the interpreter (spec/50_pipeline.md R325 to R343). -/

namespace Sys2Proof.Machine

section
variable {P Q : Nat → Byte → Prop} {s t r r' : State} {m : MemWb} {e : ExMem} {v : Nat}

/-! ## The interrupt point -/

theorem deliverInterrupt_core (v : Nat) (ret : Word) (s : State) :
    (deliverInterrupt v ret s).params = s.params ∧ (deliverInterrupt v ret s).hier = s.hier := by
  unfold deliverInterrupt
  cases ivtGet s v <;> simp

theorem interruptPoint_of_default (due : deliverable s = some v) (handler : ivtGet s v = .default) :
    interruptPoint s = deliverInterrupt v s.pc s := by
  simp only [interruptPoint, due, handler]

theorem interruptPoint_of_guest {addr : Word} (due : deliverable s = some v) (handler : ivtGet s v = .guest addr) :
    interruptPoint s = deliverInterrupt v (oldestYounger s) (flushYounger s) := by
  simp only [interruptPoint, due, handler]

theorem interruptPoint_of_none (idle : deliverable s = none) : interruptPoint s = s := by
  simp only [interruptPoint, idle]

theorem interruptPoint_halted (s : State) : (interruptPoint s).halted = s.halted := by
  cases due : deliverable s with
  | none => rw [interruptPoint_of_none due]
  | some v =>
    cases handler : ivtGet s v with
    | default => simp [interruptPoint_of_default due handler, deliverInterrupt_of_default handler]
    | guest addr =>
      simp [interruptPoint_of_guest due handler, deliverInterrupt_of_guest (s := flushYounger s) handler]

theorem Settled.running (h : Settled P s r) (running : s.halted = false) (take : Bool) :
    refRound take r =
      match if take then deliverable s else none with
      | some v => deliverInterrupt v r.pc (startStep r)
      | none => refFetchAndExec (startStep r) := by
  have free : breakpointAt (startStep r) = false := by
    rw [breakpointAt, startStep_bkpt, ← h.agree.bkpt, h.bkpt]
    rfl
  have pending : deliverable (startStep r) = deliverable s := h.agree.deliverable_eq.symm
  rw [refRound_running (h.agree.halted.symm.trans running), free, pending]
  rfl

/-- A delivered interrupt is a turn of the interpreter in which the environment asks for it. -/
theorem Settled.interrupt (h : Settled P s r) (le : ∀ a b, P a b → Q a b) (running : s.halted = false)
    (due : deliverable s = some v) : Settled Q (interruptPoint s) (refRound true r) := by
  have ok := MemoryOk.stepKeeps.interruptPoint h.ok
  have bkpt : (interruptPoint s).bkpt = [] := Unbroken.stepKeeps.interruptPoint h.bkpt
  have started : Agree false s (startStep r) := { h.agree with status := nofun }
  have turn : refRound true r = deliverInterrupt v r.pc (startStep r) := by rw [h.running running, if_pos rfl, due]
  have bare : CachesEmpty (deliverInterrupt v r.pc (startStep r)) :=
    CachesEmpty.of_same (s := startStep r) h.bare (.deliverInterrupt ..)
  rw [turn]
  cases handler : ivtGet r v with
  | default =>
    have mine : ivtGet s v = .default := by rw [h.agree.ivtGet_eq, handler]
    have delivered := started.deliverInterrupt_default handler nofun s.pc r.pc
    have visible : deliverInterrupt v s.pc s = { s with
        ic := (deliverInterrupt v s.pc s).ic, eventQ := (deliverInterrupt v s.pc s).eventQ } := by
      rw [deliverInterrupt_of_default mine, pushEvent_eq]
      rfl
    have refVisible : deliverInterrupt v r.pc (startStep r) = { startStep r with
        ic := (deliverInterrupt v r.pc (startStep r)).ic, eventQ := (deliverInterrupt v r.pc (startStep r)).eventQ } := by
      rw [deliverInterrupt_of_default (s := startStep r) handler, pushEvent_eq]
      rfl
    have core := deliverInterrupt_core v s.pc s
    rw [interruptPoint_of_default due mine] at ok bkpt ⊢
    refine ⟨ok, bkpt, ?_, ?_, delivered, bare, ?_⟩
    · rw [CachesIn, core.1, core.2]
      exact h.caches.mono le
    · rw [visible]; exact h.empty
    · rw [refVisible, visible]
      exact h.inFlight.move le ⟨rfl, rfl, fun _ _ => rfl⟩ rfl rfl rfl rfl rfl
  | guest addr =>
    have mine : ivtGet s v = .guest addr := by rw [h.agree.ivtGet_eq, handler]
    have delivered := (started.flushYounger).deliverInterrupt_guest handler r.pc
    have core := deliverInterrupt_core v r.pc (flushYounger s)
    have latches := (SameHidden.deliverInterrupt v r.pc (flushYounger s)).latches
    rw [interruptPoint_of_guest due mine, h.inFlight.oldest] at ok bkpt ⊢
    refine ⟨ok, bkpt, ?_, ?_, delivered.toAgree, bare, .of_flushed ?_ ?_ ?_ delivered.pc⟩
    · rw [CachesIn, core.1, core.2]
      exact h.caches.mono le
    · rw [latches]; exact h.empty
    · rw [latches]; rfl
    · rw [latches]; rfl
    · rw [latches]; rfl

end

end Sys2Proof.Machine
end
-- ==== Sys2Proof/Proofs/MemoryTurn.lean ====
section
/-! The turn of the interpreter that belongs to the instruction in Memory (spec/50_pipeline.md R338,
70_reset_and_hazards.md R461, R466). -/

namespace Sys2Proof.Machine

section
variable {P Q : Nat → Byte → Prop} {s t r r' : State} {m : MemWb} {e : ExMem}

theorem gDest_ne (rd : Reg) : gDest rd ≠ .g 0 := by
  unfold gDest
  split
  · nofun
  · rename_i other
    exact fun same => other (Dest.g.inj same)

/-- No instruction has `G 0` as destination (50_pipeline.md R323). -/
theorem destOf_ne (i : Instr) : destOf i ≠ .g 0 := by
  cases i
  case call => simp [destOf]
  case st | sw | sh | sb | beq | bne | blt | bge | bltu | bgeu | jmp | ret | syscall | halt | nop | cmp | test | iret |
      vstore => nofun
  case vadd | vsub | vmul | vmulh | vdiv | vmod | vand | vor | vxor | vnot | vshl | vshr | vsar | vrol | vror | vaddf64 |
      vsubf64 | vmulf64 | vfmaf64 | vload => nofun
  all_goals exact gDest_ne _

theorem refMemory_dest (e : ExMem) (r : State) : (refMemory e r).1.dest = e.dest ∨ (refMemory e r).1.dest = .none := by
  cases act : memActIn e with
  | pass => rw [refMemory_pass act]; exact .inl rfl
  | load n extend =>
    cases hr : refRead r e.ea n with
    | done val t => rw [refMemory_load_done act hr]; exact .inl rfl
    | raised x t => rw [refMemory_load_raised act hr]; exact .inr rfl
  | store n =>
    cases hw : refWrite r e.ea n e.sdata with
    | done _ t => rw [refMemory_store_done act hw]; exact .inl rfl
    | raised x t => rw [refMemory_store_raised act hw]; exact .inl rfl

/-- The bytes with `P` where the next instruction stands are those that stand there now: what 70_reset_and_hazards.md R461
secures. -/
def Unstored (P : Nat → Byte → Prop) (r : State) : Prop :=
  ∀ pa, fetchPlace r r.pc = .pa pa → ∀ j < 4, ∀ b, P (pa + j) b → b = Memory.read r.hier.pm (pa + j)

theorem WordIn.current {pa : Nat} {w : IWord} (h : WordIn P pa w)
    (now : ∀ j < 4, ∀ b, P (pa + j) b → b = Memory.read r.hier.pm (pa + j)) : w = (pmValue r pa 4).setWidth 32 := by
  obtain ⟨f, word, bytes⟩ := h
  rw [word, pmValue, ofBytes_congr _ _ _ fun j hj => now j hj _ (bytes j hj)]

section
variable {x : Exc} {w : IWord} {i : Instr}

theorem refFetchAndExec_raised (h : refFetch { r with resume := false } r.pc = .raised x t) :
    refFetchAndExec r = deliver x r.pc t := by
  simp only [refFetchAndExec, h]

theorem refFetchAndExec_illegal (h : refFetch { r with resume := false } r.pc = .done w t)
    (illegal : decode t.params.strictReserved w = none) : refFetchAndExec r = deliver (invalidOpcode w) t.pc t := by
  simp only [refFetchAndExec, h, illegal]

theorem refFetchAndExec_decoded (h : refFetch { r with resume := false } r.pc = .done w t)
    (legal : decode t.params.strictReserved w = some i) : refFetchAndExec r = refExec i t := by
  simp only [refFetchAndExec, h, legal]

end

theorem decoded_of_fault {f : IfId} {x : Exc} (fault : f.exc = .fault x) (strict : Bool) :
    decoded strict f = (none, .fault x) := by
  simp only [decoded, fault]

theorem decoded_of_illegal {f : IfId} {strict : Bool} (clean : f.exc = .none) (illegal : decode strict f.word = none) :
    decoded strict f = (none, .fault (invalidOpcode f.word)) := by
  simp only [decoded, clean, illegal]

theorem refMemory_fault {x : Exc} (fault : e.exc = .fault x) (next : Word) (r : State) :
    refRetireWb (refMemory e r).1 next (refMemory e r).2 = deliver x e.pc r := by
  have pass : memActIn e = .pass := by simp only [memActIn, fault]
  rw [refMemory_pass pass, refRetireWb_fault fault]
  rfl

/-- What was fetched for the address the interpreter stands at is what it fetches there. -/
theorem Fetched.refFetch_eq {f : IfId} (h : Fetched P r f) (at' : f.pc = r.pc) (fresh : Unstored P r) :
    (∃ x, f.exc = .fault x ∧ refFetch { r with resume := false } r.pc = .raised x { r with resume := false }) ∨
      f.exc = .none ∧ ∃ m, SamePages m.pt r.mmu.pt ∧
        refFetch { r with resume := false } r.pc = .done f.word { r with resume := false, mmu := m } := by
  obtain ⟨m, pages, answer⟩ := refFetch_fetchPlace { r with resume := false } r.pc
  rw [show fetchPlace { r with resume := false } r.pc = fetchPlace r r.pc from rfl] at answer
  obtain ⟨x, place, raised⟩ | ⟨pa, place, clean, word⟩ := h
  · rw [at'] at place
    rw [place] at answer
    exact .inl ⟨x, raised, answer⟩
  · rw [at'] at place
    rw [place] at answer
    refine .inr ⟨clean, m, pages, ?_⟩
    rw [word.current (fresh pa place)]
    exact answer

/-- What has been executed for the instruction at `PC` is what the interpreter comes to there. -/
theorem Executed.refFetchAndExec {next : Word} (h : Executed P r e next) (at' : e.pc = r.pc) (fresh : Unstored P r)
    (agree : Agree false s r) (bare : CachesEmpty r) :
    ∃ u, Agree false s u ∧ CachesEmpty u ∧ SameSpace r u ∧
      refFetchAndExec r = refRetireWb (refMemory e u).1 next (refMemory e u).2 := by
  have read {m : Mmu} (pages : SamePages m.pt r.mmu.pt) : Agree false s { r with resume := false, mmu := m } :=
    { agree with resume := nofun, pages := agree.pages.trans pages.symm }
  obtain ⟨y, ⟨f, here, fetched, kind⟩, fault, -⟩ | ⟨i, ⟨f, here, fetched, kind⟩, computes, goes⟩ := h
  · obtain ⟨x, raised, answer⟩ | ⟨clean, m, pages, answer⟩ := fetched.refFetch_eq (here.trans at') fresh
    · rw [decoded_of_fault raised] at kind
      cases kind
      refine ⟨{ r with resume := false }, { agree with resume := nofun }, bare, ⟨rfl, rfl, fun _ _ => rfl⟩, ?_⟩
      rw [refFetchAndExec_raised answer, refMemory_fault fault, at']
    · refine ⟨{ r with resume := false, mmu := m }, read pages, bare, ⟨rfl, rfl, pages⟩, ?_⟩
      cases legal : decode r.params.strictReserved f.word with
      | some i =>
        simp only [decoded, clean, legal] at kind
        cases kind
      | none =>
        rw [decoded_of_illegal clean legal] at kind
        cases kind
        rw [refFetchAndExec_illegal answer legal, refMemory_fault fault, at']
  · obtain ⟨x, raised, -⟩ | ⟨clean, m, pages, answer⟩ := fetched.refFetch_eq (here.trans at') fresh
    · rw [decoded_of_fault raised] at kind
      cases kind
    · refine ⟨{ r with resume := false, mmu := m }, read pages, bare, ⟨rfl, rfl, pages⟩, ?_⟩
      cases legal : decode r.params.strictReserved f.word with
      | none =>
        rw [decoded_of_illegal clean legal] at kind
        cases kind
      | some j =>
        obtain rfl : j = i := by
          simp only [decoded, clean, legal] at kind
          cases kind
          rfl
        rw [refFetchAndExec_decoded answer legal, refExec_eq, computes, ← goes, at']
        rfl

/-- The dest of what has been executed is not `G 0`. -/
theorem Executed.dest_ne {next : Word} (h : Executed P r e next) : e.dest ≠ .g 0 := by
  obtain ⟨y, -, -, none⟩ | ⟨i, -, computes, -⟩ := h
  · rw [none]; nofun
  · rw [computes]; exact destOf_ne i

/-- The instruction in EX/MEM goes through Memory, and the interpreter takes its turn. -/
theorem Settled.memory (h : Settled P s r) (le : ∀ a b, P a b → Q a b) (he : s.latches.exMem = some e)
    (running : s.halted = false) (fresh : Unstored P r) (memory : ∀ a, P a (Memory.read r.hier.pm a)) :
    Tracks Q (memoryStage s) (refRound false r) := by
  have same : SameSpace r (startStep r) := ⟨rfl, rfl, fun _ _ => rfl⟩
  have inFlight : InFlight P (startStep r) s := h.inFlight.move (fun _ _ => id) same rfl rfl rfl rfl rfl
  have executed := inFlight.exMem e he
  have at' : e.pc = r.pc := by rw [← oldestYounger_of_exMem he, h.inFlight.oldest]
  have started : Agree false s (startStep r) := { h.agree with status := nofun }
  have turn : refRound false r = refFetchAndExec (startStep r) := by rw [h.running running, if_neg Bool.false_ne_true]
  obtain ⟨u, agree, bare, space, run⟩ := executed.refFetchAndExec at' fresh started h.bare
  obtain ⟨latches, pc, left⟩ := agree_memoryStage agree h.ok he
  have hm : (memoryStage s).latches.memWb = some (refMemory e u).1 := by rw [latches]
  have flat (a : Nat) : P a (s.flat a) := by rw [h.agree.memory]; exact memory a
  have dest : (refMemory e u).1.dest ≠ .g 0 := by
    obtain same | none := refMemory_dest e u
    · rw [same]; exact executed.dest_ne
    · rw [none]; nofun
  rw [turn, run]
  refine ⟨MemoryOk.stepKeeps.memoryStage h.ok, Unbroken.stepKeeps.memoryStage h.bkpt,
    (cachesIn_memoryStage h.caches h.ok flat).mono le,
    .instruction _ _ _ hm dest left (bare.of_same (sameHidden_refMemory e u)) rfl, fun plain => ?_⟩
  have quiet := plain _ hm
  refine h.inFlight.advance le ?_ ?_ latches pc
  · exact (same.trans (space.trans (sameSpace_refMemory e u))).trans (sameSpace_refRetireWb quiet _ _)
  · rw [refRetireWb_commits quiet]
    rfl

end

end Sys2Proof.Machine
end
-- ==== Sys2Proof/Proofs/YoungerStages.lean ====
section
/-! The younger stages, and a whole tick (spec/50_pipeline.md R325 to R337). -/

namespace Sys2Proof.Machine

section
variable {P Q : Nat → Byte → Prop} {s t r r' : State} {m : MemWb} {e : ExMem}

/-! ## What the younger stages leave alone -/

/-- The states differ at most in `PC`, the younger latches, predictor and counters. -/
def SameCommitted (s t : State) : Prop :=
  t = { s with pc := t.pc, latches := { t.latches with memWb := s.latches.memWb }, predictor := t.predictor, perf := t.perf }

theorem sameCommitted_executeStage (s : State) : SameCommitted s (executeStage s) := by
  unfold executeStage
  cases s.latches.idEx with
  | none => rfl
  | some d =>
    dsimp only
    split
    · unfold resolve redirect resolveControl resolveOther
      split_ifs <;> rfl
    · rfl

theorem sameCommitted_decodeStage (s : State) : SameCommitted s (decodeStage s) := by
  unfold decodeStage
  cases s.latches.ifId with
  | none => rfl
  | some f =>
    dsimp only
    split <;> rfl

theorem SameCommitted.agree (h : SameCommitted s t) (k : Agree false s r) : Agree false t r := by
  rw [h]
  exact { k with }

theorem SameCommitted.memWb (h : SameCommitted s t) : t.latches.memWb = s.latches.memWb := by
  rw [h]

theorem Tracks.younger (h : Tracks P s r) (same : SameCommitted s t)
    (inFlight : (∀ m, s.latches.memWb = some m → flushes m = false) → InFlight P r s → InFlight P r t) :
    Tracks P t r where
  ok := by rw [same]; exact h.ok.congr rfl rfl rfl
  bkpt := by rw [same]; exact h.bkpt
  caches := by rw [same]; exact h.caches
  retiring := by
    obtain ⟨none, agree, bare⟩ | ⟨m, next, r', hm, dest, agree, bare, rfl⟩ := h.retiring
    · exact .nothing (same.memWb.trans none) (same.agree agree) bare
    · exact .instruction m next r' (same.memWb.trans hm) dest (same.agree agree) bare rfl
  inFlight plain := by
    rw [same.memWb] at plain
    exact inFlight plain (h.inFlight plain)

/-! ## Execute, Decode and Fetch -/

/-- Unless the younger instructions are to be flushed, the operands are the interpreter's registers (50_pipeline.md
R335), and the address space is the interpreter's. -/
theorem Tracks.current (h : Tracks P s r) (plain : ∀ m, s.latches.memWb = some m → flushes m = false) :
    operandG s = getX r ∧ operandV s = getV r ∧ SameSpace s r := by
  obtain ⟨none, agree, -⟩ | ⟨m, next, r', hm, dest, agree, -, rfl⟩ := h.retiring
  · refine ⟨?_, ?_, agree.sameSpace⟩
    · rw [← agree.getX_eq]; funext q; rw [operandG, none]
    · rw [← agree.getV_eq]; funext q; rw [operandV, none]
  · obtain ⟨general, vector⟩ := Claims.forwardingIsCurrent s m hm dest
    have committed := agree_commitWb (agree.setMemWb none) m
    refine ⟨?_, ?_, agree.sameSpace.trans (sameSpace_refRetireWb (plain m hm) next r')⟩
    · rw [refRetireWb_commits (plain m hm)]
      funext q
      rw [general, committed.getX_eq]
      rfl
    · rw [refRetireWb_commits (plain m hm)]
      funext q
      rw [vector, committed.getV_eq]
      rfl

theorem executeStage_idEx (s : State) : (executeStage s).latches.idEx = none := by
  cases hd : s.latches.idEx with
  | none => rw [executeStage, hd]; exact hd
  | some d =>
    unfold executeStage
    rw [hd]
    dsimp only
    split
    · unfold resolve redirect resolveControl resolveOther
      split_ifs <;> rfl
    · rfl

theorem Tracks.fetchStage (h : Tracks P s r) : Tracks P (fetchStage s) r := by
  cases empty : s.latches.ifId with
  | some f =>
    have idle : Machine.fetchStage s = s := by rw [Machine.fetchStage, empty]
    rwa [idle]
  | none =>
    obtain ⟨f, into⟩ := fetchStage_fetches h.ok h.caches empty h.bkpt
    have memWb : (Machine.fetchStage s).latches.memWb = s.latches.memWb := by rw [into.latches]
    refine ⟨MemoryOk.stepKeeps.fetchStage h.ok, Unbroken.stepKeeps.fetchStage h.bkpt, into.caches, ?_, fun plain => ?_⟩
    · obtain ⟨none, agree, bare⟩ | ⟨m, next, r', hm, dest, agree, bare, rfl⟩ := h.retiring
      · exact .nothing (memWb.trans none) (into.agree _ agree) bare
      · exact .instruction m next r' (memWb.trans hm) dest (into.agree _ agree) bare rfl
    · rw [memWb] at plain
      exact (h.inFlight plain).fetchStage empty (h.current plain).2.2 into

/-- The stages younger than Memory keep the machine in step. -/
theorem Tracks.frontEnd (h : Tracks P s r) (empty : s.latches.exMem = none) :
    Tracks P (Machine.fetchStage (decodeStage (executeStage s))) r := by
  have executed : Tracks P (executeStage s) r := h.younger (sameCommitted_executeStage s) fun plain inFlight =>
    inFlight.executeStage empty (h.current plain).1 (h.current plain).2.1
  have decoded : Tracks P (decodeStage (executeStage s)) r :=
    executed.younger (sameCommitted_decodeStage _) fun plain inFlight =>
      inFlight.decodeStage (executeStage_idEx s) (executed.current plain).2.2.params.symm
  exact decoded.fetchStage

end

end Sys2Proof.Machine
end
-- ==== Sys2Proof/Proofs/TickRefinement.lean ====
section
/-! A run of ticks against a run of the reference interpreter (spec/70_reset_and_hazards.md R461, R466, R467). -/

namespace Sys2Proof.Machine

section
variable {r0 s r : State} {hist : List RefInput}

/-! ## What has stood in memory -/

/-- The byte has stood at the address at some point of the interpreter's run. -/
def Past (r0 : State) (hist : List RefInput) (a : Nat) (b : Byte) : Prop :=
  ∃ before after, hist = before ++ after ∧ Memory.read (refRun before r0).hier.pm a = b

theorem past_append (r0 : State) (hist more : List RefInput) (a : Nat) (b : Byte) (h : Past r0 hist a b) :
    Past r0 (hist ++ more) a b := by
  obtain ⟨before, after, rfl, read⟩ := h
  exact ⟨before, after ++ more, by rw [List.append_assoc], read⟩

theorem past_now (r0 : State) (hist : List RefInput) (a : Nat) :
    Past r0 hist a (Memory.read (refRun hist r0).hier.pm a) := ⟨hist, [], (List.append_nil _).symm, rfl⟩

theorem refRun_snoc (hist : List RefInput) (i : RefInput) (r : State) :
    refRun (hist ++ [i]) r = refInput (refRun hist r) i := by
  rw [refRun, List.foldl_append]
  rfl

/-- A program that does not execute bytes it stored fetches what has always stood there. -/
theorem unstored_of_neverRunsStored (h : Claims.NeverRunsStored s)
    (running : (refRun hist (architectural s)).halted = false) :
    Unstored (Past (architectural s) hist) (refRun hist (architectural s)) := by
  intro pa place j hj b past
  obtain ⟨before, after, split, read⟩ := past
  obtain ⟨-, found, -, -⟩ := fetchPlace_pa place
  obtain ⟨pt, -, done⟩ := refTranslate_placeOf (refRun hist (architectural s)) (refRun hist (architectural s)).pc .fetch
  rw [found] at done
  have then' := h before after _ _ pa (by rw [← split]) running done j hj
  have now := h hist [] _ _ pa (by rw [List.append_nil]) running done j hj
  rw [now, ← then', read]

/-! ## One tick -/

/-- The machine tracks the interpreter after a history of inputs. -/
def InStep (r0 : State) (hist : List RefInput) (s : State) : Prop := Tracks (Past r0 hist) s (refRun hist r0)

/-- No run of the interpreter comes to bytes that were stored. -/
def NeverStored (r0 : State) : Prop :=
  ∀ hist, (refRun hist r0).halted = false → Unstored (Past r0 hist) (refRun hist r0)

/-- Memory and the stages behind it: the interpreter takes a turn where an instruction goes through Memory. -/
theorem Settled.finishTick (fresh : NeverStored r0) (h : Settled (Past r0 hist) s (refRun hist r0))
    (running : s.halted = false) :
    ∃ more, (more = [] ∨ more = [.round false]) ∧
      InStep r0 (hist ++ more) (fetchStage (decodeStage (executeStage (memoryStage s)))) := by
  cases he : s.latches.exMem with
  | none =>
    have idle : memoryStage s = s := by rw [memoryStage, he]
    refine ⟨[], .inl rfl, ?_⟩
    rw [idle, List.append_nil]
    exact h.tracks.frontEnd he
  | some e =>
    refine ⟨[.round false], .inr rfl, ?_⟩
    rw [InStep, refRun_snoc]
    exact (h.memory (past_append r0 hist _) he running (fresh hist (h.agree.halted.symm.trans running))
      (past_now r0 hist)).frontEnd (memoryStage_exMem s)

theorem tick_of_stop (running : s.halted = false) (stop : (writeback (startTick s)).1.lastStatus ≠ .ok) :
    tick s = (writeback (startTick s)).1 := by
  simp only [tick, running, Bool.false_eq_true, if_false, stop, ne_eq, not_false_eq_true, if_true]

theorem tick_of_ok (running : s.halted = false) (ok : (writeback (startTick s)).1.lastStatus = .ok) :
    tick s = fetchStage (decodeStage (executeStage (memoryStage
      (if (writeback (startTick s)).2 then (writeback (startTick s)).1 else interruptPoint (writeback (startTick s)).1)))) := by
  simp only [tick, running, Bool.false_eq_true, if_false, ok, ne_eq, not_true_eq_false]

/-- A tick is no turn of the interpreter, one, or two, behind the trigger. -/
theorem InStep.tick (fresh : NeverStored r0) (h : InStep r0 hist s) (vs : BitVec 256) :
    ∃ ins, Claims.TickInputs vs ins ∧ InStep r0 (hist ++ ins) (tick (pend vs s)) := by
  have triggered : InStep r0 (hist ++ [.trigger vs]) (pend vs s) := by
    rw [InStep, refRun_snoc]
    exact Tracks.pend h (past_append r0 hist _) vs
  cases running : (pend vs s).halted with
  | true =>
    have idle : Machine.tick (pend vs s) = pend vs s := if_pos running
    rw [idle]
    exact ⟨_, .idle, triggered⟩
  | false =>
    obtain ⟨settled, flushed, kept⟩ := (Tracks.startTick triggered).writeback (past_now r0 _)
    by_cases ok : (writeback (startTick (pend vs s))).1.lastStatus = .ok
    · rw [tick_of_ok running ok]
      cases taken : (writeback (startTick (pend vs s))).2 with
      | true =>
        have quiet : (writeback (startTick (pend vs s))).1.latches = _ := flushed taken
        have none : (writeback (startTick (pend vs s))).1.latches.exMem = none := by rw [quiet]
        rw [if_pos rfl, memoryStage, none]
        exact ⟨_, .idle, settled.tracks.frontEnd none⟩
      | false =>
        have still : (writeback (startTick (pend vs s))).1.halted = false := (kept taken).1.trans running
        rw [if_neg Bool.false_ne_true]
        cases due : deliverable (writeback (startTick (pend vs s))).1 with
        | none =>
          obtain ⟨more, shape, tracks⟩ := settled.finishTick fresh still
          rw [interruptPoint_of_none due]
          obtain rfl | rfl := shape
          · rw [List.append_nil] at tracks
            exact ⟨_, .idle, tracks⟩
          · rw [List.append_assoc] at tracks
            exact ⟨_, .executed, tracks⟩
        | some v =>
          have interrupted : Settled (Past r0 (hist ++ [.trigger vs] ++ [.round true]))
              (interruptPoint (writeback (startTick (pend vs s))).1)
              (refRun (hist ++ [.trigger vs] ++ [.round true]) r0) := by
            rw [refRun_snoc]
            exact settled.interrupt (past_append r0 _ _) still due
          obtain ⟨more, shape, tracks⟩ := interrupted.finishTick fresh ((interruptPoint_halted _).trans still)
          obtain rfl | rfl := shape
          · rw [List.append_nil, List.append_assoc] at tracks
            exact ⟨_, .taken, tracks⟩
          · rw [List.append_assoc, List.append_assoc] at tracks
            exact ⟨_, .both, tracks⟩
    · rw [tick_of_stop running ok]
      exact ⟨_, .idle, settled.tracks⟩

/-! ## The start and the comparison -/

theorem inStep_start (hq : s.quiet) (bkpt : s.bkpt = []) (ok : MemoryOk s) (coherent : Claims.CodeCoherent s) :
    InStep (architectural s) [] s := by
  have none : s.latches = _ := hq
  have start : AgreeAt false (squash s) (architectural s) := agreeAt_architectural ok
  have flat (a : Nat) : Past (architectural s) [] a (s.flat a) := ⟨[], [], rfl, (start.memory a).symm⟩
  refine ⟨ok, bkpt, ⟨fun ln b d hl j hj => ?_, fun ln => ?_⟩, ?_, fun _ => ?_⟩
  · rw [coherent.l1i ln b d hl j hj]
    exact flat _
  · rw [← ok.hier.flatLine_of_not_dirty (coherent.l1d ln)]
    exact lineIn_flatLine flat ln
  · exact .nothing (by rw [none]) { start.toAgree with } (cachesEmpty_architectural s)
  · refine .of_flushed (by rw [none]) (by rw [none]) (by rw [none]) ?_
    change s.pc = archPc s
    rw [archPc, oldestYounger, none]

/-- Once the instruction in MEM/WB has retired the machine agrees with the interpreter. -/
theorem InStep.sameArch (h : InStep r0 hist s) : Claims.SameArch (settled s) (refRun hist r0) := by
  obtain ⟨after, -, -⟩ := Tracks.writeback h (past_now r0 hist)
  have pc : archPc (writeback s).1 = (refRun hist r0).pc := by
    rw [archPc, after.empty]
    exact after.inFlight.oldest
  have dropped : Claims.SameArch (squash (writeback s).1) (refRun hist r0) := Agree.sameArch { after.agree with } pc
  cases hm : s.latches.memWb with
  | none =>
    have idle : writeback s = (s, false) := by rw [writeback, hm]
    rw [idle] at dropped
    rwa [settled, hm]
  | some m =>
    have run : settled s = if (writeback s).2 then (writeback s).1 else squash (writeback s).1 := by
      rw [settled, hm]
      rfl
    rw [run]
    split
    · exact after.agree.sameArch pc
    · exact dropped

theorem tickRun_snoc (triggers : List (BitVec 256)) (vs : BitVec 256) (s : State) :
    tickRun (triggers ++ [vs]) s = tick (pend vs (tickRun triggers s)) := by
  rw [tickRun, List.foldl_append]
  rfl

theorem flatMap_update {α : Type} (inputs : Nat → List α) (ins : List α) {k n : Nat} (h : k ≤ n) :
    (List.range k).flatMap (Function.update inputs n ins) = (List.range k).flatMap inputs := by
  refine List.flatMap_congr fun j hj => ?_
  have other : j ≠ n := ((List.mem_range.mp hj).trans_le h).ne
  rw [Function.update_of_ne other]

/-- After every tick of a run the machine is in step with the interpreter, which took the turns of that tick. -/
theorem exists_inputs (fresh : NeverStored r0) (start : InStep r0 [] s) (triggers : List (BitVec 256)) :
    ∃ inputs : Nat → List RefInput,
      (∀ k < triggers.length, Claims.TickInputs (triggers.getD k 0) (inputs k)) ∧
      ∀ k ≤ triggers.length, InStep r0 ((List.range k).flatMap inputs) (tickRun (triggers.take k) s) := by
  induction triggers using List.reverseRecOn with
  | nil => exact ⟨fun _ => [], nofun, fun k hk => by obtain rfl := Nat.le_zero.mp hk; exact start⟩
  | append_singleton triggers vs ih =>
    obtain ⟨inputs, shape, steps⟩ := ih
    have last := steps triggers.length le_rfl
    rw [List.take_length] at last
    obtain ⟨ins, kind, next⟩ := last.tick fresh vs
    refine ⟨Function.update inputs triggers.length ins, fun k hk => ?_, fun k hk => ?_⟩
    · rw [List.length_append, List.length_singleton] at hk
      rcases Nat.lt_succ_iff_lt_or_eq.mp hk with old | rfl
      · rw [List.getD_append _ _ _ _ old, Function.update_of_ne old.ne]
        exact shape k old
      · rw [Function.update_self, List.getD_append_right _ _ _ _ le_rfl, Nat.sub_self]
        exact kind
    · rw [List.length_append, List.length_singleton] at hk
      rcases Nat.le_succ_iff.mp hk with old | rfl
      · rw [List.take_append_of_le_length old, flatMap_update _ _ old]
        exact steps k old
      · rw [List.take_of_length_le (by simp), tickRun_snoc, List.range_succ, List.flatMap_append,
          List.flatMap_singleton, Function.update_self, flatMap_update _ _ le_rfl]
        exact next

end

end Sys2Proof.Machine

namespace Sys2Proof.Claims

open Sys2Proof.Machine

/-- Settles O49: every tick keeps the pipeline in step with the interpreter, whose turns are the instructions that pass
Memory and the interrupts delivered. -/
theorem ticksRefineReference : Obligations.TicksRefineReference := by
  intro s triggers hq bkpt ok coherent never
  obtain ⟨inputs, shape, steps⟩ := exists_inputs (fun _ => unstored_of_neverRunsStored never)
    (inStep_start hq bkpt ok coherent) triggers
  exact ⟨inputs, shape, fun k hk => (steps k hk).sameArch⟩

end Sys2Proof.Claims
end
